-- ==== Sys2Proof/Word.lean ====
section
/-! DEFINITION. Bytes, and tables of a fixed number of records. -/

namespace Sys2Proof

/-- A byte of the SPI link (R194). -/
abbrev Byte := BitVec 8

/-- A fixed number of like records, numbered from 0 (the counts of 00_scope.md). -/
abbrev Table (α : Type) (n : Nat) := Vector α n

/-- The table with record `i` replaced. -/
def setAt {α : Type} {n : Nat} (t : Table α n) (i : Fin n) (x : α) : Table α n :=
  t.set i.1 x i.2

/-- The table with record `i` changed by `f`. -/
def editAt {α : Type} {n : Nat} (t : Table α n) (i : Fin n) (f : α → α) : Table α n :=
  setAt t i (f t[i])

/-- The table with every record changed by `f`. -/
def mapAll {α β : Type} {n : Nat} (f : α → β) (t : Table α n) : Table β n :=
  ⟨(t.toList.map f).toArray, by simp⟩

/-- The table whose record `i` is made from the records `i` of two tables. -/
def zipAll {α β γ : Type} {n : Nat} (f : α → β → γ) (t : Table α n) (u : Table β n) :
    Table γ n :=
  ⟨(List.zipWith f t.toList u.toList).toArray, by simp⟩

/-- `n` equal records. -/
def allEqual {α : Type} (n : Nat) (x : α) : Table α n := Vector.replicate n x

/-- A number as a record number below `n`, if it is one. -/
def fin? (n x : Nat) : Option (Fin n) := if h : x < n then some ⟨x, h⟩ else none

/-- The twelve account slots in slot order. -/
def slots : List (Fin 12) := [0, 1, 2, 3, 4, 5, 6, 7, 8, 9, 10, 11]

/-- The six runs in order. -/
def runNumbers : List (Fin 6) := [0, 1, 2, 3, 4, 5]

/-- The eight gas-quality slots in order. -/
def qualitySlots : List (Fin 8) := [0, 1, 2, 3, 4, 5, 6, 7]

/-- The sixteen channels, monitors, terminals or cause kinds in order. -/
def sixteen : List (Fin 16) := [0, 1, 2, 3, 4, 5, 6, 7, 8, 9, 10, 11, 12, 13, 14, 15]

/-- The four injection points in order. -/
def pointNumbers : List (Fin 4) := [0, 1, 2, 3]

/-- The two pumps in order. -/
def pumpNumbers : List (Fin 2) := [0, 1]

end Sys2Proof
end

