-- ==== Sys2Proof/Syntax.lean ====
section
/-! DEFINITION. The commands: one constructor per row of spec/opcode_table.json.

OPERANDS. The rows from OPEN_ACCOUNT to READ_LEVELS and UNKNOWN_COMMAND are the executing events of requests (R196):
their operands are the payload fields of the request frame, which REQUEST_FRAME brings and the request buffer holds, so
these rows carry none of their own (the table gives none either).
Events from outside carry `elapsed`, the microseconds of the running count that have passed since the event before;
expiries need none, since their timer says when they come.
A terminal event names its terminal.
The two rows of transactions carry the bytes of a whole transaction or of a part of it, so that events may be taken while a
transaction is in progress (log 7). -/

namespace Sys2Proof

/-- What a row carries of a transaction, the interval from a fall of CS_N to its next rise (R194, log 7): all of it, or a part
of it with its content. -/
inductive Part (α : Type) where
  /-- CS_N falls, the bytes are clocked, CS_N rises. -/
  | whole (content : α)
  /-- CS_N falls and the bytes are clocked. -/
  | first (content : α)
  /-- The bytes are clocked. -/
  | next (content : α)
  /-- The bytes are clocked and CS_N rises. -/
  | last (content : α)
deriving DecidableEq, Repr

/-- What the part carries. -/
def Part.content {α : Type} : Part α → α
  | .whole content => content
  | .first content => content
  | .next content => content
  | .last content => content

/-- CS_N falls before the bytes. -/
def Part.begins {α : Type} : Part α → Bool
  | .whole _ => true
  | .first _ => true
  | .next _ => false
  | .last _ => false

/-- CS_N rises after the bytes. -/
def Part.ends {α : Type} : Part α → Bool
  | .whole _ => true
  | .first _ => false
  | .next _ => false
  | .last _ => true

/-- The commands and events of the part (spec/opcode_table.json). -/
inductive Instr where
  /-- REQUEST_FRAME (R195). The rise of CS_N ending a request transaction makes the port check the frame: a well-formed frame is accepted and the port becomes EXECUTING, any other frame gets a BAD_FRAME response with FRAME_ERROR raised. -/
  | requestFrame (bytes : Part (List Byte)) (elapsed : Nat)
  /-- FETCH (R197). A transaction whose first byte is 0x00 shifts out the held response, or BUSY or WRONG_STATE according to the port state, and changes nothing. -/
  | fetch (count : Part Nat) (elapsed : Nat)
  /-- OPEN_ACCOUNT (R7). Checks the tag, quality, point, D and priority, then opens a fresh account in the lowest FREE slot. -/
  | openAccount
  /-- FIND_ACCOUNT (R14). Returns the slot and state of the non-FREE account that holds the given tag, or NOT_FOUND. -/
  | findAccount
  /-- LIST_ACCOUNTS (R15). Returns up to five non-FREE accounts from a start slot upward, with a continuation slot. -/
  | listAccounts
  /-- READ_ACCOUNT (R16). Returns one section (CONFIG, VOLUME, ENERGY or ODOURANT) of a non-FREE account record. -/
  | readAccount
  /-- AMEND_ACCOUNT (R18). Changes any of quality, point, D and priority of an OPEN account, all at once or not at all, with the header and waiver effects of a point change. -/
  | amendAccount
  /-- ATTACH_RUN (R22). Settles any pending pulses of the run to its orphan totals, zeroes its carries and appends it to an OPEN account's run list. -/
  | attachRun
  /-- DETACH_RUN (R23). Settles any pending pulses of the run to the account, zeroes its carries and removes it from the run list. -/
  | detachRun
  /-- CLOSE_ACCOUNT (R9). Settles and detaches every run of an OPEN account and takes it to CLOSED, or to CLOSING while its stroke is in flight. -/
  | closeAccount
  /-- RELEASE_ACCOUNT (R12). Takes a CLOSED account to FREE and frees its tag. -/
  | releaseAccount
  /-- CONFIGURE_RUN (R54). Sets the configuration of a run that is not in service, and makes an UNCONFIGURED run OUT_OF_SERVICE with a default band. -/
  | configureRun
  /-- SET_BANDS (R55). Replaces the band list of a configured run whole. -/
  | setBands
  /-- PLACE_IN_SERVICE (R56). Starts pulse counting and updates for an OUT_OF_SERVICE run, resetting its measurement fields and taking its held snapshot. -/
  | placeInService
  /-- REMOVE_FROM_SERVICE (R57). Settles an IN_SERVICE run's pending pulses, then stops its counting and updates and sets its rate to 0. -/
  | removeFromService
  /-- CLEAR_RUN_TOTALS (R63). Sets a run's orphan totals, cut-off pulse count and overflow count to zero and clears its orphan-estimated flag. -/
  | clearRunTotals
  /-- READ_RUN (R64). Returns one section (CONFIG, BANDS, TIMING or TOTALS) of one run record. -/
  | readRun
  /-- POST_COMPOSITION (R70). Replaces a quality slot's record, makes it CURRENT and restarts its validity. -/
  | postComposition
  /-- RETIRE_COMPOSITION (R77). Empties a quality slot that no OPEN or CLOSING account names. -/
  | retireComposition
  /-- READ_COMPOSITION (R78). Returns a quality slot's record and its naming count. -/
  | readComposition
  /-- CONFIGURE_CHANNEL (R85). Writes a channel's five configuration fields and returns it to NO_DATA when its measurement basis changes. -/
  | configureChannel
  /-- SET_SCAN (R87). Chooses the scan trigger source and interval, and restarts or stops the interval timer. -/
  | setScan
  /-- SCAN_NOW (R93). Starts one scan at once if the scanner is IDLE; refused with BUSY while scanning and with DENIED while suspended. -/
  | scanNow
  /-- READ_CHANNEL (R96). Returns one channel's configuration and measurement. -/
  | readChannel
  /-- READ_SCAN (R97). Returns the scanner's configuration and progress. -/
  | readScan
  /-- CONFIGURE_POINT (R125). Sets a point's state and catch-up limit, waiving excess backlog where L falls and ending service at a point being disabled. -/
  | configurePoint
  /-- READ_POINT (R127). Returns one point's record with its terminals, flow condition, valve output and manual-mask membership. -/
  | readPoint
  /-- CONFIGURE_HEADER (R130). Sets the arbitration mode, burst limit, settle and pause used from the next grant. -/
  | configureHeader
  /-- MANUAL_DOSE (R138). Replaces the manual mask, starting the manual timer when service begins and stopping it when service is withdrawn. -/
  | manualDose
  /-- SET_MANUAL_TIMER (R140). Sets the manual duration used at the next start of the manual timer. -/
  | setManualTimer
  /-- READ_HEADER (R144). Returns the header state, configuration, grant, manual service, stroke record and trip sources. -/
  | readHeader
  /-- CONFIGURE_PUMP (R149). Sets the configuration of a pump that is out of duty and clears its unproven count. -/
  | configurePump
  /-- RESTORE_PUMP (R150). Returns an ISOLATED pump to STANDBY. -/
  | restorePump
  /-- ISOLATE_PUMP (R151). Takes a STANDBY or FAILED pump out of service. -/
  | isolatePump
  /-- SELECT_DUTY (R152). Makes a STANDBY pump DUTY at once if the stroke record is empty, or defers the change to the record's clearing. -/
  | selectDuty
  /-- RESET_PUMP (R155). Returns a FAILED pump to STANDBY with its unproven count cleared. -/
  | resetPump
  /-- READ_PUMP (R157). Returns one pump's record with its terminals and outputs. -/
  | readPump
  /-- CONFIGURE_MONITOR (R164). Writes a monitor's configuration, discards its timer and last value, releases any applied action, and makes it WATCHING or DISABLED. -/
  | configureMonitor
  /-- ACK_MONITOR (R170). Releases the action of a latched monitor and re-times it if its condition persists; a delay-0 monitor is left unchanged. -/
  | ackMonitor
  /-- TEST_TRIP_OUTPUT (R172). Forces the TRIP output active for a wiring test, or lifts the force. -/
  | testTripOutput
  /-- READ_MONITOR (R173). Returns one monitor's configuration, state and timing. -/
  | readMonitor
  /-- READ_MONITOR_SUMMARY (R173). Returns the states of all sixteen monitors, the test flag, the TRIP terminal and the TRIP output level. -/
  | readMonitorSummary
  /-- SET_TIME (R178). Sets device time and the time-set flag, and rolls the gas day over once if the new time lies in another gas day. -/
  | setTime
  /-- SET_GAS_DAY_HOUR (R180). Stores the gas-day hour H without making a rollover. -/
  | setGasDayHour
  /-- SET_BASE_CONDITIONS (R182). Stores the base pressure and base temperature together. -/
  | setBaseConditions
  /-- READ_TIME (R183). Returns device time, the time-set flag, H, the gas day, the time to the next boundary, the clock source and the base conditions. -/
  | readTime
  /-- SAVE (R189). Starts a save of the image, or is refused with BUSY while a save is in flight. -/
  | save
  /-- READ_SUPPLY (R190). Returns the supply state, qualification, image state and save state. -/
  | readSupply
  /-- RESET (R193). With key 0xC3 starts a warm reset and gets no response; any other key is refused with BAD_ARGUMENT. -/
  | reset
  /-- MAP_TERMINAL (R203). Gives one terminal a new function and subject, unless its present function is in use or the new one is held elsewhere. -/
  | mapTerminal
  /-- READ_TERMINALS (R204). Returns the function, subject and level of every terminal. -/
  | readTerminals
  /-- READ_ATTENTION (R207). Returns the pending cause kinds in report order from a start position. -/
  | readAttention
  /-- ACK_ATTENTION (R208). Removes the named subjects from one cause kind's subject set. -/
  | ackAttention
  /-- SET_ATTENTION_LEVEL (R209). Sets the level of one cause kind, emptying its subjects when set to 0. -/
  | setAttentionLevel
  /-- READ_LEVELS (R209). Returns the sixteen attention levels in kind order. -/
  | readLevels
  /-- PULSE_EDGE (R58). A counted edge at a run's PULSE terminal adds to pending pulses, or to the overflow count with OVERSPEED when pending is saturated, and advances period timing. -/
  | pulseEdge (terminal : Fin 16) (rising : Bool) (elapsed : Nat)
  /-- PROOF_ACTIVATION (R111). An activation of a pump's PROOF terminal resolves that pump's unresolved CLOSED_LOOP stroke as PROVEN. -/
  | proofActivation (terminal : Fin 16) (elapsed : Nat)
  /-- FLOW_DROP (R124). A point's flow condition changes from true to false, ending an account burst at that point through the end-requested flag. -/
  | flowDrop (terminal : Fin 16) (elapsed : Nat)
  /-- FLOW_RISE (R124). A point's flow condition changes from false to true and may give the header a grant decision. -/
  | flowRise (terminal : Fin 16) (elapsed : Nat)
  /-- SYNC_ACTIVATION (R87). An activation of the SYNC terminal under source SYNC is a scan trigger, which starts a scan if the scanner is IDLE or is dropped with SCAN_OVERRUN while it is scanning. -/
  | syncActivation (terminal : Fin 16) (elapsed : Nat)
  /-- STOP_IN_ACTIVE (R158). The STOP_IN terminal becoming active makes STOP join the trip source set. -/
  | stopInActive (terminal : Fin 16) (elapsed : Nat)
  /-- STOP_IN_INACTIVE (R158). The STOP_IN terminal becoming inactive makes STOP leave the trip source set. -/
  | stopInInactive (terminal : Fin 16) (elapsed : Nat)
  /-- RST_N_FALL (R193). A fall of RST_N from high to low starts a warm reset. -/
  | rstNFall (elapsed : Nat)
  /-- COLD_START (R191). When power returns, every record is restored from a VALID image or set to its defaults, and RESTART is raised. -/
  | coldStart (crystalRunning : Bool)
  /-- SUPPLY_FALL_BELOW_LOW (R184). In NORMAL, the supply falling below the low threshold starts the 5 ms LOW qualification. -/
  | supplyFallBelowLow (elapsed : Nat)
  /-- SUPPLY_RISE_TO_LOW (R184). The supply rising to or above the low threshold before the LOW qualification expires stops it. -/
  | supplyRiseToLow (elapsed : Nat)
  /-- LOW_QUALIFICATION_EXPIRY (R185). The supply enters LOW: SUPPLY joins the trip set, the scanner is suspended, SUPPLY_CHANGE is raised and a save is started. -/
  | lowQualificationExpiry
  /-- SUPPLY_RISE_TO_RECOVERY (R184). In LOW, the supply standing at or above the recovery threshold starts the 50 ms NORMAL qualification. -/
  | supplyRiseToRecovery (elapsed : Nat)
  /-- SUPPLY_FALL_BELOW_RECOVERY (R184). The supply falling below the recovery threshold before the NORMAL qualification expires stops it. -/
  | supplyFallBelowRecovery (elapsed : Nat)
  /-- NORMAL_QUALIFICATION_EXPIRY (R185). The supply returns to NORMAL: SUPPLY leaves the trip set, the scanner becomes IDLE and SUPPLY_CHANGE is raised. -/
  | normalQualificationExpiry
  /-- SUPPLY_FALL_BELOW_RESET (R186). The part stops with every output inactive, and a save in flight leaves the image invalid. -/
  | supplyFallBelowReset (elapsed : Nat)
  /-- SAVE_COMPLETION (R188). 40 ms after its start the save writes the snapshot, makes the image VALID and raises PORT_EVENT with subject SAVE_DONE. -/
  | saveCompletion
  /-- CRYSTAL_FAILURE (R181). The crystal monitor's failure event switches the source to FALLBACK with CLOCK_CHANGE, or stops a running qualification. -/
  | crystalFailure (elapsed : Nat)
  /-- CRYSTAL_RUNNING (R181). The crystal being found running again on FALLBACK starts the 2 s crystal qualification. -/
  | crystalRunning (elapsed : Nat)
  /-- CRYSTAL_QUALIFICATION_EXPIRY (R181). If the crystal is running, the source becomes CRYSTAL with CLOCK_CHANGE (except at the first qualification after a cold start); otherwise the qualification stops. -/
  | crystalQualificationExpiry (crystalRunning : Bool)
  /-- DEVICE_SECOND (R176). Device time advances by one, and every CURRENT quality slot's remaining validity decreases by one. -/
  | deviceSecond
  /-- VALIDITY_EXPIRY (R73). A CURRENT quality slot whose remaining validity reaches 0 becomes STALE and raises COMPOSITION_STALE. -/
  | validityExpiry (slot : Fin 8)
  /-- INTERVAL_EXPIRY (R87). The interval timer expires, restarts for one further interval, and triggers a scan under source INTERVAL. -/
  | intervalExpiry
  /-- CONVERSION_END (R89). A channel takes its 16-bit code, becoming LIVE with a converted value or HELD with SENSOR_HOLD, or the result is discarded if the channel is disabled. -/
  | conversionEnd (code : BitVec 16)
  /-- METERING_UPDATE (R28). A released update of one IN_SERVICE run converts its pending pulses to actual, base volume, energy, owed odourant and rate, and writes them to its owner's totals or to its orphan totals. -/
  | meteringUpdate (run : Fin 6)
  /-- MONITOR_EVALUATION (R165). A monitor evaluates a new value of its source against its threshold and clear level, and may start timing, trip or clear. -/
  | monitorEvaluation (monitor : Fin 16)
  /-- DELAY_EXPIRY (R167). A TIMING monitor's delay expires and it trips if its last value meets the condition, and otherwise becomes WATCHING. -/
  | delayExpiry (monitor : Fin 16)
  /-- SETTLE_EXPIRY (R133). At the settle expiry the stroke-start test either starts the first stroke and the header becomes STROKING, or fails and the header becomes CLOSING. -/
  | settleExpiry
  /-- ON_TIME_EXPIRY (R110). The drive output becomes inactive and the stroke phase leaves DRIVE; an uncut OPEN_LOOP stroke is resolved as PROVEN. -/
  | onTimeExpiry
  /-- PROOF_WINDOW_EXPIRY (R112). An unresolved stroke is resolved as UNPROVEN, or as UNPROVEN_NO_PENALTY if its drive was cut. -/
  | proofWindowExpiry
  /-- SPACING_EXPIRY (R115). The spacing-passed flag is set, and the stroke record is cleared if the on-time has expired and the stroke is resolved. -/
  | spacingExpiry
  /-- PAUSE_EXPIRY (R137). The grant is discarded, the header becomes IDLE, and a grant decision follows if allowed. -/
  | pauseExpiry
  /-- MANUAL_TIMER_EXPIRY (R139). The manual mask becomes empty and MANUAL_DOSE_END is raised. -/
  | manualTimerExpiry
  /-- UNKNOWN_COMMAND (R196). An accepted request whose command number the part does not know is executed by answering UNKNOWN_COMMAND, changing nothing, and the port completes to RESPONSE_READY. -/
  | unknownCommand
deriving DecidableEq, Repr

end Sys2Proof
end

