-- ==== Sys2Proof/Decode.lean ====
section
/-! DEFINITION. The decoder over the table's bits: no row of spec/opcode_table.json gives bits, so no word spells a command.
The frames of the SPI link are decoded in Machine/Operands.lean (R195, R200). -/

namespace Sys2Proof

/-- No row of the table gives bits. -/
def decodeTableWord (_nbits _w : Nat) : Option Instr := none

end Sys2Proof
end

