-- ==== Sys2Proof/Config.lean ====
section
/-! DEFINITION. The fixed numbers of the manual: ranges, durations, defaults. The manual leaves no value open, so there is no free value here. -/

namespace Sys2Proof.Config

/-- Volume totals: nano-m³ in a whole m³ (00, Whole-plus-fraction totals). -/
def volumeUnit : Nat := 1000000000
/-- Energy totals: µJ in a whole MJ (00, Whole-plus-fraction totals). -/
def energyUnit : Nat := 1000000000000
/-- The whole part of a total wraps here (R3, R42). -/
def wholeWrap : Nat := 1000000000000
/-- The greatest odourant mass (R4). -/
def maxMass : Nat := 18446744073709551615
/-- Counts of 32 bits wrap here (R52, R148, R176). -/
def wrap32 : Nat := 4294967296
/-- The greatest rate and the greatest Δt (R31, R41). -/
def max32 : Nat := 4294967295
/-- Pending pulses stay here (R58). -/
def maxPending : Nat := 65535
/-- Periods and gaps saturate here, in µs (R59, R60). -/
def maxPeriod : Nat := 67108863
/-- The frequency estimate saturates here, in mHz (R60). -/
def maxFrequency : Nat := 10000000
/-- µs of the running count in one ms (R176). -/
def usPerMs : Nat := 1000
/-- µs of the running count in one second (R176). -/
def usPerSecond : Nat := 1000000
/-- One conversion takes 2 ms (R88). -/
def conversionUs : Nat := 2000
/-- The valid window of codes (R89). -/
def codeLow : Nat := 9830
/-- The valid window of codes (R89). -/
def codeHigh : Nat := 57343
/-- The LOW qualification, in ms (R184). -/
def lowQualification : Nat := 5
/-- The NORMAL qualification, in ms (R184). -/
def normalQualification : Nat := 50
/-- A save takes 40 ms (R188). -/
def saveDuration : Nat := 40
/-- The crystal qualification, in ms (R181). -/
def crystalQualification : Nat := 2000
/-- Seconds in a gas day (R179). -/
def daySeconds : Nat := 86400
/-- Seconds in an hour (R179). -/
def hourSeconds : Nat := 3600
/-- The key of RESET (R193). -/
def resetKey : Byte := 0xC3#8
/-- The longest request or response payload (R200). -/
def maxPayload : Nat := 60
/-- The single subject ALL (R205). -/
def subjectAll : Nat := 255
/-- A record number that is absent, or none, on the link (R201). -/
def absent : Nat := 255
/-- A MANUAL beneficiary on the link (R201). -/
def manual : Nat := 254

end Sys2Proof.Config
end

