-- ==== Sys2Proof/Machine/State.lean ====
section
/-! DEFINITION. The state of the part, block by block as 00_scope.md lists the blocks, and the state after reset.
Enumerations list their values in the order in which the manual lists them, which is the order of their link codes (R201).
A time is a value of the running microsecond count; a timer is its expiry time, or none when it is stopped. -/

namespace Sys2Proof.Machine

/-! ### Accounts (01_custody_accounts.md) -/

/-- Account states (R1): FREE, OPEN, CLOSING, CLOSED. -/
inductive AccountState where
  | free | opened | closing | closed
deriving DecidableEq, Repr

/-- A whole-plus-fraction total (00, Whole-plus-fraction totals). -/
structure Total where
  whole : Nat
  fraction : Nat
deriving DecidableEq, Repr

/-- The zero total. -/
def Total.zero : Total := ⟨0, 0⟩

/-- The previous-day figures, present together (R3). -/
structure PreviousDay where
  base : Total
  energy : Total
deriving DecidableEq, Repr

/-- One account record (R1 to R5). The backlog is computed, not stored (R100). -/
structure Account where
  state : AccountState
  tag : List Byte
  runs : List (Fin 6)
  quality : Fin 8
  /-- `none` is the absent point (R2). -/
  point : Option (Fin 4)
  /-- The dose rate D (R2). -/
  dose : Nat
  priority : Nat
  actual : Total
  base : Total
  estimated : Total
  energy : Total
  dayBase : Total
  dayEnergy : Total
  previousDay : Option PreviousDay
  owed : Nat
  credited : Nat
  waived : Nat
  reserved : Nat
  /-- The odourant carry (R4). -/
  carry : Nat
  openTime : Nat
  closeTime : Option Nat
  estimatedNow : Bool
deriving DecidableEq, Repr

/-- A FREE slot: no field but the state is present (R1, R12). -/
def Account.free : Account :=
  { state := .free, tag := [], runs := [], quality := 0, point := none, dose := 0, priority := 0,
    actual := .zero, base := .zero, estimated := .zero, energy := .zero, dayBase := .zero,
    dayEnergy := .zero, previousDay := none, owed := 0, credited := 0, waived := 0, reserved := 0,
    carry := 0, openTime := 0, closeTime := none, estimatedNow := false }

/-! ### Runs (03_meter_runs_and_pulse_timing.md) -/

/-- Run states (R50). -/
inductive RunState where
  | unconfigured | outOfService | inService
deriving DecidableEq, Repr

/-- Which transitions count as pulses (R51). -/
inductive PulseEdge where
  | rising | falling | both
deriving DecidableEq, Repr

/-- A band: upper frequency limit and meter factor (R33, R51). -/
structure Band where
  limit : Nat
  factor : Nat
deriving DecidableEq, Repr

/-- A run's configuration (R51). -/
structure RunConfig where
  /-- The pulse weight W. -/
  weight : Nat
  pChannel : Fin 16
  tChannel : Fin 16
  edge : PulseEdge
  /-- The no-flow timeout, in s. -/
  noFlow : Nat
  /-- The overspeed frequency, in mHz. -/
  overspeed : Nat
  /-- The cutoff frequency fc, in mHz. -/
  cutoff : Nat
  bands : List Band
deriving DecidableEq, Repr

/-- Line conditions with their substitution flags: a held snapshot (R30). -/
structure Held where
  p : Nat
  t : Nat
  pSubstituted : Bool
  tSubstituted : Bool
deriving DecidableEq, Repr

/-- One run record (R51 to R53). The owner is computed from the accounts (R53). -/
structure Run where
  state : RunState
  config : RunConfig
  pendingPulses : Nat
  overflow : Nat
  /-- 0, 1, or 2 standing for two or more (R52). -/
  edgeCount : Nat
  /-- The time of the last edge; `none` once discarded (R56, R57, R67). -/
  lastEdge : Option Nat
  lastPeriod : Nat
  /-- The frequency estimate f. -/
  frequency : Nat
  /-- The rate q. -/
  rate : Nat
  aboveOverspeed : Bool
  cutoffPulses : Nat
  /-- ms on the running millisecond count; `none` when absent (R52). -/
  lastUpdate : Option Nat
  held : Held
  orphanActual : Total
  orphanBase : Total
  orphanEstimated : Bool
  /-- ca (R48). -/
  actualCarry : Nat
  /-- cb (R48). -/
  baseCarry : Nat
deriving DecidableEq, Repr

/-- Every configuration field zero, no bands (R66). -/
def RunConfig.zero : RunConfig :=
  { weight := 0, pChannel := 0, tChannel := 0, edge := .rising, noFlow := 0, overspeed := 0,
    cutoff := 0, bands := [] }

/-- P 0 and T 0 with both substitution flags clear (R66). -/
def Held.zero : Held := { p := 0, t := 0, pSubstituted := false, tSubstituted := false }

/-- An UNCONFIGURED run after a cold start without a valid image (R66). -/
def Run.unconfigured : Run :=
  { state := .unconfigured, config := .zero, pendingPulses := 0, overflow := 0, edgeCount := 0,
    lastEdge := none, lastPeriod := 0, frequency := 0, rate := 0, aboveOverspeed := false,
    cutoffPulses := 0, lastUpdate := none, held := .zero, orphanActual := .zero,
    orphanBase := .zero, orphanEstimated := false, actualCarry := 0, baseCarry := 0 }

/-- A metering update that a scan completion has released and that has not been taken yet, with the line conditions of its
run as that scan left them (R28, R30, R91). -/
structure Released where
  run : Fin 6
  held : Held
deriving DecidableEq, Repr

/-! ### Gas quality (04_gas_quality_records.md) -/

/-- Quality slot states (R68). -/
inductive QualityState where
  | empty | current | stale
deriving DecidableEq, Repr

/-- One quality slot (R69). -/
structure Quality where
  state : QualityState
  tag : List Byte
  /-- The heating value HV. -/
  heating : Nat
  /-- The pressure slope A. -/
  slopeA : Nat
  /-- The temperature slope B. -/
  slopeB : Nat
  /-- In minutes. -/
  validity : Nat
  /-- In seconds. -/
  remaining : Nat
  posted : Nat
deriving DecidableEq, Repr

/-- An EMPTY slot: every field reads zero, the tag as eight bytes of value 0 (R69, R78). -/
def Quality.none : Quality :=
  { state := .empty, tag := [0, 0, 0, 0, 0, 0, 0, 0], heating := 0, slopeA := 0, slopeB := 0,
    validity := 0, remaining := 0, posted := 0 }

/-! ### Analog scanner (05_analog_scanning_and_held_values.md) -/

/-- Channel states (R81). -/
inductive ChannelState where
  | noData | live | held
deriving DecidableEq, Repr

/-- Channel kinds (R82). -/
inductive ChannelKind where
  | pressure | temperature | level
deriving DecidableEq, Repr

/-- A channel's configuration (R82). -/
structure ChannelConfig where
  enabled : Bool
  kind : ChannelKind
  lo : Nat
  hi : Nat
  fallback : Nat
deriving DecidableEq, Repr

/-- One channel (R81 to R83). -/
structure Channel where
  config : ChannelConfig
  state : ChannelState
  code : BitVec 16
  value : Nat
  liveSeen : Bool
deriving DecidableEq, Repr

/-- A channel in NO_DATA with its fallback and no code yet (R98). -/
def Channel.fresh (c : ChannelConfig) : Channel :=
  { config := c, state := .noData, code := 0, value := c.fallback, liveSeen := false }

/-- The channel configuration after a cold start without a valid image (R98). -/
def ChannelConfig.default : ChannelConfig :=
  { enabled := false, kind := .level, lo := 0, hi := 1000, fallback := 0 }

/-- Scan states (R86). -/
inductive ScanState where
  | idle | scanning | suspended
deriving DecidableEq, Repr

/-- Trigger sources (R86). -/
inductive TriggerSource where
  | sync | interval | command
deriving DecidableEq, Repr

/-- What the scan result holds of one channel (R86, R91). -/
structure ScanPoint where
  value : Nat
  state : ChannelState
deriving DecidableEq, Repr

/-- The scanner besides its channels (R86). -/
structure Scan where
  state : ScanState
  source : TriggerSource
  /-- In ms. -/
  interval : Nat
  /-- The interval timer (R87). -/
  timer : Option Nat
  /-- The channels of the scan in flight, in ascending order (R88). -/
  list : List (Fin 16)
  /-- Conversions done. -/
  done : Nat
  /-- When the conversion in progress ends (R88); 0 with no scan in flight. -/
  conversionEnd : Nat
  /-- The completed scan count. -/
  count : Nat
  result : Table ScanPoint 16
deriving DecidableEq, Repr

/-! ### Strokes (06_odourant_obligation_and_strokes.md) -/

/-- Whom a grant or a stroke serves (R108, R129). -/
inductive Beneficiary where
  | account (slot : Fin 12)
  | manual
deriving DecidableEq, Repr

/-- Proof modes (R108). -/
inductive ProofMode where
  | closedLoop | openLoop
deriving DecidableEq, Repr

/-- Stroke phases (R108). -/
inductive Phase where
  | drive | proofWait | recover
deriving DecidableEq, Repr

/-- Stroke resolutions (R108). -/
inductive Resolution where
  | unresolved | proven | unproven | unprovenNoPenalty
deriving DecidableEq, Repr

/-- The stroke in the stroke record (R108). -/
structure Stroke where
  pump : Fin 2
  point : Fin 4
  beneficiary : Beneficiary
  /-- The stroke mass S, copied from the pump. -/
  mass : Nat
  onTime : Nat
  window : Nat
  spacing : Nat
  mode : ProofMode
  /-- The drive start, as a time of the running microsecond count. -/
  start : Nat
  phase : Phase
  resolution : Resolution
  driveCut : Bool
  spacingPassed : Bool
deriving DecidableEq, Repr

/-! ### Injection header (07_injection_header_and_manual_dosing.md) -/

/-- Point states (R123). -/
inductive PointState where
  | disabled | enabled
deriving DecidableEq, Repr

/-- One injection point (R123). -/
structure Point where
  state : PointState
  /-- The catch-up limit L. -/
  limit : Nat
  manualTotal : Nat
deriving DecidableEq, Repr

/-- A point after a cold start without a valid image (R145). -/
def Point.default : Point := { state := .disabled, limit := 1000000, manualTotal := 0 }

/-- Header states (R128). -/
inductive HeaderState where
  | idle | opening | stroking | closing | tripped
deriving DecidableEq, Repr

/-- Arbitration modes (R129). -/
inductive Mode where
  | fixed | rotating
deriving DecidableEq, Repr

/-- The header's configuration (R129). -/
structure HeaderConfig where
  mode : Mode
  burstLimit : Nat
  settle : Nat
  pause : Nat
deriving DecidableEq, Repr

/-- FIXED, 8, 500 ms, 500 ms (R145). -/
def HeaderConfig.default : HeaderConfig :=
  { mode := .fixed, burstLimit := 8, settle := 500, pause := 500 }

/-- The grant record (R129). -/
structure Grant where
  beneficiary : Beneficiary
  point : Fin 4
  strokes : Nat
  endRequested : Bool
  burstLimit : Nat
  settle : Nat
  pause : Nat
deriving DecidableEq, Repr

/-- The header besides its points (R128, R129). -/
structure Header where
  state : HeaderState
  config : HeaderConfig
  /-- In s. -/
  manualDuration : Nat
  grant : Option Grant
  /-- The settle or pause timer. -/
  timer : Option Nat
  /-- The manual mask, its points in ascending order. -/
  mask : List (Fin 4)
  manualTimer : Option Nat
  rotation : Fin 12
  manualPointer : Fin 4
deriving DecidableEq, Repr

/-! ### Pumps and trip sources (08_pumps_and_header_trips.md) -/

/-- Pump states (R147). -/
inductive PumpState where
  | isolated | standby | duty | failed
deriving DecidableEq, Repr

/-- A pump's configuration (R148). -/
structure PumpConfig where
  /-- The stroke mass S. -/
  mass : Nat
  onTime : Nat
  window : Nat
  spacing : Nat
  failureLimit : Nat
deriving DecidableEq, Repr

/-- One pump record (R148). -/
structure Pump where
  state : PumpState
  config : PumpConfig
  /-- Unproven count. -/
  unproven : Nat
  /-- Stray proof count. -/
  stray : Nat
  /-- Stroke count. -/
  strokes : Nat
deriving DecidableEq, Repr

/-- A pump after a cold start without a valid image (R160). -/
def Pump.default : Pump :=
  { state := .isolated,
    config := { mass := 10000, onTime := 100, window := 500, spacing := 1000, failureLimit := 3 },
    unproven := 0, stray := 0, strokes := 0 }

/-- The trip source set (R158): each member is present or not. -/
structure TripSet where
  stop : Bool
  supply : Bool
  monitors : Table Bool 16
deriving DecidableEq, Repr

/-- The empty trip source set. -/
def TripSet.none : TripSet := { stop := false, supply := false, monitors := allEqual 16 false }

/-! ### Monitors (09_limit_monitors_and_trip_output.md) -/

/-- Monitor states (R163). -/
inductive MonitorState where
  | disabled | watching | timing | tripped
deriving DecidableEq, Repr

/-- What a monitor watches (R164). -/
inductive Source where
  | channel (c : Fin 16)
  | rate (r : Fin 6)
deriving DecidableEq, Repr

/-- The direction in which a value is beyond the threshold (R164). -/
inductive Sense where
  | high | low
deriving DecidableEq, Repr

/-- What a monitor does while TRIPPED (R164). -/
inductive Action where
  | attentionOnly | headerTrip | tripOutput
deriving DecidableEq, Repr

/-- A monitor's configuration (R164). -/
structure MonitorConfig where
  enabled : Bool
  source : Source
  sense : Sense
  threshold : Nat
  clearLevel : Nat
  /-- In ms. -/
  delay : Nat
  action : Action
deriving DecidableEq, Repr

/-- The configuration after a cold start without a valid image (R174). -/
def MonitorConfig.default : MonitorConfig :=
  { enabled := false, source := .channel 0, sense := .high, threshold := 0, clearLevel := 0,
    delay := 0, action := .attentionOnly }

/-- One monitor (R163, R164). -/
structure Monitor where
  state : MonitorState
  config : MonitorConfig
  last : Option Nat
  /-- The delay timer. -/
  timer : Option Nat
deriving DecidableEq, Repr

/-- A monitor as it starts with a configuration: WATCHING if enabled, DISABLED if not, last value absent, no timer (R164,
R174). -/
def Monitor.start (c : MonitorConfig) : Monitor :=
  { state := if c.enabled then .watching else .disabled, config := c, last := none, timer := none }

/-- An evaluation that a new value has given a monitor and that has not been taken yet (R165). -/
structure DueValue where
  monitor : Fin 16
  value : Nat
deriving DecidableEq, Repr

/-! ### Attention and terminals (11_command_port_terminals_and_attention.md) -/

/-- Cause kinds, in their fixed order (R205). -/
inductive CauseKind where
  | restart | supplyChange | headerTrip | pumpFailed | underdose | monitorTrip | sensorHold
  | compositionStale | orphanFlow | overspeed | clockChange | scanOverrun | manualDoseEnd
  | accountClosed | gasDayEnd | portEvent
deriving DecidableEq, Repr

/-- One cause kind's level and subject set, its subjects in ascending order (R205). -/
structure Cause where
  level : Nat
  subjects : List Nat
deriving DecidableEq, Repr

/-- A terminal's function with its subject (R202). -/
inductive TerminalFunction where
  | none
  | pulse (run : Fin 6)
  | drive (pump : Fin 2)
  | proof (pump : Fin 2)
  | valve (point : Fin 4)
  | flowsw (point : Fin 4)
  | sync
  | stopIn
  | trip
deriving DecidableEq, Repr

/-! ### Command port (11_command_port_terminals_and_attention.md) -/

/-- Port states (R195). -/
inductive PortState where
  | idle | executing | responseReady
deriving DecidableEq, Repr

/-- An accepted request: its command number and payload (R200). -/
structure Request where
  number : Byte
  payload : List Byte
deriving DecidableEq, Repr

/-- Response statuses, in the order of their codes (R200). -/
inductive Status where
  | ok | busy | badFrame | unknownCommand | badArgument | notFound | exists | inUse | wrongState
  | tableFull | conflict | denied
deriving DecidableEq, Repr

/-- A response frame, before its CRC (R200). `discarded` is bit 7 of the status byte. -/
structure Response where
  status : Status
  discarded : Bool
  payload : List Byte
deriving DecidableEq, Repr

/-- The transaction in progress on the link (R194, R199). -/
inductive Link where
  /-- None: CS_N is high. -/
  | high
  /-- The complete bytes so far; while there are none the kind of the transaction is open. -/
  | receiving (bytes : List Byte)
  /-- A FETCH, and what is left of its frame once its second byte has been clocked (R197). -/
  | fetching (rest : Option (List Byte))
  /-- Ended for the part by a warm reset, while CS_N is still low. -/
  | ended
deriving DecidableEq, Repr

/-- The Command Port (R195). -/
structure Port where
  state : PortState
  request : Option Request
  response : Option Response
  discard : Bool
  link : Link
  /-- The bytes shifted out in the latest transaction: all of them for a request, those after the first for a FETCH (R194). -/
  miso : List Byte
deriving DecidableEq, Repr

/-- The port after a cold start: IDLE, no response, discard clear (R199). -/
def Port.start : Port :=
  { state := .idle, request := none, response := none, discard := false, link := .high, miso := [] }

/-! ### Station clock, supply and image (10_station_time_supply_and_the_stored_image.md) -/

/-- Clock sources (R181). -/
inductive ClockSource where
  | crystal | fallback
deriving DecidableEq, Repr

/-- The Station Clock besides the running count (R176 to R182). -/
structure Clock where
  deviceTime : Nat
  timeSet : Bool
  /-- The gas-day hour H. -/
  hour : Nat
  source : ClockSource
  /-- The crystal qualification. -/
  qualification : Option Nat
  /-- The qualification running is the first after the cold start (R181). -/
  firstQualification : Bool
  /-- When the next device second comes (R176). -/
  nextSecond : Nat
  /-- P_b (R182). -/
  basePressure : Nat
  /-- T_b (R182). -/
  baseTemperature : Nat
deriving DecidableEq, Repr

/-- What the image holds of a run (R187). -/
structure RunImage where
  state : RunState
  config : RunConfig
  orphanActual : Total
  orphanBase : Total
  orphanEstimated : Bool
deriving DecidableEq, Repr

/-- One snapshot of the items of R187. -/
structure Image where
  accounts : Table Account 12
  runs : Table RunImage 6
  quality : Table Quality 8
  channels : Table ChannelConfig 16
  source : TriggerSource
  interval : Nat
  monitors : Table MonitorConfig 16
  header : HeaderConfig
  manualDuration : Nat
  points : Table Point 4
  pumps : Table Pump 2
  terminals : Table TerminalFunction 16
  levels : Table Nat 16
  deviceTime : Nat
  hour : Nat
  basePressure : Nat
  baseTemperature : Nat
deriving DecidableEq, Repr

/-- Supply states (R184). -/
inductive SupplyState where
  | normal | low
deriving DecidableEq, Repr

/-- A save in flight: the snapshot it writes and when it started (R188). -/
structure Save where
  snapshot : Image
  start : Nat
deriving DecidableEq, Repr

/-- The Supply and Image block (R184, R187, R188). -/
structure Supply where
  state : SupplyState
  /-- The LOW qualification in NORMAL, the NORMAL qualification in LOW. -/
  qualification : Option Nat
  /-- VALID with its snapshot, or INVALID (`none`). -/
  image : Option Image
  /-- SAVING, or IDLE (`none`). -/
  save : Option Save
deriving DecidableEq, Repr

/-! ### The whole part -/

/-- Why a command stops the machine. Nothing does: the manual answers every command it refuses with a status, a next state. -/
inductive Fault where
deriving DecidableEq, Repr

/-- Why a command has no meaning here. -/
inductive Refusal where
  /-- Raised by an arm of exec whose command has no meaning yet; safe. No arm raises it. -/
  | notModelled (mnemonic : String)
deriving DecidableEq, Repr

/-- The state of the part and the queue of commands that wait. -/
structure State where
  /-- The supply stands above the reset threshold (R186); while it does not, no event is taken. -/
  powered : Bool
  /-- The running microsecond count; the running millisecond count is its floor by 1,000 (R176). -/
  now : Nat
  port : Port
  accounts : Table Account 12
  runs : Table Run 6
  /-- Released metering updates not yet taken, oldest first (R28). -/
  released : List Released
  quality : Table Quality 8
  channels : Table Channel 16
  scan : Scan
  /-- The stroke record (R108). -/
  stroke : Option Stroke
  points : Table Point 4
  header : Header
  pumps : Table Pump 2
  /-- The pending duty field (R148). -/
  pendingDuty : Option (Fin 2)
  trips : TripSet
  monitors : Table Monitor 16
  /-- Monitor evaluations not yet taken, oldest first (R165). -/
  dueValues : List DueValue
  /-- The trip output test flag (R172). -/
  tripTest : Bool
  causes : Table Cause 16
  terminals : Table TerminalFunction 16
  /-- The level applied from outside at each terminal, high or low (R202). -/
  levels : Table Bool 16
  clock : Clock
  supply : Supply
  /-- The commands that wait, first in first out. -/
  pending : List Instr
deriving DecidableEq, Repr

/-- Levels of the cause kinds without an image: 2, RESTART 3, PORT_EVENT 1 (R192, R206). -/
def defaultLevels : Table Nat 16 := #v[3, 2, 2, 2, 2, 2, 2, 2, 2, 2, 2, 2, 2, 2, 2, 1]

/-- The part right after a cold start without a valid image (R192), with an empty queue. The levels at the terminals are low
and the crystal is running: DESIGN CHOICE, log 5 (they are inputs). -/
def State.reset : State :=
  { powered := true
    now := 0
    port := .start
    accounts := allEqual 12 .free
    runs := allEqual 6 .unconfigured
    released := []
    quality := allEqual 8 .none
    channels := allEqual 16 (.fresh .default)
    scan :=
      { state := .idle, source := .interval, interval := 1000, timer := some 1000000, list := [],
        done := 0, conversionEnd := 0, count := 0,
        result := allEqual 16 { value := 0, state := .noData } }
    stroke := none
    points := allEqual 4 .default
    header :=
      { state := .idle, config := .default, manualDuration := 300, grant := none, timer := none,
        mask := [], manualTimer := none, rotation := 11, manualPointer := 3 }
    pumps := allEqual 2 .default
    pendingDuty := none
    trips := .none
    monitors := allEqual 16 (.start .default)
    dueValues := []
    tripTest := false
    causes :=
      setAt (mapAll (fun l => { level := l, subjects := [] }) defaultLevels) 0
        { level := 3, subjects := [1] }
    terminals := allEqual 16 .none
    levels := allEqual 16 false
    clock :=
      { deviceTime := 0, timeSet := false, hour := 6, source := .fallback,
        qualification := some 2000000, firstQualification := true, nextSecond := 1000000,
        basePressure := 101325, baseTemperature := 288150 }
    supply := { state := .normal, qualification := none, image := none, save := none }
    pending := [] }

end Sys2Proof.Machine
end

