-- ==== Sys2Proof/Machine/Operands.lean ====
section
/-! DEFINITION. The operand forms: the frames of the link with their CRC, the payload fields of requests and responses, and
the codes of the enumerations (R195, R200, R201). -/

namespace Sys2Proof.Machine

/-! ### Bytes and numbers -/

/-- The number that bytes spell, most significant byte first (00, Byte order and text). -/
def be (bytes : List Byte) : Nat := bytes.foldl (fun n b => n * 256 + b.toNat) 0

/-- The `width` bytes of a number, most significant byte first. -/
def toBytes : Nat → Nat → List Byte
  | 0, _ => []
  | width + 1, n => BitVec.ofNat 8 (n / 256 ^ width) :: toBytes width n

/-- A signed number in two's complement on `width` bytes (00, Numbers). -/
def toSignedBytes (width : Nat) (n : Int) : List Byte := toBytes width (n % (256 ^ width : Nat)).toNat

/-- A payload cut into fields of the given widths; none if its length does not match the fields (R196). -/
def fields : List Nat → List Byte → Option (List (List Byte))
  | [], [] => some []
  | [], _ :: _ => none
  | w :: ws, bytes =>
    if bytes.length < w then none
    else (fields ws (bytes.drop w)).map (bytes.take w :: ·)

/-- `count` fields of the same widths (the entries of a list, R201). -/
def entries (widths : List Nat) : Nat → List Byte → Option (List (List (List Byte)))
  | 0, [] => some []
  | 0, _ :: _ => none
  | n + 1, bytes =>
    match fields widths (bytes.take widths.sum) with
    | none => none
    | some entry => (entries widths n (bytes.drop widths.sum)).map (entry :: ·)

/-! ### Frames -/

/-- One bit step of the CRC with the polynomial x⁸ + x² + x + 1 (R195). -/
def crcBit (c : Byte) : Byte := if c.msb then (c <<< 1) ^^^ 0x07#8 else c <<< 1

/-- The CRC after one more byte (R195). -/
def crcByte (c b : Byte) : Byte :=
  crcBit (crcBit (crcBit (crcBit (crcBit (crcBit (crcBit (crcBit (c ^^^ b))))))))

/-- The CRC-8 of bytes, initial value 0, without reflection and without a final inversion (R195). -/
def crc8 (bytes : List Byte) : Byte := bytes.foldl crcByte 0

/-- Bytes with their CRC-8 after them. -/
def withCrc (bytes : List Byte) : List Byte := bytes ++ [crc8 bytes]

/-- The code of a status (R200). -/
def Status.code : Status → Nat
  | .ok => 0 | .busy => 1 | .badFrame => 2 | .unknownCommand => 3 | .badArgument => 4
  | .notFound => 5 | .exists => 6 | .inUse => 7 | .wrongState => 8 | .tableFull => 9
  | .conflict => 10 | .denied => 11

/-- The bytes of a response frame: status byte, length, payload, CRC-8 (R200). -/
def Response.frame (r : Response) : List Byte :=
  withCrc (BitVec.ofNat 8 (r.status.code + if r.discarded then 128 else 0)
    :: BitVec.ofNat 8 r.payload.length :: r.payload)

/-- The bytes of a request frame: command number, length, payload, CRC-8 (R200). -/
def Request.frame (r : Request) : List Byte :=
  withCrc (r.number :: BitVec.ofNat 8 r.payload.length :: r.payload)

/-- The request that the bytes of a transaction hold, if they are a well-formed frame (R195): the length at most 60, exactly
length + 3 bytes, and the last byte the CRC-8 of those before it. -/
def requestOf (bytes : List Byte) : Option Request :=
  match bytes with
  | number :: length :: rest =>
    if length.toNat ≤ Config.maxPayload ∧ bytes.length = length.toNat + 3
        ∧ bytes.getLast? = some (crc8 bytes.dropLast)
    then some { number := number, payload := rest.take length.toNat }
    else none
  | _ => none

/-- The command numbers that the part knows as requests (R201). -/
def knownCommands : List Byte :=
  [0x10, 0x11, 0x12, 0x13, 0x14, 0x15, 0x16, 0x17, 0x18, 0x20, 0x21, 0x22, 0x23, 0x24, 0x25,
   0x28, 0x29, 0x2A, 0x30, 0x31, 0x32, 0x33, 0x34, 0x40, 0x41, 0x42, 0x43, 0x44, 0x45, 0x48,
   0x49, 0x4A, 0x4B, 0x4C, 0x4D, 0x50, 0x51, 0x52, 0x53, 0x54, 0x60, 0x61, 0x62, 0x63, 0x64,
   0x65, 0x66, 0x70, 0x71, 0x72, 0x73, 0x74, 0x75]

/-! ### Request fields -/

/-- A tag: 8 bytes, each from 0x20 to 0x7E (R6). -/
def printable (tag : List Byte) : Bool :=
  tag.length == 8 && tag.all (fun b => 0x20 ≤ b.toNat && b.toNat ≤ 0x7E)

/-- A flag field: 0 clear, 1 set (R201); any other value is refused, which the spec does not say (PRESUMED, log 10). -/
def flag? : Nat → Option Bool
  | 0 => some false
  | 1 => some true
  | _ => none

/-- A point field that may be absent, as 255 (R2, R201). -/
def point? (n : Nat) : Option (Option (Fin 4)) :=
  if n = Config.absent then some none else (fin? 4 n).map some

/-- The code of a pulse edge (R201). -/
def edge? : Nat → Option PulseEdge
  | 0 => some .rising | 1 => some .falling | 2 => some .both | _ => none

/-- The code of a channel kind (R201). -/
def kind? : Nat → Option ChannelKind
  | 0 => some .pressure | 1 => some .temperature | 2 => some .level | _ => none

/-- The code of a trigger source (R201). -/
def trigger? : Nat → Option TriggerSource
  | 0 => some .sync | 1 => some .interval | 2 => some .command | _ => none

/-- The code of a point state (R201). -/
def pointState? : Nat → Option PointState
  | 0 => some .disabled | 1 => some .enabled | _ => none

/-- The code of an arbitration mode (R201). -/
def mode? : Nat → Option Mode
  | 0 => some .fixed | 1 => some .rotating | _ => none

/-- A monitor source: its kind, then its number (R201). -/
def source? (kind number : Nat) : Option Source :=
  match kind with
  | 0 => (fin? 16 number).map .channel
  | 1 => (fin? 6 number).map .rate
  | _ => none

/-- The code of a sense (R201). -/
def sense? : Nat → Option Sense
  | 0 => some .high | 1 => some .low | _ => none

/-- The code of a monitor action (R201). -/
def action? : Nat → Option Action
  | 0 => some .attentionOnly | 1 => some .headerTrip | 2 => some .tripOutput | _ => none

/-- A terminal function code with its subject, in the subject's range (R202). -/
def function? (code subject : Nat) : Option TerminalFunction :=
  match code with
  | 0 => if subject = 0 then some .none else none
  | 1 => (fin? 6 subject).map .pulse
  | 2 => (fin? 2 subject).map .drive
  | 3 => (fin? 2 subject).map .proof
  | 4 => (fin? 4 subject).map .valve
  | 5 => (fin? 4 subject).map .flowsw
  | 6 => if subject = 0 then some .sync else none
  | 7 => if subject = 0 then some .stopIn else none
  | 8 => if subject = 0 then some .trip else none
  | _ => none

/-! ### Response fields -/

/-- A flag on the link (R201). -/
def flagByte (b : Bool) : List Byte := [if b then 1 else 0]

/-- A one-byte number on the link. -/
def byte (n : Nat) : List Byte := toBytes 1 n

/-- A record number that may be none, as 255 (R201). -/
def numberOrNone {n : Nat} : Option (Fin n) → List Byte
  | none => byte Config.absent
  | some i => byte i.1

/-- A volume total: 5 bytes whole, 4 bytes fraction (R201). -/
def volumeBytes (t : Total) : List Byte := toBytes 5 t.whole ++ toBytes 4 t.fraction

/-- An energy total: 5 bytes whole, 5 bytes fraction (R201). -/
def energyBytes (t : Total) : List Byte := toBytes 5 t.whole ++ toBytes 5 t.fraction

/-- A field preceded by a presence indicator: zero value when absent (R201). -/
def presentBytes (width : Nat) : Option Nat → List Byte
  | none => flagByte false ++ toBytes width 0
  | some n => flagByte true ++ toBytes width n

/-- A list or set of one-byte members: a count byte, then the members in order (R201). -/
def listBytes (members : List Nat) : List Byte := byte members.length ++ members.flatMap byte

/-- The code of an account state (R1, R201). -/
def AccountState.code : AccountState → Nat
  | .free => 0 | .opened => 1 | .closing => 2 | .closed => 3

/-- The code of a run state (R50, R201). -/
def RunState.code : RunState → Nat
  | .unconfigured => 0 | .outOfService => 1 | .inService => 2

/-- The code of a pulse edge (R51, R201). -/
def PulseEdge.code : PulseEdge → Nat
  | .rising => 0 | .falling => 1 | .both => 2

/-- The code of a quality state (R68, R201). -/
def QualityState.code : QualityState → Nat
  | .empty => 0 | .current => 1 | .stale => 2

/-- The code of a channel state (R81, R201). -/
def ChannelState.code : ChannelState → Nat
  | .noData => 0 | .live => 1 | .held => 2

/-- The code of a channel kind (R82, R201). -/
def ChannelKind.code : ChannelKind → Nat
  | .pressure => 0 | .temperature => 1 | .level => 2

/-- The code of a scan state (R86, R201). -/
def ScanState.code : ScanState → Nat
  | .idle => 0 | .scanning => 1 | .suspended => 2

/-- The code of a trigger source (R86, R201). -/
def TriggerSource.code : TriggerSource → Nat
  | .sync => 0 | .interval => 1 | .command => 2

/-- The code of a stroke phase (R108, R201). -/
def Phase.code : Phase → Nat
  | .drive => 0 | .proofWait => 1 | .recover => 2

/-- The code of a stroke resolution (R108, R201). -/
def Resolution.code : Resolution → Nat
  | .unresolved => 0 | .proven => 1 | .unproven => 2 | .unprovenNoPenalty => 3

/-- The code of a point state (R123, R201). -/
def PointState.code : PointState → Nat
  | .disabled => 0 | .enabled => 1

/-- The code of a header state (R128, R201). -/
def HeaderState.code : HeaderState → Nat
  | .idle => 0 | .opening => 1 | .stroking => 2 | .closing => 3 | .tripped => 4

/-- The code of an arbitration mode (R129, R201). -/
def Mode.code : Mode → Nat
  | .fixed => 0 | .rotating => 1

/-- A beneficiary: a slot, or 254 for MANUAL (R201). -/
def Beneficiary.code : Beneficiary → Nat
  | .account slot => slot.1
  | .manual => Config.manual

/-- The code of a pump state (R147, R201). -/
def PumpState.code : PumpState → Nat
  | .isolated => 0 | .standby => 1 | .duty => 2 | .failed => 3

/-- The code of a monitor state (R163, R201). -/
def MonitorState.code : MonitorState → Nat
  | .disabled => 0 | .watching => 1 | .timing => 2 | .tripped => 3

/-- The code of a monitor source kind, then its number (R201). -/
def Source.bytes : Source → List Byte
  | .channel c => byte 0 ++ byte c.1
  | .rate r => byte 1 ++ byte r.1

/-- The code of a sense (R164, R201). -/
def Sense.code : Sense → Nat
  | .high => 0 | .low => 1

/-- The code of a monitor action (R164, R201). -/
def Action.code : Action → Nat
  | .attentionOnly => 0 | .headerTrip => 1 | .tripOutput => 2

/-- The code of a cause kind (R205). -/
def CauseKind.code : CauseKind → Fin 16
  | .restart => 0 | .supplyChange => 1 | .headerTrip => 2 | .pumpFailed => 3 | .underdose => 4
  | .monitorTrip => 5 | .sensorHold => 6 | .compositionStale => 7 | .orphanFlow => 8
  | .overspeed => 9 | .clockChange => 10 | .scanOverrun => 11 | .manualDoseEnd => 12
  | .accountClosed => 13 | .gasDayEnd => 14 | .portEvent => 15

/-- The code of a terminal function, then its subject (R202). -/
def TerminalFunction.bytes : TerminalFunction → List Byte
  | .none => byte 0 ++ byte 0
  | .pulse r => byte 1 ++ byte r.1
  | .drive p => byte 2 ++ byte p.1
  | .proof p => byte 3 ++ byte p.1
  | .valve q => byte 4 ++ byte q.1
  | .flowsw q => byte 5 ++ byte q.1
  | .sync => byte 6 ++ byte 0
  | .stopIn => byte 7 ++ byte 0
  | .trip => byte 8 ++ byte 0

/-- The code of a clock source (R181, R201). -/
def ClockSource.code : ClockSource → Nat
  | .crystal => 0 | .fallback => 1

/-- The code of a supply state (R184, R201). -/
def SupplyState.code : SupplyState → Nat
  | .normal => 0 | .low => 1

end Sys2Proof.Machine
end

