-- ==== Sys2Proof/Machine/Flags.lean ====
section
/-! DEFINITION. What the part computes from its state and does not store: times, ownership, the backlog, the conditions of the
header, the trip set's emptiness, monitor conditions, and the output lines. -/

namespace Sys2Proof.Machine

/-! ### Times (R176) -/

/-- The running millisecond count. -/
def State.ms (s : State) : Nat := s.now / Config.usPerMs

/-- The expiry time of a timer started now for `ms` milliseconds. -/
def State.after (s : State) (ms : Nat) : Nat := s.now + ms * Config.usPerMs

/-- The time to a timer's expiry in ms, rounded up, and 0 when it is stopped. DESIGN CHOICE on the rounding, log 12. -/
def State.msTo (s : State) : Option Nat → Nat
  | none => 0
  | some t => (t - s.now + (Config.usPerMs - 1)) / Config.usPerMs

/-- The time to a timer's expiry in s, rounded up, and 0 when it is stopped (R144). -/
def State.secondsTo (s : State) : Option Nat → Nat
  | none => 0
  | some t => (t - s.now + (Config.usPerSecond - 1)) / Config.usPerSecond

/-! ### Accounts -/

/-- The backlog: owed − credited − waived (R100). -/
def Account.backlog (a : Account) : Nat := a.owed - a.credited - a.waived

/-- The free backlog: backlog − reserved (R100). -/
def Account.freeBacklog (a : Account) : Nat := a.backlog - a.reserved

/-- The sum of two odourant masses, which stays at 2⁶⁴−1 (R4). -/
def addMass (a b : Nat) : Nat := min (a + b) Config.maxMass

/-- The account whose run list holds the run (R8). -/
def State.ownerOf (s : State) (r : Fin 6) : Option (Fin 12) :=
  slots.find? (fun i => s.accounts[i].runs.contains r)

/-- The lowest slot that is FREE (R7). -/
def State.lowestFree (s : State) : Option (Fin 12) :=
  slots.find? (fun i => s.accounts[i].state == .free)

/-- The slot outside FREE that holds the tag (R6, R14). -/
def State.slotOfTag (s : State) (tag : List Byte) : Option (Fin 12) :=
  slots.find? (fun i => s.accounts[i].state != .free && s.accounts[i].tag == tag)

/-- An OPEN or CLOSING account names the quality slot (R76). -/
def Account.names (a : Account) (q : Fin 8) : Bool :=
  (a.state == .opened || a.state == .closing) && a.quality == q

/-- The number of accounts that name the quality slot (R78). -/
def State.namingCount (s : State) (q : Fin 8) : Nat :=
  slots.countP (fun i => s.accounts[i].names q)

/-! ### Terminals (R202) -/

/-- The terminal that holds a function with its subject. -/
def State.holder (s : State) (f : TerminalFunction) : Option (Fin 16) :=
  sixteen.find? (fun t => s.terminals[t] == f)

/-- The flow condition of a point (R124): true with no FLOWSW terminal, or with one that is active, high. -/
def State.flowing (s : State) (q : Fin 4) : Bool :=
  match s.holder (.flowsw q) with
  | none => true
  | some t => s.levels[t]

/-- The terminal that holds STOP_IN is active, low (R158). -/
def State.stopActive (s : State) : Bool :=
  match s.holder .stopIn with
  | none => false
  | some t => !s.levels[t]

/-! ### Strokes, pumps and grants -/

/-- The DUTY pump (R147). -/
def State.dutyPump (s : State) : Option (Fin 2) :=
  pumpNumbers.find? (fun p => s.pumps[p].state == .duty)

/-- The account has a stroke in flight (R1, R108). -/
def State.inFlight (s : State) (slot : Fin 12) : Bool :=
  match s.stroke with
  | none => false
  | some k => k.beneficiary == .account slot && k.resolution == .unresolved

/-- The account is a candidate for the header (R106). -/
def State.candidate (s : State) (slot : Fin 12) : Bool :=
  s.accounts[slot].state == .opened &&
  (match s.accounts[slot].point with
   | none => false
   | some q => s.points[q].state == .enabled && s.flowing q) &&
  (match s.dutyPump with
   | none => false
   | some p => decide (s.pumps[p].config.mass ≤ s.accounts[slot].freeBacklog))

/-- Manual service is due (R131). -/
def State.manualDue (s : State) : Bool := !s.header.mask.isEmpty && s.dutyPump.isSome

/-- The stroke-start test for the grant held (R134). -/
def State.strokeTest (s : State) (g : Grant) : Bool :=
  !g.endRequested && decide (g.strokes < g.burstLimit) &&
  (match g.beneficiary with
   | .account slot =>
     s.candidate slot && s.accounts[slot].point == some g.point && !s.manualDue
   | .manual => s.header.mask.contains g.point && s.dutyPump.isSome)

/-- The trip source set is empty (R158). -/
def TripSet.isEmpty (t : TripSet) : Bool :=
  !t.stop && !t.supply && sixteen.all (fun m => !t.monitors[m])

/-- The conditions under which an event makes a grant decision (R131). -/
def State.decisionDue (s : State) : Bool :=
  s.header.state == .idle && s.trips.isEmpty && s.stroke.isNone &&
  (s.manualDue || slots.any (fun i => s.candidate i))

/-- The grant is held in OPENING or STROKING (R135). -/
def Header.granting (h : Header) : Bool := h.state == .opening || h.state == .stroking

/-! ### Monitors -/

/-- The value is beyond the threshold (R165). -/
def MonitorConfig.beyond (c : MonitorConfig) (v : Nat) : Bool :=
  match c.sense with
  | .high => decide (c.threshold < v)
  | .low => decide (v < c.threshold)

/-- The value reaches the clear level (R165). -/
def MonitorConfig.clears (c : MonitorConfig) (v : Nat) : Bool :=
  match c.sense with
  | .high => decide (v ≤ c.clearLevel)
  | .low => decide (c.clearLevel ≤ v)

/-- The condition judged on the last value; false if it is absent (R165). -/
def Monitor.condition (m : Monitor) : Bool :=
  match m.last with
  | none => false
  | some v => m.config.beyond v

/-- The action is applied: exactly while TRIPPED (R163). -/
def Monitor.applied (m : Monitor) : Bool := m.state == .tripped

/-! ### Output lines -/

/-- RDY is high (R195). -/
def State.rdy (s : State) : Bool := s.powered && s.port.state == .responseReady

/-- A cause kind is pending (R205). -/
def Cause.pending (c : Cause) : Bool := !c.subjects.isEmpty

/-- ATTN is active (R205). -/
def State.attn (s : State) : Bool := s.powered && sixteen.any (fun k => s.causes[k].pending)

/-- The valve output of a point is active (R124). It is the header's drive of the point, whether or not a terminal holds VALVE for
it: DESIGN CHOICE for READ POINT's field 6 with none (R127, log 26); a level has only the terminal that holds the function. -/
def State.valveActive (s : State) (q : Fin 4) : Bool :=
  s.powered && s.header.granting &&
  (match s.header.grant with
   | none => false
   | some g => g.point == q)

/-- The drive output of a pump is active (R110). -/
def State.driveActive (s : State) (p : Fin 2) : Bool :=
  s.powered && s.header.state == .stroking &&
  (match s.stroke with
   | none => false
   | some k => k.pump == p && k.phase == .drive)

/-- The TRIP output is active (R171). -/
def State.tripOutput (s : State) : Bool :=
  s.powered && (s.tripTest ||
    sixteen.any (fun m => s.monitors[m].applied && s.monitors[m].config.action == .tripOutput))

/-- The level at a terminal, high or low: driven by an output function, applied from outside otherwise (R202, R204). -/
def State.terminalLevel (s : State) (t : Fin 16) : Bool :=
  match s.terminals[t] with
  | .drive p => s.driveActive p
  | .valve q => s.valveActive q
  | .trip => !s.tripOutput
  | _ => s.levels[t]

/-! ### Gas day (R179) -/

/-- Seconds of the day at which a gas day begins. -/
def Clock.dayStart (c : Clock) : Nat := c.hour * Config.hourSeconds

/-- The gas day of a device time. -/
def Clock.gasDay (c : Clock) (t : Nat) : Int := ((t : Int) - c.dayStart) / (Config.daySeconds : Int)

/-- The device time is a boundary. -/
def Clock.boundary (c : Clock) (t : Nat) : Bool := t % Config.daySeconds == c.dayStart

/-- The seconds to the next boundary if device time did not wrap. -/
def Clock.toDayEnd (c : Clock) : Nat :=
  Config.daySeconds
    - (((c.deviceTime : Int) - c.dayStart) % (Config.daySeconds : Int)).toNat

/-- The seconds to the next boundary (R183), counted through the wrap of device time to the first boundary after it (R179,
log 13). -/
def Clock.toBoundary (c : Clock) : Nat :=
  if c.deviceTime + c.toDayEnd < Config.wrap32 then c.toDayEnd
  else Config.wrap32 - c.deviceTime + c.dayStart

end Sys2Proof.Machine
end

