-- ==== Sys2Proof/Machine/Ops.lean ====
section
/-! DEFINITION. The shared operations: time, attention, the obligation masses, the stroke record, the header's grant and trip,
the trip source set, monitors, scans, saves and the Command Port's completion. Each is taken whole inside the event that calls
it; `grantIfDue` stands last in every event that can bring a grant decision about (R131). -/

namespace Sys2Proof.Machine

/-- The only answers of this machine: a next state (a command refused by status is one too). -/
abbrev Result := Host.Outcome State Fault Refusal

/-! ### Time (R176) -/

/-- Microseconds pass on the running count before an event from outside is taken. -/
def elapse (us : Nat) (s : State) : State := { s with now := s.now + us }

/-- The running count reaches a timer's expiry time, if that lies ahead. -/
def reach (time : Nat) (s : State) : State := { s with now := max s.now time }

/-- An event of the part: while the part is stopped none is taken (R186). -/
def event (f : State → State) (s : State) : Result := .next (if s.powered then f s else s)

/-- An event from outside, after the microseconds that have passed since the event before. -/
def eventAfter (us : Nat) (f : State → State) (s : State) : Result :=
  event (fun s => f (elapse us s)) s

/-- The expiry event of a timer; it does not come when the timer is stopped. -/
def expiry (timer : State → Option Nat) (f : State → State) (s : State) : Result :=
  event (fun s => match timer s with
    | none => s
    | some t => f (reach t s)) s

/-! ### Attention (R205) -/

/-- A set in ascending order with one more member. -/
def insertMember (n : Nat) : List Nat → List Nat
  | [] => [n]
  | m :: ms => if n < m then n :: m :: ms else if n = m then m :: ms else m :: insertMember n ms

/-- A raise at one cause kind: latched unless its level is 0. -/
def Cause.raised (c : Cause) (subject : Nat) : Cause :=
  if c.level = 0 then c else { c with subjects := insertMember subject c.subjects }

/-- A raise of one kind with one subject (R205). -/
def raise (k : CauseKind) (subject : Nat) (s : State) : State :=
  { s with causes := editAt s.causes k.code (·.raised subject) }

/-- A raise if a condition holds. -/
def raiseIf (b : Bool) (k : CauseKind) (subject : Nat) (s : State) : State :=
  if b then raise k subject s else s

/-! ### Records -/

/-- One account record changed. -/
def editAccount (i : Fin 12) (f : Account → Account) (s : State) : State :=
  { s with accounts := editAt s.accounts i f }

/-- One run record changed. -/
def editRun (r : Fin 6) (f : Run → Run) (s : State) : State :=
  { s with runs := editAt s.runs r f }

/-- One pump record changed. -/
def editPump (p : Fin 2) (f : Pump → Pump) (s : State) : State :=
  { s with pumps := editAt s.pumps p f }

/-- One monitor record changed. -/
def editMonitor (m : Fin 16) (f : Monitor → Monitor) (s : State) : State :=
  { s with monitors := editAt s.monitors m f }

/-! ### The obligation (06) -/

/-- The waiver rule at one account (R102): backlog above L of its point is waived and UNDERDOSE raised. -/
def waive (i : Fin 12) (s : State) : State :=
  match s.accounts[i].point with
  | none => s
  | some q =>
    let excess := s.accounts[i].backlog - s.points[q].limit
    if excess = 0 then s
    else raise .underdose i.1
      (editAccount i (fun a => { a with waived := addMass a.waived excess }) s)

/-- Entry to CLOSED (R11): the backlog is waived, the close time set and ACCOUNT_CLOSED raised. -/
def enterClosed (i : Fin 12) (s : State) : State :=
  raise .accountClosed i.1
    (editAccount i (fun a =>
      { a with
        state := .closed
        waived := addMass a.waived a.backlog
        closeTime := some s.clock.deviceTime }) s)

/-- A proven stroke at its account: S moves from reserved to credited (R117). -/
def Account.creditStroke (a : Account) (mass : Nat) : Account :=
  { a with credited := addMass a.credited mass, reserved := 0 }

/-- An unproven stroke at its account: S returns to the free backlog, or is waived for an OPEN account without a point (R117,
R21). -/
def Account.releaseStroke (a : Account) (mass : Nat) : Account :=
  if a.state = .opened ∧ a.point = none
  then { a with reserved := 0, waived := addMass a.waived mass }
  else { a with reserved := 0 }

/-- The masses of an account after the resolution of its stroke (R117). -/
def Account.resolved (proven : Bool) (mass : Nat) (a : Account) : Account :=
  if proven then a.creditStroke mass else a.releaseStroke mass

/-- A resolution at the account it was for (R117): a CLOSING account then enters CLOSED. -/
def resolveAccount (i : Fin 12) (proven : Bool) (mass : Nat) (s : State) : State :=
  let s := editAccount i (·.resolved proven mass) s
  if s.accounts[i].state = .closing then enterClosed i s else s

/-- A resolution of a manual stroke: S is added to the point's manual mass total when proven (R118). -/
def resolveManual (q : Fin 4) (proven : Bool) (mass : Nat) (s : State) : State :=
  if proven
  then { s with
    points := editAt s.points q (fun p => { p with manualTotal := addMass p.manualTotal mass }) }
  else s

/-- A resolution at its beneficiary (R117, R118). -/
def resolveBeneficiary (k : Stroke) (proven : Bool) (s : State) : State :=
  match k.beneficiary with
  | .account i => resolveAccount i proven k.mass s
  | .manual => resolveManual k.point proven k.mass s

/-! ### The grant (07) -/

/-- The grant held in OPENING or STROKING has its end-requested flag set, if it meets a condition (R135). -/
def requestEnd (affected : Grant → Bool) (s : State) : State :=
  match s.header.grant with
  | none => s
  | some g =>
    if s.header.granting && affected g
    then { s with header := { s.header with grant := some { g with endRequested := true } } }
    else s

/-- A grant to the account. -/
def Grant.forAccount (i : Fin 12) (g : Grant) : Bool := g.beneficiary == .account i

/-- An account grant at the point (R124). -/
def Grant.accountAt (q : Fin 4) (g : Grant) : Bool := g.beneficiary != .manual && g.point == q

/-- The pumps after one becomes DUTY: the pump that was DUTY becomes STANDBY first (R147, R152). -/
def makeDuty (p : Fin 2) (s : State) : State :=
  let stood := mapAll (fun u : Pump => if u.state = .duty then { u with state := .standby } else u)
    s.pumps
  { s with pumps := editAt stood p (fun u => { u with state := .duty }) }

/-- The pump's failure (R154): FAILED, PUMP_FAILED, failover to a STANDBY pump, no pending duty, the grant's end requested. -/
def failPump (p : Fin 2) (s : State) : State :=
  let s := raise .pumpFailed p.1 (editPump p (fun u => { u with state := .failed }) s)
  let other : Fin 2 := 1 - p
  let s := if s.pumps[other].state = .standby
    then editPump other (fun u => { u with state := .duty }) s else s
  requestEnd (fun _ => true) { s with pendingDuty := none }

/-- A resolution at the pump (R119, R154). -/
def resolvePump (p : Fin 2) (r : Resolution) (s : State) : State :=
  match r with
  | .proven => editPump p (fun u => { u with unproven := 0 }) s
  | .unproven =>
    let s := editPump p (fun u => { u with unproven := u.unproven + 1 }) s
    if s.pumps[p].config.failureLimit ≤ s.pumps[p].unproven then failPump p s else s
  | .unprovenNoPenalty => s
  | .unresolved => s

/-- The resolution of a stroke, taken whole (R119): the record, then the beneficiary, then the pump. A stroke in PROOF_WAIT
passes to RECOVER; one in DRIVE stays there until its on-time expires. -/
def resolve (r : Resolution) (s : State) : State :=
  match s.stroke with
  | none => s
  | some k =>
    let k' := { k with
      resolution := r
      phase := if k.phase = .proofWait then .recover else k.phase }
    resolvePump k.pump r
      (resolveBeneficiary k (r == .proven) { s with stroke := some k' })

/-- A stroke starts under a grant (R109), on the DUTY pump. -/
def startStroke (g : Grant) (s : State) : State :=
  match s.dutyPump with
  | none => s
  | some p =>
    let c := s.pumps[p].config
    let k : Stroke :=
      { pump := p, point := g.point, beneficiary := g.beneficiary, mass := c.mass,
        onTime := c.onTime, window := c.window, spacing := c.spacing,
        mode := if (s.holder (.proof p)).isSome then .closedLoop else .openLoop,
        start := s.now, phase := .drive, resolution := .unresolved, driveCut := false,
        spacingPassed := false }
    let s := match g.beneficiary with
      | .account i => editAccount i (fun a => { a with reserved := c.mass }) s
      | .manual => s
    let s := editPump p (fun u => { u with strokes := (u.strokes + 1) % Config.wrap32 }) s
    { s with
      stroke := some k
      header := { s.header with
        state := .stroking
        grant := some { g with strokes := g.strokes + 1 }
        timer := none } }

/-- The header becomes CLOSING and its pause timer starts (R133, R136). -/
def closeHeader (g : Grant) (s : State) : State :=
  { s with header := { s.header with state := .closing, timer := some (s.after g.pause) } }

/-- The stroke-start test and what follows from it (R133, R136). -/
def continueBurst (s : State) : State :=
  match s.header.grant with
  | none => s
  | some g => if s.strokeTest g then startStroke g s else closeHeader g s

/-- A pending selection is applied at a clearing (R153). -/
def applyPendingDuty (s : State) : State :=
  match s.pendingDuty with
  | none => s
  | some p =>
    let s := if s.pumps[p].state = .standby then makeDuty p s else s
    { s with pendingDuty := none }

/-- The stroke record is cleared (R115): the Pump Unit is told first, then the header (R136). -/
def clearStroke (s : State) : State :=
  let s := applyPendingDuty { s with stroke := none }
  if s.header.state = .stroking then continueBurst s else s

/-- The three conditions of a clearing hold (R115). -/
def Stroke.finished (k : Stroke) : Bool :=
  k.phase != .drive && k.resolution != .unresolved && k.spacingPassed

/-- The record is cleared if the event has made the last of the three conditions true (R115). -/
def clearIfFinished (s : State) : State :=
  match s.stroke with
  | none => s
  | some k => if k.finished then clearStroke s else s

/-- The four points in cyclic order after one, which comes last (R132). -/
def pointsAfter (q : Fin 4) : List (Fin 4) := [q + 1, q + 2, q + 3, q]

/-- The twelve slots in cyclic order after one, which comes last (R132). -/
def slotsAfter (i : Fin 12) : List (Fin 12) :=
  [i + 1, i + 2, i + 3, i + 4, i + 5, i + 6, i + 7, i + 8, i + 9, i + 10, i + 11, i]

/-- Of two slots, the one with the higher priority; the first of equals (R132). -/
def State.preferred (s : State) (best : Option (Fin 12)) (i : Fin 12) : Option (Fin 12) :=
  match best with
  | none => some i
  | some b => if s.accounts[b].priority < s.accounts[i].priority then some i else some b

/-- The account that the mode chooses among the candidates (R132). -/
def State.chosen (s : State) : Option (Fin 12) :=
  match s.header.config.mode with
  | .fixed => (slots.filter (fun i => s.candidate i)).foldl s.preferred none
  | .rotating => (slotsAfter s.header.rotation).find? (fun i => s.candidate i)

/-- A grant is made: the record is filled, the header becomes OPENING and the settle timer starts (R132). -/
def openGrant (b : Beneficiary) (q : Fin 4) (s : State) : State :=
  let c := s.header.config
  { s with
    header := { s.header with
      state := .opening
      grant := some
        { beneficiary := b, point := q, strokes := 0, endRequested := false,
          burstLimit := c.burstLimit, settle := c.settle, pause := c.pause }
      timer := some (s.after c.settle) } }

/-- A grant to MANUAL at the first point of the mask after the manual pointer (R132). -/
def grantManual (s : State) : State :=
  match (pointsAfter s.header.manualPointer).find? (fun q => s.header.mask.contains q) with
  | none => s
  | some q => openGrant .manual q { s with header := { s.header with manualPointer := q } }

/-- A grant to the account chosen, at its point (R132). -/
def grantAccount (s : State) : State :=
  match s.chosen with
  | none => s
  | some i =>
    match s.accounts[i].point with
    | none => s
    | some q => openGrant (.account i) q { s with header := { s.header with rotation := i } }

/-- A grant decision, if the event has left its conditions true (R131, R132). -/
def grantIfDue (s : State) : State :=
  if s.decisionDue then (if s.manualDue then grantManual s else grantAccount s) else s

/-! ### Trips (08) -/

/-- A trip cuts the drive of a stroke whose drive output is active (R113). -/
def Stroke.cut (k : Stroke) : Stroke :=
  if k.phase = .drive then { k with driveCut := true } else k

/-- The manual mask is emptied and its timer stopped, with MANUAL_DOSE_END if it held points (R126, R139, R142). -/
def endManual (s : State) : State :=
  if s.header.mask.isEmpty then s
  else raise .manualDoseEnd Config.subjectAll
    { s with header := { s.header with mask := [], manualTimer := none } }

/-- The trip at the header (R142). -/
def headerTrip (s : State) : State :=
  if s.header.state = .tripped then s
  else
    let stroke := if s.header.state = .stroking then s.stroke.map Stroke.cut else s.stroke
    endManual
      { s with
        stroke := stroke
        header := { s.header with state := .tripped, timer := none, grant := none } }

/-- The trip set has become empty: the header leaves TRIPPED for IDLE (R143). -/
def headerUntrip (s : State) : State :=
  if s.header.state = .tripped then { s with header := { s.header with state := .idle } } else s

/-- A join or a leave of the trip source set (R159). -/
def changeTrips (f : TripSet → TripSet) (s : State) : State :=
  let s' := { s with trips := f s.trips }
  if s.trips.isEmpty && !s'.trips.isEmpty
  then headerTrip (raise .headerTrip Config.subjectAll s')
  else if !s.trips.isEmpty && s'.trips.isEmpty then headerUntrip s'
  else s'

/-- MONITOR(m) joins or leaves. -/
def TripSet.withMonitor (m : Fin 16) (present : Bool) (t : TripSet) : TripSet :=
  { t with monitors := setAt t.monitors m present }

/-! ### Monitors (09) -/

/-- Entry to TRIPPED (R168). -/
def enterTripped (m : Fin 16) (s : State) : State :=
  let s := raise .monitorTrip m.1
    (editMonitor m (fun u => { u with state := .tripped, timer := none }) s)
  if s.monitors[m].config.action = .headerTrip then changeTrips (.withMonitor m true) s else s

/-- The release of the action of a monitor that leaves TRIPPED; the caller gives the monitor its next state (R168). -/
def releaseAction (m : Fin 16) (action : Action) (s : State) : State :=
  if action = .headerTrip then changeTrips (.withMonitor m false) s else s

/-- A new value of a source: an evaluation falls due at each monitor that watches it and is not DISABLED (R165). -/
def newValue (source : Source) (value : Nat) (s : State) : State :=
  { s with
    dueValues := s.dueValues ++
      (sixteen.filter (fun m =>
        s.monitors[m].state != .disabled && s.monitors[m].config.source == source)).map
          (fun m => { monitor := m, value := value }) }

/-! ### Scans (05) -/

/-- The line conditions that a run's two channels give (R30). -/
def State.lineConditions (s : State) (r : Fin 6) : Held :=
  let p := s.channels[s.runs[r].config.pChannel]
  let t := s.channels[s.runs[r].config.tChannel]
  { p := p.value, t := t.value, pSubstituted := p.state != .live, tSubstituted := t.state != .live }

/-- The scan completion (R91): the scan result, the count, IDLE, and one update released per IN_SERVICE run. -/
def completeScan (s : State) : State :=
  { s with
    scan := { s.scan with
      state := .idle
      list := []
      done := 0
      conversionEnd := 0
      count := (s.scan.count + 1) % Config.wrap32
      result := mapAll (fun c : Channel => { value := c.value, state := c.state }) s.channels }
    released := s.released ++
      (runNumbers.filter (fun r => s.runs[r].state == .inService)).map
        (fun r => { run := r, held := s.lineConditions r }) }

/-- A scan starts (R88); with an empty list it completes at its start. -/
def startScan (s : State) : State :=
  let list := sixteen.filter (fun c => s.channels[c].config.enabled)
  if list.isEmpty then completeScan s
  else { s with scan := { s.scan with
    state := .scanning
    list := list
    done := 0
    conversionEnd := s.now + Config.conversionUs } }

/-- A SYNC or interval trigger (R88, R92, R95). -/
def trigger (s : State) : State :=
  match s.scan.state with
  | .idle => startScan s
  | .scanning => raise .scanOverrun Config.subjectAll s
  | .suspended => s

/-- A scan in flight is abandoned and the scan state becomes the one given (R95, R99). -/
def abandonScan (next : ScanState) (s : State) : State :=
  { s with scan := { s.scan with state := next, list := [], done := 0, conversionEnd := 0 } }

/-! ### The image (10) -/

/-- The snapshot of the items of R187. -/
def State.snapshot (s : State) : Image :=
  { accounts := s.accounts
    runs := mapAll (fun r : Run =>
      { state := r.state, config := r.config, orphanActual := r.orphanActual,
        orphanBase := r.orphanBase, orphanEstimated := r.orphanEstimated }) s.runs
    quality := s.quality
    channels := mapAll Channel.config s.channels
    source := s.scan.source
    interval := s.scan.interval
    monitors := mapAll Monitor.config s.monitors
    header := s.header.config
    manualDuration := s.header.manualDuration
    points := s.points
    pumps := s.pumps
    terminals := s.terminals
    levels := mapAll Cause.level s.causes
    deviceTime := s.clock.deviceTime
    hour := s.clock.hour
    basePressure := s.clock.basePressure
    baseTemperature := s.clock.baseTemperature }

/-- A save starts, unless one is in flight (R188). -/
def startSave (s : State) : State :=
  match s.supply.save with
  | some _ => s
  | none =>
    { s with supply := { s.supply with
      image := none
      save := some { snapshot := s.snapshot, start := s.now } } }

/-- The gas-day rollover at one account (R179). -/
def Account.rollover (a : Account) : Account :=
  if a.state = .opened
  then { a with
    previousDay := some { base := a.dayBase, energy := a.dayEnergy }
    dayBase := .zero
    dayEnergy := .zero }
  else a

/-- A rollover (R179): every OPEN account, then GAS_DAY_END, then a save. -/
def rollover (s : State) : State :=
  startSave (raise .gasDayEnd Config.subjectAll
    { s with accounts := mapAll Account.rollover s.accounts })

/-! ### The Command Port (11) -/

/-- What the rule of a command answers: OK with the state after and a payload, or a refusal, which changes nothing and carries
no payload (R196). -/
inductive Answer where
  | ok (s : State) (payload : List Byte)
  | refuse (status : Status)
deriving DecidableEq, Repr

/-- The completion (R196, R198): the response takes the discard flag, and the port becomes RESPONSE_READY. -/
def complete (status : Status) (payload : List Byte) (s : State) : State :=
  { s with port := { s.port with
    state := .responseReady
    response := some { status := status, discarded := s.port.discard, payload := payload } } }

/-- The state after a command's answer. -/
def Answer.completed (s : State) : Answer → State
  | .ok s' payload => complete .ok payload s'
  | .refuse status => complete status [] s

/-- The request in execution (R195, R196). -/
def State.executing (s : State) : Option Request :=
  if s.powered ∧ s.port.state = .executing then s.port.request else none

/-- The executing event of a request: it is taken when the request buffer of a port in EXECUTING holds a request with this
command number, and its completion follows (R196). -/
def serve (number : Byte) (rule : List Byte → State → Answer) (s : State) : Result :=
  .next (match s.executing with
    | none => s
    | some q => if q.number = number then (rule q.payload s).completed s else s)

/-- The executing event of a request without operands (R196). -/
def serveBare (number : Byte) (rule : State → Answer) : State → Result :=
  serve number (fun payload s => if payload = [] then rule s else .refuse .badArgument)

/-- The answer of a read: it changes no record. -/
def reading (payload : List Byte) (s : State) : Answer := .ok s payload

end Sys2Proof.Machine
end

