-- ==== Sys2Proof/Machine/Metering.lean ====
section
/-! DEFINITION. The metering update and the settlement update, stage by stage (02), and METERING_UPDATE.
Every product and quotient is evaluated exactly; each stage narrows where its rule says. -/

namespace Sys2Proof.Machine

/-! ### Rounding (00, Rounding and clamping) -/

/-- To nearest, an exact half to the greater integer. -/
def roundHalfUp (n d : Nat) : Nat := (2 * n + d) / (2 * d)

/-- To nearest, an exact half to the greater magnitude with the same sign. -/
def roundHalfAway (n : Int) (d : Nat) : Int :=
  if 0 ≤ n then (roundHalfUp n.natAbs d : Int) else -(roundHalfUp n.natAbs d : Int)

/-- Clamp to `lo` to `hi`. -/
def clamp (lo hi x : Int) : Int := if x < lo then lo else if hi < x then hi else x

/-! ### Totals (R42) -/

/-- A total with an increment added, the whole part wrapping at 10¹² (R3, R42). -/
def Total.add (t : Total) (unit increment : Nat) : Total :=
  { whole := (t.whole + (t.fraction + increment) / unit) % Config.wholeWrap
    fraction := (t.fraction + increment) % unit }

/-! ### The stages -/

/-- Stage 1: the factor of the first band whose limit is at least f, or of the last band (R33). -/
def meterFactor (f : Nat) : List Band → Nat
  | [] => 0
  | [b] => b.factor
  | b :: bs => if f ≤ b.limit then b.factor else meterFactor f bs

/-- Stage 3 before its clamp: s = A − round(B × t / 1000), t = T − T_b (R35). -/
def slopeExact (a b t tb : Nat) : Int :=
  (a : Int) - roundHalfAway ((b : Int) * ((t : Int) - tb)) 1000

/-- Stage 3: s (R35). -/
def slope (a b t tb : Nat) : Nat := (clamp 0 100000 (slopeExact a b t tb)).toNat

/-- Stage 3: s was clamped (R35, R44). -/
def slopeClamped (a b t tb : Nat) : Bool :=
  clamp 0 100000 (slopeExact a b t tb) != slopeExact a b t tb

/-- Stage 3 before its clamp: d (R35), and d_b with A in place of s (R36). -/
def compressionExact (p s : Nat) : Nat := roundHalfUp (p * s) 1000

/-- Stage 3: Z = 1,000,000,000 − d (R35, R36). -/
def compressibility (p s : Nat) : Nat := 1000000000 - min (compressionExact p s) 300000000

/-- Stage 4 before its clamp (R37). -/
def conversionExact (p t z pb tb zb : Nat) : Nat :=
  roundHalfUp (1000000 * p * tb * zb) (pb * t * z)

/-- Stage 4: the conversion factor F (R37). -/
def conversion (p t z pb tb zb : Nat) : Nat :=
  (clamp 1 150000000 (conversionExact p t z pb tb zb)).toNat

/-- Stage 8: the base flow rate q (R41). -/
def flowRate (dvb dt : Nat) : Nat := min (dvb * 36 / (10 * dt)) Config.max32

/-- What stages 0 to 5 and 8 read (R29). -/
structure UpdateInputs where
  pulses : Nat
  frequency : Nat
  cutoff : Nat
  weight : Nat
  bands : List Band
  actualCarry : Nat
  baseCarry : Nat
  held : Held
  slopeA : Nat
  slopeB : Nat
  basePressure : Nat
  baseTemperature : Nat
  interval : Nat
deriving DecidableEq, Repr

/-- What stages 0 to 5 and 8 give (R32 to R38, R41). -/
structure UpdateResults where
  /-- Pulses cut off by stage 0. -/
  cutPulses : Nat
  /-- ΔVa. -/
  actual : Nat
  /-- ΔVb. -/
  base : Nat
  actualCarry : Nat
  baseCarry : Nat
  rate : Nat
  /-- s, d or F was clamped (R44). -/
  clamped : Bool
deriving DecidableEq, Repr

/-- Stages 0 to 5 and 8 of one update (R32 to R38, R41). -/
def stages (u : UpdateInputs) : UpdateResults :=
  let cut := decide (u.frequency < u.cutoff)
  let n := if cut then 0 else u.pulses
  let x := n * u.weight * meterFactor u.frequency u.bands + u.actualCarry
  let dva := x / 1000000
  let s := slope u.slopeA u.slopeB u.held.t u.baseTemperature
  let z := compressibility u.held.p s
  let zb := compressibility u.basePressure u.slopeA
  let f := conversion u.held.p u.held.t z u.basePressure u.baseTemperature zb
  let y := dva * f + u.baseCarry
  let dvb := y / 1000000
  { cutPulses := if cut then u.pulses else 0
    actual := dva
    base := dvb
    actualCarry := x % 1000000
    baseCarry := y % 1000000
    rate := flowRate dvb u.interval
    clamped :=
      slopeClamped u.slopeA u.slopeB u.held.t u.baseTemperature
        || decide (300000000 < compressionExact u.held.p s)
        || f != conversionExact u.held.p u.held.t z u.basePressure u.baseTemperature zb }

/-- O of stage 7 (R40). -/
def Account.dosed (a : Account) (dvb : Nat) : Nat := dvb * a.dose + a.carry

/-- Δowed of stage 7 (R40): 0 for an account without a point, whose stage 7 is skipped. -/
def Account.owedIncrement (a : Account) (dvb : Nat) : Nat :=
  if a.point.isSome then a.dosed dvb / 100000000 else 0

/-- Stages 6 and 7 at the owner, with the totals and the estimated-now flag (R39, R40, R42, R45). -/
def Account.addUpdate (a : Account) (heating dva dvb : Nat) (estimated : Bool) : Account :=
  let energy := dvb * heating
  { a with
    actual := a.actual.add Config.volumeUnit dva
    base := a.base.add Config.volumeUnit dvb
    dayBase := a.dayBase.add Config.volumeUnit dvb
    estimated := if estimated then a.estimated.add Config.volumeUnit dvb else a.estimated
    energy := a.energy.add Config.energyUnit energy
    dayEnergy := a.dayEnergy.add Config.energyUnit energy
    owed := addMass a.owed (a.owedIncrement dvb)
    carry := if a.point.isSome then a.dosed dvb % 100000000 else a.carry
    estimatedNow := estimated }

/-- The orphan totals and the orphan-estimated flag after an orphan update (R45, R46). -/
def Run.addOrphan (r : Run) (dva dvb : Nat) (estimated : Bool) : Run :=
  { r with
    orphanActual := r.orphanActual.add Config.volumeUnit dva
    orphanBase := r.orphanBase.add Config.volumeUnit dvb
    orphanEstimated := estimated }

/-! ### The frequency estimate (R60) -/

/-- The time since the last edge, saturating, and 0 once the last edge is discarded (R60, R64). -/
def Run.gap (r : Run) (now : Nat) : Nat :=
  match r.lastEdge with
  | none => 0
  | some t => min (now - t) Config.maxPeriod

/-- The no-flow timeout in µs (R59). -/
def RunConfig.noFlowUs (c : RunConfig) : Nat := c.noFlow * Config.usPerSecond

/-- The run at an update's start, with f evaluated and stored (R60). -/
def Run.evaluate (r : Run) (now : Nat) : Run :=
  let g := r.gap now
  if 0 < r.edgeCount ∧ r.config.noFlowUs < g
  then { r with edgeCount := 0, lastPeriod := 0, frequency := 0 }
  else if r.edgeCount < 2 then { r with frequency := 0 }
  else
    let period := max r.lastPeriod g
    { r with frequency :=
        if period = 0 then Config.maxFrequency
        else min (1000000000 / period) Config.maxFrequency }

/-- Δt (R31): since the previous update, at least 1; the scan interval at the first update after entry to service. -/
def Run.interval (r : Run) (ms scanInterval : Nat) : Nat :=
  match r.lastUpdate with
  | none => scanInterval
  | some t => min (max (ms - t) 1) Config.max32

/-! ### One update -/

/-- The slopes that an update reads, and whether the record read marks it as estimated (R29, R44, R47, R74, R75). -/
def State.slopesFor (s : State) (owner : Option (Fin 12)) : Nat × Nat × Bool :=
  match owner with
  | some i =>
    let q := s.quality[s.accounts[i].quality]
    (q.slopeA, q.slopeB, q.state == .stale)
  | none =>
    let q := s.quality[(0 : Fin 8)]
    if q.state = .empty then (0, 0, true) else (q.slopeA, q.slopeB, q.state == .stale)

/-- The inputs of an update of an evaluated run (R29). -/
def State.updateInputs (s : State) (run : Run) (held : Held) (owner : Option (Fin 12)) :
    UpdateInputs :=
  { pulses := run.pendingPulses
    frequency := run.frequency
    cutoff := run.config.cutoff
    weight := run.config.weight
    bands := run.config.bands
    actualCarry := run.actualCarry
    baseCarry := run.baseCarry
    held := held
    slopeA := (s.slopesFor owner).1
    slopeB := (s.slopesFor owner).2.1
    basePressure := s.clock.basePressure
    baseTemperature := s.clock.baseTemperature
    interval := run.interval s.ms s.scan.interval }

/-- An update is estimated (R44). -/
def State.estimated (s : State) (held : Held) (owner : Option (Fin 12)) (clamped : Bool) : Bool :=
  held.pSubstituted || held.tSubstituted || (s.slopesFor owner).2.2
    || s.clock.source == .fallback || clamped

/-- The run after an update's stages: what stages 0 to 5 and 8 store in it, the held snapshot, the overspeed flag and the
time of last update (R30, R31, R52, R61). -/
def Run.afterStages (run : Run) (held : Held) (ms : Nat) (u : UpdateResults) : Run :=
  { run with
    pendingPulses := 0
    rate := u.rate
    aboveOverspeed := decide (run.config.overspeed < run.frequency)
    cutoffPulses := (run.cutoffPulses + u.cutPulses) % Config.wrap32
    lastUpdate := some ms
    held := held
    actualCarry := u.actualCarry
    baseCarry := u.baseCarry }

/-- Where an update writes: the owner's totals with the waiver rule (R42, R102), or the orphan totals with ORPHAN_FLOW (R46). -/
def writeTotals (r : Fin 6) (owner : Option (Fin 12)) (u : UpdateResults) (estimated : Bool)
    (s : State) : State :=
  match owner with
  | some i =>
    let heating := s.quality[s.accounts[i].quality].heating
    let increment := s.accounts[i].owedIncrement u.base
    let s := editAccount i (fun a => a.addUpdate heating u.actual u.base estimated) s
    if 0 < increment then waive i s else s
  | none =>
    raiseIf (0 < u.base) .orphanFlow r.1
      (editRun r (fun run => run.addOrphan u.actual u.base estimated) s)

/-- One metering or settlement update of a run with the line conditions given, taken whole (R24, R28, R29). -/
def update (r : Fin 6) (held : Held) (s : State) : State :=
  let owner := s.ownerOf r
  let run := s.runs[r].evaluate s.now
  let u := stages (s.updateInputs run held owner)
  let estimated := s.estimated held owner u.clamped
  let s := editRun r (fun _ => run.afterStages held s.ms u) s
  let s := raiseIf (decide (run.config.overspeed < run.frequency) && !run.aboveOverspeed)
    .overspeed r.1 s
  newValue (.rate r) u.rate (writeTotals r owner u estimated s)

/-- The carries of a run set to zero (R48). -/
def zeroCarries (r : Fin 6) (s : State) : State :=
  editRun r (fun run => { run with actualCarry := 0, baseCarry := 0 }) s

/-- A settlement update if the run is IN_SERVICE, with its held snapshot, and then zero carries (R24, R48). -/
def settle (r : Fin 6) (s : State) : State :=
  zeroCarries r
    (if s.runs[r].state = .inService then update r s.runs[r].held s else s)

/-- The oldest released update of the run is taken; it is made if the run is still IN_SERVICE (a run that leaves service loses its
released updates, R28, R57). In supply LOW none is made (R49); one released before the entry waits for the return to NORMAL:
DESIGN CHOICE (log 8). -/
def takeReleased (r : Fin 6) (s : State) : State :=
  if s.supply.state = .low then s
  else match s.released.find? (fun e => e.run == r) with
    | none => s
    | some e =>
      let s := { s with released := s.released.eraseP (fun e => e.run == r) }
      if s.runs[r].state = .inService then grantIfDue (update r e.held s) else s

/-- METERING_UPDATE (R28). -/
def execMeteringUpdate (r : Fin 6) (s : State) : Result := event (takeReleased r) s

end Sys2Proof.Machine
end

