-- ==== Sys2Proof/Machine/Accounts.lean ====
section
/-! DEFINITION. The commands on accounts: OPEN_ACCOUNT to RELEASE_ACCOUNT (01_custody_accounts.md). -/

namespace Sys2Proof.Machine

/-! ### Arguments shared by OPEN ACCOUNT and AMEND ACCOUNT (R7, R18) -/

/-- A quality argument: a slot from 0 to 7 that is not EMPTY. -/
def State.qualityArg (s : State) (n : Nat) : Option (Fin 8) :=
  (fin? 8 n).filter (fun q => s.quality[q].state != .empty)

/-- A point argument: absent, or a point from 0 to 3 that is ENABLED. -/
def State.pointArg (s : State) (n : Nat) : Option (Option (Fin 4)) :=
  (point? n).filter (fun p => match p with
    | none => true
    | some q => s.points[q].state == .enabled)

/-- A dose rate in its range. -/
def doseInRange (d : Nat) : Bool := decide (100 ≤ d) && decide (d ≤ 10000)

/-- A priority in its range. -/
def priorityInRange (p : Nat) : Bool := decide (p ≤ 3)

/-! ### OPEN ACCOUNT -/

/-- The fresh record of OPEN ACCOUNT (R7). -/
def Account.fresh (tag : List Byte) (quality : Fin 8) (point : Option (Fin 4))
    (dose priority openTime : Nat) : Account :=
  { Account.free with
    state := .opened, tag := tag, quality := quality, point := point, dose := dose,
    priority := priority, openTime := openTime }

/-- OPEN ACCOUNT (R7). -/
def openAccount (tag : List Byte) (quality point dose priority : Nat) (s : State) : Answer :=
  if !printable tag || !doseInRange dose || !priorityInRange priority then .refuse .badArgument
  else match s.qualityArg quality, s.pointArg point with
    | some q, some p =>
      if (s.slotOfTag tag).isSome then .refuse .exists
      else match s.lowestFree with
        | none => .refuse .tableFull
        | some i =>
          .ok { s with
            accounts := setAt s.accounts i (.fresh tag q p dose priority s.clock.deviceTime) }
            (byte i.1)
    | _, _ => .refuse .badArgument

/-- The request fields of OPEN ACCOUNT (R201): tag, quality, point, D, priority. -/
def ruleOpenAccount (payload : List Byte) (s : State) : Answer :=
  match fields [8, 1, 1, 2, 1] payload with
  | some [tag, quality, point, dose, priority] =>
    openAccount tag (be quality) (be point) (be dose) (be priority) s
  | _ => .refuse .badArgument

/-- OPEN_ACCOUNT (R7). -/
def execOpenAccount (s : State) : Result := serve 0x10 ruleOpenAccount s

/-! ### Finding and reading -/

/-- FIND ACCOUNT (R14). -/
def ruleFindAccount (payload : List Byte) (s : State) : Answer :=
  if !printable payload then .refuse .badArgument
  else match s.slotOfTag payload with
    | none => .refuse .notFound
    | some i => reading (byte i.1 ++ byte s.accounts[i].state.code) s

/-- FIND_ACCOUNT (R14). -/
def execFindAccount (s : State) : Result := serve 0x11 ruleFindAccount s

/-- The slots outside FREE from a start slot upward (R15). -/
def State.usedFrom (s : State) (start : Nat) : List (Fin 12) :=
  slots.filter (fun i => decide (start ≤ i.1) && s.accounts[i].state != .free)

/-- An entry of LIST ACCOUNTS: slot, tag, state (R15). -/
def State.listEntry (s : State) (i : Fin 12) : List Byte :=
  byte i.1 ++ s.accounts[i].tag ++ byte s.accounts[i].state.code

/-- LIST ACCOUNTS (R15): at most five entries, then the slot at which to continue. -/
def ruleListAccounts (payload : List Byte) (s : State) : Answer :=
  match fields [1] payload with
  | some [start] =>
    if 11 < be start then .refuse .badArgument
    else
      let used := s.usedFrom (be start)
      reading (byte (used.take 5).length ++ (used.take 5).flatMap s.listEntry
        ++ numberOrNone used[5]?) s
  | _ => .refuse .badArgument

/-- LIST_ACCOUNTS (R15). -/
def execListAccounts (s : State) : Result := serve 0x12 ruleListAccounts s

/-- The CONFIG section (R16). -/
def Account.configBytes (a : Account) : List Byte :=
  a.tag ++ byte a.state.code ++ listBytes (a.runs.map (·.1)) ++ byte a.quality.1
    ++ numberOrNone a.point ++ toBytes 2 a.dose ++ byte a.priority ++ toBytes 4 a.openTime
    ++ presentBytes 4 a.closeTime

/-- The VOLUME section (R16). -/
def Account.volumeSection (a : Account) : List Byte :=
  volumeBytes a.actual ++ volumeBytes a.base ++ volumeBytes a.estimated

/-- The previous-day figures after one presence indicator for both, as R16 lists the section; R3 speaks of one before each
(DEDUCED from R16, R17 and R201, log 11). -/
def previousDayBytes : Option PreviousDay → List Byte
  | none => flagByte false ++ volumeBytes .zero ++ energyBytes .zero
  | some p => flagByte true ++ volumeBytes p.base ++ energyBytes p.energy

/-- The ENERGY section (R16). -/
def Account.energySection (a : Account) : List Byte :=
  energyBytes a.energy ++ volumeBytes a.dayBase ++ energyBytes a.dayEnergy
    ++ previousDayBytes a.previousDay

/-- The ODOURANT section (R16). -/
def Account.odourantSection (a : Account) : List Byte :=
  toBytes 8 a.owed ++ toBytes 8 a.credited ++ toBytes 8 a.waived ++ toBytes 8 a.reserved
    ++ toBytes 4 a.carry ++ flagByte a.estimatedNow

/-- A section of an account record by its code: CONFIG, VOLUME, ENERGY, ODOURANT (R16, R201). -/
def Account.section? (a : Account) : Nat → Option (List Byte)
  | 0 => some a.configBytes
  | 1 => some a.volumeSection
  | 2 => some a.energySection
  | 3 => some a.odourantSection
  | _ => none

/-- READ ACCOUNT (R16). -/
def ruleReadAccount (payload : List Byte) (s : State) : Answer :=
  match fields [1, 1] payload with
  | some [slot, sect] =>
    match fin? 12 (be slot) with
    | none => .refuse .badArgument
    | some i =>
      match s.accounts[i].section? (be sect) with
      | none => .refuse .badArgument
      | some bytes =>
        if s.accounts[i].state = .free then .refuse .wrongState else reading bytes s
  | _ => .refuse .badArgument

/-- READ_ACCOUNT (R16). -/
def execReadAccount (s : State) : Result := serve 0x13 ruleReadAccount s

/-! ### AMEND ACCOUNT -/

/-- The four amendable fields with their new values (R18). -/
structure Amendment where
  quality : Fin 8
  point : Option (Fin 4)
  dose : Nat
  priority : Nat
deriving DecidableEq, Repr

/-- The amendment that a change set names, every named value checked (R18); a field not named keeps its value. -/
def State.amendment? (s : State) (a : Account) (set quality point dose priority : Nat) :
    Option Amendment :=
  match if set.testBit 0 then s.qualityArg quality else some a.quality,
    if set.testBit 1 then s.pointArg point else some a.point with
  | some q, some p =>
    if (!set.testBit 2 || doseInRange dose) && (!set.testBit 3 || priorityInRange priority)
    then some
      { quality := q, point := p
        dose := if set.testBit 2 then dose else a.dose
        priority := if set.testBit 3 then priority else a.priority }
    else none
  | _, _ => none

/-- The effects of a change of point (R20, R21): the grant's end is requested; a new point's limit applies at once; without a
point the free backlog is waived. -/
def pointChanged (i : Fin 12) (before : Option (Fin 4)) (s : State) : State :=
  if s.accounts[i].point = before then s
  else
    let s := requestEnd (·.forAccount i) s
    match before, s.accounts[i].point with
    | some _, none =>
      editAccount i (fun a => { a with waived := addMass a.waived a.freeBacklog }) s
    | some _, some _ => waive i s
    | none, _ => s

/-- AMEND ACCOUNT (R18 to R21). -/
def amendAccount (i : Fin 12) (m : Amendment) (s : State) : State :=
  grantIfDue (pointChanged i s.accounts[i].point
    (editAccount i (fun a =>
      { a with quality := m.quality, point := m.point, dose := m.dose, priority := m.priority }) s))

/-- The request fields of AMEND ACCOUNT (R201): slot, change set, quality, point, D, priority. A change set with any of bits 4
to 7 set comes before the rule. -/
def ruleAmendAccount (payload : List Byte) (s : State) : Answer :=
  match fields [1, 1, 1, 1, 2, 1] payload with
  | some [slot, set, quality, point, dose, priority] =>
    if 16 ≤ be set then .refuse .badArgument
    else match fin? 12 (be slot) with
      | none => .refuse .badArgument
      | some i =>
        if s.accounts[i].state ≠ .opened then .refuse .wrongState
        else match s.amendment? s.accounts[i] (be set) (be quality) (be point) (be dose)
            (be priority) with
          | none => .refuse .badArgument
          | some m => .ok (amendAccount i m s) []
  | _ => .refuse .badArgument

/-- AMEND_ACCOUNT (R18). -/
def execAmendAccount (s : State) : Result := serve 0x14 ruleAmendAccount s

/-! ### Runs and settlement -/

/-- ATTACH RUN (R22): the settlement to the orphan totals, zero carries, and the run at the end of the list. -/
def attachRun (i : Fin 12) (r : Fin 6) (s : State) : State :=
  editAccount i (fun a => { a with runs := a.runs ++ [r] }) (settle r s)

/-- The checks of ATTACH RUN in their order (R22). -/
def ruleAttachRun (payload : List Byte) (s : State) : Answer :=
  match fields [1, 1] payload with
  | some [slot, run] =>
    match fin? 12 (be slot), fin? 6 (be run) with
    | some i, some r =>
      if s.accounts[i].state ≠ .opened then .refuse .wrongState
      else if (s.ownerOf r).isSome then .refuse .inUse
      else if 4 ≤ s.accounts[i].runs.length then .refuse .tableFull
      else .ok (attachRun i r s) []
    | _, _ => .refuse .badArgument
  | _ => .refuse .badArgument

/-- ATTACH_RUN (R22). -/
def execAttachRun (s : State) : Result := serve 0x15 ruleAttachRun s

/-- DETACH RUN (R23): the settlement to the account, zero carries, and the run out of the list. -/
def detachRun (i : Fin 12) (r : Fin 6) (s : State) : State :=
  editAccount i (fun a => { a with runs := a.runs.filter (· != r) }) (settle r s)

/-- The checks of DETACH RUN in their order (R23). -/
def ruleDetachRun (payload : List Byte) (s : State) : Answer :=
  match fields [1, 1] payload with
  | some [slot, run] =>
    match fin? 12 (be slot), fin? 6 (be run) with
    | some i, some r =>
      if s.accounts[i].state ≠ .opened then .refuse .wrongState
      else if !s.accounts[i].runs.contains r then .refuse .notFound
      else .ok (grantIfDue (detachRun i r s)) []
    | _, _ => .refuse .badArgument
  | _ => .refuse .badArgument

/-- DETACH_RUN (R23). -/
def execDetachRun (s : State) : Result := serve 0x16 ruleDetachRun s

/-! ### Closing and releasing -/

/-- Each run settled and detached, in list order (R9). -/
def detachAll (i : Fin 12) (s : State) : State :=
  s.accounts[i].runs.foldl (fun s r => detachRun i r s) s

/-- The account leaves OPEN: CLOSING with a stroke in flight, CLOSED without (R9). -/
def leaveOpen (i : Fin 12) (s : State) : State :=
  if s.inFlight i then editAccount i (fun a => { a with state := .closing }) s
  else enterClosed i s

/-- CLOSE ACCOUNT (R9): the runs, the end of the account's grant, and the account's state. -/
def closeAccount (i : Fin 12) (s : State) : State :=
  leaveOpen i (requestEnd (·.forAccount i) (detachAll i s))

/-- The checks of CLOSE ACCOUNT and its response, the state reached (R9). -/
def ruleCloseAccount (payload : List Byte) (s : State) : Answer :=
  match fields [1] payload with
  | some [slot] =>
    match fin? 12 (be slot) with
    | none => .refuse .badArgument
    | some i =>
      if s.accounts[i].state ≠ .opened then .refuse .wrongState
      else .ok (closeAccount i s) (byte (closeAccount i s).accounts[i].state.code)
  | _ => .refuse .badArgument

/-- CLOSE_ACCOUNT (R9). -/
def execCloseAccount (s : State) : Result := serve 0x17 ruleCloseAccount s

/-- RELEASE ACCOUNT (R12). -/
def ruleReleaseAccount (payload : List Byte) (s : State) : Answer :=
  match fields [1] payload with
  | some [slot] =>
    match fin? 12 (be slot) with
    | none => .refuse .badArgument
    | some i =>
      if s.accounts[i].state ≠ .closed then .refuse .wrongState
      else .ok { s with accounts := setAt s.accounts i .free } []
  | _ => .refuse .badArgument

/-- RELEASE_ACCOUNT (R12). -/
def execReleaseAccount (s : State) : Result := serve 0x18 ruleReleaseAccount s

end Sys2Proof.Machine
end

