-- ==== Sys2Proof/Machine/Runs.lean ====
section
/-! DEFINITION. The commands on runs and PULSE_EDGE (03_meter_runs_and_pulse_timing.md). -/

namespace Sys2Proof.Machine

/-- A number lies in a range, both ends included (00, Numbers). -/
def inRange (lo hi n : Nat) : Bool := decide (lo ≤ n) && decide (n ≤ hi)

/-- The request field that names a run, 0 to 5, and what a command does with it. -/
def withRun (field : List Byte) (f : Fin 6 → Answer) : Answer :=
  match fin? 6 (be field) with
  | none => .refuse .badArgument
  | some r => f r

/-! ### CONFIGURE RUN and SET BANDS -/

/-- The ranges of the numeric fields of CONFIGURE RUN (R51, R54). -/
def RunConfig.inRange (c : RunConfig) : Bool :=
  Sys2Proof.Machine.inRange 1000 100000000 c.weight && Sys2Proof.Machine.inRange 1 60 c.noFlow
    && Sys2Proof.Machine.inRange 1 10000000 c.overspeed
    && Sys2Proof.Machine.inRange 0 10000 c.cutoff

/-- A channel is enabled and of the kind (R54). -/
def State.channelIs (s : State) (c : Fin 16) (kind : ChannelKind) : Bool :=
  s.channels[c].config.enabled && s.channels[c].config.kind == kind

/-- The one band that an UNCONFIGURED run receives (R54). -/
def defaultBands : List Band := [{ limit := 10000000, factor := 1000000 }]

/-- The run after an accepted CONFIGURE RUN (R54); `c` comes with the run's own band list. -/
def Run.configured (run : Run) (c : RunConfig) : Run :=
  if run.state = .unconfigured
  then { run with state := .outOfService, config := { c with bands := defaultBands } }
  else { run with config := c }

/-- The checks of CONFIGURE RUN after its enumeration codes, in their order (R54). The band list of the configuration is the
run's own. -/
def configureRun (r : Fin 6) (c : Option RunConfig) (s : State) : Answer :=
  if s.runs[r].state = .inService then .refuse .wrongState
  else match c with
    | none => .refuse .badArgument
    | some c =>
      if !c.inRange then .refuse .badArgument
      else if !s.channelIs c.pChannel .pressure || !s.channelIs c.tChannel .temperature
      then .refuse .badArgument
      else .ok (editRun r (·.configured c) s) []

/-- The request fields of CONFIGURE RUN (R201): run, W, P channel, T channel, pulse edge, no-flow timeout, overspeed frequency,
fc. An edge code outside its list comes before the rule (R196). -/
def ruleConfigureRun (payload : List Byte) (s : State) : Answer :=
  match fields [1, 4, 1, 1, 1, 1, 4, 2] payload with
  | some [run, weight, p, t, edge, noFlow, overspeed, cutoff] =>
    match edge? (be edge) with
    | none => .refuse .badArgument
    | some e =>
      withRun run (fun r =>
        configureRun r
          (match fin? 16 (be p), fin? 16 (be t) with
           | some p, some t => some
              { weight := be weight, pChannel := p, tChannel := t, edge := e,
                noFlow := be noFlow, overspeed := be overspeed, cutoff := be cutoff,
                bands := s.runs[r].config.bands }
           | _, _ => none) s)
  | _ => .refuse .badArgument

/-- CONFIGURE_RUN (R54). -/
def execConfigureRun (s : State) : Result := serve 0x20 ruleConfigureRun s

/-- Limits in strictly ascending order (R55). -/
def ascending : List Band → Bool
  | [] => true
  | [_] => true
  | b :: c :: bs => decide (b.limit < c.limit) && ascending (c :: bs)

/-- A band list that SET BANDS accepts (R55). -/
def bandsAccepted (bands : List Band) : Bool :=
  inRange 1 6 bands.length
    && bands.all (fun b => inRange 1 10000000 b.limit && inRange 900000 1100000 b.factor)
    && ascending bands

/-- The band list of a request: a count, then limit and factor of each band (R201). -/
def bandList? : List Byte → Option (List Band)
  | [] => none
  | count :: bytes =>
    (entries [4, 4] count.toNat bytes).map (fun es => es.map (fun e => match e with
      | [limit, factor] => { limit := be limit, factor := be factor }
      | _ => { limit := 0, factor := 0 }))

/-- SET BANDS (R55): the run number, then the run's state, then the list. -/
def setBands (r : Fin 6) (bands : List Band) (s : State) : Answer :=
  if s.runs[r].state = .unconfigured then .refuse .wrongState
  else if !bandsAccepted bands then .refuse .badArgument
  else .ok (editRun r (fun run => { run with config := { run.config with bands := bands } }) s) []

/-- The request fields of SET BANDS (R201): run, band list. -/
def ruleSetBands (payload : List Byte) (s : State) : Answer :=
  match payload with
  | [] => .refuse .badArgument
  | run :: rest =>
    match bandList? rest with
    | none => .refuse .badArgument
    | some bands => withRun [run] (fun r => setBands r bands s)

/-- SET_BANDS (R55). -/
def execSetBands (s : State) : Result := serve 0x21 ruleSetBands s

/-! ### Entering and leaving service -/

/-- The run after PLACE IN SERVICE (R56). -/
def Run.placed (run : Run) (held : Held) : Run :=
  { run with
    state := .inService, pendingPulses := 0, edgeCount := 0, lastPeriod := 0, lastEdge := none,
    frequency := 0, rate := 0, aboveOverspeed := false, lastUpdate := none, actualCarry := 0,
    baseCarry := 0, held := held }

/-- PLACE IN SERVICE (R56). -/
def placeInService (r : Fin 6) (s : State) : Answer :=
  let c := s.runs[r].config
  if s.runs[r].state ≠ .outOfService then .refuse .wrongState
  else if (s.holder (.pulse r)).isNone then .refuse .conflict
  else if s.channels[c.pChannel].config.kind ≠ .pressure
      ∨ s.channels[c.tChannel].config.kind ≠ .temperature then .refuse .conflict
  else .ok (editRun r (·.placed (s.lineConditions r)) s) []

/-- The request field of PLACE IN SERVICE: run. -/
def rulePlaceInService (payload : List Byte) (s : State) : Answer :=
  match fields [1] payload with
  | some [run] => withRun run (fun r => placeInService r s)
  | _ => .refuse .badArgument

/-- PLACE_IN_SERVICE (R56). -/
def execPlaceInService (s : State) : Result := serve 0x22 rulePlaceInService s

/-- The run after steps 2 to 5 of REMOVE FROM SERVICE (R57). -/
def Run.removed (run : Run) : Run :=
  { run with
    actualCarry := 0, baseCarry := 0, state := .outOfService, edgeCount := 0, lastPeriod := 0,
    lastEdge := none, lastUpdate := none, frequency := 0, aboveOverspeed := false, rate := 0 }

/-- REMOVE FROM SERVICE (R57): the settlement with its rate, then the removal with the rate 0 as a second new value. The updates
released for the run are not made (R28). -/
def removeFromService (r : Fin 6) (s : State) : State :=
  let s := update r s.runs[r].held s
  let s := newValue (.rate r) 0 (editRun r Run.removed s)
  { s with released := s.released.filter (fun e => e.run != r) }

/-- The checks of REMOVE FROM SERVICE (R57). -/
def ruleRemoveFromService (payload : List Byte) (s : State) : Answer :=
  match fields [1] payload with
  | some [run] =>
    withRun run (fun r =>
      if s.runs[r].state ≠ .inService then .refuse .wrongState
      else .ok (grantIfDue (removeFromService r s)) [])
  | _ => .refuse .badArgument

/-- REMOVE_FROM_SERVICE (R57). -/
def execRemoveFromService (s : State) : Result := serve 0x23 ruleRemoveFromService s

/-! ### Clearing and reading -/

/-- The run after CLEAR RUN TOTALS (R63). -/
def Run.cleared (run : Run) : Run :=
  { run with
    orphanActual := .zero, orphanBase := .zero, cutoffPulses := 0, overflow := 0,
    orphanEstimated := false }

/-- CLEAR RUN TOTALS (R63). -/
def ruleClearRunTotals (payload : List Byte) (s : State) : Answer :=
  match fields [1] payload with
  | some [run] => withRun run (fun r => .ok (editRun r Run.cleared s) [])
  | _ => .refuse .badArgument

/-- CLEAR_RUN_TOTALS (R63). -/
def execClearRunTotals (s : State) : Result := serve 0x24 ruleClearRunTotals s

/-- The CONFIG section (R64). -/
def Run.configSection (run : Run) (owner : Option (Fin 12)) : List Byte :=
  byte run.state.code ++ numberOrNone owner ++ toBytes 4 run.config.weight
    ++ byte run.config.pChannel.1 ++ byte run.config.tChannel.1 ++ byte run.config.edge.code
    ++ byte run.config.noFlow ++ toBytes 4 run.config.overspeed ++ toBytes 2 run.config.cutoff

/-- The BANDS section (R64). -/
def Run.bandSection (run : Run) : List Byte :=
  byte run.config.bands.length
    ++ run.config.bands.flatMap (fun b => toBytes 4 b.limit ++ toBytes 4 b.factor)

/-- The TIMING section (R64). -/
def Run.timingSection (run : Run) (now : Nat) : List Byte :=
  toBytes 2 run.pendingPulses ++ toBytes 4 run.overflow ++ byte run.edgeCount
    ++ toBytes 4 run.lastPeriod
    ++ toBytes 4 (if run.edgeCount = 0 then 0 else run.gap now)
    ++ toBytes 4 run.frequency ++ toBytes 4 run.rate ++ flagByte run.aboveOverspeed
    ++ toBytes 4 run.cutoffPulses ++ toBytes 4 run.held.p ++ toBytes 4 run.held.t
    ++ flagByte run.held.pSubstituted ++ flagByte run.held.tSubstituted

/-- The TOTALS section (R64). -/
def Run.totalsSection (run : Run) : List Byte :=
  volumeBytes run.orphanActual ++ volumeBytes run.orphanBase ++ flagByte run.orphanEstimated
    ++ toBytes 4 run.actualCarry ++ toBytes 4 run.baseCarry

/-- A section of a run record by its code: CONFIG, BANDS, TIMING, TOTALS (R64, R201). -/
def State.runSection? (s : State) (r : Fin 6) : Nat → Option (List Byte)
  | 0 => some (s.runs[r].configSection (s.ownerOf r))
  | 1 => some s.runs[r].bandSection
  | 2 => some (s.runs[r].timingSection s.now)
  | 3 => some s.runs[r].totalsSection
  | _ => none

/-- READ RUN (R64). -/
def ruleReadRun (payload : List Byte) (s : State) : Answer :=
  match fields [1, 1] payload with
  | some [run, sect] =>
    withRun run (fun r => match s.runSection? r (be sect) with
      | none => .refuse .badArgument
      | some bytes => reading bytes s)
  | _ => .refuse .badArgument

/-- READ_RUN (R64). -/
def execReadRun (s : State) : Result := serve 0x25 ruleReadRun s

/-! ### Pulses -/

/-- Period timing at a counted edge (R59). -/
def Run.timed (run : Run) (now : Nat) : Run :=
  match run.lastEdge with
  | none => { run with edgeCount := 1, lastPeriod := 0, lastEdge := some now }
  | some t =>
    if 0 < run.edgeCount ∧ now - t ≤ run.config.noFlowUs
    then { run with
      edgeCount := 2, lastPeriod := min (now - t) Config.maxPeriod, lastEdge := some now }
    else { run with edgeCount := 1, lastPeriod := 0, lastEdge := some now }

/-- The pulse count at a counted edge (R58). -/
def Run.counted (run : Run) : Run :=
  if run.pendingPulses < Config.maxPending then { run with pendingPulses := run.pendingPulses + 1 }
  else { run with overflow := (run.overflow + 1) % Config.wrap32 }

/-- The edge is of a kind that the run's pulse edge names (R51). -/
def PulseEdge.counts (e : PulseEdge) (rising : Bool) : Bool :=
  match e with
  | .rising => rising
  | .falling => !rising
  | .both => true

/-- An edge at the PULSE terminal of a run (R58). -/
def pulseAt (r : Fin 6) (rising : Bool) (s : State) : State :=
  if s.runs[r].state = .inService ∧ s.runs[r].config.edge.counts rising
  then
    raiseIf (decide (Config.maxPending ≤ s.runs[r].pendingPulses)) .overspeed r.1
      (editRun r (fun run => run.counted.timed s.now) s)
  else s

/-- The level applied at a terminal. -/
def setLevel (t : Fin 16) (high : Bool) (s : State) : State :=
  { s with levels := setAt s.levels t high }

/-- The change of level that an edge makes is no event of another row of the table: the terminal is NONE, an output, or PROOF or
SYNC becoming inactive (R202, log 6). -/
def TerminalFunction.quiet (f : TerminalFunction) (rising : Bool) : Bool :=
  match f with
  | .none => true
  | .pulse _ => true
  | .drive _ => true
  | .proof _ => !rising
  | .valve _ => true
  | .flowsw _ => false
  | .sync => !rising
  | .stopIn => false
  | .trip => true

/-- An edge at a terminal, a change of its level (R202): counted by the run whose PULSE it holds; at any other terminal it feeds no
run (R58). -/
def pulseEdge (t : Fin 16) (rising : Bool) (s : State) : State :=
  if s.terminals[t].quiet rising ∧ s.levels[t] ≠ rising then
    let s := setLevel t rising s
    match s.terminals[t] with
    | .pulse r => pulseAt r rising s
    | _ => s
  else s

/-- PULSE_EDGE (R58): a rising or falling edge at a terminal. While the part is stopped only the level changes. -/
def execPulseEdge (t : Fin 16) (rising : Bool) (elapsed : Nat) (s : State) : Result :=
  .next (if s.powered then pulseEdge t rising (elapse elapsed s) else setLevel t rising s)

end Sys2Proof.Machine
end

