-- ==== Sys2Proof/Machine/Header.lean ====
section
/-! DEFINITION. The commands on points and on the header, and the flow switches (07_injection_header_and_manual_dosing.md). -/

namespace Sys2Proof.Machine

/-! ### CONFIGURE POINT -/

/-- A catch-up limit lies below the stroke mass of a pump that is not ISOLATED (R125). -/
def State.limitBelowPump (s : State) (limit : Nat) : Bool :=
  pumpNumbers.any (fun p => s.pumps[p].state != .isolated
    && decide (limit < s.pumps[p].config.mass))

/-- An OPEN or CLOSING account that names the point (R103). -/
def State.boundBy (s : State) (q : Fin 4) (i : Fin 12) : Bool :=
  (s.accounts[i].state == .opened || s.accounts[i].state == .closing)
    && s.accounts[i].point == some q

/-- The waiver rule at every account that names the point, in slot order (R103). -/
def waiveAt (q : Fin 4) (s : State) : State :=
  (slots.filter (fun i => s.boundBy q i)).foldl (fun s i => waive i s) s

/-- The point leaves the manual mask; service ends if the mask becomes empty by it (R126). -/
def leaveMask (q : Fin 4) (s : State) : State :=
  if s.header.mask.contains q then
    if s.header.mask.all (· == q) then endManual s
    else { s with header := { s.header with mask := s.header.mask.filter (· != q) } }
  else s

/-- ENABLED to DISABLED at the header: the mask, and the end of any grant at the point (R126). -/
def disablePoint (q : Fin 4) (s : State) : State :=
  requestEnd (fun g => g.point == q) (leaveMask q s)

/-- The point takes its new state and limit (R125). -/
def writePoint (q : Fin 4) (state : PointState) (limit : Nat) (s : State) : State :=
  { s with points := editAt s.points q (fun p => { p with state := state, limit := limit }) }

/-- L lowered (R126). -/
def afterLimit (q : Fin 4) (before : Point) (s : State) : State :=
  if s.points[q].limit < before.limit then waiveAt q s else s

/-- ENABLED to DISABLED (R126). -/
def afterState (q : Fin 4) (before : Point) (s : State) : State :=
  if before.state = .enabled ∧ s.points[q].state = .disabled then disablePoint q s else s

/-- An accepted CONFIGURE POINT with its effects (R126). -/
def configurePoint (q : Fin 4) (state : PointState) (limit : Nat) (s : State) : State :=
  grantIfDue (afterState q s.points[q] (afterLimit q s.points[q] (writePoint q state limit s)))

/-- The checks of CONFIGURE POINT in their order (R125). -/
def configurePointChecked (q : Fin 4) (state : PointState) (limit : Nat) (s : State) : Answer :=
  if !inRange 1000 100000000 limit then .refuse .badArgument
  else if s.limitBelowPump limit then .refuse .conflict
  else if state = .enabled ∧ s.holder (.valve q) = none then .refuse .conflict
  else .ok (configurePoint q state limit s) []

/-- The request fields of CONFIGURE POINT (R201): point, state, L. -/
def ruleConfigurePoint (payload : List Byte) (s : State) : Answer :=
  match fields [1, 1, 4] payload with
  | some [point, state, limit] =>
    match fin? 4 (be point), pointState? (be state) with
    | some q, some st => configurePointChecked q st (be limit) s
    | _, _ => .refuse .badArgument
  | _ => .refuse .badArgument

/-- CONFIGURE_POINT (R125, R126). -/
def execConfigurePoint (s : State) : Result := serve 0x40 ruleConfigurePoint s

/-! ### READ POINT -/

/-- The fields of READ POINT (R127). -/
def State.pointBytes (s : State) (q : Fin 4) : List Byte :=
  byte s.points[q].state.code ++ toBytes 4 s.points[q].limit
    ++ numberOrNone (s.holder (.valve q)) ++ numberOrNone (s.holder (.flowsw q))
    ++ flagByte (s.flowing q) ++ flagByte (s.valveActive q)
    ++ flagByte (s.header.mask.contains q) ++ toBytes 8 s.points[q].manualTotal

/-- READ POINT (R127). -/
def ruleReadPoint (payload : List Byte) (s : State) : Answer :=
  match fields [1] payload with
  | some [point] =>
    match fin? 4 (be point) with
    | none => .refuse .badArgument
    | some q => reading (s.pointBytes q) s
  | _ => .refuse .badArgument

/-- READ_POINT (R127). -/
def execReadPoint (s : State) : Result := serve 0x41 ruleReadPoint s

/-! ### CONFIGURE HEADER and SET MANUAL TIMER -/

/-- The ranges of the header's configuration (R129, R130). -/
def HeaderConfig.inRange (c : HeaderConfig) : Bool :=
  Sys2Proof.Machine.inRange 1 64 c.burstLimit && Sys2Proof.Machine.inRange 100 10000 c.settle
    && Sys2Proof.Machine.inRange 100 10000 c.pause

/-- CONFIGURE HEADER (R130). -/
def configureHeader (c : HeaderConfig) (s : State) : Answer :=
  if c.inRange then .ok { s with header := { s.header with config := c } } []
  else .refuse .badArgument

/-- The request fields of CONFIGURE HEADER (R201): mode, burst limit, settle, pause. -/
def ruleConfigureHeader (payload : List Byte) (s : State) : Answer :=
  match fields [1, 1, 2, 2] payload with
  | some [mode, burst, settle, pause] =>
    match mode? (be mode) with
    | none => .refuse .badArgument
    | some m =>
      configureHeader
        { mode := m, burstLimit := be burst, settle := be settle, pause := be pause } s
  | _ => .refuse .badArgument

/-- CONFIGURE_HEADER (R130). -/
def execConfigureHeader (s : State) : Result := serve 0x42 ruleConfigureHeader s

/-- SET MANUAL TIMER (R140). -/
def ruleSetManualTimer (payload : List Byte) (s : State) : Answer :=
  match fields [2] payload with
  | some [duration] =>
    if inRange 1 3600 (be duration)
    then .ok { s with header := { s.header with manualDuration := be duration } } []
    else .refuse .badArgument
  | _ => .refuse .badArgument

/-- SET_MANUAL_TIMER (R140). -/
def execSetManualTimer (s : State) : Result := serve 0x44 ruleSetManualTimer s

/-! ### MANUAL DOSE -/

/-- Points in strictly ascending order (R138). -/
def risingPoints : List (Fin 4) → Bool
  | [] => true
  | [_] => true
  | p :: q :: rest => decide (p.1 < q.1) && risingPoints (q :: rest)

/-- The manual timer under a new mask (R138). -/
def State.manualTimerFor (s : State) (mask : List (Fin 4)) : Option Nat :=
  if mask.isEmpty then none
  else if s.header.mask.isEmpty then some (s.now + s.header.manualDuration * Config.usPerSecond)
  else s.header.manualTimer

/-- An accepted MANUAL DOSE (R138). -/
def manualDose (mask : List (Fin 4)) (s : State) : State :=
  grantIfDue { s with header := { s.header with
    mask := mask, manualTimer := s.manualTimerFor mask } }

/-- The set of points of a request: a count, then members from 0 to 3 in strictly ascending order (R138, R201). -/
def pointSet? : List Byte → Option (List (Fin 4))
  | [] => none
  | count :: members =>
    if members.length = count.toNat ∧ members.all (fun b => b.toNat < 4) then
      let set := members.filterMap (fun b => fin? 4 b.toNat)
      if risingPoints set then some set else none
    else none

/-- The checks of MANUAL DOSE in their order (R138, R185). -/
def ruleManualDose (payload : List Byte) (s : State) : Answer :=
  match pointSet? payload with
  | none => .refuse .badArgument
  | some mask =>
    if s.header.state = .tripped ∨ s.supply.state = .low then .refuse .denied
    else if mask.any (fun q => s.points[q].state == .disabled) then .refuse .badArgument
    else .ok (manualDose mask s) []

/-- MANUAL_DOSE (R138). -/
def execManualDose (s : State) : Result := serve 0x43 ruleManualDose s

/-! ### READ HEADER -/

/-- The grant in READ HEADER: 255, 255 and zeros without one (R144, log 11). -/
def grantBytes : Option Grant → List Byte
  | none => byte Config.absent ++ byte Config.absent ++ byte 0 ++ flagByte false ++ byte 0
  | some g => byte g.beneficiary.code ++ byte g.point.1 ++ byte g.strokes
      ++ flagByte g.endRequested ++ byte g.burstLimit

/-- The stroke record in READ HEADER; zeros after the flag without one (R122, log 11). -/
def State.strokeBytes (s : State) : List Byte :=
  match s.stroke with
  | none => flagByte false ++ toBytes 14 0
  | some k => flagByte true ++ byte k.pump.1 ++ byte k.point.1 ++ byte k.beneficiary.code
      ++ toBytes 4 k.mass ++ byte k.phase.code ++ byte k.resolution.code ++ flagByte k.driveCut
      ++ toBytes 4 (s.ms - k.start / Config.usPerMs)

/-- The trip sources: STOP, SUPPLY, and the set of monitors (R158). -/
def TripSet.bytes (t : TripSet) : List Byte :=
  flagByte t.stop ++ flagByte t.supply
    ++ listBytes ((sixteen.filter (fun m => t.monitors[m])).map (·.1))

/-- The fields of READ HEADER (R144). -/
def State.headerBytes (s : State) : List Byte :=
  byte s.header.state.code ++ byte s.header.config.mode.code ++ byte s.header.config.burstLimit
    ++ toBytes 2 s.header.config.settle ++ toBytes 2 s.header.config.pause
    ++ grantBytes s.header.grant ++ toBytes 2 (s.msTo s.header.timer)
    ++ byte s.header.rotation.1 ++ byte s.header.manualPointer.1
    ++ listBytes (s.header.mask.map (·.1)) ++ toBytes 2 s.header.manualDuration
    ++ toBytes 2 (s.secondsTo s.header.manualTimer) ++ s.strokeBytes ++ s.trips.bytes

/-- READ HEADER (R144). -/
def ruleReadHeader (s : State) : Answer := reading s.headerBytes s

/-- READ_HEADER (R144). -/
def execReadHeader (s : State) : Result := serveBare 0x45 ruleReadHeader s

/-! ### Flow switches (R124) -/

/-- The FLOWSW terminal of a point becomes inactive (R124, R135). -/
def flowDrop (t : Fin 16) (s : State) : State :=
  match s.terminals[t] with
  | .flowsw q =>
    if s.levels[t] then requestEnd (Grant.accountAt q) (setLevel t false s) else s
  | _ => s

/-- FLOW_DROP (R124). -/
def execFlowDrop (t : Fin 16) (elapsed : Nat) (s : State) : Result :=
  .next (if s.powered then flowDrop t (elapse elapsed s) else setLevel t false s)

/-- The FLOWSW terminal of a point becomes active (R124). -/
def flowRise (t : Fin 16) (s : State) : State :=
  match s.terminals[t] with
  | .flowsw _ => if s.levels[t] then s else grantIfDue (setLevel t true s)
  | _ => s

/-- FLOW_RISE (R124). -/
def execFlowRise (t : Fin 16) (elapsed : Nat) (s : State) : Result :=
  .next (if s.powered then flowRise t (elapse elapsed s) else setLevel t true s)

end Sys2Proof.Machine
end

