-- ==== Sys2Proof/Machine/Monitors.lean ====
section
/-! DEFINITION. The commands on monitors, the evaluations and the delay expiry (09_limit_monitors_and_trip_output.md). -/

namespace Sys2Proof.Machine

/-! ### CONFIGURE MONITOR -/

/-- The clear level lies on the right side of the threshold, and the delay in its range (R164). -/
def MonitorConfig.inRange (c : MonitorConfig) : Bool :=
  decide (c.delay ≤ 60000) &&
  (match c.sense with
   | .high => decide (c.clearLevel ≤ c.threshold)
   | .low => decide (c.threshold ≤ c.clearLevel))

/-- The action of a monitor that is TRIPPED is released (R168). -/
def releaseIfTripped (m : Fin 16) (s : State) : State :=
  if s.monitors[m].state = .tripped then releaseAction m s.monitors[m].config.action s else s

/-- The evaluations due at a monitor and not yet taken are dropped (R164, log 8). -/
def dropDue (m : Fin 16) (s : State) : State :=
  { s with dueValues := s.dueValues.filter (fun d => d.monitor != m) }

/-- An accepted CONFIGURE MONITOR (R164): the action configured before is released, and the monitor starts anew. -/
def configureMonitor (m : Fin 16) (c : MonitorConfig) (s : State) : State :=
  grantIfDue (editMonitor m (fun _ => .start c) (releaseIfTripped m (dropDue m s)))

/-- The request fields of CONFIGURE MONITOR (R201): monitor, enabled, source kind and number, sense, threshold, clear level,
delay, action. -/
def ruleConfigureMonitor (payload : List Byte) (s : State) : Answer :=
  match fields [1, 1, 1, 1, 1, 4, 4, 2, 1] payload with
  | some [monitor, enabled, kind, number, sense, threshold, clear, delay, action] =>
    match fin? 16 (be monitor), flag? (be enabled), source? (be kind) (be number),
        sense? (be sense), action? (be action) with
    | some m, some e, some src, some sn, some act =>
      let c : MonitorConfig :=
        { enabled := e, source := src, sense := sn, threshold := be threshold,
          clearLevel := be clear, delay := be delay, action := act }
      if c.inRange then .ok (configureMonitor m c s) [] else .refuse .badArgument
    | _, _, _, _, _ => .refuse .badArgument
  | _ => .refuse .badArgument

/-- CONFIGURE_MONITOR (R164). -/
def execConfigureMonitor (s : State) : Result := serve 0x50 ruleConfigureMonitor s

/-! ### ACK MONITOR -/

/-- The monitor after its acknowledgement (R170): TIMING for the full delay if its condition is true, else WATCHING. -/
def Monitor.retimed (u : Monitor) (expiry : Nat) : Monitor :=
  if u.condition then { u with state := .timing, timer := some expiry }
  else { u with state := .watching, timer := none }

/-- ACK MONITOR of a TRIPPED monitor (R170). -/
def ackMonitor (m : Fin 16) (s : State) : State :=
  let u := s.monitors[m]
  if u.config.delay = 0 then s
  else grantIfDue
    (releaseAction m u.config.action
      (editMonitor m (·.retimed (s.after u.config.delay)) s))

/-- ACK MONITOR with its checks and its response, the state after (R170). -/
def ruleAckMonitor (payload : List Byte) (s : State) : Answer :=
  match fields [1] payload with
  | some [monitor] =>
    match fin? 16 (be monitor) with
    | none => .refuse .badArgument
    | some m =>
      if s.monitors[m].state ≠ .tripped then .refuse .wrongState
      else .ok (ackMonitor m s) (byte (ackMonitor m s).monitors[m].state.code)
  | _ => .refuse .badArgument

/-- ACK_MONITOR (R170). -/
def execAckMonitor (s : State) : Result := serve 0x51 ruleAckMonitor s

/-! ### TEST TRIP OUTPUT -/

/-- The TRIP output on the link: 1 while it is active (R172, log 11). -/
def State.tripLevel (s : State) : List Byte := flagByte s.tripOutput

/-- TEST TRIP OUTPUT (R172). -/
def testTripOutput (on : Bool) (s : State) : Answer :=
  if on ∧ s.holder .trip = none then .refuse .conflict
  else .ok { s with tripTest := on } ({ s with tripTest := on }).tripLevel

/-- The request field of TEST TRIP OUTPUT (R201): off 0, on 1. -/
def ruleTestTripOutput (payload : List Byte) (s : State) : Answer :=
  match fields [1] payload with
  | some [on] =>
    match flag? (be on) with
    | none => .refuse .badArgument
    | some b => testTripOutput b s
  | _ => .refuse .badArgument

/-- TEST_TRIP_OUTPUT (R172). -/
def execTestTripOutput (s : State) : Result := serve 0x52 ruleTestTripOutput s

/-! ### Reading (R173) -/

/-- The fields of READ MONITOR (R173). -/
def State.monitorBytes (s : State) (m : Fin 16) : List Byte :=
  let u := s.monitors[m]
  byte u.state.code ++ flagByte u.config.enabled ++ u.config.source.bytes
    ++ byte u.config.sense.code ++ toBytes 4 u.config.threshold ++ toBytes 4 u.config.clearLevel
    ++ toBytes 2 u.config.delay ++ byte u.config.action.code ++ presentBytes 4 u.last
    ++ toBytes 2 (s.msTo u.timer) ++ flagByte u.applied

/-- READ MONITOR (R173). -/
def ruleReadMonitor (payload : List Byte) (s : State) : Answer :=
  match fields [1] payload with
  | some [monitor] =>
    match fin? 16 (be monitor) with
    | none => .refuse .badArgument
    | some m => reading (s.monitorBytes m) s
  | _ => .refuse .badArgument

/-- READ_MONITOR (R173). -/
def execReadMonitor (s : State) : Result := serve 0x53 ruleReadMonitor s

/-- The fields of READ MONITOR SUMMARY (R173). -/
def State.summaryBytes (s : State) : List Byte :=
  sixteen.flatMap (fun m => byte s.monitors[m].state.code) ++ flagByte s.tripTest
    ++ numberOrNone (s.holder .trip) ++ s.tripLevel

/-- READ MONITOR SUMMARY (R173). -/
def ruleReadMonitorSummary (s : State) : Answer := reading s.summaryBytes s

/-- READ_MONITOR_SUMMARY (R173). -/
def execReadMonitorSummary (s : State) : Result := serveBare 0x54 ruleReadMonitorSummary s

/-! ### Evaluation -/

/-- A new value at a monitor with a delay above 0 (R166). -/
def evaluateTimed (m : Fin 16) (value : Nat) (s : State) : State :=
  let u := s.monitors[m]
  match u.state with
  | .watching =>
    if u.config.beyond value
    then editMonitor m
      (fun u => { u with state := .timing, timer := some (s.after u.config.delay) }) s
    else s
  | .timing =>
    if u.config.clears value
    then editMonitor m (fun u => { u with state := .watching, timer := none }) s
    else s
  | .tripped => s
  | .disabled => s

/-- A new value at a monitor with delay 0 (R169). -/
def evaluateFollowing (m : Fin 16) (value : Nat) (s : State) : State :=
  let u := s.monitors[m]
  match u.state with
  | .watching => if u.config.beyond value then enterTripped m s else s
  | .tripped =>
    if u.config.clears value
    then releaseAction m u.config.action
      (editMonitor m (fun u => { u with state := .watching, timer := none }) s)
    else s
  | .timing => s
  | .disabled => s

/-- An evaluation (R165): the value becomes the last value, and the monitor acts by its state. A DISABLED monitor does not
record it. -/
def evaluate (m : Fin 16) (value : Nat) (s : State) : State :=
  if s.monitors[m].state = .disabled then s
  else
    let s := editMonitor m (fun u => { u with last := some value }) s
    if s.monitors[m].config.delay = 0 then evaluateFollowing m value s
    else evaluateTimed m value s

/-- MONITOR_EVALUATION (R165): the oldest evaluation due at the monitor is taken. -/
def execMonitorEvaluation (m : Fin 16) (s : State) : Result :=
  event (fun s =>
    match s.dueValues.find? (fun d => d.monitor == m) with
    | none => s
    | some d =>
      grantIfDue (evaluate m d.value
        { s with dueValues := s.dueValues.eraseP (fun d => d.monitor == m) })) s

/-- The delay expiry of a TIMING monitor (R167). -/
def delayExpiry (m : Fin 16) (s : State) : State :=
  let u := s.monitors[m]
  match u.state, u.timer with
  | .timing, some t =>
    let s := reach t s
    if u.condition then enterTripped m s
    else editMonitor m (fun u => { u with state := .watching, timer := none }) s
  | _, _ => s

/-- DELAY_EXPIRY (R167). -/
def execDelayExpiry (m : Fin 16) (s : State) : Result := event (delayExpiry m) s

end Sys2Proof.Machine
end

