-- ==== Sys2Proof/Machine/Pumps.lean ====
section
/-! DEFINITION. The commands on pumps, and the station stop input (08_pumps_and_header_trips.md). -/

namespace Sys2Proof.Machine

/-- The request that names a pump, 0 to 1, as its only field, and what a command does with it. -/
def onPump (f : Fin 2 → State → Answer) (payload : List Byte) (s : State) : Answer :=
  match fields [1] payload with
  | some [pump] =>
    match fin? 2 (be pump) with
    | none => .refuse .badArgument
    | some p => f p s
  | _ => .refuse .badArgument

/-! ### CONFIGURE PUMP -/

/-- The ranges of a pump's configuration (R148, R149). -/
def PumpConfig.inRange (c : PumpConfig) : Bool :=
  Sys2Proof.Machine.inRange 1000 500000 c.mass && Sys2Proof.Machine.inRange 20 2000 c.onTime
    && Sys2Proof.Machine.inRange 50 5000 c.window && Sys2Proof.Machine.inRange 100 10000 c.spacing
    && Sys2Proof.Machine.inRange 1 15 c.failureLimit && decide (c.onTime ≤ c.window)

/-- A stroke mass lies above the catch-up limit of some point, ENABLED or DISABLED (R149, R150). -/
def State.massAboveLimit (s : State) (mass : Nat) : Bool :=
  pointNumbers.any (fun q => decide (s.points[q].limit < mass))

/-- CONFIGURE PUMP with its checks in their order (R149). -/
def configurePump (c : PumpConfig) (p : Fin 2) (s : State) : Answer :=
  if s.pumps[p].state = .duty ∨ s.pumps[p].state = .failed then .refuse .wrongState
  else if !c.inRange then .refuse .badArgument
  else if s.massAboveLimit c.mass then .refuse .conflict
  else .ok (editPump p (fun u => { u with config := c, unproven := 0 }) s) []

/-- The request fields of CONFIGURE PUMP (R201): pump, S, on-time, proof window, spacing, failure limit. -/
def ruleConfigurePump (payload : List Byte) (s : State) : Answer :=
  match fields [1, 4, 2, 2, 2, 1] payload with
  | some [pump, mass, onTime, window, spacing, limit] =>
    match fin? 2 (be pump) with
    | none => .refuse .badArgument
    | some p =>
      configurePump
        { mass := be mass, onTime := be onTime, window := be window, spacing := be spacing,
          failureLimit := be limit } p s
  | _ => .refuse .badArgument

/-- CONFIGURE_PUMP (R149). -/
def execConfigurePump (s : State) : Result := serve 0x48 ruleConfigurePump s

/-! ### RESTORE PUMP, ISOLATE PUMP and RESET PUMP -/

/-- RESTORE PUMP (R150). -/
def restorePump (p : Fin 2) (s : State) : Answer :=
  if s.pumps[p].state ≠ .isolated then .refuse .wrongState
  else if s.holder (.drive p) = none then .refuse .conflict
  else if s.massAboveLimit s.pumps[p].config.mass then .refuse .conflict
  else .ok (editPump p (fun u => { u with state := .standby, unproven := 0 }) s) []

/-- RESTORE_PUMP (R150). -/
def execRestorePump (s : State) : Result := serve 0x49 (onPump restorePump) s

/-- The stroke record holds a stroke of the pump (R151). -/
def State.strokeOf (s : State) (p : Fin 2) : Bool :=
  match s.stroke with
  | none => false
  | some k => k.pump == p

/-- ISOLATE PUMP (R151). -/
def isolatePump (p : Fin 2) (s : State) : Answer :=
  if s.pumps[p].state = .duty ∨ s.pumps[p].state = .isolated then .refuse .wrongState
  else if s.strokeOf p then .refuse .inUse
  else .ok
    { editPump p (fun u => { u with state := .isolated }) s with
      pendingDuty := if s.pendingDuty = some p then none else s.pendingDuty } []

/-- ISOLATE_PUMP (R151). -/
def execIsolatePump (s : State) : Result := serve 0x4A (onPump isolatePump) s

/-- RESET PUMP (R155). -/
def resetPump (p : Fin 2) (s : State) : Answer :=
  if s.pumps[p].state ≠ .failed then .refuse .wrongState
  else .ok (editPump p (fun u => { u with state := .standby, unproven := 0 }) s) []

/-- RESET_PUMP (R155). -/
def execResetPump (s : State) : Result := serve 0x4C (onPump resetPump) s

/-! ### SELECT DUTY -/

/-- SELECT DUTY (R152): APPLIED, code 0, with the record empty; DEFERRED, code 1, with a stroke in it. -/
def selectDuty (p : Fin 2) (s : State) : Answer :=
  if s.pumps[p].state ≠ .standby then .refuse .wrongState
  else if s.stroke.isNone
  then .ok (grantIfDue { makeDuty p s with pendingDuty := none }) (byte 0)
  else .ok { s with pendingDuty := some p } (byte 1)

/-- SELECT_DUTY (R152). -/
def execSelectDuty (s : State) : Result := serve 0x4B (onPump selectDuty) s

/-! ### READ PUMP -/

/-- The fields of READ PUMP (R157). -/
def State.pumpBytes (s : State) (p : Fin 2) : List Byte :=
  let u := s.pumps[p]
  byte u.state.code ++ toBytes 4 u.config.mass ++ toBytes 2 u.config.onTime
    ++ toBytes 2 u.config.window ++ toBytes 2 u.config.spacing ++ byte u.config.failureLimit
    ++ byte u.unproven ++ toBytes 4 u.stray ++ toBytes 4 u.strokes
    ++ numberOrNone (s.holder (.drive p)) ++ numberOrNone (s.holder (.proof p))
    ++ flagByte (s.driveActive p) ++ flagByte (s.pendingDuty == some p)

/-- READ PUMP (R157). -/
def readPump (p : Fin 2) (s : State) : Answer := reading (s.pumpBytes p) s

/-- READ_PUMP (R157). -/
def execReadPump (s : State) : Result := serve 0x4D (onPump readPump) s

/-! ### The station stop input (R158) -/

/-- STOP joins or leaves. -/
def TripSet.withStop (present : Bool) (t : TripSet) : TripSet := { t with stop := present }

/-- The STOP_IN terminal becomes active, low: STOP joins (R158). -/
def stopInActive (t : Fin 16) (s : State) : State :=
  if s.terminals[t] = .stopIn ∧ s.levels[t] = true
  then changeTrips (.withStop true) (setLevel t false s)
  else s

/-- STOP_IN_ACTIVE (R158). -/
def execStopInActive (t : Fin 16) (elapsed : Nat) (s : State) : Result :=
  .next (if s.powered then stopInActive t (elapse elapsed s) else setLevel t false s)

/-- The STOP_IN terminal becomes inactive, high: STOP leaves (R158). -/
def stopInInactive (t : Fin 16) (s : State) : State :=
  if s.terminals[t] = .stopIn ∧ s.levels[t] = false
  then grantIfDue (changeTrips (.withStop false) (setLevel t true s))
  else s

/-- STOP_IN_INACTIVE (R158). -/
def execStopInInactive (t : Fin 16) (elapsed : Nat) (s : State) : Result :=
  .next (if s.powered then stopInInactive t (elapse elapsed s) else setLevel t true s)

end Sys2Proof.Machine
end

