-- ==== Sys2Proof/Machine/Port.lean ====
section
/-! DEFINITION. The transactions of the link, UNKNOWN_COMMAND, and the commands on terminals and attention
(11_command_port_terminals_and_attention.md). -/

namespace Sys2Proof.Machine

/-! ### Transactions (R194 to R198) -/

/-- A well-formed frame is accepted (R195, R198). -/
def acceptRequest (q : Request) (s : State) : State :=
  { s with port := { s.port with
    state := .executing, request := some q, response := none, discard := false } }

/-- The response to a frame that is not well formed (R195, R198). -/
def badFrame : Response := { status := .badFrame, discarded := false, payload := [] }

/-- A frame that is not well formed is answered, with FRAME_ERROR (R195). -/
def refuseFrame (s : State) : State :=
  raise .portEvent 0
    { s with port := { s.port with state := .responseReady, response := some badFrame } }

/-- A request transaction ends while a command is in execution (R198). -/
def discardRequest (s : State) : State := { s with port := { s.port with discard := true } }

/-- A request transaction ends with its bytes (R195, R198). -/
def requestEnds (bytes : List Byte) (s : State) : State :=
  if s.port.state = .executing then discardRequest s
  else match requestOf bytes with
    | some q => acceptRequest q s
    | none => refuseFrame s

/-- The frame that the port state gives a FETCH (R197). -/
def Port.fetchFrame (p : Port) : List Byte :=
  match p.state, p.response with
  | .responseReady, some r => r.frame
  | .executing, _ => ({ status := .busy, discarded := false, payload := [] } : Response).frame
  | _, _ => ({ status := .wrongState, discarded := false, payload := [] } : Response).frame

/-- The first `count` bytes of a frame, then 0x00 once it is exhausted (R194). -/
def shifted (count : Nat) (frame : List Byte) : List Byte :=
  frame.take count ++ List.replicate (count - frame.length) 0

/-- Bytes of a FETCH after its first: its frame is taken when the second byte is clocked (R197), and shifted out on (R194). -/
def Port.clockFetch (rest : Option (List Byte)) (count : Nat) (p : Port) : Port :=
  if count = 0 then p
  else
    let frame := rest.getD p.fetchFrame
    { p with link := .fetching (some (frame.drop count)), miso := p.miso ++ shifted count frame }

/-- The first bytes of a transaction: the first of all decides its kind (R194). -/
def Port.clockFirst (bytes : List Byte) (p : Port) : Port :=
  match bytes with
  | [] => p
  | b :: rest =>
    if b = 0 then { p with link := .fetching none, miso := [] }.clockFetch none rest.length
    else { p with link := .receiving bytes, miso := List.replicate bytes.length 0 }

/-- Complete bytes of the transaction in progress (R194, R199). -/
def Port.clockBytes (bytes : List Byte) (p : Port) : Port :=
  match p.link with
  | .high => p
  | .receiving [] => p.clockFirst bytes
  | .receiving (b :: got) =>
    { p with
      link := .receiving (b :: got ++ bytes), miso := p.miso ++ List.replicate bytes.length 0 }
  | .fetching rest => p.clockFetch rest bytes.length
  | .ended => { p with miso := p.miso ++ List.replicate bytes.length 0 }

/-- CS_N falls: a transaction begins (R194). -/
def Port.fall (p : Port) : Port := { p with link := .receiving [] }

/-- CS_N rises: a request with at least one byte is taken up, and any other transaction ends without effect (R194, R199). -/
def riseLink (s : State) : State :=
  let s' := { s with port := { s.port with link := .high } }
  match s.port.link with
  | .receiving (b :: got) => requestEnds (b :: got) s'
  | _ => s'

/-- The bytes of a part are clocked, after the fall of CS_N if the part begins with it. -/
def Port.clockPart (bytes : Part (List Byte)) (p : Port) : Port :=
  (if bytes.begins then p.fall else p).clockBytes bytes.content

/-- A part of a transaction: it can begin only while CS_N is high, and go on only while it is low (log 3). -/
def transaction (bytes : Part (List Byte)) (s : State) : State :=
  if bytes.begins = decide (s.port.link = .high) then
    let s' := { s with port := s.port.clockPart bytes }
    if bytes.ends then riseLink s' else s'
  else s

/-- REQUEST_FRAME (R195). -/
def execRequestFrame (bytes : Part (List Byte)) (elapsed : Nat) (s : State) : Result :=
  eventAfter elapsed (transaction bytes) s

/-- The bytes of a FETCH: 0x00 first, then bytes that are ignored (R194). -/
def fetchBytes : Part Nat → Part (List Byte)
  | .whole count => .whole (List.replicate (count + 1) 0)
  | .first count => .first (List.replicate (count + 1) 0)
  | .next count => .next (List.replicate count 0)
  | .last count => .last (List.replicate count 0)

/-- FETCH (R197): `count` bytes after the first, or going on. -/
def execFetch (count : Part Nat) (elapsed : Nat) (s : State) : Result :=
  eventAfter elapsed (transaction (fetchBytes count)) s

/-- UNKNOWN_COMMAND (R196). -/
def execUnknownCommand (s : State) : Result :=
  .next (match s.executing with
    | none => s
    | some q => if knownCommands.contains q.number then s else complete .unknownCommand [] s)

/-! ### MAP TERMINAL (R203) -/

/-- The function of a terminal is in use (R203). -/
def State.functionInUse (s : State) (f : TerminalFunction) : Bool :=
  match f with
  | .none => false
  | .pulse r => s.runs[r].state == .inService
  | .drive p => s.pumps[p].state != .isolated
  | .proof _ => s.header.state != .idle
  | .valve q => s.points[q].state == .enabled
  | .flowsw _ => s.header.state != .idle
  | .sync => false
  | .stopIn => false
  | .trip => false

/-- Another terminal holds the function with its subject; NONE may be held by many (R203, log 14). -/
def State.heldElsewhere (s : State) (t : Fin 16) (f : TerminalFunction) : Bool :=
  f != .none && sixteen.any (fun u => u != t && s.terminals[u] == f)

/-- The flow drops of a mapping: the grant at a point that had flow and has none (R124, R135). -/
def dropFlows (before s : State) : State :=
  (pointNumbers.filter (fun q => before.flowing q && !s.flowing q)).foldl
    (fun s q => requestEnd (Grant.accountAt q) s) s

/-- STOP joins or leaves by a mapping (R158). -/
def remapStop (before s : State) : State :=
  if before.stopActive = s.stopActive then s
  else changeTrips (.withStop s.stopActive) s

/-- The terminal takes its new function, and the owners of both functions see it (R203). -/
def mapTerminal (t : Fin 16) (f : TerminalFunction) (s : State) : State :=
  let mapped := { s with terminals := setAt s.terminals t f }
  grantIfDue (remapStop s (dropFlows s mapped))

/-- The checks of MAP TERMINAL after the ranges, in their order (R203). -/
def mapTerminalChecked (t : Fin 16) (f : TerminalFunction) (s : State) : Answer :=
  if f = s.terminals[t] then .ok s []
  else if s.functionInUse s.terminals[t] then .refuse .inUse
  else if s.heldElsewhere t f then .refuse .conflict
  else .ok (mapTerminal t f s) []

/-- The request fields of MAP TERMINAL (R201): terminal, function, subject. -/
def ruleMapTerminal (payload : List Byte) (s : State) : Answer :=
  match fields [1, 1, 1] payload with
  | some [terminal, code, subject] =>
    match fin? 16 (be terminal), function? (be code) (be subject) with
    | some t, some f => mapTerminalChecked t f s
    | _, _ => .refuse .badArgument
  | _ => .refuse .badArgument

/-- MAP_TERMINAL (R203). -/
def execMapTerminal (s : State) : Result := serve 0x70 ruleMapTerminal s

/-- The fields of READ TERMINALS (R204). -/
def State.terminalBytes (s : State) : List Byte :=
  sixteen.flatMap (fun t => s.terminals[t].bytes ++ flagByte (s.terminalLevel t))

/-- READ TERMINALS (R204). -/
def ruleReadTerminals (s : State) : Answer := reading s.terminalBytes s

/-- READ_TERMINALS (R204). -/
def execReadTerminals (s : State) : Result := serveBare 0x71 ruleReadTerminals s

/-! ### Attention (R207 to R209) -/

/-- The pending kinds in report order: highest level first, then the fixed order (R207). -/
def State.reportOrder (s : State) : List (Fin 16) :=
  [3, 2, 1, 0].flatMap (fun level =>
    sixteen.filter (fun k => s.causes[k].pending && s.causes[k].level == level))

/-- An entry of READ ATTENTION: code, level, subject set (R207). -/
def State.causeEntry (s : State) (k : Fin 16) : List Byte :=
  byte k.1 ++ byte s.causes[k].level ++ listBytes s.causes[k].subjects

/-- As many whole entries, from the first on, as fit in a number of bytes (R207). -/
def fitting : Nat → List (List Byte) → List (List Byte)
  | _, [] => []
  | room, e :: es => if e.length ≤ room then e :: fitting (room - e.length) es else []

/-- The fields of READ ATTENTION (R207): the number pending, then the entries as a list with its count (R201, log 11). -/
def State.attentionBytes (s : State) (start : Nat) : List Byte :=
  let entries := fitting (Config.maxPayload - 2) ((s.reportOrder.drop start).map s.causeEntry)
  byte (sixteen.countP (fun k => s.causes[k].pending)) ++ byte entries.length ++ entries.flatten

/-- READ ATTENTION (R207). -/
def ruleReadAttention (payload : List Byte) (s : State) : Answer :=
  match fields [1] payload with
  | some [start] =>
    if 15 < be start then .refuse .badArgument else reading (s.attentionBytes (be start)) s
  | _ => .refuse .badArgument

/-- READ_ATTENTION (R207). -/
def execReadAttention (s : State) : Result := serve 0x72 ruleReadAttention s

/-- The number of subjects of a kind, numbered from 0; 0 for a kind whose single subject is ALL (R205). -/
def subjectCount : Table Nat 16 := #v[3, 0, 0, 2, 12, 16, 16, 8, 6, 6, 0, 0, 0, 12, 0, 2]

/-- A subject that ACK ATTENTION may name (R208). -/
def subjectAllowed (k : Fin 16) (n : Nat) : Bool :=
  decide (n < subjectCount[k]) || n == Config.subjectAll

/-- The cause after an acknowledgement (R208). -/
def Cause.acknowledged (c : Cause) (named : List Nat) : Cause :=
  { c with subjects :=
      if named.contains Config.subjectAll then []
      else c.subjects.filter (fun n => !named.contains n) }

/-- ACK ATTENTION (R208). -/
def ackAttention (k : Fin 16) (named : List Nat) (s : State) : State :=
  { s with causes := editAt s.causes k (·.acknowledged named) }

/-- The request fields of ACK ATTENTION (R201) and its checks (R208): kind, a count, the subjects. -/
def ruleAckAttention (payload : List Byte) (s : State) : Answer :=
  match payload with
  | kind :: count :: subjects =>
    let named := subjects.map (·.toNat)
    match fin? 16 kind.toNat with
    | none => .refuse .badArgument
    | some k =>
      if named.length = count.toNat ∧ 1 ≤ named.length ∧ named.length ≤ 16
          ∧ named.all (subjectAllowed k)
      then .ok (ackAttention k named s) []
      else .refuse .badArgument
  | _ => .refuse .badArgument

/-- ACK_ATTENTION (R208). -/
def execAckAttention (s : State) : Result := serve 0x73 ruleAckAttention s

/-- The cause under a new level (R209). -/
def Cause.leveled (c : Cause) (level : Nat) : Cause :=
  { level := level, subjects := if level = 0 then [] else c.subjects }

/-- SET ATTENTION LEVEL (R209). -/
def setAttentionLevel (k : Fin 16) (level : Nat) (s : State) : State :=
  { s with causes := editAt s.causes k (·.leveled level) }

/-- The request fields of SET ATTENTION LEVEL (R201) and its checks (R209): kind, level. -/
def ruleSetAttentionLevel (payload : List Byte) (s : State) : Answer :=
  match fields [1, 1] payload with
  | some [kind, level] =>
    match fin? 16 (be kind) with
    | none => .refuse .badArgument
    | some k =>
      if 3 < be level then .refuse .badArgument else .ok (setAttentionLevel k (be level) s) []
  | _ => .refuse .badArgument

/-- SET_ATTENTION_LEVEL (R209). -/
def execSetAttentionLevel (s : State) : Result := serve 0x74 ruleSetAttentionLevel s

/-- READ LEVELS (R209). -/
def ruleReadLevels (s : State) : Answer :=
  reading (sixteen.flatMap (fun k => byte s.causes[k].level)) s

/-- READ_LEVELS (R209). -/
def execReadLevels (s : State) : Result := serveBare 0x75 ruleReadLevels s

end Sys2Proof.Machine
end

