-- ==== Sys2Proof/Machine/QualityTable.lean ====
section
/-! DEFINITION. The commands on gas-quality slots and the expiry of a slot (04_gas_quality_records.md). -/

namespace Sys2Proof.Machine

/-- The record that POST COMPOSITION writes (R70). -/
def Quality.posting (tag : List Byte) (heating a b validity postedAt : Nat) : Quality :=
  { state := .current, tag := tag, heating := heating, slopeA := a, slopeB := b,
    validity := validity, remaining := validity * 60, posted := postedAt }

/-- POST COMPOSITION (R70). -/
def postComposition (q : Fin 8) (tag : List Byte) (heating a b validity : Nat) (s : State) :
    Answer :=
  if printable tag && inRange 30000 50000 heating && inRange 0 50000 a && inRange 0 1000 b
      && inRange 1 1440 validity
  then .ok { s with
    quality := setAt s.quality q (.posting tag heating a b validity s.clock.deviceTime) } []
  else .refuse .badArgument

/-- The request fields of POST COMPOSITION (R201): slot, source tag, HV, A, B, validity. -/
def rulePostComposition (payload : List Byte) (s : State) : Answer :=
  match fields [1, 8, 2, 2, 2, 2] payload with
  | some [slot, tag, heating, a, b, validity] =>
    match fin? 8 (be slot) with
    | none => .refuse .badArgument
    | some q => postComposition q tag (be heating) (be a) (be b) (be validity) s
  | _ => .refuse .badArgument

/-- POST_COMPOSITION (R70). -/
def execPostComposition (s : State) : Result := serve 0x28 rulePostComposition s

/-- RETIRE COMPOSITION (R77). -/
def ruleRetireComposition (payload : List Byte) (s : State) : Answer :=
  match fields [1] payload with
  | some [slot] =>
    match fin? 8 (be slot) with
    | none => .refuse .badArgument
    | some q =>
      if s.quality[q].state = .empty then .refuse .wrongState
      else if 0 < s.namingCount q then .refuse .inUse
      else .ok { s with quality := setAt s.quality q .none } []
  | _ => .refuse .badArgument

/-- RETIRE_COMPOSITION (R77). -/
def execRetireComposition (s : State) : Result := serve 0x29 ruleRetireComposition s

/-- The fields of READ COMPOSITION (R78). -/
def State.compositionBytes (s : State) (q : Fin 8) : List Byte :=
  let c := s.quality[q]
  byte c.state.code ++ c.tag ++ toBytes 2 c.heating ++ toBytes 2 c.slopeA ++ toBytes 2 c.slopeB
    ++ toBytes 2 c.validity ++ toBytes 4 c.remaining ++ toBytes 4 c.posted
    ++ byte (s.namingCount q)

/-- READ COMPOSITION (R78). -/
def ruleReadComposition (payload : List Byte) (s : State) : Answer :=
  match fields [1] payload with
  | some [slot] =>
    match fin? 8 (be slot) with
    | none => .refuse .badArgument
    | some q => reading (s.compositionBytes q) s
  | _ => .refuse .badArgument

/-- READ_COMPOSITION (R78). -/
def execReadComposition (s : State) : Result := serve 0x2A ruleReadComposition s

/-- A CURRENT slot whose remaining validity stands at 0 becomes STALE, with COMPOSITION_STALE (R73). -/
def expireSlot (q : Fin 8) (s : State) : State :=
  if s.quality[q].state = .current ∧ s.quality[q].remaining = 0
  then raise .compositionStale q.1
    { s with quality := editAt s.quality q (fun c => { c with state := .stale }) }
  else s

/-- A slot at a device second: a CURRENT one counts down (R72). -/
def Quality.countDown (c : Quality) : Quality :=
  if c.state = .current then { c with remaining := c.remaining - 1 } else c

/-- The countdown of all eight slots at a device second, with the expiries that fall in it (R72, R73). -/
def countDownAll (s : State) : State :=
  qualitySlots.foldl (fun s q => expireSlot q s)
    { s with quality := mapAll Quality.countDown s.quality }

/-- VALIDITY_EXPIRY (R73): the expiry of one slot. A device second makes it within its own event, log 9. -/
def execValidityExpiry (slot : Fin 8) (s : State) : Result := event (expireSlot slot) s

end Sys2Proof.Machine
end

