-- ==== Sys2Proof/Machine/Scanner.lean ====
section
/-! DEFINITION. The commands on channels and scans, the scan triggers and CONVERSION_END (05_analog_scanning_and_held_values.md). -/

namespace Sys2Proof.Machine

/-! ### CONFIGURE CHANNEL -/

/-- The limits of lo and hi by kind (R82). -/
def ChannelKind.limits : ChannelKind → Nat × Nat
  | .pressure => (10000, 20000000)
  | .temperature => (200000, 400000)
  | .level => (0, 1000)

/-- The ranges of a channel's configuration (R82, R84). -/
def ChannelConfig.inRange (c : ChannelConfig) : Bool :=
  Sys2Proof.Machine.inRange c.kind.limits.1 c.kind.limits.2 c.lo
    && Sys2Proof.Machine.inRange c.kind.limits.1 c.kind.limits.2 c.hi
    && decide (c.lo < c.hi) && Sys2Proof.Machine.inRange c.lo c.hi c.fallback

/-- The channel is the P or T channel of an IN_SERVICE run (R84). -/
def State.channelInUse (s : State) (c : Fin 16) : Bool :=
  runNumbers.any (fun r => s.runs[r].state == .inService &&
    (s.runs[r].config.pChannel == c || s.runs[r].config.tChannel == c))

/-- The channel returned to NO_DATA under a configuration; the last code is kept (R83, R85). -/
def Channel.toNoData (ch : Channel) (c : ChannelConfig) : Channel :=
  { ch with config := c, state := .noData, value := c.fallback, liveSeen := false }

/-- The value of a channel that keeps its state under a new fallback (R85). -/
def Channel.keptValue (ch : Channel) (fallback : Nat) : Nat :=
  match ch.state with
  | .live => ch.value
  | .held => if ch.liveSeen then ch.value else fallback
  | .noData => fallback

/-- The channel after an accepted CONFIGURE CHANNEL (R85). -/
def Channel.configured (ch : Channel) (c : ChannelConfig) : Channel :=
  if c.enabled ∧ ch.config.enabled ∧ c.kind = ch.config.kind ∧ c.lo = ch.config.lo
      ∧ c.hi = ch.config.hi
  then { ch with config := c, value := ch.keptValue c.fallback }
  else ch.toNoData c

/-- CONFIGURE CHANNEL (R84, R85). -/
def configureChannel (i : Fin 16) (c : ChannelConfig) (s : State) : Answer :=
  if !c.inRange then .refuse .badArgument
  else if c.kind ≠ s.channels[i].config.kind ∧ s.channelInUse i then .refuse .inUse
  else .ok { s with channels := editAt s.channels i (·.configured c) } []

/-- The request fields of CONFIGURE CHANNEL (R201): channel, enabled, kind, lo, hi, fallback. -/
def ruleConfigureChannel (payload : List Byte) (s : State) : Answer :=
  match fields [1, 1, 1, 4, 4, 4] payload with
  | some [channel, enabled, kind, lo, hi, fallback] =>
    match fin? 16 (be channel), flag? (be enabled), kind? (be kind) with
    | some i, some e, some k =>
      configureChannel i
        { enabled := e, kind := k, lo := be lo, hi := be hi, fallback := be fallback } s
    | _, _, _ => .refuse .badArgument
  | _ => .refuse .badArgument

/-- CONFIGURE_CHANNEL (R85). -/
def execConfigureChannel (s : State) : Result := serve 0x30 ruleConfigureChannel s

/-! ### SET SCAN and SCAN NOW -/

/-- SET SCAN (R87): an interval source restarts the timer, any other stops it. -/
def setScan (source : TriggerSource) (interval : Nat) (s : State) : Answer :=
  if !inRange 100 60000 interval then .refuse .badArgument
  else if source = .sync ∧ (s.holder .sync).isNone then .refuse .conflict
  else .ok { s with scan := { s.scan with
    source := source
    interval := interval
    timer := if source = .interval then some (s.after interval) else none } } []

/-- The request fields of SET SCAN (R201): source, interval. -/
def ruleSetScan (payload : List Byte) (s : State) : Answer :=
  match fields [1, 2] payload with
  | some [source, interval] =>
    match trigger? (be source) with
    | none => .refuse .badArgument
    | some src => setScan src (be interval) s
  | _ => .refuse .badArgument

/-- SET_SCAN (R87). -/
def execSetScan (s : State) : Result := serve 0x31 ruleSetScan s

/-- SCAN NOW (R93). -/
def ruleScanNow (s : State) : Answer :=
  match s.scan.state with
  | .suspended => .refuse .denied
  | .scanning => .refuse .busy
  | .idle => .ok (startScan s) []

/-- SCAN_NOW (R93). -/
def execScanNow (s : State) : Result := serveBare 0x32 ruleScanNow s

/-! ### Reading -/

/-- The fields of READ CHANNEL (R96). -/
def Channel.bytes (ch : Channel) : List Byte :=
  flagByte ch.config.enabled ++ byte ch.config.kind.code ++ toBytes 4 ch.config.lo
    ++ toBytes 4 ch.config.hi ++ toBytes 4 ch.config.fallback ++ byte ch.state.code
    ++ toBytes 2 ch.code.toNat ++ toBytes 4 ch.value ++ flagByte ch.liveSeen

/-- READ CHANNEL (R96). -/
def ruleReadChannel (payload : List Byte) (s : State) : Answer :=
  match fields [1] payload with
  | some [channel] =>
    match fin? 16 (be channel) with
    | none => .refuse .badArgument
    | some i => reading s.channels[i].bytes s
  | _ => .refuse .badArgument

/-- READ_CHANNEL (R96). -/
def execReadChannel (s : State) : Result := serve 0x33 ruleReadChannel s

/-- The fields of READ SCAN (R97). -/
def State.scanBytes (s : State) : List Byte :=
  byte s.scan.source.code ++ toBytes 2 s.scan.interval ++ byte s.scan.state.code
    ++ toBytes 2 (s.msTo s.scan.timer) ++ byte s.scan.list.length ++ byte s.scan.done
    ++ toBytes 4 s.scan.count

/-- READ SCAN (R97). -/
def ruleReadScan (s : State) : Answer := reading s.scanBytes s

/-- READ_SCAN (R97). -/
def execReadScan (s : State) : Result := serveBare 0x34 ruleReadScan s

/-! ### Triggers -/

/-- An activation of the SYNC terminal, a change from inactive, low, to active, high (R202): a trigger under source SYNC, nothing at
the scanner otherwise (R87). -/
def syncActivation (t : Fin 16) (s : State) : State :=
  if s.terminals[t] = .sync ∧ s.levels[t] = false then
    let s := setLevel t true s
    if s.scan.source = .sync then trigger s else s
  else s

/-- SYNC_ACTIVATION (R87). -/
def execSyncActivation (t : Fin 16) (elapsed : Nat) (s : State) : Result :=
  .next (if s.powered then syncActivation t (elapse elapsed s) else setLevel t true s)

/-- The interval timer's expiry (R87): it restarts for one further interval and triggers. -/
def intervalExpiry (s : State) : State :=
  trigger { s with scan := { s.scan with
    timer := s.scan.timer.map (· + s.scan.interval * Config.usPerMs) } }

/-- INTERVAL_EXPIRY (R87). -/
def execIntervalExpiry (s : State) : Result := expiry (·.scan.timer) intervalExpiry s

/-! ### Conversions -/

/-- The value of a code inside the window (R90). -/
def convert (c : ChannelConfig) (code : Nat) : Nat :=
  (clamp c.lo c.hi
    (c.lo + roundHalfAway (((code : Int) - 10923) * ((c.hi : Int) - c.lo)) 43690)).toNat

/-- The code lies in the valid window (R89). -/
def codeValid (code : BitVec 16) : Bool := inRange Config.codeLow Config.codeHigh code.toNat

/-- The channel after it has taken a code (R89). -/
def Channel.taking (ch : Channel) (code : BitVec 16) : Channel :=
  if codeValid code
  then { ch with
    code := code, state := .live, value := convert ch.config code.toNat, liveSeen := true }
  else { ch with
    code := code, state := .held, value := if ch.liveSeen then ch.value else ch.config.fallback }

/-- A channel takes the code of its conversion: SENSOR_HOLD on the change into HELD, and a new value for its monitors; the result
of a disabled channel is discarded (R89, R93). -/
def takeCode (i : Fin 16) (code : BitVec 16) (s : State) : State :=
  if s.channels[i].config.enabled then
    let before := s.channels[i].state
    let s := { s with channels := editAt s.channels i (·.taking code) }
    let s := raiseIf (s.channels[i].state == .held && before != .held) .sensorHold i.1 s
    newValue (.channel i) s.channels[i].value s
  else s

/-- The end of the conversion in progress (R88, R89); the last one is the scan completion (R91). -/
def conversionEnd (code : BitVec 16) (s : State) : State :=
  match s.scan.state, s.scan.list[s.scan.done]? with
  | .scanning, some i =>
    let ends := s.scan.conversionEnd
    let s := takeCode i code (reach ends s)
    let s := { s with scan := { s.scan with
      done := s.scan.done + 1, conversionEnd := ends + Config.conversionUs } }
    if s.scan.done = s.scan.list.length then completeScan s else s
  | _, _ => s

/-- CONVERSION_END (R89). -/
def execConversionEnd (code : BitVec 16) (s : State) : Result := event (conversionEnd code) s

end Sys2Proof.Machine
end

