-- ==== Sys2Proof/Machine/Station.lean ====
section
/-! DEFINITION. Time, base conditions, the supply, the image, the warm reset and the cold start
(10_station_time_supply_and_the_stored_image.md). -/

namespace Sys2Proof.Machine

/-! ### Commands on time and base conditions -/

/-- One rollover if the time is set and the new time lies in another gas day (R178). -/
def rollIfOtherDay (time : Nat) (s : State) : State :=
  if s.clock.timeSet ∧ s.clock.gasDay time ≠ s.clock.gasDay s.clock.deviceTime
  then rollover s else s

/-- Device time becomes the given one, and the time-set flag is set (R178). -/
def writeTime (time : Nat) (s : State) : State :=
  { s with clock := { s.clock with deviceTime := time, timeSet := true } }

/-- SET TIME (R178). -/
def setTime (time : Nat) (s : State) : State := writeTime time (rollIfOtherDay time s)

/-- The request field of SET TIME (R201): time. -/
def ruleSetTime (payload : List Byte) (s : State) : Answer :=
  match fields [4] payload with
  | some [time] => .ok (setTime (be time) s) []
  | _ => .refuse .badArgument

/-- SET_TIME (R178). -/
def execSetTime (s : State) : Result := serve 0x60 ruleSetTime s

/-- SET GAS DAY HOUR (R180). -/
def ruleSetGasDayHour (payload : List Byte) (s : State) : Answer :=
  match fields [1] payload with
  | some [hour] =>
    if 23 < be hour then .refuse .badArgument
    else .ok { s with clock := { s.clock with hour := be hour } } []
  | _ => .refuse .badArgument

/-- SET_GAS_DAY_HOUR (R180). -/
def execSetGasDayHour (s : State) : Result := serve 0x61 ruleSetGasDayHour s

/-- SET BASE CONDITIONS (R182). -/
def setBaseConditions (pressure temperature : Nat) (s : State) : Answer :=
  if inRange 90000 110000 pressure && inRange 273150 298150 temperature
  then .ok { s with clock := { s.clock with
    basePressure := pressure, baseTemperature := temperature } } []
  else .refuse .badArgument

/-- The request fields of SET BASE CONDITIONS (R201): P_b, T_b. -/
def ruleSetBaseConditions (payload : List Byte) (s : State) : Answer :=
  match fields [4, 4] payload with
  | some [pressure, temperature] => setBaseConditions (be pressure) (be temperature) s
  | _ => .refuse .badArgument

/-- SET_BASE_CONDITIONS (R182). -/
def execSetBaseConditions (s : State) : Result := serve 0x62 ruleSetBaseConditions s

/-- The fields of READ TIME (R183). -/
def Clock.bytes (c : Clock) : List Byte :=
  toBytes 4 c.deviceTime ++ flagByte c.timeSet ++ byte c.hour
    ++ toSignedBytes 4 (c.gasDay c.deviceTime) ++ toBytes 4 c.toBoundary ++ byte c.source.code
    ++ flagByte c.qualification.isSome ++ toBytes 4 c.basePressure ++ toBytes 4 c.baseTemperature

/-- READ TIME (R183). -/
def ruleReadTime (s : State) : Answer := reading s.clock.bytes s

/-- READ_TIME (R183). -/
def execReadTime (s : State) : Result := serveBare 0x63 ruleReadTime s

/-! ### The device second and the clock source -/

/-- Device time advances by one, wrapping (R176). -/
def advanceTime (s : State) : State :=
  { s with clock := { s.clock with
    deviceTime := (s.clock.deviceTime + 1) % Config.wrap32
    nextSecond := s.clock.nextSecond + Config.usPerSecond } }

/-- A device second that makes device time a boundary while the time is set rolls over (R179). -/
def rollAtBoundary (s : State) : State :=
  if s.clock.timeSet && s.clock.boundary s.clock.deviceTime then rollover s else s

/-- The device second (R72, R73, R176, R179); a rollover stands last in it, log 15. -/
def deviceSecond (s : State) : State :=
  rollAtBoundary (countDownAll (advanceTime (reach s.clock.nextSecond s)))

/-- DEVICE_SECOND (R176). -/
def execDeviceSecond (s : State) : Result := event deviceSecond s

/-- The qualification stops (R181). -/
def stopCrystalQualification (s : State) : State :=
  { s with clock := { s.clock with qualification := none, firstQualification := false } }

/-- The crystal monitor's failure event (R181). -/
def crystalFailure (s : State) : State :=
  match s.clock.source with
  | .crystal =>
    raise .clockChange Config.subjectAll { s with clock := { s.clock with source := .fallback } }
  | .fallback => if s.clock.qualification.isSome then stopCrystalQualification s else s

/-- CRYSTAL_FAILURE (R181). -/
def execCrystalFailure (elapsed : Nat) (s : State) : Result := eventAfter elapsed crystalFailure s

/-- The crystal is found running on FALLBACK with the qualification stopped (R181). -/
def crystalFound (s : State) : State :=
  if s.clock.source = .fallback ∧ s.clock.qualification = none
  then { s with clock := { s.clock with
    qualification := some (s.after Config.crystalQualification) } }
  else s

/-- CRYSTAL_RUNNING (R181). -/
def execCrystalRunning (elapsed : Nat) (s : State) : Result := eventAfter elapsed crystalFound s

/-- The qualification's expiry (R181): CLOCK_CHANGE but at the first qualification after a cold start. -/
def crystalQualified (running : Bool) (s : State) : State :=
  if running
  then raiseIf (!s.clock.firstQualification) .clockChange Config.subjectAll
    (stopCrystalQualification { s with clock := { s.clock with source := .crystal } })
  else stopCrystalQualification s

/-- CRYSTAL_QUALIFICATION_EXPIRY (R181). -/
def execCrystalQualificationExpiry (crystalRunning : Bool) (s : State) : Result :=
  expiry (·.clock.qualification) (crystalQualified crystalRunning) s

/-! ### The supply (R184 to R186) -/

/-- A qualification of the supply. -/
def setQualification (q : Option Nat) (s : State) : State :=
  { s with supply := { s.supply with qualification := q } }

/-- A crossing that starts the qualification of the state it leaves (R184). -/
def startQualification (from_ : SupplyState) (ms : Nat) (s : State) : State :=
  if s.supply.state = from_ ∧ s.supply.qualification = none
  then setQualification (some (s.after ms)) s else s

/-- A crossing back before the expiry (R184). -/
def stopQualification (from_ : SupplyState) (s : State) : State :=
  if s.supply.state = from_ then setQualification none s else s

/-- SUPPLY_FALL_BELOW_LOW (R184). -/
def execSupplyFallBelowLow (elapsed : Nat) (s : State) : Result :=
  eventAfter elapsed (startQualification .normal Config.lowQualification) s

/-- SUPPLY_RISE_TO_LOW (R184). -/
def execSupplyRiseToLow (elapsed : Nat) (s : State) : Result :=
  eventAfter elapsed (stopQualification .normal) s

/-- SUPPLY_RISE_TO_RECOVERY (R184). -/
def execSupplyRiseToRecovery (elapsed : Nat) (s : State) : Result :=
  eventAfter elapsed (startQualification .low Config.normalQualification) s

/-- SUPPLY_FALL_BELOW_RECOVERY (R184). -/
def execSupplyFallBelowRecovery (elapsed : Nat) (s : State) : Result :=
  eventAfter elapsed (stopQualification .low) s

/-- SUPPLY joins or leaves. -/
def TripSet.withSupply (present : Bool) (t : TripSet) : TripSet := { t with supply := present }

/-- The supply enters a state, with no qualification running. -/
def enterSupply (st : SupplyState) (s : State) : State :=
  { s with supply := { s.supply with state := st, qualification := none } }

/-- The entry to LOW (R185). The metering updates that an earlier completion has released stay released, and none is made before the
return to NORMAL (R49): that they are not dropped is a DESIGN CHOICE (log 8). -/
def enterLow (s : State) : State :=
  startSave (raise .supplyChange Config.subjectAll
    (abandonScan .suspended (changeTrips (.withSupply true) (enterSupply .low s))))

/-- LOW_QUALIFICATION_EXPIRY (R185). -/
def execLowQualificationExpiry (s : State) : Result :=
  expiry (fun s => if s.supply.state = .normal then s.supply.qualification else none) enterLow s

/-- The return to NORMAL (R185). -/
def returnToNormal (s : State) : State :=
  let s := changeTrips (.withSupply false) (enterSupply .normal s)
  grantIfDue (raise .supplyChange Config.subjectAll
    { s with scan := { s.scan with state := .idle } })

/-- NORMAL_QUALIFICATION_EXPIRY (R185). -/
def execNormalQualificationExpiry (s : State) : Result :=
  expiry (fun s => if s.supply.state = .low then s.supply.qualification else none)
    returnToNormal s

/-- The part stops (R186): no event is taken any more, and a save in flight is lost, which leaves the image INVALID. -/
def powerDown (s : State) : State :=
  { s with powered := false, supply := { s.supply with save := none } }

/-- SUPPLY_FALL_BELOW_RESET (R186). -/
def execSupplyFallBelowReset (elapsed : Nat) (s : State) : Result := eventAfter elapsed powerDown s

/-! ### Saves -/

/-- SAVE (R189). -/
def ruleSave (s : State) : Answer :=
  if s.supply.save.isSome then .refuse .busy else .ok (startSave s) []

/-- SAVE (R189). -/
def execSave (s : State) : Result := serveBare 0x64 ruleSave s

/-- A save completes (R188): the image holds its snapshot, and SAVE_DONE is raised. -/
def saveCompletion (s : State) : State :=
  match s.supply.save with
  | none => s
  | some v =>
    let s := reach (v.start + Config.saveDuration * Config.usPerMs) s
    raise .portEvent 1
      { s with supply := { s.supply with image := some v.snapshot, save := none } }

/-- SAVE_COMPLETION (R188). -/
def execSaveCompletion (s : State) : Result := event saveCompletion s

/-- The fields of READ SUPPLY (R190). -/
def State.supplyBytes (s : State) : List Byte :=
  byte s.supply.state.code ++ flagByte s.supply.qualification.isSome
    ++ flagByte s.supply.image.isNone ++ flagByte s.supply.save.isSome
    ++ toBytes 4 (match s.supply.save with
      | none => 0
      | some v => (s.now - v.start) / Config.usPerMs)
    ++ toBytes 4 (match s.supply.image with
      | none => 0
      | some i => i.deviceTime)

/-- READ SUPPLY (R190). -/
def ruleReadSupply (s : State) : Answer := reading s.supplyBytes s

/-- READ_SUPPLY (R190). -/
def execReadSupply (s : State) : Result := serveBare 0x65 ruleReadSupply s

/-! ### The warm reset (R193) -/

/-- A transaction in progress is ended for the part, and the bytes it has received are discarded (R199). -/
def Port.cutLink (p : Port) : Port :=
  match p.link with
  | .high => p
  | .receiving [] => { p with link := .ended, miso := [] }
  | .receiving (_ :: _) => { p with link := .ended }
  | .fetching _ => { p with link := .ended }
  | .ended => p

/-- Step 1: the command in execution is abandoned, and a transaction in progress is ended (R199). -/
def abandonCommand (s : State) : State :=
  { s with port := { s.port.cutLink with state := .idle, response := none, discard := false } }

/-- Step 2: a stroke in flight is resolved unproven without penalty (R121). -/
def abandonStroke (s : State) : State :=
  match s.stroke with
  | none => s
  | some k => if k.resolution = .unresolved then resolve .unprovenNoPenalty s else s

/-- Step 2: the record is cleared, which the Pump Unit alone is told of (R121, R153, R162). -/
def dropStroke (s : State) : State :=
  { applyPendingDuty { s with stroke := none } with pendingDuty := none }

/-- The account that the reset takes from CLOSING to CLOSED (R27). -/
def State.closedByReset (s : State) : Option (Fin 12) :=
  match s.stroke with
  | none => none
  | some k =>
    match k.beneficiary with
    | .manual => none
    | .account i =>
      if k.resolution = .unresolved ∧ s.accounts[i].state = .closing then some i else none

/-- Step 3: the grant, the timers and the manual mask are discarded (R146). -/
def clearHeader (s : State) : State :=
  { s with header := { s.header with grant := none, timer := none, mask := [], manualTimer := none } }

/-- The scan state after the reset (R99). -/
def State.restScan (s : State) : ScanState :=
  if s.supply.state = .low then .suspended else .idle

/-- The interval timer starts afresh under source INTERVAL (R99). -/
def restartInterval (s : State) : State :=
  if s.scan.source = .interval
  then { s with scan := { s.scan with timer := some (s.after s.scan.interval) } }
  else s

/-- Step 4: a scan in flight is abandoned, and an interval timer starts afresh (R99). -/
def resetScan (s : State) : State := restartInterval (abandonScan s.restScan s)

/-- A monitor in TIMING or TRIPPED returns to WATCHING; every delay timer is discarded (R175). -/
def Monitor.rested (u : Monitor) : Monitor :=
  { u with
    state := if u.state = .timing ∨ u.state = .tripped then .watching else u.state
    timer := none }

/-- Step 5: the monitors and the test flag; every MONITOR(m) leaves, which the header is not told of (R162, R175). -/
def resetMonitors (s : State) : State :=
  { s with
    monitors := mapAll Monitor.rested s.monitors
    tripTest := false
    trips := { s.trips with monitors := allEqual 16 false } }

/-- Period timing starts afresh (R67). -/
def Run.untimed (r : Run) : Run := { r with edgeCount := 0, lastPeriod := 0, lastEdge := none }

/-- Step 6: period timing, and the released updates not yet taken (R49, R67). -/
def resetRuns (s : State) : State := { s with runs := mapAll Run.untimed s.runs, released := [] }

/-- Step 7: pending causes are cleared (R206). -/
def clearCauses (s : State) : State :=
  { s with causes := mapAll (fun c => { c with subjects := [] }) s.causes }

/-- Step 8: RESTART with WARM, and ACCOUNT_CLOSED for the account closed by the reset (R27). -/
def raiseAfterReset (closed : Option (Fin 12)) (s : State) : State :=
  let s := raise .restart 2 s
  match closed with
  | none => s
  | some i => raise .accountClosed i.1 s

/-- Step 9: IDLE or TRIPPED by the trip set (R146). -/
def settleHeader (s : State) : State :=
  { s with header := { s.header with state := if s.trips.isEmpty then .idle else .tripped } }

/-- The warm reset, in the order of its nine steps (R193). -/
def warmReset (s : State) : State :=
  grantIfDue (settleHeader (raiseAfterReset s.closedByReset (clearCauses (resetRuns
    (resetMonitors (resetScan (clearHeader (dropStroke (abandonStroke (abandonCommand s))))))))))

/-- RST_N_FALL (R193). -/
def execRstNFall (elapsed : Nat) (s : State) : Result := eventAfter elapsed warmReset s

/-- RESET (R193): with the key it is abandoned by the warm reset it starts, without a completion. -/
def execReset (s : State) : Result :=
  .next (match s.executing with
    | none => s
    | some q =>
      if q.number = 0x66 then
        if q.payload = [Config.resetKey] then warmReset s else complete .badArgument [] s
      else s)

/-! ### The cold start (R191, R192) -/

/-- An account restored from the image, with no stroke in flight (R26). -/
def Account.restored (deviceTime : Nat) (a : Account) : Account :=
  match a.state with
  | .opened =>
    { a with reserved := 0, waived := if a.point = none then addMass a.waived a.reserved else a.waived }
  | .closing =>
    { a with
      state := .closed, reserved := 0, waived := addMass a.waived a.backlog,
      closeTime := some deviceTime }
  | .closed => a
  | .free => a

/-- The held snapshot of a run restored IN_SERVICE: the fallback values of its channels, substituted (R66). -/
def Image.held (m : Image) (c : RunConfig) : Held :=
  { p := m.channels[c.pChannel].fallback, t := m.channels[c.tChannel].fallback,
    pSubstituted := true, tSubstituted := true }

/-- A run restored from the image; everything else of it starts afresh (R66). -/
def Image.run (m : Image) (r : RunImage) : Run :=
  { Run.unconfigured with
    state := r.state
    config := r.config
    orphanActual := r.orphanActual
    orphanBase := r.orphanBase
    orphanEstimated := r.orphanEstimated
    held := if r.state = .inService then m.held r.config else .zero }

/-- The records as an image restores them, before the start raises its causes (R191): what is not in the image is as it is
after any cold start. -/
def Image.state (m : Image) : State :=
  { State.reset with
    accounts := mapAll (Account.restored m.deviceTime) m.accounts
    runs := mapAll m.run m.runs
    quality := m.quality
    channels := mapAll Channel.fresh m.channels
    scan := { State.reset.scan with
      source := m.source
      interval := m.interval
      timer := if m.source = .interval then some (m.interval * Config.usPerMs) else none
      result := mapAll (fun c => { value := c.fallback, state := .noData }) m.channels }
    points := m.points
    header := { State.reset.header with config := m.header, manualDuration := m.manualDuration }
    pumps := m.pumps
    monitors := mapAll Monitor.start m.monitors
    causes := mapAll (fun l => { level := l, subjects := [] }) m.levels
    terminals := m.terminals
    clock := { State.reset.clock with
      deviceTime := m.deviceTime
      hour := m.hour
      basePressure := m.basePressure
      baseTemperature := m.baseTemperature }
    supply := { State.reset.supply with image := some m } }

/-- ACCOUNT_CLOSED for each account that the start takes from CLOSING to CLOSED (R26, R191). -/
def Image.raiseClosed (m : Image) (s : State) : State :=
  (slots.filter (fun i => m.accounts[i].state == .closing)).foldl
    (fun s i => raise .accountClosed i.1 s) s

/-- The records at a cold start, with RESTART and ACCOUNT_CLOSED raised (R191, R192). -/
def startState : Option Image → State
  | none => State.reset
  | some m => m.raiseClosed (raise .restart 0 m.state)

/-- The inputs and the queue, which a start does not touch. -/
def keepInputs (before s : State) : State :=
  { s with levels := before.levels, pending := before.pending }

/-- A crystal not running at the start stops the first qualification (R181). -/
def crystalAtStart (running : Bool) (s : State) : State :=
  if running then s else stopCrystalQualification s

/-- STOP is in the trip set at the start if a terminal holds STOP_IN and is active (R161). -/
def stopAtStart (s : State) : State :=
  if s.stopActive then changeTrips (.withStop true) s else s

/-- A cold start (R191, R192): the records from the image or their defaults, then the trip set and the header (R145, R161). -/
def coldStart (crystalRunning : Bool) (s : State) : State :=
  grantIfDue (stopAtStart (crystalAtStart crystalRunning
    (keepInputs s (startState s.supply.image))))

/-- COLD_START (R191, R192). -/
def execColdStart (crystalRunning : Bool) (s : State) : Result := .next (coldStart crystalRunning s)

end Sys2Proof.Machine
end

