-- ==== Sys2Proof/Machine/Strokes.lean ====
section
/-! DEFINITION. The events of the stroke record and of the grant: proofs, the expiries of the stroke's and the header's timers
(06_odourant_obligation_and_strokes.md, 07_injection_header_and_manual_dosing.md). -/

namespace Sys2Proof.Machine

/-! ### Proofs -/

/-- The stroke that a proof of the pump resolves: CLOSED_LOOP and UNRESOLVED (R111, R116). -/
def Stroke.provenBy (k : Stroke) (p : Fin 2) : Bool :=
  k.pump == p && k.mode == .closedLoop && k.resolution == .unresolved

/-- A stray proof (R116). -/
def strayProof (p : Fin 2) (s : State) : State :=
  editPump p (fun u => { u with stray := (u.stray + 1) % Config.wrap32 }) s

/-- A proof activation of a pump (R111, R116). -/
def proofOf (p : Fin 2) (s : State) : State :=
  match s.stroke with
  | none => strayProof p s
  | some k =>
    if k.provenBy p then grantIfDue (clearIfFinished (resolve .proven s)) else strayProof p s

/-- An activation at a terminal that holds PROOF: a change from inactive, low, to active, high (R202). -/
def proofActivation (t : Fin 16) (s : State) : State :=
  match s.terminals[t] with
  | .proof p => if s.levels[t] then s else proofOf p (setLevel t true s)
  | _ => s

/-- PROOF_ACTIVATION (R111). -/
def execProofActivation (t : Fin 16) (elapsed : Nat) (s : State) : Result :=
  .next (if s.powered then proofActivation t (elapse elapsed s) else setLevel t true s)

/-! ### The stroke's timers -/

/-- When a timer of the stroke record expires, measured from the drive start (R109). -/
def Stroke.due (k : Stroke) (ms : Nat) : Nat := k.start + ms * Config.usPerMs

/-- The stroke at its on-time expiry (R110): PROOF_WAIT if unresolved, RECOVER if resolved. -/
def Stroke.driven (k : Stroke) : Stroke :=
  { k with phase := if k.resolution = .unresolved then .proofWait else .recover }

/-- The on-time expiry of a stroke in DRIVE (R110); an uncut OPEN_LOOP stroke is then PROVEN (R114). -/
def onTimeExpiry (s : State) : State :=
  match s.stroke with
  | none => s
  | some k =>
    if k.phase ≠ .drive then s
    else
      let s := { reach (k.due k.onTime) s with stroke := some k.driven }
      let s := if k.resolution = .unresolved ∧ k.mode = .openLoop ∧ k.driveCut = false
        then resolve .proven s else s
      grantIfDue (clearIfFinished s)

/-- ON_TIME_EXPIRY (R110). -/
def execOnTimeExpiry (s : State) : Result := event onTimeExpiry s

/-- A stroke that its proof window's expiry resolves: UNRESOLVED, and CLOSED_LOOP or cut (R112, R114). -/
def Stroke.windowResolves (k : Stroke) : Bool :=
  k.resolution == .unresolved && (k.mode == .closedLoop || k.driveCut)

/-- The proof window expiry (R112, R114). -/
def proofWindowExpiry (s : State) : State :=
  match s.stroke with
  | none => s
  | some k =>
    if k.windowResolves then
      let outcome := if k.driveCut then .unprovenNoPenalty else .unproven
      grantIfDue (clearIfFinished (resolve outcome (reach (k.due k.window) s)))
    else s

/-- PROOF_WINDOW_EXPIRY (R112). -/
def execProofWindowExpiry (s : State) : Result := event proofWindowExpiry s

/-- The spacing expiry (R115). -/
def spacingExpiry (s : State) : State :=
  match s.stroke with
  | none => s
  | some k =>
    if k.spacingPassed then s
    else grantIfDue (clearIfFinished
      { reach (k.due k.spacing) s with stroke := some { k with spacingPassed := true } })

/-- SPACING_EXPIRY (R115). -/
def execSpacingExpiry (s : State) : Result := event spacingExpiry s

/-! ### The header's timers -/

/-- The settle expiry in OPENING (R133). -/
def settleExpiry (s : State) : State :=
  match s.header.state, s.header.timer with
  | .opening, some t => continueBurst (reach t s)
  | _, _ => s

/-- SETTLE_EXPIRY (R133). -/
def execSettleExpiry (s : State) : Result := event settleExpiry s

/-- The pause expiry in CLOSING (R137). -/
def pauseExpiry (s : State) : State :=
  match s.header.state, s.header.timer with
  | .closing, some t =>
    let s := reach t s
    grantIfDue { s with header := { s.header with state := .idle, grant := none, timer := none } }
  | _, _ => s

/-- PAUSE_EXPIRY (R137). -/
def execPauseExpiry (s : State) : Result := event pauseExpiry s

/-- MANUAL_TIMER_EXPIRY (R139). -/
def execManualTimerExpiry (s : State) : Result := expiry (·.header.manualTimer) endManual s

end Sys2Proof.Machine
end

