-- ==== Sys2Proof/Machine/Dispatch.lean ====
section
/-! DEFINITION. The dispatch: one arm per command of Syntax.lean, each one call of its meaning. -/

namespace Sys2Proof.Machine

def exec (i : Instr) (s : State) : Host.Outcome State Fault Refusal :=
  match i with
  | .requestFrame bytes elapsed => Sys2Proof.Machine.execRequestFrame bytes elapsed s
  | .fetch count elapsed => Sys2Proof.Machine.execFetch count elapsed s
  | .openAccount => Sys2Proof.Machine.execOpenAccount s
  | .findAccount => Sys2Proof.Machine.execFindAccount s
  | .listAccounts => Sys2Proof.Machine.execListAccounts s
  | .readAccount => Sys2Proof.Machine.execReadAccount s
  | .amendAccount => Sys2Proof.Machine.execAmendAccount s
  | .attachRun => Sys2Proof.Machine.execAttachRun s
  | .detachRun => Sys2Proof.Machine.execDetachRun s
  | .closeAccount => Sys2Proof.Machine.execCloseAccount s
  | .releaseAccount => Sys2Proof.Machine.execReleaseAccount s
  | .configureRun => Sys2Proof.Machine.execConfigureRun s
  | .setBands => Sys2Proof.Machine.execSetBands s
  | .placeInService => Sys2Proof.Machine.execPlaceInService s
  | .removeFromService => Sys2Proof.Machine.execRemoveFromService s
  | .clearRunTotals => Sys2Proof.Machine.execClearRunTotals s
  | .readRun => Sys2Proof.Machine.execReadRun s
  | .postComposition => Sys2Proof.Machine.execPostComposition s
  | .retireComposition => Sys2Proof.Machine.execRetireComposition s
  | .readComposition => Sys2Proof.Machine.execReadComposition s
  | .configureChannel => Sys2Proof.Machine.execConfigureChannel s
  | .setScan => Sys2Proof.Machine.execSetScan s
  | .scanNow => Sys2Proof.Machine.execScanNow s
  | .readChannel => Sys2Proof.Machine.execReadChannel s
  | .readScan => Sys2Proof.Machine.execReadScan s
  | .configurePoint => Sys2Proof.Machine.execConfigurePoint s
  | .readPoint => Sys2Proof.Machine.execReadPoint s
  | .configureHeader => Sys2Proof.Machine.execConfigureHeader s
  | .manualDose => Sys2Proof.Machine.execManualDose s
  | .setManualTimer => Sys2Proof.Machine.execSetManualTimer s
  | .readHeader => Sys2Proof.Machine.execReadHeader s
  | .configurePump => Sys2Proof.Machine.execConfigurePump s
  | .restorePump => Sys2Proof.Machine.execRestorePump s
  | .isolatePump => Sys2Proof.Machine.execIsolatePump s
  | .selectDuty => Sys2Proof.Machine.execSelectDuty s
  | .resetPump => Sys2Proof.Machine.execResetPump s
  | .readPump => Sys2Proof.Machine.execReadPump s
  | .configureMonitor => Sys2Proof.Machine.execConfigureMonitor s
  | .ackMonitor => Sys2Proof.Machine.execAckMonitor s
  | .testTripOutput => Sys2Proof.Machine.execTestTripOutput s
  | .readMonitor => Sys2Proof.Machine.execReadMonitor s
  | .readMonitorSummary => Sys2Proof.Machine.execReadMonitorSummary s
  | .setTime => Sys2Proof.Machine.execSetTime s
  | .setGasDayHour => Sys2Proof.Machine.execSetGasDayHour s
  | .setBaseConditions => Sys2Proof.Machine.execSetBaseConditions s
  | .readTime => Sys2Proof.Machine.execReadTime s
  | .save => Sys2Proof.Machine.execSave s
  | .readSupply => Sys2Proof.Machine.execReadSupply s
  | .reset => Sys2Proof.Machine.execReset s
  | .mapTerminal => Sys2Proof.Machine.execMapTerminal s
  | .readTerminals => Sys2Proof.Machine.execReadTerminals s
  | .readAttention => Sys2Proof.Machine.execReadAttention s
  | .ackAttention => Sys2Proof.Machine.execAckAttention s
  | .setAttentionLevel => Sys2Proof.Machine.execSetAttentionLevel s
  | .readLevels => Sys2Proof.Machine.execReadLevels s
  | .pulseEdge terminal rising elapsed => Sys2Proof.Machine.execPulseEdge terminal rising elapsed s
  | .proofActivation terminal elapsed => Sys2Proof.Machine.execProofActivation terminal elapsed s
  | .flowDrop terminal elapsed => Sys2Proof.Machine.execFlowDrop terminal elapsed s
  | .flowRise terminal elapsed => Sys2Proof.Machine.execFlowRise terminal elapsed s
  | .syncActivation terminal elapsed => Sys2Proof.Machine.execSyncActivation terminal elapsed s
  | .stopInActive terminal elapsed => Sys2Proof.Machine.execStopInActive terminal elapsed s
  | .stopInInactive terminal elapsed => Sys2Proof.Machine.execStopInInactive terminal elapsed s
  | .rstNFall elapsed => Sys2Proof.Machine.execRstNFall elapsed s
  | .coldStart crystalRunning => Sys2Proof.Machine.execColdStart crystalRunning s
  | .supplyFallBelowLow elapsed => Sys2Proof.Machine.execSupplyFallBelowLow elapsed s
  | .supplyRiseToLow elapsed => Sys2Proof.Machine.execSupplyRiseToLow elapsed s
  | .lowQualificationExpiry => Sys2Proof.Machine.execLowQualificationExpiry s
  | .supplyRiseToRecovery elapsed => Sys2Proof.Machine.execSupplyRiseToRecovery elapsed s
  | .supplyFallBelowRecovery elapsed => Sys2Proof.Machine.execSupplyFallBelowRecovery elapsed s
  | .normalQualificationExpiry => Sys2Proof.Machine.execNormalQualificationExpiry s
  | .supplyFallBelowReset elapsed => Sys2Proof.Machine.execSupplyFallBelowReset elapsed s
  | .saveCompletion => Sys2Proof.Machine.execSaveCompletion s
  | .crystalFailure elapsed => Sys2Proof.Machine.execCrystalFailure elapsed s
  | .crystalRunning elapsed => Sys2Proof.Machine.execCrystalRunning elapsed s
  | .crystalQualificationExpiry crystalRunning => Sys2Proof.Machine.execCrystalQualificationExpiry crystalRunning s
  | .deviceSecond => Sys2Proof.Machine.execDeviceSecond s
  | .validityExpiry slot => Sys2Proof.Machine.execValidityExpiry slot s
  | .intervalExpiry => Sys2Proof.Machine.execIntervalExpiry s
  | .conversionEnd code => Sys2Proof.Machine.execConversionEnd code s
  | .meteringUpdate run => Sys2Proof.Machine.execMeteringUpdate run s
  | .monitorEvaluation monitor => Sys2Proof.Machine.execMonitorEvaluation monitor s
  | .delayExpiry monitor => Sys2Proof.Machine.execDelayExpiry monitor s
  | .settleExpiry => Sys2Proof.Machine.execSettleExpiry s
  | .onTimeExpiry => Sys2Proof.Machine.execOnTimeExpiry s
  | .proofWindowExpiry => Sys2Proof.Machine.execProofWindowExpiry s
  | .spacingExpiry => Sys2Proof.Machine.execSpacingExpiry s
  | .pauseExpiry => Sys2Proof.Machine.execPauseExpiry s
  | .manualTimerExpiry => Sys2Proof.Machine.execManualTimerExpiry s
  | .unknownCommand => Sys2Proof.Machine.execUnknownCommand s

end Sys2Proof.Machine
end

