-- ==== Sys2Proof/Safety.lean ====
section
/-! DEFINITION. The laws between records that the manual states for every moment, and what it means that a request is in
execution. Every step keeps the laws (stated in Certificates/); a law over tables also holds in every snapshot (R187). -/

namespace Sys2Proof.Machine

/-- The request with this command number and payload is in execution (R195, R196). -/
def State.serving (s : State) (number : Byte) (payload : List Byte) : Prop :=
  s.powered = true ∧ s.port.state = .executing
    ∧ s.port.request = some { number := number, payload := payload }

/-- The command, when its request with this payload is in execution, is accepted: its next state is `t` with the completion,
status OK and a response payload (R196). -/
def State.accepts (s : State) (c : Instr) (number : Byte) (payload out : List Byte) (t : State) :
    Prop :=
  s.serving number payload → exec c s = .next (complete .ok out t)

/-- The command, when its request with this payload is in execution, is refused with a status and changes nothing (R196). -/
def State.refuses (s : State) (c : Instr) (number : Byte) (payload : List Byte) (status : Status) :
    Prop :=
  s.serving number payload → exec c s = .next (complete status [] s)

/-- The command number of a row that is the executing event of a request (R201). -/
def requestNumber : Instr → Option Byte
  | .openAccount => some 0x10
  | .findAccount => some 0x11
  | .listAccounts => some 0x12
  | .readAccount => some 0x13
  | .amendAccount => some 0x14
  | .attachRun => some 0x15
  | .detachRun => some 0x16
  | .closeAccount => some 0x17
  | .releaseAccount => some 0x18
  | .configureRun => some 0x20
  | .setBands => some 0x21
  | .placeInService => some 0x22
  | .removeFromService => some 0x23
  | .clearRunTotals => some 0x24
  | .readRun => some 0x25
  | .postComposition => some 0x28
  | .retireComposition => some 0x29
  | .readComposition => some 0x2A
  | .configureChannel => some 0x30
  | .setScan => some 0x31
  | .scanNow => some 0x32
  | .readChannel => some 0x33
  | .readScan => some 0x34
  | .configurePoint => some 0x40
  | .readPoint => some 0x41
  | .configureHeader => some 0x42
  | .manualDose => some 0x43
  | .setManualTimer => some 0x44
  | .readHeader => some 0x45
  | .configurePump => some 0x48
  | .restorePump => some 0x49
  | .isolatePump => some 0x4A
  | .selectDuty => some 0x4B
  | .resetPump => some 0x4C
  | .readPump => some 0x4D
  | .configureMonitor => some 0x50
  | .ackMonitor => some 0x51
  | .testTripOutput => some 0x52
  | .readMonitor => some 0x53
  | .readMonitorSummary => some 0x54
  | .setTime => some 0x60
  | .setGasDayHour => some 0x61
  | .setBaseConditions => some 0x62
  | .readTime => some 0x63
  | .save => some 0x64
  | .readSupply => some 0x65
  | .reset => some 0x66
  | .mapTerminal => some 0x70
  | .readTerminals => some 0x71
  | .readAttention => some 0x72
  | .ackAttention => some 0x73
  | .setAttentionLevel => some 0x74
  | .readLevels => some 0x75
  | _ => none

/-- The length of a request's payload, in bytes, where its fields have fixed widths; none where it carries a list (R201). -/
def payloadLength : Instr → Option Nat
  | .openAccount => some 13
  | .findAccount => some 8
  | .listAccounts => some 1
  | .readAccount => some 2
  | .amendAccount => some 7
  | .attachRun => some 2
  | .detachRun => some 2
  | .closeAccount => some 1
  | .releaseAccount => some 1
  | .configureRun => some 15
  | .placeInService => some 1
  | .removeFromService => some 1
  | .clearRunTotals => some 1
  | .readRun => some 2
  | .postComposition => some 17
  | .retireComposition => some 1
  | .readComposition => some 1
  | .configureChannel => some 15
  | .setScan => some 3
  | .scanNow => some 0
  | .readChannel => some 1
  | .readScan => some 0
  | .configurePoint => some 6
  | .readPoint => some 1
  | .configureHeader => some 6
  | .setManualTimer => some 2
  | .readHeader => some 0
  | .configurePump => some 12
  | .restorePump => some 1
  | .isolatePump => some 1
  | .selectDuty => some 1
  | .resetPump => some 1
  | .readPump => some 1
  | .configureMonitor => some 16
  | .ackMonitor => some 1
  | .testTripOutput => some 1
  | .readMonitor => some 1
  | .readMonitorSummary => some 0
  | .setTime => some 4
  | .setGasDayHour => some 1
  | .setBaseConditions => some 8
  | .readTime => some 0
  | .save => some 0
  | .readSupply => some 0
  | .reset => some 1
  | .mapTerminal => some 3
  | .readTerminals => some 0
  | .readAttention => some 1
  | .setAttentionLevel => some 2
  | .readLevels => some 0
  | _ => none

/-- The arguments of an OPEN ACCOUNT pass its first three checks (R7). -/
def State.openable (s : State) (tag : List Byte) (q : Fin 8) (p : Option (Fin 4)) (d pr : Nat) :
    Prop :=
  (tag.length = 8 ∧ ∀ b ∈ tag, 0x20 ≤ b.toNat ∧ b.toNat ≤ 0x7E)
    ∧ s.quality[q].state ≠ .empty
    ∧ (∀ pt, p = some pt → s.points[pt].state = .enabled)
    ∧ 100 ≤ d ∧ d ≤ 10000 ∧ pr ≤ 3

/-- The snapshots that the part holds: the VALID image, and the one that a save in flight writes (R187, R188). -/
def State.snapshots (s : State) : List Image :=
  s.supply.image.toList ++ (s.supply.save.map Save.snapshot).toList

/-! ### Accounts (R1, R6, R8, R76) -/

/-- The laws of the Account Table. -/
structure AccountLaw (accounts : Table Account 12) (quality : Table Quality 8) : Prop where
  /-- A run list holds at most four runs, none twice (R2). -/
  runs : ∀ i : Fin 12, accounts[i].runs.Nodup ∧ accounts[i].runs.length ≤ 4
  /-- Only an OPEN account owns runs (R8). -/
  owner : ∀ i : Fin 12, accounts[i].runs ≠ [] → accounts[i].state = .opened
  /-- A run is in the list of at most one account (R8). -/
  single : ∀ (i j : Fin 12) (r : Fin 6), r ∈ accounts[i].runs → r ∈ accounts[j].runs → i = j
  /-- No two accounts outside FREE carry the same tag (R6). -/
  tags : ∀ i j : Fin 12, accounts[i].state ≠ .free → accounts[j].state ≠ .free →
    accounts[i].tag = accounts[j].tag → i = j
  /-- The close time is present exactly in CLOSED (R5). -/
  closed : ∀ i : Fin 12, accounts[i].closeTime.isSome ↔ accounts[i].state = .closed
  /-- A quality slot named by an OPEN or CLOSING account is not EMPTY (R76). -/
  named : ∀ (i : Fin 12) (q : Fin 8), accounts[i].state = .opened ∨ accounts[i].state = .closing →
    accounts[i].quality = q → quality[q].state ≠ .empty

/-- The laws of the Account Table, in the part and in its snapshots. -/
def State.accountLaw (s : State) : Prop :=
  AccountLaw s.accounts s.quality ∧ ∀ m ∈ s.snapshots, AccountLaw m.accounts m.quality

/-! ### The obligation (R100, R102) -/

/-- The laws of the odourant masses. -/
structure ObligationLaw (accounts : Table Account 12) (points : Table Point 4)
    (pumps : Table Pump 2) : Prop where
  /-- credited + waived + reserved ≤ owed, and owed is a mass (R4, R100). -/
  masses : ∀ i : Fin 12,
    accounts[i].credited + accounts[i].waived + accounts[i].reserved ≤ accounts[i].owed
      ∧ accounts[i].owed ≤ Config.maxMass
  /-- The backlog of an account with a point is at most the point's catch-up limit (R102). -/
  limit : ∀ (i : Fin 12) (q : Fin 4), accounts[i].point = some q →
    accounts[i].backlog ≤ points[q].limit
  /-- A FREE or CLOSED account has nothing left to deliver (R7, R11). -/
  settled : ∀ i : Fin 12, accounts[i].state = .free ∨ accounts[i].state = .closed →
    accounts[i].credited + accounts[i].waived = accounts[i].owed ∧ accounts[i].reserved = 0
  /-- An OPEN account without a point has no free backlog (R21). -/
  pointless : ∀ i : Fin 12, accounts[i].state = .opened → accounts[i].point = none →
    accounts[i].backlog ≤ accounts[i].reserved
  /-- The stroke mass of a pump in service is at most every point's catch-up limit (R125, R149). -/
  strokeMass : ∀ (p : Fin 2) (q : Fin 4), pumps[p].state ≠ .isolated →
    pumps[p].config.mass ≤ points[q].limit

/-- A stroke in flight is on the DUTY pump, with its stroke mass (R108, R154), for an account outside FREE and CLOSED
(R117). -/
def State.strokeLaw (s : State) (k : Stroke) : Prop :=
  k.resolution = .unresolved →
    s.pumps[k.pump].state = .duty ∧ s.pumps[k.pump].config.mass = k.mass
      ∧ ∀ i, k.beneficiary = .account i →
        s.accounts[i].state = .opened ∨ s.accounts[i].state = .closing

/-- The mass that the stroke record reserves for an account: S while it has a stroke in flight, and 0 otherwise (R4). -/
def State.strokeReserve (s : State) (i : Fin 12) : Nat :=
  match s.stroke with
  | none => 0
  | some k => if k.beneficiary = .account i ∧ k.resolution = .unresolved then k.mass else 0

/-- The laws of the odourant masses, in the part and in its snapshots, with the stroke record's (R4, R108). -/
def State.obligationLaw (s : State) : Prop :=
  ObligationLaw s.accounts s.points s.pumps
    ∧ (∀ m ∈ s.snapshots, ObligationLaw m.accounts m.points m.pumps)
    ∧ (∀ k, s.stroke = some k → s.strokeLaw k)
    ∧ (∀ i, s.accounts[i].reserved = s.strokeReserve i)

/-! ### Pumps (R147) -/

/-- At most one pump is DUTY (R147). -/
def OneDuty (pumps : Table Pump 2) : Prop :=
  ∀ p r : Fin 2, pumps[p].state = .duty → pumps[r].state = .duty → p = r

/-- At most one pump is DUTY, in the part and in its snapshots. -/
def State.dutyLaw (s : State) : Prop :=
  OneDuty s.pumps ∧ ∀ m ∈ s.snapshots, OneDuty m.pumps

/-! ### The header (R128, R129) -/

/-- The table of R128: what each header state holds of the grant, the timer and the stroke record. -/
def State.headerShape (s : State) : Prop :=
  match s.header.state with
  | .idle => s.header.grant = none ∧ s.header.timer = none
  | .opening => s.header.grant.isSome ∧ s.header.timer.isSome ∧ s.stroke = none
  | .stroking => s.header.grant.isSome ∧ s.header.timer = none ∧ s.stroke.isSome
  | .closing => s.header.grant.isSome ∧ s.header.timer.isSome ∧ s.stroke = none
  | .tripped => s.header.grant = none ∧ s.header.timer = none

/-- The manual mask holds ENABLED points in ascending order, and the manual timer runs exactly while it is non-empty (R129). -/
def State.maskLaw (s : State) : Prop :=
  (s.header.manualTimer.isSome ↔ s.header.mask ≠ [])
    ∧ s.header.mask.Pairwise (fun p q => p.1 < q.1)
    ∧ ∀ q ∈ s.header.mask, s.points[q].state = .enabled

/-- The laws of the header. -/
def State.headerLaw (s : State) : Prop := s.headerShape ∧ s.maskLaw

/-! ### Trips (R143, R158) -/

/-- The header is TRIPPED exactly while the trip source set has members, and each member is present exactly while its condition
holds (R158), while the part is powered. -/
def State.tripLaw (s : State) : Prop :=
  s.powered = true →
    (s.header.state = .tripped ↔ s.trips.isEmpty = false)
      ∧ s.trips.stop = s.stopActive
      ∧ s.trips.supply = (s.supply.state == .low)
      ∧ ∀ m : Fin 16, s.trips.monitors[m]
          = (s.monitors[m].state == .tripped && s.monitors[m].config.action == .headerTrip)

/-! ### Terminals (R202, R203) -/

/-- The laws of the Terminal Map and of the records that hold on to a terminal. -/
structure TerminalLaw (terminals : Table TerminalFunction 16) (points : Table Point 4)
    (pumps : Table Pump 2) (inService : Fin 6 → Prop) : Prop where
  /-- Each function, with its subject, is assigned to at most one terminal (R202). -/
  single : ∀ t u : Fin 16, terminals[t] = terminals[u] → terminals[t] ≠ .none → t = u
  /-- An ENABLED point has a VALVE terminal (R123). -/
  valve : ∀ q : Fin 4, points[q].state = .enabled → ∃ t : Fin 16, terminals[t] = .valve q
  /-- A pump that is not ISOLATED has a DRIVE terminal (R110). -/
  drive : ∀ p : Fin 2, pumps[p].state ≠ .isolated → ∃ t : Fin 16, terminals[t] = .drive p
  /-- An IN_SERVICE run has a PULSE terminal (R56, R203). -/
  pulse : ∀ r : Fin 6, inService r → ∃ t : Fin 16, terminals[t] = .pulse r

/-- The laws of the Terminal Map, in the part and in its snapshots. -/
def State.terminalLaw (s : State) : Prop :=
  TerminalLaw s.terminals s.points s.pumps (fun r => s.runs[r].state = .inService)
    ∧ ∀ m ∈ s.snapshots,
        TerminalLaw m.terminals m.points m.pumps (fun r => m.runs[r].state = .inService)

/-! ### Attention (R205) -/

/-- A subject of the kind (R205). -/
def CauseKind.owns (k : Fin 16) (n : Nat) : Prop :=
  if subjectCount[k] = 0 then n = Config.subjectAll else n < subjectCount[k]

/-- The laws of the Attention Unit: levels 0 to 3, subjects of the kind once each in ascending order, and none at level 0
(R205, R209). -/
def State.attentionLaw (s : State) : Prop :=
  (∀ k : Fin 16, s.causes[k].level ≤ 3
    ∧ s.causes[k].subjects.Pairwise (· < ·)
    ∧ (∀ n ∈ s.causes[k].subjects, CauseKind.owns k n)
    ∧ (s.causes[k].level = 0 → s.causes[k].subjects = []))
  ∧ ∀ m ∈ s.snapshots, ∀ k : Fin 16, m.levels[k] ≤ 3

/-! ### Monitors (R163, R164) -/

/-- The table of R163 for one monitor: the delay timer runs exactly in TIMING, which a monitor with delay 0 is never in, and a
monitor is DISABLED exactly when it is not enabled. -/
structure MonitorLaw (u : Monitor) : Prop where
  timer : u.timer.isSome ↔ u.state = .timing
  delay : u.state = .timing → 0 < u.config.delay
  disabled : u.state = .disabled ↔ u.config.enabled = false

/-- The laws of the Monitor Unit. -/
def State.monitorLaw (s : State) : Prop := ∀ m : Fin 16, MonitorLaw s.monitors[m]

/-! ### The Command Port (R195) -/

/-- What the port holds in each of its states (R195). -/
structure PortLaw (p : Port) : Prop where
  /-- In IDLE the response buffer holds none. -/
  idle : p.state = .idle → p.response = none
  /-- In EXECUTING a request has been accepted, and the held response discarded. -/
  executing : p.state = .executing → p.request.isSome ∧ p.response = none
  /-- In RESPONSE_READY the response buffer holds one. -/
  ready : p.state = .responseReady → p.response.isSome

/-- The law of the Command Port. -/
def State.portLaw (s : State) : Prop := PortLaw s.port

/-! ### The Analog Scanner (R86, R87) -/

/-- The laws of the scanner. -/
structure ScanLaw (scan : Scan) (supply : SupplyState) : Prop where
  /-- Outside SCANNING there is no scan in flight: no list, no conversion done (R86). -/
  rest : scan.state ≠ .scanning → scan.list = [] ∧ scan.done = 0
  /-- The list of the scan in flight ascends, and conversions of it are to come (R86, R88). -/
  flight : scan.state = .scanning →
    scan.list.Pairwise (fun c d => c.1 < d.1) ∧ scan.done < scan.list.length
  /-- The scanner is SUSPENDED exactly while the supply is LOW (R86, R95). -/
  suspended : scan.state = .suspended ↔ supply = .low
  /-- The interval timer runs exactly under source INTERVAL (R87). -/
  timer : scan.timer.isSome ↔ scan.source = .interval

/-- The laws of the Analog Scanner. -/
def State.scanLaw (s : State) : Prop := ScanLaw s.scan s.supply.state

/-! ### All of them -/

/-- The laws between records that hold after every start and are kept by every step. -/
structure State.law (s : State) : Prop where
  account : s.accountLaw
  obligation : s.obligationLaw
  duty : s.dutyLaw
  header : s.headerLaw
  trip : s.tripLaw
  terminal : s.terminalLaw
  attention : s.attentionLaw
  monitor : s.monitorLaw
  port : s.portLaw
  scan : s.scanLaw

end Sys2Proof.Machine
end

