-- ==== Sys2Proof/Certificates/Slice0/Obligations.lean ====
section
/-! DEFINITION. The statements for the provers, made from the rules of spec/.

A statement about a request says which payload, when its request is in execution, gives which next state (`State.accepts`) and
which is refused with which status, changing nothing (`State.refuses`). A next state written as a record update also says what
stays: every field it does not name. -/

open Sys2Proof Sys2Proof.Machine

/-! ### The queue and the Command Port -/

/-- A step takes the command at the front of the queue and runs it on the state with the queue's rest; on an empty queue the part
idles (the model's choice, log 1). -/
def Obligations.StepTakesFrontCommand : Prop :=
  (∀ (c : Instr) (rest : List Instr) (s : State), s.pending = c :: rest →
    step s = exec c { s with pending := rest })
  ∧ ∀ s : State, s.pending = [] → step s = .next s

/-- Every command answers a next state, in every state, and leaves the queue as it stands: no command is refused by the model and
none stops it. While the part is stopped by its supply (R186) only a cold start changes more than the levels applied at the
terminals (log 6, log 17). -/
def Obligations.EveryCommandAnswersAndKeepsQueue : Prop :=
  (∀ (c : Instr) (s : State), ∃ t, exec c s = .next t ∧ t.pending = s.pending)
  ∧ ∀ (c : Instr) (s : State), s.powered = false → (∀ running, c ≠ .coldStart running) →
    ∃ levels, exec c s = .next { s with levels := levels }

/-- Request transactions (R194, R195, R198, R200). A whole one, from CS_N high: while no command is in execution a well-formed frame
is accepted, any other is answered with BAD_FRAME and FRAME_ERROR; during an execution every one is discarded; no byte is no
transaction, and a first byte 0 makes a FETCH. A row may carry a part of a transaction (log 7): the first and the following parts
keep their bytes, and the last part ends as the whole of all bytes does; a part for which CS_N does not stand right only lets its
time pass (log 3). The running count moves as log 4 says. The record of MISO is the model's (log 22). -/
def Obligations.RequestTransactionsAreChecked : Prop :=
  (∀ (s : State) (number : Byte) (payload head : List Byte) (us : Nat), s.powered = true →
    s.port.link = .high → s.port.state ≠ .executing → number ≠ 0 → payload.length ≤ 60 →
    head = number :: BitVec.ofNat 8 payload.length :: payload →
    exec (.requestFrame (.whole (head ++ [crc8 head])) us) s = .next
      { s with
        now := s.now + us
        port :=
          { state := .executing, request := some { number := number, payload := payload },
            response := none, discard := false, link := .high,
            miso := List.replicate (payload.length + 3) 0 } })
  ∧ (∀ (s : State) (bytes : List Byte) (us : Nat), s.powered = true →
    s.port.link = .high → s.port.state ≠ .executing → bytes ≠ [] → bytes.head? ≠ some 0 →
    (∀ (number : Byte) (payload head : List Byte), payload.length ≤ 60 →
      head = number :: BitVec.ofNat 8 payload.length :: payload → bytes ≠ head ++ [crc8 head]) →
    exec (.requestFrame (.whole bytes) us) s = .next (raise .portEvent 0
      { s with
        now := s.now + us
        port := { s.port with
          state := .responseReady
          response := some { status := .badFrame, discarded := false, payload := [] }
          miso := List.replicate bytes.length 0 } }))
  ∧ (∀ (s : State) (bytes : List Byte) (us : Nat), s.powered = true →
    s.port.link = .high → s.port.state = .executing → bytes ≠ [] → bytes.head? ≠ some 0 →
    exec (.requestFrame (.whole bytes) us) s = .next
      { s with
        now := s.now + us
        port := { s.port with discard := true, miso := List.replicate bytes.length 0 } })
  ∧ (∀ (s : State) (us : Nat), s.powered = true → s.port.link = .high →
    exec (.requestFrame (.whole []) us) s = .next { s with now := s.now + us })
  ∧ (∀ (s : State) (rest : List Byte) (us : Nat),
    exec (.requestFrame (.whole (0 :: rest)) us) s = exec (.fetch (.whole rest.length) us) s)
  ∧ (∀ (s : State) (bytes : List Byte) (us : Nat), s.powered = true → s.port.link = .high →
    bytes.head? ≠ some 0 →
    exec (.requestFrame (.first bytes) us) s = .next
      { s with
        now := s.now + us
        port := { s.port with
          link := .receiving bytes
          miso := if bytes = [] then s.port.miso else List.replicate bytes.length 0 } })
  ∧ (∀ (s : State) (got bytes : List Byte) (us : Nat), s.powered = true → got ≠ [] →
    s.port.link = .receiving got →
    exec (.requestFrame (.next bytes) us) s = .next
      { s with
        now := s.now + us
        port := { s.port with
          link := .receiving (got ++ bytes)
          miso := s.port.miso ++ List.replicate bytes.length 0 } })
  ∧ (∀ (s : State) (got bytes : List Byte) (us : Nat), s.powered = true → got ≠ [] →
    got.head? ≠ some 0 → s.port.link = .receiving got → s.port.miso = List.replicate got.length 0 →
    exec (.requestFrame (.last bytes) us) s
      = exec (.requestFrame (.whole (got ++ bytes)) us) { s with port := { s.port with link := .high } })
  ∧ (∀ (s : State) (bytes : List Byte) (us : Nat), s.powered = true →
    s.port.link = .receiving [] →
    exec (.requestFrame (.next bytes) us) s
      = exec (.requestFrame (.first bytes) us) { s with port := { s.port with link := .high } }
    ∧ exec (.requestFrame (.last bytes) us) s
      = exec (.requestFrame (.whole bytes) us) { s with port := { s.port with link := .high } })
  ∧ ∀ (s : State) (bytes : List Byte) (count us : Nat), s.powered = true →
    (s.port.link = .high →
      exec (.requestFrame (.next bytes) us) s = .next { s with now := s.now + us }
      ∧ exec (.requestFrame (.last bytes) us) s = .next { s with now := s.now + us }
      ∧ exec (.fetch (.next count) us) s = .next { s with now := s.now + us }
      ∧ exec (.fetch (.last count) us) s = .next { s with now := s.now + us })
    ∧ (s.port.link ≠ .high →
      exec (.requestFrame (.whole bytes) us) s = .next { s with now := s.now + us }
      ∧ exec (.requestFrame (.first bytes) us) s = .next { s with now := s.now + us }
      ∧ exec (.fetch (.whole count) us) s = .next { s with now := s.now + us }
      ∧ exec (.fetch (.first count) us) s = .next { s with now := s.now + us })

/-- A FETCH shifts out the frame that the port state gives when its second byte is clocked (R197), its bytes as far as they are clocked
and then 0x00 (R194), and changes nothing else. The frame is the status byte, the length, the payload and the CRC-8 (R200). A row
carries a whole FETCH or a part of it, the bytes of one row being taken at one instant (log 7); the bytes sent after the first are
ignored; the rest of a transaction that a warm reset ended shifts out 0x00 (R199). The running count moves as log 4 says. The
record of MISO is the model's (log 22). -/
def Obligations.FetchShiftsOutFrameOfPortState : Prop :=
  (∀ (s : State) (count us : Nat) (head frame : List Byte), s.powered = true →
    frame = head ++ [crc8 head] →
    ((∃ r : Response, s.port.state = .responseReady ∧ s.port.response = some r ∧
        head = BitVec.ofNat 8 (r.status.code + if r.discarded then 128 else 0)
          :: BitVec.ofNat 8 r.payload.length :: r.payload)
      ∨ (s.port.state = .executing ∧ head = [1, 0])
      ∨ (s.port.state = .idle ∧ head = [8, 0])) →
    (s.port.link = .high →
      exec (.fetch (.whole count) us) s = .next
        { s with
          now := s.now + us
          port := { s.port with
            miso := frame.take count ++ List.replicate (count - frame.length) 0 } }
      ∧ exec (.fetch (.first count) us) s = .next
        { s with
          now := s.now + us
          port := { s.port with
            link := .fetching (if count = 0 then none else some (frame.drop count))
            miso := frame.take count ++ List.replicate (count - frame.length) 0 } })
    ∧ (s.port.link = .fetching none →
      exec (.fetch (.next count) us) s = .next
        { s with
          now := s.now + us
          port := { s.port with
            link := .fetching (if count = 0 then none else some (frame.drop count))
            miso := s.port.miso ++ frame.take count
              ++ List.replicate (count - frame.length) 0 } }))
  ∧ (∀ (s : State) (rest : List Byte) (count us : Nat), s.powered = true →
    s.port.link = .fetching (some rest) →
    exec (.fetch (.next count) us) s = .next
      { s with
        now := s.now + us
        port := { s.port with
          link := .fetching (some (rest.drop count))
          miso := s.port.miso ++ rest.take count ++ List.replicate (count - rest.length) 0 } })
  ∧ (∀ (s : State) (count us : Nat), s.powered = true → s.port.link = .ended →
    exec (.fetch (.next count) us) s = .next
      { s with
        now := s.now + us
        port := { s.port with miso := s.port.miso ++ List.replicate count 0 } })
  ∧ (∀ (s t : State) (count us : Nat), s.powered = true →
    (s.port.link = .ended ∨ ∃ rest, s.port.link = .fetching rest) →
    exec (.fetch (.next count) us) s = .next t →
    exec (.fetch (.last count) us) s = .next { t with port := { t.port with link := .high } })
  ∧ (∀ (s : State) (bytes : List Byte) (us : Nat),
    (s.port.link = .ended ∨ ∃ rest, s.port.link = .fetching rest) →
    exec (.requestFrame (.next bytes) us) s = exec (.fetch (.next bytes.length) us) s
    ∧ exec (.requestFrame (.last bytes) us) s = exec (.fetch (.last bytes.length) us) s)
  ∧ ∀ (s : State) (rest : List Byte) (us : Nat),
    exec (.requestFrame (.first (0 :: rest)) us) s = exec (.fetch (.first rest.length) us) s

/-- A payload whose length does not match the command's fields is answered with BAD_ARGUMENT and changes nothing (R196): fields
of fixed widths, and the lists of SET BANDS, MANUAL DOSE and ACK ATTENTION (R201), whose count byte that does not match the bytes
makes a payload of the wrong length, refused before the command's own rule in every state (the model's deduction, log 10). -/
def Obligations.PayloadLengthMismatchIsRefused : Prop :=
  (∀ (c : Instr) (number : Byte) (width : Nat) (payload : List Byte) (s : State),
    requestNumber c = some number → payloadLength c = some width → payload.length ≠ width →
    s.refuses c number payload .badArgument)
  ∧ (∀ (s : State) (run count : Byte) (bands : List Byte), bands.length ≠ 8 * count.toNat →
    s.refuses .setBands 0x21 (run :: count :: bands) .badArgument)
  ∧ (∀ (s : State) (count : Byte) (points : List Byte), points.length ≠ count.toNat →
    s.refuses .manualDose 0x43 (count :: points) .badArgument)
  ∧ (∀ (s : State) (kind count : Byte) (subjects : List Byte), subjects.length ≠ count.toNat →
    s.refuses .ackAttention 0x73 (kind :: count :: subjects) .badArgument)
  ∧ (∀ (s : State) (short : List Byte), short.length < 2 →
    s.refuses .setBands 0x21 short .badArgument ∧ s.refuses .ackAttention 0x73 short .badArgument)
  ∧ ∀ s : State, s.refuses .manualDose 0x43 [] .badArgument

/-- An executing event does nothing while its request is not in execution (the model's reading of the rows, log 2); a request
whose number no command has is answered with UNKNOWN_COMMAND and changes nothing (R196); the completion puts the response with
the discard flag into the response buffer and makes the port RESPONSE_READY (R196, R198). RDY is high exactly in RESPONSE_READY
(R195), and low while the part is stopped by its supply (log 17). -/
def Obligations.RequestsAnswerOnlyInExecution : Prop :=
  (∀ (c : Instr) (number : Byte) (s : State), requestNumber c = some number →
    (∀ payload, ¬ s.serving number payload) → exec c s = .next s)
  ∧ (∀ (s : State) (number : Byte) (payload : List Byte), s.serving number payload →
    (∀ c, requestNumber c ≠ some number) →
    exec .unknownCommand s = .next (complete .unknownCommand [] s))
  ∧ (∀ (s : State) (c : Instr) (number : Byte) (payload : List Byte), s.serving number payload →
    requestNumber c = some number → exec .unknownCommand s = .next s)
  ∧ (∀ s : State, (∀ number payload, ¬ s.serving number payload) →
    exec .unknownCommand s = .next s)
  ∧ (∀ (status : Status) (out : List Byte) (s : State),
    complete status out s =
      { s with port := { s.port with
        state := .responseReady
        response := some { status := status, discarded := s.port.discard, payload := out } } })
  ∧ ∀ s : State, s.rdy = true ↔ s.powered = true ∧ s.port.state = .responseReady

/-! ### Reads -/

/-- The reads without operands change nothing and return the fields of R97, R144, R173, R183, R190, R204 and R209 in their order,
READ HEADER the grant as R144 gives it and the stroke record with the fields of R122. What they derive is spelled out: times to
expiry, rounded up (log 12); the gas day (R179) and the seconds to the next boundary (R183), the first at which device time, with
its wrap, is one (log 13); the level at a terminal (R202) and the TRIP output (R171), inactive without supply (log 17). Levels,
states, list counts and an absent stroke are coded as log 11 says. -/
def Obligations.BareReadsReturnTheirFields : Prop :=
  (∀ s : State,
    s.accepts .readScan 0x34 []
      (byte s.scan.source.code ++ toBytes 2 s.scan.interval ++ byte s.scan.state.code
        ++ toBytes 2 (s.msTo s.scan.timer) ++ byte s.scan.list.length ++ byte s.scan.done
        ++ toBytes 4 s.scan.count) s
    ∧ s.accepts .readMonitorSummary 0x54 []
      (sixteen.flatMap (fun m => byte s.monitors[m].state.code) ++ flagByte s.tripTest
        ++ numberOrNone (s.holder .trip) ++ flagByte s.tripOutput) s
    ∧ s.accepts .readTime 0x63 []
      (toBytes 4 s.clock.deviceTime ++ flagByte s.clock.timeSet ++ byte s.clock.hour
        ++ toSignedBytes 4 (s.clock.gasDay s.clock.deviceTime) ++ toBytes 4 s.clock.toBoundary
        ++ byte s.clock.source.code ++ flagByte s.clock.qualification.isSome
        ++ toBytes 4 s.clock.basePressure ++ toBytes 4 s.clock.baseTemperature) s
    ∧ s.accepts .readSupply 0x65 []
      (byte s.supply.state.code ++ flagByte s.supply.qualification.isSome
        ++ byte (if s.supply.image.isSome then 0 else 1)
        ++ byte (if s.supply.save.isSome then 1 else 0)
        ++ toBytes 4 (s.supply.save.elim 0 (fun v => (s.now - v.start) / 1000))
        ++ toBytes 4 (s.supply.image.elim 0 Image.deviceTime)) s
    ∧ s.accepts .readTerminals 0x71 []
      (sixteen.flatMap (fun t => s.terminals[t].bytes ++ flagByte (s.terminalLevel t))) s
    ∧ s.accepts .readLevels 0x75 [] (sixteen.flatMap (fun k => byte s.causes[k].level)) s)
  ∧ (∀ (s : State) (grant stroke : List Byte),
    ((s.header.grant = none ∧ grant = [255, 255, 0, 0, 0])
      ∨ ∃ g, s.header.grant = some g ∧ grant =
        byte (match g.beneficiary with | .account i => i.1 | .manual => 254) ++ byte g.point.1
          ++ byte g.strokes ++ flagByte g.endRequested ++ byte g.burstLimit) →
    ((s.stroke = none ∧ stroke = List.replicate 15 0)
      ∨ ∃ k, s.stroke = some k ∧ stroke =
        flagByte true ++ byte k.pump.1 ++ byte k.point.1
          ++ byte (match k.beneficiary with | .account i => i.1 | .manual => 254)
          ++ toBytes 4 k.mass ++ byte k.phase.code ++ byte k.resolution.code
          ++ flagByte k.driveCut ++ toBytes 4 (s.now / 1000 - k.start / 1000)) →
    s.accepts .readHeader 0x45 []
      (byte s.header.state.code ++ byte s.header.config.mode.code
        ++ byte s.header.config.burstLimit ++ toBytes 2 s.header.config.settle
        ++ toBytes 2 s.header.config.pause ++ grant ++ toBytes 2 (s.msTo s.header.timer)
        ++ byte s.header.rotation.1 ++ byte s.header.manualPointer.1
        ++ byte s.header.mask.length ++ s.header.mask.flatMap (fun q => byte q.1)
        ++ toBytes 2 s.header.manualDuration ++ toBytes 2 (s.secondsTo s.header.manualTimer)
        ++ stroke ++ flagByte s.trips.stop ++ flagByte s.trips.supply
        ++ byte (sixteen.countP (fun m => s.trips.monitors[m]))
        ++ (sixteen.filter (fun m => s.trips.monitors[m])).flatMap (fun m => byte m.1)) s)
  ∧ (∀ s : State, s.msTo none = 0 ∧ s.secondsTo none = 0
    ∧ ∀ time n : Nat, (s.msTo (some time) ≤ n ↔ time ≤ s.now + n * 1000)
      ∧ (s.secondsTo (some time) ≤ n ↔ time ≤ s.now + n * 1000000))
  ∧ (∀ (c : Clock) (time : Nat), c.gasDay time * 86400 ≤ (time : Int) - c.hour * 3600
    ∧ (time : Int) - c.hour * 3600 < (c.gasDay time + 1) * 86400)
  ∧ (∀ c : Clock, c.hour ≤ 23 → c.deviceTime < 4294967296 →
    1 ≤ c.toBoundary
    ∧ (c.deviceTime + c.toBoundary) % 4294967296 % 86400 = c.hour * 3600
    ∧ (∀ d, 1 ≤ d → d < c.toBoundary →
      (c.deviceTime + d) % 4294967296 % 86400 ≠ c.hour * 3600)
    ∧ (c.deviceTime + 86400 < 4294967296 → c.toBoundary ≤ 86400))
  ∧ (∀ (s : State) (t : Fin 16),
    (∀ p, s.terminals[t] = .drive p → s.terminalLevel t = s.driveActive p)
    ∧ (∀ q, s.terminals[t] = .valve q → s.terminalLevel t = s.valveActive q)
    ∧ (s.terminals[t] = .trip → s.terminalLevel t = !s.tripOutput)
    ∧ ((∀ p, s.terminals[t] ≠ .drive p) → (∀ q, s.terminals[t] ≠ .valve q) →
      s.terminals[t] ≠ .trip → s.terminalLevel t = s.levels[t]))
  ∧ ∀ s : State, s.tripOutput = true ↔ s.powered = true
    ∧ (s.tripTest = true
      ∨ ∃ m : Fin 16, s.monitors[m].state = .tripped ∧ s.monitors[m].config.action = .tripOutput)

/-- READ CHANNEL, READ POINT and READ PUMP (R96, R127, R157): in every state the fields of the record in their order, and
BAD_ARGUMENT for a number above the last; neither changes anything. What they derive is spelled out: the terminal that holds a
function; flow at a point and its valve output (R124), which is reported also where no terminal holds VALVE (log 26); the drive
output of a pump (R110); at most one point valve output and one drive output is active (R108), and none without supply (R186,
log 17). -/
def Obligations.ReadChannelPointAndPumpReturnTheirFields : Prop :=
  ∀ s : State,
    (∀ c : Fin 16, s.accepts .readChannel 0x33 (byte c.1)
      (flagByte s.channels[c].config.enabled ++ byte s.channels[c].config.kind.code
        ++ toBytes 4 s.channels[c].config.lo ++ toBytes 4 s.channels[c].config.hi
        ++ toBytes 4 s.channels[c].config.fallback ++ byte s.channels[c].state.code
        ++ toBytes 2 s.channels[c].code.toNat ++ toBytes 4 s.channels[c].value
        ++ flagByte s.channels[c].liveSeen) s)
    ∧ (∀ q : Fin 4, s.accepts .readPoint 0x41 (byte q.1)
      (byte s.points[q].state.code ++ toBytes 4 s.points[q].limit
        ++ numberOrNone (s.holder (.valve q)) ++ numberOrNone (s.holder (.flowsw q))
        ++ flagByte (s.flowing q) ++ flagByte (s.valveActive q)
        ++ flagByte (decide (q ∈ s.header.mask)) ++ toBytes 8 s.points[q].manualTotal) s)
    ∧ (∀ p : Fin 2, s.accepts .readPump 0x4D (byte p.1)
      (byte s.pumps[p].state.code ++ toBytes 4 s.pumps[p].config.mass
        ++ toBytes 2 s.pumps[p].config.onTime ++ toBytes 2 s.pumps[p].config.window
        ++ toBytes 2 s.pumps[p].config.spacing ++ byte s.pumps[p].config.failureLimit
        ++ byte s.pumps[p].unproven ++ toBytes 4 s.pumps[p].stray
        ++ toBytes 4 s.pumps[p].strokes ++ numberOrNone (s.holder (.drive p))
        ++ numberOrNone (s.holder (.proof p)) ++ flagByte (s.driveActive p)
        ++ flagByte (decide (s.pendingDuty = some p))) s)
    ∧ (∀ n : Byte, 16 ≤ n.toNat → s.refuses .readChannel 0x33 [n] .badArgument)
    ∧ (∀ n : Byte, 4 ≤ n.toNat → s.refuses .readPoint 0x41 [n] .badArgument)
    ∧ (∀ n : Byte, 2 ≤ n.toNat → s.refuses .readPump 0x4D [n] .badArgument)
    ∧ (∀ f : TerminalFunction, (s.holder f = none ↔ ∀ t : Fin 16, s.terminals[t] ≠ f)
      ∧ ∀ t : Fin 16, s.holder f = some t ↔ s.terminals[t] = f
        ∧ ∀ u : Fin 16, u.1 < t.1 → s.terminals[u] ≠ f)
    ∧ (∀ q : Fin 4, (s.holder (.flowsw q) = none → s.flowing q = true)
      ∧ ∀ t : Fin 16, s.holder (.flowsw q) = some t → s.flowing q = s.levels[t])
    ∧ (∀ q : Fin 4, s.valveActive q = true ↔ s.powered = true
      ∧ (s.header.state = .opening ∨ s.header.state = .stroking)
      ∧ ∃ g, s.header.grant = some g ∧ g.point = q)
    ∧ (∀ p : Fin 2, s.driveActive p = true ↔ s.powered = true ∧ s.header.state = .stroking
      ∧ ∃ k, s.stroke = some k ∧ k.pump = p ∧ k.phase = .drive)
    ∧ (∀ q r : Fin 4, s.valveActive q = true → s.valveActive r = true → q = r)
    ∧ ∀ p r : Fin 2, s.driveActive p = true → s.driveActive r = true → p = r

/-- FIND ACCOUNT (R14), LIST ACCOUNTS (R15) and READ ACCOUNT (R16) with their refusals; none changes anything. The tag found is
that of one slot outside FREE (R6). A list carries its count byte, and one presence indicator stands before both
previous-day figures (log 11). -/
def Obligations.FindListAndReadAccount : Prop :=
  ∀ s : State,
    (∀ i : Fin 12, s.accounts[i].state ≠ .free → printable s.accounts[i].tag = true →
      (∀ j : Fin 12, s.accounts[j].state ≠ .free → s.accounts[j].tag = s.accounts[i].tag → j = i) →
      s.accepts .findAccount 0x11 s.accounts[i].tag (byte i.1 ++ byte s.accounts[i].state.code) s)
    ∧ (∀ tag : List Byte, printable tag = true →
      (∀ j : Fin 12, s.accounts[j].state ≠ .free → s.accounts[j].tag ≠ tag) →
      s.refuses .findAccount 0x11 tag .notFound)
    ∧ (∀ tag : List Byte, (∃ b ∈ tag, b.toNat < 0x20 ∨ 0x7E < b.toNat) →
      s.refuses .findAccount 0x11 tag .badArgument)
    ∧ (∀ (start : Nat) (used : List (Fin 12)), start ≤ 11 →
      used = (List.finRange 12).filter
        (fun i => decide (start ≤ i.1 ∧ s.accounts[i].state ≠ .free)) →
      s.accepts .listAccounts 0x12 (byte start)
        (byte (min 5 used.length)
          ++ (used.take 5).flatMap (fun i =>
            byte i.1 ++ s.accounts[i].tag ++ byte s.accounts[i].state.code)
          ++ numberOrNone used[5]?) s)
    ∧ (∀ start : Byte, 11 < start.toNat → s.refuses .listAccounts 0x12 [start] .badArgument)
    ∧ (∀ (i : Fin 12) (a : Account), s.accounts[i] = a → a.state ≠ .free →
      s.accepts .readAccount 0x13 (byte i.1 ++ byte 0)
        (a.tag ++ byte a.state.code ++ byte a.runs.length ++ a.runs.flatMap (fun r => byte r.1)
          ++ byte a.quality.1 ++ numberOrNone a.point ++ toBytes 2 a.dose ++ byte a.priority
          ++ toBytes 4 a.openTime ++ presentBytes 4 a.closeTime) s
      ∧ s.accepts .readAccount 0x13 (byte i.1 ++ byte 1)
        (volumeBytes a.actual ++ volumeBytes a.base ++ volumeBytes a.estimated) s
      ∧ s.accepts .readAccount 0x13 (byte i.1 ++ byte 2)
        (energyBytes a.energy ++ volumeBytes a.dayBase ++ energyBytes a.dayEnergy
          ++ flagByte a.previousDay.isSome
          ++ volumeBytes (a.previousDay.elim .zero PreviousDay.base)
          ++ energyBytes (a.previousDay.elim .zero PreviousDay.energy)) s
      ∧ s.accepts .readAccount 0x13 (byte i.1 ++ byte 3)
        (toBytes 8 a.owed ++ toBytes 8 a.credited ++ toBytes 8 a.waived ++ toBytes 8 a.reserved
          ++ toBytes 4 a.carry ++ flagByte a.estimatedNow) s)
    ∧ (∀ (i : Fin 12) (sect : Nat), s.accounts[i].state = .free → sect < 4 →
      s.refuses .readAccount 0x13 (byte i.1 ++ byte sect) .wrongState)
    ∧ ∀ slot sect : Byte, 11 < slot.toNat ∨ 3 < sect.toNat →
      s.refuses .readAccount 0x13 [slot, sect] .badArgument

/-- READ RUN (R64), READ COMPOSITION (R78), READ MONITOR (R173) and READ ATTENTION (R207) with their refusals; none changes
anything. Times in ms are rounded up (log 12); the entries of READ ATTENTION carry a count byte (log 11). -/
def Obligations.ReadRunCompositionMonitorAndAttention : Prop :=
  ∀ s : State,
    (∀ (r : Fin 6) (u : Run), s.runs[r] = u →
      s.accepts .readRun 0x25 (byte r.1 ++ byte 0)
        (byte u.state.code ++ numberOrNone (s.ownerOf r) ++ toBytes 4 u.config.weight
          ++ byte u.config.pChannel.1 ++ byte u.config.tChannel.1 ++ byte u.config.edge.code
          ++ byte u.config.noFlow ++ toBytes 4 u.config.overspeed ++ toBytes 2 u.config.cutoff) s
      ∧ s.accepts .readRun 0x25 (byte r.1 ++ byte 1)
        (byte u.config.bands.length
          ++ u.config.bands.flatMap (fun b => toBytes 4 b.limit ++ toBytes 4 b.factor)) s
      ∧ s.accepts .readRun 0x25 (byte r.1 ++ byte 2)
        (toBytes 2 u.pendingPulses ++ toBytes 4 u.overflow ++ byte u.edgeCount
          ++ toBytes 4 u.lastPeriod
          ++ toBytes 4 (if u.edgeCount = 0 then 0
              else u.lastEdge.elim 0 (fun t => min (s.now - t) 67108863))
          ++ toBytes 4 u.frequency ++ toBytes 4 u.rate ++ flagByte u.aboveOverspeed
          ++ toBytes 4 u.cutoffPulses ++ toBytes 4 u.held.p ++ toBytes 4 u.held.t
          ++ flagByte u.held.pSubstituted ++ flagByte u.held.tSubstituted) s
      ∧ s.accepts .readRun 0x25 (byte r.1 ++ byte 3)
        (volumeBytes u.orphanActual ++ volumeBytes u.orphanBase ++ flagByte u.orphanEstimated
          ++ toBytes 4 u.actualCarry ++ toBytes 4 u.baseCarry) s)
    ∧ (∀ run sect : Byte, 5 < run.toNat ∨ 3 < sect.toNat →
      s.refuses .readRun 0x25 [run, sect] .badArgument)
    ∧ (∀ (q : Fin 8) (c : Quality), s.quality[q] = c →
      s.accepts .readComposition 0x2A (byte q.1)
        (byte c.state.code ++ c.tag ++ toBytes 2 c.heating ++ toBytes 2 c.slopeA
          ++ toBytes 2 c.slopeB ++ toBytes 2 c.validity ++ toBytes 4 c.remaining
          ++ toBytes 4 c.posted
          ++ byte ((List.finRange 12).countP (fun i => decide
            ((s.accounts[i].state = .opened ∨ s.accounts[i].state = .closing)
              ∧ s.accounts[i].quality = q)))) s)
    ∧ (∀ q : Byte, 7 < q.toNat → s.refuses .readComposition 0x2A [q] .badArgument)
    ∧ (∀ (m : Fin 16) (u : Monitor), s.monitors[m] = u →
      s.accepts .readMonitor 0x53 (byte m.1)
        (byte u.state.code ++ flagByte u.config.enabled ++ u.config.source.bytes
          ++ byte u.config.sense.code ++ toBytes 4 u.config.threshold
          ++ toBytes 4 u.config.clearLevel ++ toBytes 2 u.config.delay
          ++ byte u.config.action.code ++ presentBytes 4 u.last ++ toBytes 2 (s.msTo u.timer)
          ++ flagByte (decide (u.state = .tripped))) s)
    ∧ (∀ m : Byte, 15 < m.toNat → s.refuses .readMonitor 0x53 [m] .badArgument)
    ∧ (∀ (start fit : Nat) (order : List (Fin 16)) (entries : List (List Byte)), start ≤ 15 →
      order = [3, 2, 1, 0].flatMap (fun level => (List.finRange 16).filter
        (fun k => decide (s.causes[k].subjects ≠ [] ∧ s.causes[k].level = level))) →
      entries = (order.drop start).map (fun k =>
        byte k.1 ++ byte s.causes[k].level ++ byte s.causes[k].subjects.length
          ++ s.causes[k].subjects.flatMap byte) →
      fit ≤ entries.length → (entries.take fit).flatten.length ≤ 58 →
      (fit = entries.length ∨ 58 < (entries.take (fit + 1)).flatten.length) →
      s.accepts .readAttention 0x72 (byte start)
        (byte ((List.finRange 16).countP (fun k => decide (s.causes[k].subjects ≠ []))) ++ byte fit
          ++ (entries.take fit).flatten) s)
    ∧ ∀ start : Byte, 15 < start.toNat → s.refuses .readAttention 0x72 [start] .badArgument

/-! ### Accounts -/

/-- OPEN ACCOUNT (R7): with every check passed the lowest FREE slot takes the fresh record and its number is returned; otherwise
the first failing check gives the status. -/
def Obligations.OpenAccountTakesLowestFreeSlot : Prop :=
  (∀ (s : State) (tag : List Byte) (q : Fin 8) (p : Option (Fin 4)) (d pr : Nat)
      (payload : List Byte),
    s.openable tag q p d pr →
    payload = tag ++ byte q.1 ++ numberOrNone p ++ toBytes 2 d ++ byte pr →
    ((∀ j : Fin 12, s.accounts[j].state ≠ .free → s.accounts[j].tag ≠ tag) →
      (∀ i : Fin 12, s.accounts[i].state = .free →
        (∀ j : Fin 12, j.1 < i.1 → s.accounts[j].state ≠ .free) →
        s.accepts .openAccount 0x10 payload (byte i.1)
          { s with
            accounts := setAt s.accounts i
              { state := .opened, tag := tag, runs := [], quality := q, point := p, dose := d,
                priority := pr, actual := ⟨0, 0⟩, base := ⟨0, 0⟩, estimated := ⟨0, 0⟩,
                energy := ⟨0, 0⟩, dayBase := ⟨0, 0⟩, dayEnergy := ⟨0, 0⟩, previousDay := none,
                owed := 0, credited := 0, waived := 0, reserved := 0, carry := 0,
                openTime := s.clock.deviceTime, closeTime := none, estimatedNow := false } })
      ∧ ((∀ j : Fin 12, s.accounts[j].state ≠ .free) →
        s.refuses .openAccount 0x10 payload .tableFull))
    ∧ ((∃ j : Fin 12, s.accounts[j].state ≠ .free ∧ s.accounts[j].tag = tag) →
      s.refuses .openAccount 0x10 payload .exists))
  ∧ ∀ (s : State) (tag : List Byte) (q p pr : Byte) (d : Nat), tag.length = 8 → d < 65536 →
    ((∃ b ∈ tag, b.toNat < 0x20 ∨ 0x7E < b.toNat) ∨ 7 < q.toNat ∨ (3 < p.toNat ∧ p ≠ 255)
      ∨ d < 100 ∨ 10000 < d ∨ 3 < pr.toNat
      ∨ (∃ i : Fin 8, q.toNat = i.1 ∧ s.quality[i].state = .empty)
      ∨ (∃ i : Fin 4, p.toNat = i.1 ∧ s.points[i].state ≠ .enabled)) →
    s.refuses .openAccount 0x10 (tag ++ [q, p] ++ toBytes 2 d ++ [pr]) .badArgument

/-- AMEND ACCOUNT (R18, R20, R21): the fields that the change set names take their new values together, and a changed point acts
on the grant, then on the obligation, then may bring a grant decision about; otherwise the first failing check gives the
status. A change set with any of bits 4 to 7 set is refused in every state (R201, the model's deduction, log 10), and a named
field is checked even where its value is the current one (log 19). -/
def Obligations.AmendAccountChangesNamedFields : Prop :=
  ∀ (s : State) (i : Fin 12) (set d : Nat) (q p pr : Byte) (payload : List Byte), d < 65536 →
    payload = byte i.1 ++ byte set ++ [q, p] ++ toBytes 2 d ++ [pr] →
    (∀ (a b : Account) (q' : Fin 8) (p' : Option (Fin 4)) (d' pr' : Nat) (u : State),
      s.accounts[i] = a → a.state = .opened → set < 16 →
      (if set.testBit 0 then q.toNat = q'.1 ∧ s.quality[q'].state ≠ .empty
        else q' = a.quality) →
      (if set.testBit 1
        then [p] = numberOrNone p' ∧ ∀ pt, p' = some pt → s.points[pt].state = .enabled
        else p' = a.point) →
      (if set.testBit 2 then d' = d ∧ 100 ≤ d ∧ d ≤ 10000 else d' = a.dose) →
      (if set.testBit 3 then pr' = pr.toNat ∧ pr.toNat ≤ 3 else pr' = a.priority) →
      b = { a with quality := q', point := p', dose := d', priority := pr' } →
      u = { s with accounts := setAt s.accounts i b } →
      s.accepts .amendAccount 0x14 payload []
        (grantIfDue
          (if p' = a.point then u
           else if p' = none
           then requestEnd (fun g => g.beneficiary = .account i)
             { s with
               accounts := setAt s.accounts i
                 { b with
                   waived := addMass a.waived (a.owed - a.credited - a.waived - a.reserved) } }
           else if a.point = none then requestEnd (fun g => g.beneficiary = .account i) u
           else waive i (requestEnd (fun g => g.beneficiary = .account i) u))))
    ∧ (16 ≤ set → set < 256 → s.refuses .amendAccount 0x14 payload .badArgument)
    ∧ (set < 16 → s.accounts[i].state ≠ .opened → s.refuses .amendAccount 0x14 payload .wrongState)
    ∧ (set < 16 → s.accounts[i].state = .opened →
      ((set.testBit 0 = true ∧ ∀ j : Fin 8, q.toNat = j.1 → s.quality[j].state = .empty)
        ∨ (set.testBit 1 = true ∧ p ≠ 255
            ∧ ∀ j : Fin 4, p.toNat = j.1 → s.points[j].state ≠ .enabled)
        ∨ (set.testBit 2 = true ∧ (d < 100 ∨ 10000 < d))
        ∨ (set.testBit 3 = true ∧ 3 < pr.toNat)) →
      s.refuses .amendAccount 0x14 payload .badArgument)
    ∧ ∀ slot : Byte, 11 < slot.toNat →
      s.refuses .amendAccount 0x14 ([slot] ++ payload.drop 1) .badArgument

/-- ATTACH RUN and DETACH RUN (R22, R23, R24): an IN_SERVICE run is settled first, under the ownership before the command; its
carries become zero; then the run joins or leaves the list. A grant decision (R131) may follow DETACH RUN, whose settlement can
make a candidate (the model's deduction, log 16). Otherwise the first failing check gives the status. -/
def Obligations.AttachAndDetachSettleTheRun : Prop :=
  ∀ (s : State) (i : Fin 12) (r : Fin 6),
    (∀ settled u : State,
      settled = (if s.runs[r].state = .inService then update r s.runs[r].held s else s) →
      u = { settled with
        runs := setAt settled.runs r { settled.runs[r] with actualCarry := 0, baseCarry := 0 } } →
      s.accounts[i].state = .opened →
      ((∀ j : Fin 12, r ∉ s.accounts[j].runs) → s.accounts[i].runs.length < 4 →
        s.accepts .attachRun 0x15 (byte i.1 ++ byte r.1) []
          { u with
            accounts := setAt u.accounts i
              { u.accounts[i] with runs := s.accounts[i].runs ++ [r] } })
      ∧ (r ∈ s.accounts[i].runs →
        s.accepts .detachRun 0x16 (byte i.1 ++ byte r.1) []
          (grantIfDue
            { u with
              accounts := setAt u.accounts i
                { u.accounts[i] with runs := s.accounts[i].runs.filter (· ≠ r) } })))
    ∧ (s.accounts[i].state ≠ .opened →
      s.refuses .attachRun 0x15 (byte i.1 ++ byte r.1) .wrongState
        ∧ s.refuses .detachRun 0x16 (byte i.1 ++ byte r.1) .wrongState)
    ∧ (s.accounts[i].state = .opened →
      ((∃ j : Fin 12, r ∈ s.accounts[j].runs) →
        s.refuses .attachRun 0x15 (byte i.1 ++ byte r.1) .inUse)
      ∧ ((∀ j : Fin 12, r ∉ s.accounts[j].runs) → 4 ≤ s.accounts[i].runs.length →
        s.refuses .attachRun 0x15 (byte i.1 ++ byte r.1) .tableFull)
      ∧ (r ∉ s.accounts[i].runs →
        s.refuses .detachRun 0x16 (byte i.1 ++ byte r.1) .notFound))
    ∧ ∀ slot run : Byte, 11 < slot.toNat ∨ 5 < run.toNat →
      s.refuses .attachRun 0x15 [slot, run] .badArgument
        ∧ s.refuses .detachRun 0x16 [slot, run] .badArgument

/-- CLOSE ACCOUNT (R9, R11): every run is settled and detached in list order, the grant's end is requested, and the account
becomes CLOSING with a stroke in flight and enters CLOSED without. RELEASE ACCOUNT (R12): a CLOSED account becomes FREE, its
fields discarded and its tag free. Otherwise the first failing check gives the status. -/
def Obligations.CloseAndReleaseAccount : Prop :=
  ∀ (s : State) (i : Fin 12),
    (∀ u : State, s.accounts[i].state = .opened →
      u = requestEnd (fun g => g.beneficiary = .account i)
        (s.accounts[i].runs.foldl (fun s r => detachRun i r s) s) →
      ((∃ k, s.stroke = some k ∧ k.beneficiary = .account i ∧ k.resolution = .unresolved) →
        s.accepts .closeAccount 0x17 (byte i.1) (byte 2)
          { u with accounts := setAt u.accounts i { u.accounts[i] with state := .closing } })
      ∧ ((∀ k, s.stroke = some k → k.beneficiary = .account i → k.resolution ≠ .unresolved) →
        s.accepts .closeAccount 0x17 (byte i.1) (byte 3)
          (raise .accountClosed i.1
            { u with
              accounts := setAt u.accounts i
                { u.accounts[i] with
                  state := .closed
                  waived := addMass u.accounts[i].waived
                    (u.accounts[i].owed - u.accounts[i].credited - u.accounts[i].waived)
                  closeTime := some s.clock.deviceTime } })))
    ∧ (s.accounts[i].state ≠ .opened → s.refuses .closeAccount 0x17 (byte i.1) .wrongState)
    ∧ (∀ t : State, s.accounts[i].state = .closed →
      t = { s with accounts := setAt s.accounts i .free } →
      s.accepts .releaseAccount 0x18 (byte i.1) [] t
        ∧ ((∀ j : Fin 12, j ≠ i → s.accounts[j].state ≠ .free →
            s.accounts[j].tag ≠ s.accounts[i].tag) →
          ∀ j : Fin 12, t.accounts[j].state ≠ .free → t.accounts[j].tag ≠ s.accounts[i].tag))
    ∧ (s.accounts[i].state ≠ .closed → s.refuses .releaseAccount 0x18 (byte i.1) .wrongState)
    ∧ ∀ slot : Byte, 11 < slot.toNat →
      s.refuses .closeAccount 0x17 [slot] .badArgument
        ∧ s.refuses .releaseAccount 0x18 [slot] .badArgument

/-! ### Runs -/

/-- CONFIGURE RUN (R54): a run out of service takes the seven fields together, and an UNCONFIGURED one becomes OUT_OF_SERVICE with
its default band; otherwise the first failing check gives the status. An edge code outside its list comes before the rule
(R196; log 10, deduced). -/
def Obligations.ConfigureRunSetsConfiguration : Prop :=
  ∀ (s : State) (r : Fin 6) (u : Run) (w noFlow speed fc : Nat) (p t : Byte) (e : PulseEdge)
      (head tail : List Byte), s.runs[r] = u → w < 2 ^ 32 → noFlow < 256 → speed < 2 ^ 32 →
    fc < 65536 → head = toBytes 4 w ++ [p, t] →
    tail = byte noFlow ++ toBytes 4 speed ++ toBytes 2 fc →
    (u.state = .inService →
      s.refuses .configureRun 0x20 (byte r.1 ++ head ++ byte e.code ++ tail) .wrongState)
    ∧ (u.state ≠ .inService →
      (∀ pc tc : Fin 16, p.toNat = pc.1 → t.toNat = tc.1 →
        1000 ≤ w → w ≤ 100000000 → 1 ≤ noFlow → noFlow ≤ 60 → 1 ≤ speed → speed ≤ 10000000 →
        fc ≤ 10000 →
        s.channels[pc].config.enabled = true → s.channels[pc].config.kind = .pressure →
        s.channels[tc].config.enabled = true → s.channels[tc].config.kind = .temperature →
        s.accepts .configureRun 0x20 (byte r.1 ++ head ++ byte e.code ++ tail) []
          { s with
            runs := setAt s.runs r
              { u with
                state := .outOfService
                config :=
                  { weight := w, pChannel := pc, tChannel := tc, edge := e, noFlow := noFlow,
                    overspeed := speed, cutoff := fc,
                    bands := if u.state = .unconfigured
                      then [{ limit := 10000000, factor := 1000000 }] else u.config.bands } } })
      ∧ ((w < 1000 ∨ 100000000 < w ∨ noFlow < 1 ∨ 60 < noFlow ∨ speed < 1 ∨ 10000000 < speed
          ∨ 10000 < fc ∨ 15 < p.toNat ∨ 15 < t.toNat
          ∨ (∃ c : Fin 16, p.toNat = c.1 ∧ ¬ (s.channels[c].config.enabled = true
              ∧ s.channels[c].config.kind = .pressure))
          ∨ (∃ c : Fin 16, t.toNat = c.1 ∧ ¬ (s.channels[c].config.enabled = true
              ∧ s.channels[c].config.kind = .temperature))) →
        s.refuses .configureRun 0x20 (byte r.1 ++ head ++ byte e.code ++ tail) .badArgument))
    ∧ ∀ run edge : Byte, 5 < run.toNat ∨ 2 < edge.toNat →
      s.refuses .configureRun 0x20 ([run] ++ head ++ [edge] ++ tail) .badArgument

/-- SET BANDS (R55): an accepted list replaces the old one whole and touches nothing else of the run, in service or not; otherwise
the first failing check, of the run number, the run's state and the list, gives the status. CLEAR RUN TOTALS (R63): in any
state of the run the orphan totals, the cut-off pulse count, the overflow count and the orphan-estimated flag are cleared, and
nothing else is touched, pending causes included. -/
def Obligations.BandsAreReplacedAndTotalsCleared : Prop :=
  (∀ (s : State) (r : Fin 6) (u : Run) (bands : List Band) (payload : List Byte), s.runs[r] = u →
    bands.length < 256 → (∀ b ∈ bands, b.limit < 2 ^ 32 ∧ b.factor < 2 ^ 32) →
    payload = byte bands.length ++ bands.flatMap (fun b => toBytes 4 b.limit ++ toBytes 4 b.factor) →
    (u.state = .unconfigured → s.refuses .setBands 0x21 (byte r.1 ++ payload) .wrongState)
    ∧ (u.state ≠ .unconfigured →
      ((1 ≤ bands.length ∧ bands.length ≤ 6
          ∧ (∀ b ∈ bands, 1 ≤ b.limit ∧ b.limit ≤ 10000000 ∧ 900000 ≤ b.factor
              ∧ b.factor ≤ 1100000)
          ∧ bands.Pairwise (fun b c => b.limit < c.limit)) →
        s.accepts .setBands 0x21 (byte r.1 ++ payload) []
          { s with runs := setAt s.runs r { u with config := { u.config with bands := bands } } })
      ∧ ((bands.length < 1 ∨ 6 < bands.length
          ∨ (∃ b ∈ bands, b.limit < 1 ∨ 10000000 < b.limit ∨ b.factor < 900000
              ∨ 1100000 < b.factor)
          ∨ ¬ bands.Pairwise (fun b c => b.limit < c.limit)) →
        s.refuses .setBands 0x21 (byte r.1 ++ payload) .badArgument))
    ∧ ∀ run : Byte, 5 < run.toNat → s.refuses .setBands 0x21 ([run] ++ payload) .badArgument)
  ∧ ∀ s : State,
    (∀ r : Fin 6, s.accepts .clearRunTotals 0x24 (byte r.1) []
      { s with
        runs := setAt s.runs r
          { s.runs[r] with
            orphanActual := ⟨0, 0⟩, orphanBase := ⟨0, 0⟩, cutoffPulses := 0, overflow := 0,
            orphanEstimated := false } })
    ∧ ∀ run : Byte, 5 < run.toNat → s.refuses .clearRunTotals 0x24 [run] .badArgument

/-- PLACE IN SERVICE (R56) starts the measurement fields with the held snapshot of the channels as they stand; REMOVE FROM SERVICE
(R57) settles the run, then stops it, with its rate 0 as a second new value and its released updates not made. New values join
the queue of values due (log 8), and a grant decision (R131) may follow the settlement (the model's deduction, log 16). Otherwise
the first failing check gives the status. -/
def Obligations.PlaceAndRemoveRun : Prop :=
  ∀ (s : State) (r : Fin 6) (u : Run) (p t : Channel), s.runs[r] = u →
    s.channels[u.config.pChannel] = p → s.channels[u.config.tChannel] = t →
    (u.state = .outOfService → (∃ x : Fin 16, s.terminals[x] = .pulse r) →
      p.config.kind = .pressure → t.config.kind = .temperature →
      s.accepts .placeInService 0x22 (byte r.1) []
        { s with
          runs := setAt s.runs r
            { u with
              state := .inService, pendingPulses := 0, edgeCount := 0, lastPeriod := 0,
              lastEdge := none, frequency := 0, rate := 0, aboveOverspeed := false,
              lastUpdate := none, actualCarry := 0, baseCarry := 0,
              held :=
                { p := p.value, t := t.value, pSubstituted := decide (p.state ≠ .live),
                  tSubstituted := decide (t.state ≠ .live) } } })
    ∧ (u.state ≠ .outOfService → s.refuses .placeInService 0x22 (byte r.1) .wrongState)
    ∧ (u.state = .outOfService →
      ((∀ x : Fin 16, s.terminals[x] ≠ .pulse r) ∨ p.config.kind ≠ .pressure
        ∨ t.config.kind ≠ .temperature) →
      s.refuses .placeInService 0x22 (byte r.1) .conflict)
    ∧ (∀ v : State, u.state = .inService → v = update r u.held s →
      s.accepts .removeFromService 0x23 (byte r.1) []
        (grantIfDue
          { v with
            runs := setAt v.runs r
              { v.runs[r] with
                actualCarry := 0, baseCarry := 0, state := .outOfService, edgeCount := 0,
                lastPeriod := 0, lastEdge := none, lastUpdate := none, frequency := 0,
                aboveOverspeed := false, rate := 0 }
            dueValues := v.dueValues ++
              ((List.finRange 16).filter (fun m => decide (v.monitors[m].state ≠ .disabled
                ∧ v.monitors[m].config.source = .rate r))).map
                (fun m => { monitor := m, value := 0 })
            released := v.released.filter (fun e => e.run ≠ r) }))
    ∧ (u.state ≠ .inService → s.refuses .removeFromService 0x23 (byte r.1) .wrongState)
    ∧ ∀ run : Byte, 5 < run.toNat →
      s.refuses .placeInService 0x22 [run] .badArgument
        ∧ s.refuses .removeFromService 0x23 [run] .badArgument

/-- PULSE_EDGE (R51, R58, R59, R202): an edge is a change of level, and with the level as it was only time passes (log 3); a counted
edge adds to the pending pulses or, saturated, to the overflow count with OVERSPEED, and
advances period timing by its table; an edge that does not count, or at a terminal without PULSE, changes no run. A change of level
that is the event of another row is not taken as an edge (log 6). The running count moves as log 4 says. -/
def Obligations.PulseEdgeCountsAndTimes : Prop :=
  ∀ (s : State) (x : Fin 16) (rising : Bool) (us : Nat), s.powered = true →
    (∀ (r : Fin 6) (u : Run) (edges period : Nat), s.terminals[x] = .pulse r →
      s.levels[x] = !rising → s.runs[r] = u →
      u.state = .inService →
      (u.config.edge = .both ∨ (u.config.edge = .rising ∧ rising = true)
        ∨ (u.config.edge = .falling ∧ rising = false)) →
      ((edges = 1 ∧ period = 0 ∧ (u.edgeCount = 0 ∨ u.lastEdge = none
          ∨ ∃ t, u.lastEdge = some t ∧ u.config.noFlow * 1000000 < s.now + us - t))
        ∨ (∃ t, edges = 2 ∧ period = min (s.now + us - t) 67108863 ∧ 0 < u.edgeCount
          ∧ u.lastEdge = some t ∧ s.now + us - t ≤ u.config.noFlow * 1000000)) →
      exec (.pulseEdge x rising us) s = .next
        (raiseIf (decide (65535 ≤ u.pendingPulses)) .overspeed r.1
          { s with
            now := s.now + us
            levels := setAt s.levels x rising
            runs := setAt s.runs r
              { u with
                pendingPulses := if u.pendingPulses < 65535 then u.pendingPulses + 1
                  else u.pendingPulses
                overflow := if u.pendingPulses < 65535 then u.overflow
                  else (u.overflow + 1) % 2 ^ 32
                edgeCount := edges, lastPeriod := period, lastEdge := some (s.now + us) } }))
    ∧ (∀ (r : Fin 6), s.terminals[x] = .pulse r → s.levels[x] = !rising →
      (s.runs[r].state ≠ .inService ∨ (s.runs[r].config.edge = .rising ∧ rising = false)
        ∨ (s.runs[r].config.edge = .falling ∧ rising = true)) →
      exec (.pulseEdge x rising us) s = .next
        { s with now := s.now + us, levels := setAt s.levels x rising })
    ∧ (s.levels[x] = !rising → (s.terminals[x] = .none ∨ s.terminals[x] = .trip ∨ (∃ p, s.terminals[x] = .drive p)
        ∨ (∃ q, s.terminals[x] = .valve q)
        ∨ (rising = false ∧ (s.terminals[x] = .sync ∨ ∃ p, s.terminals[x] = .proof p))) →
      exec (.pulseEdge x rising us) s = .next
        { s with now := s.now + us, levels := setAt s.levels x rising })
    ∧ ((s.terminals[x] = .stopIn ∨ (∃ q, s.terminals[x] = .flowsw q)
        ∨ (rising = true ∧ (s.terminals[x] = .sync ∨ ∃ p, s.terminals[x] = .proof p))) →
      exec (.pulseEdge x rising us) s = .next { s with now := s.now + us })
    ∧ (s.levels[x] = rising →
      exec (.pulseEdge x rising us) s = .next { s with now := s.now + us })

/-! ### Metering -/

/-- METERING_UPDATE (R28, R49): in supply NORMAL the oldest released update of the run is taken with the line conditions its scan
left (log 8); it is made if the run is IN_SERVICE, and may bring a grant decision about (R131). With none released nothing happens
(log 3). In supply LOW none is made and no record changes: one released before the entry to LOW stays released (log 8). -/
def Obligations.MeteringUpdateTakesOldestRelease : Prop :=
  ∀ (s : State) (r : Fin 6), s.powered = true →
    (s.supply.state = .normal →
      (∀ (before after : List Released) (e : Released), s.released = before ++ e :: after →
        e.run = r → (∀ x ∈ before, x.run ≠ r) →
        (s.runs[r].state = .inService →
          exec (.meteringUpdate r) s
            = .next (grantIfDue (update r e.held { s with released := before ++ after })))
        ∧ (s.runs[r].state ≠ .inService →
          exec (.meteringUpdate r) s = .next { s with released := before ++ after }))
      ∧ ((∀ x ∈ s.released, x.run ≠ r) → exec (.meteringUpdate r) s = .next s))
    ∧ (s.supply.state = .low → exec (.meteringUpdate r) s = .next s)

/-- One update of a run (R29 to R32, R39 to R47, R60, R61): what it reads, what it stores in the run, the totals and the odourant it
writes to the owner or the orphan totals, OVERSPEED, ORPHAN_FLOW and the waiver rule, and the rate as a new value; nothing else
changes. Its stages are those of the statements that follow. -/
def Obligations.UpdateReadsAndWritesItsRecords : Prop :=
  ∀ (s : State) (r : Fin 6) (held : Held) (u u' : Run) (g f edges period dt : Nat)
      (q : Quality) (w : UpdateResults) (est : Bool), s.runs[r] = u →
    g = u.lastEdge.elim 0 (fun t => min (s.now - t) 67108863) →
    ((0 < u.edgeCount ∧ u.config.noFlow * 1000000 < g ∧ edges = 0 ∧ period = 0 ∧ f = 0)
      ∨ ((u.edgeCount = 0 ∨ g ≤ u.config.noFlow * 1000000) ∧ edges = u.edgeCount
        ∧ period = u.lastPeriod
        ∧ ((u.edgeCount < 2 ∧ f = 0)
          ∨ (2 ≤ u.edgeCount ∧ max period g = 0 ∧ f = 10000000)
          ∨ (2 ≤ u.edgeCount ∧ 0 < max period g
            ∧ f = min (1000000000 / max period g) 10000000)))) →
    ((u.lastUpdate = none ∧ dt = s.scan.interval)
      ∨ ∃ t, u.lastUpdate = some t ∧ dt = min (max (s.now / 1000 - t) 1) 4294967295) →
    w = stages
      { pulses := u.pendingPulses, frequency := f, cutoff := u.config.cutoff,
        weight := u.config.weight, bands := u.config.bands, actualCarry := u.actualCarry,
        baseCarry := u.baseCarry, held := held,
        slopeA := if q.state = .empty then 0 else q.slopeA,
        slopeB := if q.state = .empty then 0 else q.slopeB,
        basePressure := s.clock.basePressure, baseTemperature := s.clock.baseTemperature,
        interval := dt } →
    est = decide (held.pSubstituted = true ∨ held.tSubstituted = true ∨ q.state ≠ .current
      ∨ s.clock.source = .fallback ∨ w.clamped = true) →
    u' = { u with
      pendingPulses := 0, edgeCount := edges, lastPeriod := period, frequency := f, rate := w.rate,
      aboveOverspeed := decide (u.config.overspeed < f),
      cutoffPulses := (u.cutoffPulses + w.cutPulses) % 2 ^ 32, lastUpdate := some (s.now / 1000),
      held := held, actualCarry := w.actualCarry, baseCarry := w.baseCarry } →
    (∀ (i : Fin 12) (a : Account) (dosed owed carry : Nat) (v : State), s.accounts[i] = a →
      r ∈ a.runs → (∀ j : Fin 12, r ∈ s.accounts[j].runs → j = i) →
      q = s.quality[a.quality] → q.state ≠ .empty →
      dosed = w.base * a.dose + a.carry →
      ((a.point = none ∧ owed = 0 ∧ carry = a.carry)
        ∨ (a.point ≠ none ∧ owed = dosed / 100000000 ∧ carry = dosed % 100000000)) →
      v = raiseIf (decide (u.config.overspeed < f) && !u.aboveOverspeed) .overspeed r.1
        { s with
          runs := setAt s.runs r u'
          accounts := setAt s.accounts i
            { a with
              actual := a.actual.add 1000000000 w.actual
              base := a.base.add 1000000000 w.base
              dayBase := a.dayBase.add 1000000000 w.base
              estimated := if est then a.estimated.add 1000000000 w.base else a.estimated
              energy := a.energy.add 1000000000000 (w.base * q.heating)
              dayEnergy := a.dayEnergy.add 1000000000000 (w.base * q.heating)
              owed := min (a.owed + owed) (2 ^ 64 - 1)
              carry := carry
              estimatedNow := est } } →
      update r held s = newValue (.rate r) w.rate (if 0 < owed then waive i v else v))
    ∧ ((∀ j : Fin 12, r ∉ s.accounts[j].runs) → q = s.quality[(0 : Fin 8)] →
      update r held s = newValue (.rate r) w.rate
        (raiseIf (0 < w.base) .orphanFlow r.1
          (raiseIf (decide (u.config.overspeed < f) && !u.aboveOverspeed) .overspeed r.1
            { s with
              runs := setAt s.runs r
                { u' with
                  orphanActual := u.orphanActual.add 1000000000 w.actual
                  orphanBase := u.orphanBase.add 1000000000 w.base
                  orphanEstimated := est } })))

/-- Stages 0 to 5 and 8 of an update (R32 to R38, R41): each result from the inputs, every rounding and clamp as its rule says, and
the clamps that mark the update as estimated (R44). -/
def Obligations.StagesComputeVolumesAndRate : Prop :=
  ∀ (u : UpdateInputs) (n mf x dva s d z db zb f f' y dvb : Nat) (t m s' : Int),
    (∃ before b after, u.bands = before ++ b :: after ∧ (∀ c ∈ before, c.limit < u.frequency)
      ∧ (u.frequency ≤ b.limit ∨ after = []) ∧ mf = b.factor) →
    ((u.frequency < u.cutoff ∧ n = 0) ∨ (u.cutoff ≤ u.frequency ∧ n = u.pulses)) →
    x = n * u.weight * mf + u.actualCarry → dva = x / 1000000 →
    t = (u.held.t : Int) - u.baseTemperature →
    (1000 * m - u.slopeB * t).natAbs ≤ 500 →
    ((1000 * m - u.slopeB * t).natAbs = 500 → (u.slopeB * t).natAbs < (1000 * m).natAbs) →
    s' = u.slopeA - m →
    ((s' < 0 ∧ s = 0) ∨ (100000 < s' ∧ s = 100000) ∨ (0 ≤ s' ∧ s' ≤ 100000 ∧ (s : Int) = s')) →
    2000 * d ≤ 2 * (u.held.p * s) + 1000 → 2 * (u.held.p * s) + 1000 < 2000 * (d + 1) →
    z = 1000000000 - min d 300000000 →
    2000 * db ≤ 2 * (u.basePressure * u.slopeA) + 1000 →
    2 * (u.basePressure * u.slopeA) + 1000 < 2000 * (db + 1) →
    zb = 1000000000 - min db 300000000 →
    0 < u.basePressure * u.held.t →
    2 * f' * (u.basePressure * u.held.t * z)
      ≤ 2 * (1000000 * u.held.p * u.baseTemperature * zb) + u.basePressure * u.held.t * z →
    2 * (1000000 * u.held.p * u.baseTemperature * zb) + u.basePressure * u.held.t * z
      < 2 * (f' + 1) * (u.basePressure * u.held.t * z) →
    f = max 1 (min f' 150000000) → y = dva * f + u.baseCarry → dvb = y / 1000000 →
    stages u =
      { cutPulses := if u.frequency < u.cutoff then u.pulses else 0
        actual := dva
        base := dvb
        actualCarry := x % 1000000
        baseCarry := y % 1000000
        rate := min (dvb * 36 / (10 * u.interval)) (2 ^ 32 - 1)
        clamped := decide (s' ≠ s ∨ 300000000 < d ∨ f ≠ f') }

/-- The actual volume (R34): ΔVa and the new carry of one update, an update without pulses, and over any run of updates, each
taking the carry that the one before left, the exact sum of n × W × MF plus the starting carry. -/
def Obligations.ActualVolumeLosesNothing : Prop :=
  (∀ (u : UpdateInputs) (n mf : Nat),
    n = (if u.frequency < u.cutoff then 0 else u.pulses) → mf = meterFactor u.frequency u.bands →
    (stages u).actual = (n * u.weight * mf + u.actualCarry) / 1000000
      ∧ (stages u).actualCarry = (n * u.weight * mf + u.actualCarry) % 1000000
      ∧ (n = 0 → u.actualCarry < 1000000 →
        (stages u).actual = 0 ∧ (stages u).actualCarry = u.actualCarry))
  ∧ ∀ (updates : List UpdateInputs) (first last : UpdateInputs), updates.head? = some first →
    updates.getLast? = some last →
    (∀ (k : Nat) (u v : UpdateInputs), updates[k]? = some u → updates[k + 1]? = some v →
      v.actualCarry = (stages u).actualCarry) →
    (updates.map (fun u => (stages u).actual)).sum * 1000000 + (stages last).actualCarry
      = (updates.map (fun u =>
          (if u.frequency < u.cutoff then 0 else u.pulses) * u.weight
            * meterFactor u.frequency u.bands)).sum
        + first.actualCarry

/-- The totals and the waiver rule (R3, R42, R102): an addition to a whole-plus-fraction total carries whole units and wraps the
whole part at 10¹²; the waiver rule at one account waives the backlog above L of its point, raising UNDERDOSE, and does nothing
else. -/
def Obligations.TotalsCarryAndBacklogIsCapped : Prop :=
  (∀ (t : Total) (unit increment : Nat), 0 < unit → t.fraction < unit → t.whole < 10 ^ 12 →
    (t.add unit increment).fraction < unit ∧ (t.add unit increment).whole < 10 ^ 12
      ∧ ∃ wraps, (t.add unit increment).whole * unit + (t.add unit increment).fraction
          + wraps * 10 ^ 12 * unit = t.whole * unit + t.fraction + increment)
  ∧ ∀ (s : State) (i : Fin 12) (a : Account), s.accounts[i] = a →
    (a.point = none → waive i s = s)
    ∧ ∀ q : Fin 4, a.point = some q →
      (a.owed - a.credited - a.waived ≤ s.points[q].limit → waive i s = s)
      ∧ (s.points[q].limit < a.owed - a.credited - a.waived → a.owed < 2 ^ 64 →
        waive i s = raise .underdose i.1
          { s with
            accounts := setAt s.accounts i
              { a with
                waived := a.waived + (a.owed - a.credited - a.waived - s.points[q].limit) } })

/-! ### Gas quality -/

/-- POST COMPOSITION (R70): in every state of the slot, in every supply state, with every argument in range, the slot takes the record
and becomes CURRENT with its full validity. RETIRE COMPOSITION (R77): a slot that is not EMPTY and that no OPEN or CLOSING
account names becomes EMPTY, its fields read as zero. Nothing else changes, pending causes and CLOSED accounts included;
otherwise the first failing check gives the status. -/
def Obligations.QualitySlotsArePostedAndRetired : Prop :=
  (∀ (s : State) (tag : List Byte) (hv a b validity : Nat), tag.length = 8 →
    hv < 65536 → a < 65536 → b < 65536 → validity < 65536 →
    (∀ q : Fin 8, (∀ c ∈ tag, 0x20 ≤ c.toNat ∧ c.toNat ≤ 0x7E) → 30000 ≤ hv → hv ≤ 50000 →
      a ≤ 50000 → b ≤ 1000 → 1 ≤ validity → validity ≤ 1440 →
      s.accepts .postComposition 0x28
        (byte q.1 ++ tag ++ toBytes 2 hv ++ toBytes 2 a ++ toBytes 2 b ++ toBytes 2 validity) []
        { s with
          quality := setAt s.quality q
            { state := .current, tag := tag, heating := hv, slopeA := a, slopeB := b,
              validity := validity, remaining := validity * 60,
              posted := s.clock.deviceTime } })
    ∧ ∀ slot : Byte, (7 < slot.toNat ∨ (∃ c ∈ tag, c.toNat < 0x20 ∨ 0x7E < c.toNat) ∨ hv < 30000
        ∨ 50000 < hv ∨ 50000 < a ∨ 1000 < b ∨ validity < 1 ∨ 1440 < validity) →
      s.refuses .postComposition 0x28
        ([slot] ++ tag ++ toBytes 2 hv ++ toBytes 2 a ++ toBytes 2 b ++ toBytes 2 validity)
        .badArgument)
  ∧ ∀ s : State,
    (∀ q : Fin 8, s.quality[q].state ≠ .empty →
      ((∀ i : Fin 12, s.accounts[i].state = .opened ∨ s.accounts[i].state = .closing →
          s.accounts[i].quality ≠ q) →
        s.accepts .retireComposition 0x29 (byte q.1) []
          { s with
            quality := setAt s.quality q
              { state := .empty, tag := List.replicate 8 0, heating := 0, slopeA := 0,
                slopeB := 0, validity := 0, remaining := 0, posted := 0 } })
      ∧ ((∃ i : Fin 12, (s.accounts[i].state = .opened ∨ s.accounts[i].state = .closing)
          ∧ s.accounts[i].quality = q) →
        s.refuses .retireComposition 0x29 (byte q.1) .inUse))
    ∧ (∀ q : Fin 8, s.quality[q].state = .empty →
      s.refuses .retireComposition 0x29 (byte q.1) .wrongState)
    ∧ ∀ slot : Byte, 7 < slot.toNat → s.refuses .retireComposition 0x29 [slot] .badArgument

/-- DEVICE_SECOND (R72, R73, R176, R179): device time and the next second advance; every CURRENT slot counts down, and one that
reaches 0 becomes STALE with COMPOSITION_STALE; then, at a boundary while the time is set, a rollover (log 15). VALIDITY_EXPIRY is
one such expiry alone (log 9). The running count moves as log 4 says. -/
def Obligations.DeviceSecondCountsDown : Prop :=
  ∀ (s : State) (t u : State) (time : Nat), s.powered = true →
    time = (s.clock.deviceTime + 1) % 2 ^ 32 →
    t = { s with
      now := max s.now s.clock.nextSecond
      clock := { s.clock with
        deviceTime := time, nextSecond := s.clock.nextSecond + 1000000 }
      quality := mapAll (fun c : Quality =>
        if c.state ≠ .current then c
        else if c.remaining ≤ 1 then { c with remaining := 0, state := .stale }
        else { c with remaining := c.remaining - 1 }) s.quality } →
    u = ((List.finRange 8).filter (fun q => decide (s.quality[q].state = .current
      ∧ s.quality[q].remaining ≤ 1))).foldl (fun s q => raise .compositionStale q.1 s) t →
    (((s.clock.timeSet = true ∧ time % 86400 = s.clock.hour * 3600) →
        exec .deviceSecond s = .next (rollover u))
      ∧ ((s.clock.timeSet = false ∨ time % 86400 ≠ s.clock.hour * 3600) →
        exec .deviceSecond s = .next u))
    ∧ ∀ q : Fin 8,
      (s.quality[q].state = .current → s.quality[q].remaining = 0 →
        exec (.validityExpiry q) s = .next (raise .compositionStale q.1
          { s with quality := setAt s.quality q { s.quality[q] with state := .stale } }))
      ∧ ((s.quality[q].state ≠ .current ∨ 0 < s.quality[q].remaining) →
        exec (.validityExpiry q) s = .next s)

/-! ### The scanner -/

/-- CONFIGURE CHANNEL (R84, R85): an accepted configuration replaces the five fields together; the channel keeps its state only where
it stays enabled with kind, lo and hi unchanged, and becomes NO_DATA with the new fallback otherwise; nothing else changes.
Otherwise the first failing check gives the status; a kind code outside its list comes before the rule (R196; log 10, deduced). That
an enabled byte of 2 to 255 is answered with BAD_ARGUMENT in the same way is no rule of the spec, which names enumeration codes only,
but the model's presumption (log 10). -/
def Obligations.ConfigureChannelWritesFiveFields : Prop :=
  ∀ (s : State) (i : Fin 16) (old : Channel) (c : ChannelConfig) (least most : Nat)
      (kind : Byte) (numbers : List Byte), s.channels[i] = old →
    c.lo < 2 ^ 32 → c.hi < 2 ^ 32 → c.fallback < 2 ^ 32 →
    ((c.kind = .pressure ∧ least = 10000 ∧ most = 20000000 ∧ kind = 0)
      ∨ (c.kind = .temperature ∧ least = 200000 ∧ most = 400000 ∧ kind = 1)
      ∨ (c.kind = .level ∧ least = 0 ∧ most = 1000 ∧ kind = 2)) →
    numbers = toBytes 4 c.lo ++ toBytes 4 c.hi ++ toBytes 4 c.fallback →
    ((least ≤ c.lo ∧ c.lo < c.hi ∧ c.hi ≤ most ∧ c.lo ≤ c.fallback ∧ c.fallback ≤ c.hi) →
      ((c.kind = old.config.kind ∨ ∀ r : Fin 6, s.runs[r].state = .inService →
          s.runs[r].config.pChannel ≠ i ∧ s.runs[r].config.tChannel ≠ i) →
        s.accepts .configureChannel 0x30 (byte i.1 ++ flagByte c.enabled ++ [kind] ++ numbers) []
          { s with
            channels := setAt s.channels i
              (if c.enabled = true ∧ old.config.enabled = true ∧ c.kind = old.config.kind
                  ∧ c.lo = old.config.lo ∧ c.hi = old.config.hi
               then
                 { old with
                   config := c
                   value := if old.state = .live ∨ (old.state = .held ∧ old.liveSeen = true)
                     then old.value else c.fallback }
               else
                 { old with
                   config := c, state := .noData, value := c.fallback, liveSeen := false }) })
      ∧ (c.kind ≠ old.config.kind → (∃ r : Fin 6, s.runs[r].state = .inService
          ∧ (s.runs[r].config.pChannel = i ∨ s.runs[r].config.tChannel = i)) →
        s.refuses .configureChannel 0x30 (byte i.1 ++ flagByte c.enabled ++ [kind] ++ numbers)
          .inUse))
    ∧ ((c.lo < least ∨ most < c.lo ∨ c.hi < least ∨ most < c.hi ∨ c.hi ≤ c.lo
        ∨ c.fallback < c.lo ∨ c.hi < c.fallback) →
      s.refuses .configureChannel 0x30 (byte i.1 ++ flagByte c.enabled ++ [kind] ++ numbers)
        .badArgument)
    ∧ ∀ channel flag code : Byte, 15 < channel.toNat ∨ 1 < flag.toNat ∨ 2 < code.toNat →
      s.refuses .configureChannel 0x30 ([channel, flag, code] ++ numbers) .badArgument

/-- SET SCAN, SCAN NOW and the triggers (R87, R88, R92, R93, R95): what each does in each scan state; a start fixes the list of the
enabled channels, and one with an empty list completes at once. An activation of SYNC is a change to high (R202, log 6); at a
terminal without SYNC, or one already high, it does not occur and only time passes, and the expiry of the stopped interval timer
changes nothing (log 3). The running count moves as log 4 says. -/
def Obligations.ScanTriggersStartOrAreDropped : Prop :=
  ∀ (s : State),
    (∀ (src : TriggerSource) (interval : Nat), 100 ≤ interval → interval ≤ 60000 →
      (src = .sync → ∃ x : Fin 16, s.terminals[x] = .sync) →
      s.accepts .setScan 0x31 (byte src.code ++ toBytes 2 interval) []
        { s with
          scan := { s.scan with
            source := src, interval := interval
            timer := if src = .interval then some (s.now + interval * 1000) else none } })
    ∧ (∀ (src : Byte) (interval : Nat), interval < 65536 →
      (2 < src.toNat ∨ interval < 100 ∨ 60000 < interval) →
      s.refuses .setScan 0x31 ([src] ++ toBytes 2 interval) .badArgument)
    ∧ (∀ interval : Nat, 100 ≤ interval → interval ≤ 60000 →
      (∀ x : Fin 16, s.terminals[x] ≠ .sync) →
      s.refuses .setScan 0x31 ([0] ++ toBytes 2 interval) .conflict)
    ∧ (s.scan.state = .idle → s.accepts .scanNow 0x32 [] [] (startScan s))
    ∧ (s.scan.state = .scanning → s.refuses .scanNow 0x32 [] .busy)
    ∧ (s.scan.state = .suspended → s.refuses .scanNow 0x32 [] .denied)
    ∧ (∀ list : List (Fin 16),
      list = (List.finRange 16).filter (fun c => s.channels[c].config.enabled) →
      (list ≠ [] → startScan s =
        { s with
          scan := { s.scan with
            state := .scanning, list := list, done := 0, conversionEnd := s.now + 2000 } })
      ∧ (list = [] → startScan s = completeScan s))
    ∧ ((s.scan.state = .idle → trigger s = startScan s)
      ∧ (s.scan.state = .scanning → trigger s = raise .scanOverrun 255 s)
      ∧ (s.scan.state = .suspended → trigger s = s))
    ∧ (s.powered = true →
      (∀ (x : Fin 16) (us : Nat), s.terminals[x] ≠ .sync ∨ s.levels[x] = true →
        exec (.syncActivation x us) s = .next { s with now := s.now + us })
      ∧ (∀ (x : Fin 16) (us : Nat) (t : State), s.terminals[x] = .sync → s.levels[x] = false →
        t = { s with now := s.now + us, levels := setAt s.levels x true } →
        (s.scan.source = .sync → exec (.syncActivation x us) s = .next (trigger t))
        ∧ (s.scan.source ≠ .sync → exec (.syncActivation x us) s = .next t))
      ∧ (∀ time, s.scan.timer = some time →
        exec .intervalExpiry s = .next (trigger
          { s with
            now := max s.now time
            scan := { s.scan with timer := some (time + s.scan.interval * 1000) } }))
      ∧ (s.scan.timer = none → exec .intervalExpiry s = .next s))

/-- CONVERSION_END (R88 to R91): the channel next in the list takes its code, unless it is disabled, and its value falls due at the
monitors that watch it; the end of the last conversion is the completion, which stores the result and releases an update for each
IN_SERVICE run with the line conditions of R30 (the queues of releases and of values due are the model's, log 8). With no scan in
flight it does not occur and changes nothing (log 3). The running count moves as log 4 says. -/
def Obligations.ConversionEndTakesTheCode : Prop :=
  ∀ (s : State), s.powered = true →
    (∀ (code : BitVec 16) (i : Fin 16) (ch new : Channel) (n m : Int) (v : Nat) (due : Bool)
        (t u : State),
      s.scan.state = .scanning → s.scan.list[s.scan.done]? = some i → s.channels[i] = ch →
      n = ((code.toNat : Int) - 10923) * ((ch.config.hi : Int) - ch.config.lo) →
      (43690 * m - n).natAbs ≤ 21845 →
      ((43690 * m - n).natAbs = 21845 → n.natAbs < (43690 * m).natAbs) →
      ((m < 0 ∧ v = ch.config.lo) ∨ (0 ≤ m ∧ ch.config.hi < ch.config.lo + m ∧ v = ch.config.hi)
        ∨ (0 ≤ m ∧ ch.config.lo + m ≤ ch.config.hi ∧ (v : Int) = ch.config.lo + m)) →
      ((ch.config.enabled = false ∧ due = false ∧ new = ch)
        ∨ (ch.config.enabled = true ∧ due = true ∧ 9830 ≤ code.toNat ∧ code.toNat ≤ 57343
          ∧ new = { ch with
              code := code, state := .live, liveSeen := true, value := v })
        ∨ (ch.config.enabled = true ∧ due = true ∧ (code.toNat < 9830 ∨ 57343 < code.toNat)
          ∧ new = { ch with
              code := code, state := .held
              value := if ch.liveSeen then ch.value else ch.config.fallback })) →
      t = raiseIf (decide (new.state = .held ∧ ch.state ≠ .held ∧ due = true)) .sensorHold i.1
        { s with
          now := max s.now s.scan.conversionEnd
          channels := setAt s.channels i new
          dueValues := s.dueValues ++ ((List.finRange 16).filter (fun m => decide (due = true
            ∧ s.monitors[m].state ≠ .disabled ∧ s.monitors[m].config.source = .channel i))).map
              (fun m => { monitor := m, value := new.value })
          scan := { s.scan with
            done := s.scan.done + 1, conversionEnd := s.scan.conversionEnd + 2000 } } →
      u = (if s.scan.done + 1 = s.scan.list.length then completeScan t else t) →
      exec (.conversionEnd code) s = .next u)
    ∧ (∀ code : BitVec 16, (s.scan.state ≠ .scanning ∨ s.scan.list.length ≤ s.scan.done) →
      exec (.conversionEnd code) s = .next s)
    ∧ completeScan s =
      { s with
        scan := { s.scan with
          state := .idle, list := [], done := 0, conversionEnd := 0
          count := (s.scan.count + 1) % 2 ^ 32
          result := mapAll (fun ch => { value := ch.value, state := ch.state }) s.channels }
        released := s.released ++
          ((List.finRange 6).filter (fun r => decide (s.runs[r].state = .inService))).map
            (fun r => { run := r, held :=
              { p := s.channels[s.runs[r].config.pChannel].value
                t := s.channels[s.runs[r].config.tChannel].value
                pSubstituted := decide (s.channels[s.runs[r].config.pChannel].state ≠ .live)
                tSubstituted := decide (s.channels[s.runs[r].config.tChannel].state ≠ .live) } }) }

/-! ### The header -/

/-- CONFIGURE POINT (R103, R125, R126): the point takes state and limit; a lowered limit applies the waiver rule at every account
bound to the point, in slot order; a point disabled leaves the manual mask and ends the grant at it; then a grant decision may
follow. Otherwise the first failing check gives the status; a state code outside its list comes before the rule (log 10). -/
def Obligations.ConfigurePointActsOnItsNeighbours : Prop :=
  ∀ (s : State) (q : Fin 4) (old : Point) (st : PointState) (limit : Nat), s.points[q] = old →
    limit < 2 ^ 32 →
    (1000 ≤ limit → limit ≤ 100000000 →
      (∀ p : Fin 2, s.pumps[p].state = .isolated ∨ s.pumps[p].config.mass ≤ limit) →
      ((st = .disabled ∨ ∃ x : Fin 16, s.terminals[x] = .valve q) →
        ∀ u v w z : State,
          u = { s with points := setAt s.points q { old with state := st, limit := limit } } →
          v = (if limit < old.limit
            then ((List.finRange 12).filter (fun i => decide
              ((s.accounts[i].state = .opened ∨ s.accounts[i].state = .closing)
                ∧ s.accounts[i].point = some q))).foldl (fun s i => waive i s) u
            else u) →
          ((q ∉ s.header.mask ∧ w = v)
            ∨ (q ∈ s.header.mask ∧ (∃ r ∈ s.header.mask, r ≠ q)
              ∧ w = { v with header := { v.header with mask := s.header.mask.filter (· ≠ q) } })
            ∨ (q ∈ s.header.mask ∧ (∀ r ∈ s.header.mask, r = q)
              ∧ w = raise .manualDoseEnd 255
                { v with header := { v.header with mask := [], manualTimer := none } })) →
          z = (if old.state = .enabled ∧ st = .disabled
            then requestEnd (fun g => g.point = q) w else v) →
          s.accepts .configurePoint 0x40 (byte q.1 ++ byte st.code ++ toBytes 4 limit) []
            (grantIfDue z))
      ∧ (st = .enabled → (∀ x : Fin 16, s.terminals[x] ≠ .valve q) →
        s.refuses .configurePoint 0x40 (byte q.1 ++ byte st.code ++ toBytes 4 limit) .conflict))
    ∧ (1000 ≤ limit → limit ≤ 100000000 →
      (∃ p : Fin 2, s.pumps[p].state ≠ .isolated ∧ limit < s.pumps[p].config.mass) →
      s.refuses .configurePoint 0x40 (byte q.1 ++ byte st.code ++ toBytes 4 limit) .conflict)
    ∧ ∀ point state : Byte, 3 < point.toNat ∨ 1 < state.toNat ∨ limit < 1000 ∨ 100000000 < limit →
      s.refuses .configurePoint 0x40 ([point, state] ++ toBytes 4 limit) .badArgument

/-- CONFIGURE HEADER (R130) and SET MANUAL TIMER (R140): in any header state the values are stored; a grant held and a timer running
keep theirs, and nothing else changes. A value out of range refuses the command. -/
def Obligations.HeaderAndManualTimerAreConfigured : Prop :=
  ∀ s : State,
    (∀ (mode : Mode) (burst settle pause : Nat), 1 ≤ burst → burst ≤ 64 → 100 ≤ settle →
      settle ≤ 10000 → 100 ≤ pause → pause ≤ 10000 →
      s.accepts .configureHeader 0x42
        (byte mode.code ++ byte burst ++ toBytes 2 settle ++ toBytes 2 pause) []
        { s with
          header := { s.header with
            config := { mode := mode, burstLimit := burst, settle := settle, pause := pause } } })
    ∧ (∀ (mode burst : Byte) (settle pause : Nat), settle < 65536 → pause < 65536 →
      (1 < mode.toNat ∨ burst.toNat < 1 ∨ 64 < burst.toNat ∨ settle < 100 ∨ 10000 < settle
        ∨ pause < 100 ∨ 10000 < pause) →
      s.refuses .configureHeader 0x42 ([mode, burst] ++ toBytes 2 settle ++ toBytes 2 pause)
        .badArgument)
    ∧ (∀ duration : Nat, 1 ≤ duration → duration ≤ 3600 →
      s.accepts .setManualTimer 0x44 (toBytes 2 duration) []
        { s with header := { s.header with manualDuration := duration } })
    ∧ ∀ duration : Nat, duration < 65536 → (duration < 1 ∨ 3600 < duration) →
      s.refuses .setManualTimer 0x44 (toBytes 2 duration) .badArgument

/-- MANUAL DOSE and MANUAL_TIMER_EXPIRY (R138, R139): the mask is replaced and the timer treated by the table of R138; the expiry
empties the mask with MANUAL_DOSE_END. The checks stand in their order, the length and the members of the set first. The
expiry of the stopped timer changes nothing (log 3). The running count moves as log 4 says. -/
def Obligations.ManualDoseReplacesTheMask : Prop :=
  ∀ s : State,
    (∀ (mask : List (Fin 4)) (timer : Option Nat), mask.Pairwise (· < ·) →
      s.header.state ≠ .tripped → s.supply.state ≠ .low →
      ((∀ q ∈ mask, s.points[q].state = .enabled) →
        ((mask = [] ∧ timer = none)
          ∨ (mask ≠ [] ∧ s.header.mask ≠ [] ∧ timer = s.header.manualTimer)
          ∨ (mask ≠ [] ∧ s.header.mask = []
            ∧ timer = some (s.now + s.header.manualDuration * 1000000))) →
        s.accepts .manualDose 0x43 (byte mask.length ++ mask.flatMap (fun q => byte q.1)) []
          (grantIfDue { s with
            header := { s.header with mask := mask, manualTimer := timer } }))
      ∧ ((∃ q ∈ mask, s.points[q].state ≠ .enabled) →
        s.refuses .manualDose 0x43 (byte mask.length ++ mask.flatMap (fun q => byte q.1))
          .badArgument))
    ∧ (∀ mask : List (Fin 4), mask.Pairwise (· < ·) →
      (s.header.state = .tripped ∨ s.supply.state = .low) →
      s.refuses .manualDose 0x43 (byte mask.length ++ mask.flatMap (fun q => byte q.1)) .denied)
    ∧ (∀ members : List Byte, members.length < 256 →
      ((∃ b ∈ members, 3 < b.toNat) ∨ ¬ members.Pairwise (fun a b => a.toNat < b.toNat)) →
      s.refuses .manualDose 0x43 (byte members.length ++ members) .badArgument)
    ∧ (s.powered = true →
      (∀ time, s.header.manualTimer = some time →
        (s.header.mask ≠ [] → exec .manualTimerExpiry s = .next (raise .manualDoseEnd 255
          { s with
            now := max s.now time
            header := { s.header with mask := [], manualTimer := none } }))
        ∧ (s.header.mask = [] → exec .manualTimerExpiry s = .next { s with now := max s.now time }))
      ∧ (s.header.manualTimer = none → exec .manualTimerExpiry s = .next s))

/-- The grant decision (R106, R131, R132): made only with the header IDLE, the trip set empty and the stroke record empty; first to
MANUAL at the first point of the mask after the manual pointer, else by the mode to a candidate; the grant is filled, the
header becomes OPENING and the settle timer starts. Otherwise nothing changes. -/
def Obligations.GrantDecisionChoosesBeneficiary : Prop :=
  ∀ (s : State) (free duty : Prop) (grant : Beneficiary → Fin 4 → Grant),
    (free ↔ s.header.state = .idle ∧ s.trips.stop = false ∧ s.trips.supply = false
      ∧ (∀ m : Fin 16, s.trips.monitors[m] = false) ∧ s.stroke = none) →
    (duty ↔ ∃ p : Fin 2, s.pumps[p].state = .duty) →
    (∀ b q, grant b q =
      { beneficiary := b, point := q, strokes := 0, endRequested := false,
        burstLimit := s.header.config.burstLimit, settle := s.header.config.settle,
        pause := s.header.config.pause }) →
    (∀ (i : Fin 12) (a : Account), s.accounts[i] = a →
      (∀ p : Fin 2, s.pumps[p].state = .duty → (∀ r : Fin 2, s.pumps[r].state = .duty → r = p) →
        (s.candidate i = true ↔ a.state = .opened
          ∧ (∃ q, a.point = some q ∧ s.points[q].state = .enabled ∧ s.flowing q = true)
          ∧ s.pumps[p].config.mass ≤ a.owed - a.credited - a.waived - a.reserved))
      ∧ (¬ duty → s.candidate i = false))
    ∧ (¬ free → grantIfDue s = s)
    ∧ (free → duty → ∀ (q : Fin 4) (k : Nat), q ∈ s.header.mask → k < 4 →
      q.1 = (s.header.manualPointer.1 + 1 + k) % 4 →
      (∀ (r : Fin 4) (j : Nat), j < k → r.1 = (s.header.manualPointer.1 + 1 + j) % 4 →
        r ∉ s.header.mask) →
      grantIfDue s =
        { s with
          header := { s.header with
            state := .opening, grant := some (grant .manual q), manualPointer := q
            timer := some (s.now + s.header.config.settle * 1000) } })
    ∧ (free → (s.header.mask = [] ∨ ¬ duty) →
      (∀ (i : Fin 12) (q : Fin 4) (t : State), s.candidate i = true → s.accounts[i].point = some q →
        t = { s with
          header := { s.header with
            state := .opening, grant := some (grant (.account i) q), rotation := i
            timer := some (s.now + s.header.config.settle * 1000) } } →
        (s.header.config.mode = .fixed →
          (∀ j : Fin 12, s.candidate j = true →
            s.accounts[j].priority < s.accounts[i].priority
              ∨ (s.accounts[j].priority = s.accounts[i].priority ∧ i.1 ≤ j.1)) →
          grantIfDue s = t)
        ∧ (s.header.config.mode = .rotating → ∀ k : Nat, k < 12 →
          i.1 = (s.header.rotation.1 + 1 + k) % 12 →
          (∀ (j : Fin 12) (n : Nat), n < k → j.1 = (s.header.rotation.1 + 1 + n) % 12 →
            s.candidate j = false) →
          grantIfDue s = t))
      ∧ ((∀ i : Fin 12, s.candidate i = false) → grantIfDue s = s))

/-- SETTLE_EXPIRY and PAUSE_EXPIRY (R133, R134, R137): in OPENING the stroke-start test starts the first stroke, or the header
becomes CLOSING for the grant's pause; in CLOSING the grant is discarded, the header becomes IDLE and a grant decision may follow.
In any other state neither comes (log 3). The running count moves as log 4 says. -/
def Obligations.SettleAndPauseExpiriesMoveTheHeader : Prop :=
  (∀ (s : State) (g : Grant), s.strokeTest g = true ↔
    g.endRequested = false ∧ g.strokes < g.burstLimit
      ∧ ((∃ i, g.beneficiary = .account i ∧ s.candidate i = true
          ∧ s.accounts[i].point = some g.point
          ∧ (s.header.mask = [] ∨ ∀ p : Fin 2, s.pumps[p].state ≠ .duty))
        ∨ (g.beneficiary = .manual ∧ g.point ∈ s.header.mask
          ∧ ∃ p : Fin 2, s.pumps[p].state = .duty)))
  ∧ ∀ s : State, s.powered = true →
    (∀ (time : Nat) (g : Grant) (t : State), s.header.timer = some time →
      s.header.grant = some g → t = { s with now := max s.now time } →
      (s.header.state = .opening →
        (s.strokeTest g = true → exec .settleExpiry s = .next (startStroke g t))
        ∧ (s.strokeTest g = false → exec .settleExpiry s = .next
          { t with
            header := { s.header with
              state := .closing, timer := some (max s.now time + g.pause * 1000) } }))
      ∧ (s.header.state = .closing → exec .pauseExpiry s = .next (grantIfDue
        { t with header := { s.header with state := .idle, grant := none, timer := none } })))
    ∧ ((s.header.state ≠ .opening ∨ s.header.timer = none) → exec .settleExpiry s = .next s)
    ∧ ((s.header.state ≠ .closing ∨ s.header.timer = none) → exec .pauseExpiry s = .next s)

/-! ### Flow switches, the stop input and the trip set -/

/-- FLOW_DROP, FLOW_RISE, STOP_IN_ACTIVE and STOP_IN_INACTIVE (R124, R131, R158, R159): the level is taken; a flow drop requests the
end of an account grant at the point, a rise may bring a grant decision about, and STOP joins or leaves the trip set. An event that
is no change of the level of such a terminal does not occur (log 3, log 6). The running count moves as log 4 says. -/
def Obligations.FlowAndStopInputsAct : Prop :=
  ∀ (s : State) (x : Fin 16) (us : Nat) (t : Bool → State), s.powered = true →
    (∀ b, t b = { s with now := s.now + us, levels := setAt s.levels x b }) →
    (∀ q : Fin 4, s.terminals[x] = .flowsw q →
      (s.levels[x] = true → exec (.flowDrop x us) s
        = .next (requestEnd (fun g => g.beneficiary ≠ .manual ∧ g.point = q) (t false)))
      ∧ (s.levels[x] = false → exec (.flowRise x us) s = .next (grantIfDue (t true))))
    ∧ (s.terminals[x] = .stopIn →
      (s.levels[x] = true → exec (.stopInActive x us) s
        = .next (changeTrips (fun c => { c with stop := true }) (t false)))
      ∧ (s.levels[x] = false → exec (.stopInInactive x us) s
        = .next (grantIfDue (changeTrips (fun c => { c with stop := false }) (t true)))))
    ∧ (((∀ q, s.terminals[x] ≠ .flowsw q) ∨ s.levels[x] = false) →
      exec (.flowDrop x us) s = .next { s with now := s.now + us })
    ∧ (((∀ q, s.terminals[x] ≠ .flowsw q) ∨ s.levels[x] = true) →
      exec (.flowRise x us) s = .next { s with now := s.now + us })
    ∧ ((s.terminals[x] ≠ .stopIn ∨ s.levels[x] = false) →
      exec (.stopInActive x us) s = .next { s with now := s.now + us })
    ∧ ((s.terminals[x] ≠ .stopIn ∨ s.levels[x] = true) →
      exec (.stopInInactive x us) s = .next { s with now := s.now + us })

/-- The end-requested flag and the trip set (R113, R135, R142, R143, R159): only a grant held in OPENING or STROKING that meets the
condition takes the flag (in CLOSING the flag stays as it stands: the model's deduction, log 25); the first source to join trips the header, cutting the drive, discarding the grant and emptying the
manual mask; the last to leave takes it to IDLE; any other change of the set reaches nothing else. -/
def Obligations.TripSetMovesTheHeader : Prop :=
  (∀ (s : State) (met : Grant → Bool),
    (∀ g, s.header.grant = some g → (s.header.state = .opening ∨ s.header.state = .stroking) →
      met g = true → requestEnd met s =
        { s with header := { s.header with grant := some { g with endRequested := true } } })
    ∧ ((s.header.grant = none ∨ (s.header.state ≠ .opening ∧ s.header.state ≠ .stroking)
        ∨ ∃ g, s.header.grant = some g ∧ met g = false) → requestEnd met s = s))
  ∧ ∀ (s : State) (f : TripSet → TripSet) (before after : Prop) (t : State),
    (before ↔ s.trips.stop = true ∨ s.trips.supply = true
      ∨ ∃ m : Fin 16, s.trips.monitors[m] = true) →
    (after ↔ (f s.trips).stop = true ∨ (f s.trips).supply = true
      ∨ ∃ m : Fin 16, (f s.trips).monitors[m] = true) →
    (¬ before → after → s.header.state ≠ .tripped →
      ∀ stroke, ((s.header.state = .stroking ∧ (∃ k, s.stroke = some k ∧ k.phase = .drive
            ∧ stroke = some { k with driveCut := true }))
          ∨ ((s.header.state ≠ .stroking ∨ s.stroke = none
              ∨ ∃ k, s.stroke = some k ∧ k.phase ≠ .drive) ∧ stroke = s.stroke)) →
        t = raise .headerTrip 255
          { s with
            trips := f s.trips
            stroke := stroke
            header := { s.header with
              state := .tripped, timer := none, grant := none, mask := []
              manualTimer := if s.header.mask = [] then s.header.manualTimer else none } } →
        changeTrips f s = (if s.header.mask = [] then t else raise .manualDoseEnd 255 t))
    ∧ (before → ¬ after → changeTrips f s =
      { s with
        trips := f s.trips
        header := { s.header with
          state := if s.header.state = .tripped then .idle else s.header.state } })
    ∧ ((before ↔ after) → changeTrips f s = { s with trips := f s.trips })

/-! ### Strokes -/

/-- The start of a stroke under a grant, at the settle expiry and at a clearing (R109): on the DUTY pump, with its configuration
copied into the record, CLOSED_LOOP exactly if a terminal holds PROOF for the pump; S becomes reserved at the account; the pump
and the grant count the stroke, and the header is STROKING. -/
def Obligations.StrokeStartFillsTheRecord : Prop :=
  ∀ (s : State) (g : Grant) (p : Fin 2) (u : Pump) (t : State), s.pumps[p] = u → u.state = .duty →
    (∀ r : Fin 2, s.pumps[r].state = .duty → r = p) →
    t = { s with
      pumps := setAt s.pumps p { u with strokes := (u.strokes + 1) % 2 ^ 32 }
      stroke := some
        { pump := p, point := g.point, beneficiary := g.beneficiary, mass := u.config.mass,
          onTime := u.config.onTime, window := u.config.window, spacing := u.config.spacing,
          mode := if (s.holder (.proof p)).isSome then .closedLoop else .openLoop, start := s.now,
          phase := .drive, resolution := .unresolved, driveCut := false, spacingPassed := false }
      header := { s.header with
        state := .stroking, grant := some { g with strokes := g.strokes + 1 }, timer := none } } →
    (g.beneficiary = .manual → startStroke g s = t)
    ∧ ∀ i : Fin 12, g.beneficiary = .account i → startStroke g s =
      { t with
        accounts := setAt s.accounts i { s.accounts[i] with reserved := u.config.mass } }

/-- The resolution of a stroke (R11, R21, R117, R118, R119, R154): first the record, then the beneficiary (S credited when proven and
returned or waived when not, and a CLOSING account enters CLOSED), then the pump (its count, and its failure at its limit). -/
def Obligations.ResolutionReachesBeneficiaryThenPump : Prop :=
  ∀ (s : State) (k : Stroke) (r : Resolution) (v : State), s.stroke = some k →
    r ≠ .unresolved →
    (∀ u : State,
      u = { s with
        stroke := some { k with
          resolution := r, phase := if k.phase = .proofWait then .recover else k.phase } } →
      (k.beneficiary = .manual →
        (r = .proven → v = { u with
          points := setAt s.points k.point { s.points[k.point] with
            manualTotal := min (s.points[k.point].manualTotal + k.mass) (2 ^ 64 - 1) } })
        ∧ (r ≠ .proven → v = u))
      ∧ ∀ (i : Fin 12) (a b : Account), k.beneficiary = .account i → s.accounts[i] = a →
        ((r = .proven ∧ b = { a with
            credited := min (a.credited + k.mass) (2 ^ 64 - 1), reserved := 0 })
          ∨ (r ≠ .proven ∧ a.state = .opened ∧ a.point = none ∧ b = { a with
            waived := min (a.waived + k.mass) (2 ^ 64 - 1), reserved := 0 })
          ∨ (r ≠ .proven ∧ (a.state ≠ .opened ∨ a.point ≠ none) ∧ b = { a with reserved := 0 })) →
        (a.state ≠ .closing → v = { u with accounts := setAt s.accounts i b })
        ∧ (a.state = .closing → v = raise .accountClosed i.1
          { u with
            accounts := setAt s.accounts i { b with
              state := .closed
              waived := min (b.waived + (b.owed - b.credited - b.waived)) (2 ^ 64 - 1)
              closeTime := some s.clock.deviceTime } })) →
    (∀ u : Pump, s.pumps[k.pump] = u →
      (r = .proven → resolve r s = { v with pumps := setAt s.pumps k.pump { u with unproven := 0 } })
      ∧ (r = .unprovenNoPenalty → resolve r s = v)
      ∧ (r = .unproven → u.unproven + 1 < u.config.failureLimit →
        resolve r s = { v with pumps := setAt s.pumps k.pump { u with unproven := u.unproven + 1 } })
      ∧ (r = .unproven → u.config.failureLimit ≤ u.unproven + 1 →
        ∀ (other : Fin 2) (pumps : Table Pump 2), other ≠ k.pump →
          pumps = setAt s.pumps k.pump { u with unproven := u.unproven + 1, state := .failed } →
          resolve r s = requestEnd (fun _ => true) (raise .pumpFailed k.pump.1
            { v with
              pendingDuty := none
              pumps := if s.pumps[other].state = .standby
                then setAt pumps other { s.pumps[other] with state := .duty } else pumps })))

/-- The clearing of the stroke record (R115, R136, R147, R152, R153): the last of its three conditions clears it; a pending selection
of a STANDBY pump makes that pump DUTY first; a STROKING header then starts a further stroke or becomes CLOSING. -/
def Obligations.FinishedStrokeIsCleared : Prop :=
  ∀ (s t u : State) (k : Stroke), s.stroke = some k →
    ((s.pendingDuty = none ∧ t = { s with stroke := none })
      ∨ (∃ p : Fin 2, s.pendingDuty = some p ∧ s.pumps[p].state ≠ .standby
        ∧ t = { s with stroke := none, pendingDuty := none })
      ∨ ∃ p other : Fin 2, s.pendingDuty = some p ∧ s.pumps[p].state = .standby ∧ other ≠ p
        ∧ t = { s with
            stroke := none, pendingDuty := none
            pumps := setAt (setAt s.pumps other { s.pumps[other] with
                state := if s.pumps[other].state = .duty then .standby else s.pumps[other].state })
              p { s.pumps[p] with state := .duty } }) →
    ((s.header.state ≠ .stroking ∧ u = t)
      ∨ (s.header.state = .stroking ∧ ∃ g, s.header.grant = some g
        ∧ ((t.strokeTest g = true ∧ u = startStroke g t)
          ∨ (t.strokeTest g = false ∧ u = { t with
              header := { t.header with
                state := .closing, timer := some (s.now + g.pause * 1000) } })))) →
    ((k.phase ≠ .drive ∧ k.resolution ≠ .unresolved ∧ k.spacingPassed = true) →
      clearIfFinished s = u)
    ∧ ((k.phase = .drive ∨ k.resolution = .unresolved ∨ k.spacingPassed = false) →
      clearIfFinished s = s)

/-- PROOF_ACTIVATION (R111, R116, R202): an activation is a change of the level to high (log 6), which is taken; it resolves the pump's
unresolved CLOSED_LOOP stroke as PROVEN, which may clear the record and bring a grant decision about; any other adds one to the
pump's stray proof count. At a terminal without PROOF, or one already high, it does not occur and only time passes (log 3). The
running count moves as log 4 says. -/
def Obligations.ProofActivationProvesTheStroke : Prop :=
  ∀ (s : State) (x : Fin 16) (us : Nat), s.powered = true →
    (∀ (p : Fin 2) (t : State), s.terminals[x] = .proof p → s.levels[x] = false →
      t = { s with now := s.now + us, levels := setAt s.levels x true } →
      (∀ k, s.stroke = some k → k.pump = p → k.mode = .closedLoop → k.resolution = .unresolved →
        exec (.proofActivation x us) s = .next (grantIfDue (clearIfFinished (resolve .proven t))))
      ∧ ((s.stroke = none ∨ ∃ k, s.stroke = some k
          ∧ (k.pump ≠ p ∨ k.mode ≠ .closedLoop ∨ k.resolution ≠ .unresolved)) →
        exec (.proofActivation x us) s = .next
          { t with
            pumps := setAt s.pumps p
              { s.pumps[p] with stray := (s.pumps[p].stray + 1) % 2 ^ 32 } }))
    ∧ ((∀ p, s.terminals[x] ≠ .proof p) ∨ s.levels[x] = true →
      exec (.proofActivation x us) s = .next { s with now := s.now + us })

/-- ON_TIME_EXPIRY, PROOF_WINDOW_EXPIRY and SPACING_EXPIRY (R110, R112, R114, R115): each comes at its time from the drive start,
changes the record, resolves the stroke where its rule says, and may clear the record and bring a grant decision about. In any other
state of the record nothing happens (log 3, log 20). The running count moves as log 4 says. -/
def Obligations.StrokeTimersActOnTheRecord : Prop :=
  ∀ s : State, s.powered = true →
    (∀ (k : Stroke) (t : State), s.stroke = some k →
      (k.phase = .drive →
        t = { s with
          now := max s.now (k.start + k.onTime * 1000)
          stroke := some { k with
            phase := if k.resolution = .unresolved then .proofWait else .recover } } →
        ((k.resolution = .unresolved ∧ k.mode = .openLoop ∧ k.driveCut = false) →
          exec .onTimeExpiry s = .next (grantIfDue (clearIfFinished (resolve .proven t))))
        ∧ ((k.resolution ≠ .unresolved ∨ k.mode = .closedLoop ∨ k.driveCut = true) →
          exec .onTimeExpiry s = .next (grantIfDue (clearIfFinished t))))
      ∧ (k.phase ≠ .drive → exec .onTimeExpiry s = .next s)
      ∧ (k.resolution = .unresolved → t = { s with now := max s.now (k.start + k.window * 1000) } →
        (k.driveCut = true → exec .proofWindowExpiry s
          = .next (grantIfDue (clearIfFinished (resolve .unprovenNoPenalty t))))
        ∧ (k.driveCut = false → k.mode = .closedLoop → exec .proofWindowExpiry s
          = .next (grantIfDue (clearIfFinished (resolve .unproven t)))))
      ∧ ((k.resolution ≠ .unresolved ∨ (k.mode = .openLoop ∧ k.driveCut = false)) →
        exec .proofWindowExpiry s = .next s)
      ∧ (k.spacingPassed = false → exec .spacingExpiry s = .next (grantIfDue (clearIfFinished
        { s with
          now := max s.now (k.start + k.spacing * 1000)
          stroke := some { k with spacingPassed := true } })))
      ∧ (k.spacingPassed = true → exec .spacingExpiry s = .next s))
    ∧ (s.stroke = none → exec .onTimeExpiry s = .next s ∧ exec .proofWindowExpiry s = .next s
      ∧ exec .spacingExpiry s = .next s)

/-! ### Pumps -/

/-- CONFIGURE PUMP (R149): a pump that is ISOLATED or STANDBY takes the five values together with its unproven count 0; otherwise the
first failing check, of the pump number, its state, the ranges and the catch-up limits, gives the status. -/
def Obligations.ConfigurePumpSetsItsConfiguration : Prop :=
  ∀ (s : State) (p : Fin 2) (u : Pump) (mass onTime window spacing limit : Nat)
      (numbers : List Byte), s.pumps[p] = u → mass < 2 ^ 32 → onTime < 65536 → window < 65536 →
    spacing < 65536 → limit < 256 →
    numbers = toBytes 4 mass ++ toBytes 2 onTime ++ toBytes 2 window ++ toBytes 2 spacing
      ++ byte limit →
    (u.state = .isolated ∨ u.state = .standby →
      ((1000 ≤ mass ∧ mass ≤ 500000 ∧ 20 ≤ onTime ∧ onTime ≤ 2000 ∧ 50 ≤ window
          ∧ window ≤ 5000 ∧ 100 ≤ spacing ∧ spacing ≤ 10000 ∧ 1 ≤ limit ∧ limit ≤ 15
          ∧ onTime ≤ window) →
        ((∀ q : Fin 4, mass ≤ s.points[q].limit) →
          s.accepts .configurePump 0x48 (byte p.1 ++ numbers) []
            { s with
              pumps := setAt s.pumps p
                { u with
                  config :=
                    { mass := mass, onTime := onTime, window := window, spacing := spacing,
                      failureLimit := limit }
                  unproven := 0 } })
        ∧ ((∃ q : Fin 4, s.points[q].limit < mass) →
          s.refuses .configurePump 0x48 (byte p.1 ++ numbers) .conflict))
      ∧ ((mass < 1000 ∨ 500000 < mass ∨ onTime < 20 ∨ 2000 < onTime ∨ window < 50
          ∨ 5000 < window ∨ spacing < 100 ∨ 10000 < spacing ∨ limit < 1 ∨ 15 < limit
          ∨ window < onTime) →
        s.refuses .configurePump 0x48 (byte p.1 ++ numbers) .badArgument))
    ∧ (u.state = .duty ∨ u.state = .failed →
      s.refuses .configurePump 0x48 (byte p.1 ++ numbers) .wrongState)
    ∧ ∀ pump : Byte, 1 < pump.toNat →
      s.refuses .configurePump 0x48 ([pump] ++ numbers) .badArgument

/-- RESTORE PUMP (R150), ISOLATE PUMP (R151) and RESET PUMP (R155): each changes the pump's state from the states its rule names, with
the unproven count cleared where it says, the pending duty field emptied where it named an isolated pump, and nothing else;
otherwise the first failing check gives the status. -/
def Obligations.PumpStateCommandsMoveOnePump : Prop :=
  ∀ (s : State) (p : Fin 2) (u : Pump), s.pumps[p] = u →
    (u.state = .isolated → (∃ x : Fin 16, s.terminals[x] = .drive p) →
      (∀ q : Fin 4, u.config.mass ≤ s.points[q].limit) →
      s.accepts .restorePump 0x49 (byte p.1) []
        { s with pumps := setAt s.pumps p { u with state := .standby, unproven := 0 } })
    ∧ (u.state ≠ .isolated → s.refuses .restorePump 0x49 (byte p.1) .wrongState)
    ∧ (u.state = .isolated → ((∀ x : Fin 16, s.terminals[x] ≠ .drive p)
        ∨ ∃ q : Fin 4, s.points[q].limit < u.config.mass) →
      s.refuses .restorePump 0x49 (byte p.1) .conflict)
    ∧ (u.state = .standby ∨ u.state = .failed →
      ((s.stroke = none ∨ ∃ k, s.stroke = some k ∧ k.pump ≠ p) →
        s.accepts .isolatePump 0x4A (byte p.1) []
          { s with
            pumps := setAt s.pumps p { u with state := .isolated }
            pendingDuty := if s.pendingDuty = some p then none else s.pendingDuty })
      ∧ (∀ k, s.stroke = some k → k.pump = p → s.refuses .isolatePump 0x4A (byte p.1) .inUse))
    ∧ (u.state = .duty ∨ u.state = .isolated →
      s.refuses .isolatePump 0x4A (byte p.1) .wrongState)
    ∧ (u.state = .failed → s.accepts .resetPump 0x4C (byte p.1) []
      { s with pumps := setAt s.pumps p { u with state := .standby, unproven := 0 } })
    ∧ (u.state ≠ .failed → s.refuses .resetPump 0x4C (byte p.1) .wrongState)
    ∧ ∀ pump : Byte, 1 < pump.toNat →
      s.refuses .restorePump 0x49 [pump] .badArgument
        ∧ s.refuses .isolatePump 0x4A [pump] .badArgument
        ∧ s.refuses .resetPump 0x4C [pump] .badArgument

/-- SELECT DUTY (R152): with the stroke record empty the STANDBY pump becomes DUTY and the pump that was DUTY becomes STANDBY, response
APPLIED, and a grant decision may follow; with a stroke in it the pending duty field names the pump, response DEFERRED. A pump
that is not STANDBY is refused. -/
def Obligations.SelectDutyAppliesOrDefers : Prop :=
  ∀ s : State,
    (∀ p other : Fin 2, s.pumps[p].state = .standby → other ≠ p →
      (s.stroke = none → s.accepts .selectDuty 0x4B (byte p.1) (byte 0)
        (grantIfDue
          { s with
            pendingDuty := none
            pumps := setAt (setAt s.pumps other { s.pumps[other] with
                state := if s.pumps[other].state = .duty then .standby else s.pumps[other].state })
              p { s.pumps[p] with state := .duty } }))
      ∧ (s.stroke ≠ none → s.accepts .selectDuty 0x4B (byte p.1) (byte 1)
        { s with pendingDuty := some p }))
    ∧ (∀ p : Fin 2, s.pumps[p].state ≠ .standby →
      s.refuses .selectDuty 0x4B (byte p.1) .wrongState)
    ∧ ∀ pump : Byte, 1 < pump.toNat → s.refuses .selectDuty 0x4B [pump] .badArgument

/-! ### Monitors -/

/-- CONFIGURE MONITOR (R164, R168) and TEST TRIP OUTPUT (R172): the monitor starts anew under the configuration, its values not yet
evaluated dropped (log 8) and an applied trip released; the test forces the TRIP output or lifts the force, and answers its level
as 1 for active (the model's choice, log 11). Otherwise the first failing check gives the status; a flag byte of 2 to 255 is
BAD_ARGUMENT (the model's presumption, log 10). -/
def Obligations.MonitorConfigurationStartsAnew : Prop :=
  ∀ s : State,
    (∀ (m : Fin 16) (c : MonitorConfig) (u v : State) (payload : List Byte),
      c.threshold < 2 ^ 32 → c.clearLevel < 2 ^ 32 → c.delay < 65536 →
      payload = byte m.1 ++ flagByte c.enabled ++ c.source.bytes ++ byte c.sense.code
        ++ toBytes 4 c.threshold ++ toBytes 4 c.clearLevel ++ toBytes 2 c.delay
        ++ byte c.action.code →
      u = { s with dueValues := s.dueValues.filter (fun d => d.monitor ≠ m) } →
      v = (if s.monitors[m].state = .tripped ∧ s.monitors[m].config.action = .headerTrip
        then changeTrips (fun t => { t with monitors := setAt t.monitors m false }) u else u) →
      ((c.delay ≤ 60000 ∧ (c.sense = .high → c.clearLevel ≤ c.threshold)
          ∧ (c.sense = .low → c.threshold ≤ c.clearLevel)) →
        s.accepts .configureMonitor 0x50 payload []
          (grantIfDue { v with
            monitors := setAt v.monitors m
              { config := c, state := if c.enabled then .watching else .disabled, last := none,
                timer := none } }))
      ∧ ((60000 < c.delay ∨ (c.sense = .high ∧ c.threshold < c.clearLevel)
          ∨ (c.sense = .low ∧ c.clearLevel < c.threshold)) →
        s.refuses .configureMonitor 0x50 payload .badArgument))
    ∧ (∀ (m e k n sense a : Byte) (rest : List Byte), rest.length = 10 →
      (15 < m.toNat ∨ 1 < e.toNat ∨ 1 < k.toNat ∨ (k = 0 ∧ 15 < n.toNat)
        ∨ (k = 1 ∧ 5 < n.toNat) ∨ 1 < sense.toNat ∨ 2 < a.toNat) →
      s.refuses .configureMonitor 0x50 ([m, e, k, n, sense] ++ rest ++ [a]) .badArgument)
    ∧ ((∃ x : Fin 16, s.terminals[x] = .trip) → s.powered = true →
      s.accepts .testTripOutput 0x52 (byte 1) (byte 1) { s with tripTest := true })
    ∧ ((∀ x : Fin 16, s.terminals[x] ≠ .trip) →
      s.refuses .testTripOutput 0x52 (byte 1) .conflict)
    ∧ (∀ level : Bool, s.powered = true →
      (level = true ↔ ∃ m : Fin 16, s.monitors[m].state = .tripped
        ∧ s.monitors[m].config.action = .tripOutput) →
      s.accepts .testTripOutput 0x52 (byte 0) (flagByte level) { s with tripTest := false })
    ∧ ∀ on : Byte, 1 < on.toNat → s.refuses .testTripOutput 0x52 [on] .badArgument

/-- ACK MONITOR (R170): a latched monitor with a delay is released and, by its last value, TIMING for the full delay or WATCHING;
with delay 0 nothing changes; the response is the state after. DELAY_EXPIRY (R167): a TIMING monitor trips if its last value meets
the condition and becomes WATCHING otherwise; outside TIMING it does not occur and changes nothing (log 3). The running count moves as log 4 says. -/
def Obligations.AckAndDelayExpiryMoveTheMonitor : Prop :=
  ∀ (s : State) (m : Fin 16) (u : Monitor) (met : Prop), s.monitors[m] = u →
    (met ↔ ∃ v, u.last = some v ∧ ((u.config.sense = .high ∧ u.config.threshold < v)
      ∨ (u.config.sense = .low ∧ v < u.config.threshold))) →
    (∀ (new : Monitor) (t v : State) (code : Nat), u.state = .tripped → 0 < u.config.delay →
      ((met ∧ code = 2
          ∧ new = { u with state := .timing, timer := some (s.now + u.config.delay * 1000) })
        ∨ (¬ met ∧ code = 1 ∧ new = { u with state := .watching, timer := none })) →
      t = { s with monitors := setAt s.monitors m new } →
      v = (if u.config.action = .headerTrip
        then changeTrips (fun t => { t with monitors := setAt t.monitors m false }) t else t) →
      s.accepts .ackMonitor 0x51 (byte m.1) (byte code) (grantIfDue v))
    ∧ (u.state = .tripped → u.config.delay = 0 → s.accepts .ackMonitor 0x51 (byte m.1) (byte 3) s)
    ∧ (u.state ≠ .tripped → s.refuses .ackMonitor 0x51 (byte m.1) .wrongState)
    ∧ (∀ n : Byte, 15 < n.toNat → s.refuses .ackMonitor 0x51 [n] .badArgument)
    ∧ (s.powered = true →
      (∀ time, u.state = .timing → u.timer = some time →
        (met → exec (.delayExpiry m) s = .next (enterTripped m { s with now := max s.now time }))
        ∧ (¬ met → exec (.delayExpiry m) s = .next
          { s with
            now := max s.now time
            monitors := setAt s.monitors m { u with state := .watching, timer := none } }))
      ∧ ((u.state ≠ .timing ∨ u.timer = none) → exec (.delayExpiry m) s = .next s))

/-- MONITOR_EVALUATION (R165, R166, R168, R169): the oldest value due is taken (the queue of values due is the model's, log 8; with
none due nothing changes, log 3) and becomes the last value; beyond the threshold a
WATCHING monitor starts timing, or trips with delay 0; at the clear level a TIMING monitor, or a TRIPPED one with delay 0,
returns to WATCHING; then a grant decision may follow. The entry to TRIPPED raises MONITOR_TRIP and applies the action. -/
def Obligations.MonitorEvaluationActsByState : Prop :=
  (∀ (s : State) (m : Fin 16) (t : State),
    t = raise .monitorTrip m.1
      { s with monitors := setAt s.monitors m { s.monitors[m] with state := .tripped, timer := none } } →
    (s.monitors[m].config.action = .headerTrip → enterTripped m s
      = changeTrips (fun c => { c with monitors := setAt c.monitors m true }) t)
    ∧ (s.monitors[m].config.action ≠ .headerTrip → enterTripped m s = t))
  ∧ ∀ (s : State) (m : Fin 16), s.powered = true →
    (∀ (before after : List DueValue) (d : DueValue) (u : Monitor) (t : State)
        (set : MonitorState → Option Nat → State) (beyond clears : Prop),
      s.dueValues = before ++ d :: after → d.monitor = m → (∀ x ∈ before, x.monitor ≠ m) →
      s.monitors[m] = u →
      (∀ state timer, set state timer =
        { s with
          dueValues := before ++ after
          monitors := setAt s.monitors m
            { u with state := state, timer := timer, last := some d.value } }) →
      (beyond ↔ (u.config.sense = .high ∧ u.config.threshold < d.value)
        ∨ (u.config.sense = .low ∧ d.value < u.config.threshold)) →
      (clears ↔ (u.config.sense = .high ∧ d.value ≤ u.config.clearLevel)
        ∨ (u.config.sense = .low ∧ u.config.clearLevel ≤ d.value)) →
      ((u.state = .disabled ∧ t = { s with dueValues := before ++ after })
        ∨ (u.state = .watching ∧ beyond ∧ 0 < u.config.delay
          ∧ t = set .timing (some (s.now + u.config.delay * 1000)))
        ∨ (u.state = .watching ∧ beyond ∧ u.config.delay = 0
          ∧ t = enterTripped m (set .watching u.timer))
        ∨ (u.state = .timing ∧ 0 < u.config.delay ∧ clears ∧ t = set .watching none)
        ∨ (u.state = .tripped ∧ u.config.delay = 0 ∧ clears ∧ u.config.action = .headerTrip
          ∧ t = changeTrips (fun c => { c with monitors := setAt c.monitors m false })
              (set .watching none))
        ∨ (u.state = .tripped ∧ u.config.delay = 0 ∧ clears ∧ u.config.action ≠ .headerTrip
          ∧ t = set .watching none)
        ∨ (t = set u.state u.timer
          ∧ ((u.state = .watching ∧ ¬ beyond)
            ∨ (u.state = .timing ∧ (¬ clears ∨ u.config.delay = 0))
            ∨ (u.state = .tripped ∧ (¬ clears ∨ 0 < u.config.delay))))) →
      exec (.monitorEvaluation m) s = .next (grantIfDue t))
    ∧ ((∀ x ∈ s.dueValues, x.monitor ≠ m) → exec (.monitorEvaluation m) s = .next s)

/-! ### Time, base conditions and the clock -/

/-- SET TIME, SET GAS DAY HOUR and SET BASE CONDITIONS (R178, R180, R182), and the rollover (R179): the new time, with one rollover
first if the time was set and the gas day differs (log 15); the hour; the pair; a value out of range refuses the command. A
rollover moves the day figures of every OPEN account, raises GAS_DAY_END and starts a save. -/
def Obligations.TimeAndBaseConditionsAreSet : Prop :=
  (∀ (s : State) (time : Nat) (day : Nat → Int) (t : State), time < 2 ^ 32 →
    (∀ n : Nat, 86400 * day n ≤ (n : Int) - s.clock.hour * 3600
      ∧ (n : Int) - s.clock.hour * 3600 < 86400 * (day n + 1)) →
    ((s.clock.timeSet = true ∧ day time ≠ day s.clock.deviceTime ∧ t = rollover s)
      ∨ ((s.clock.timeSet = false ∨ day time = day s.clock.deviceTime) ∧ t = s)) →
    s.accepts .setTime 0x60 (toBytes 4 time) []
      { t with clock := { s.clock with deviceTime := time, timeSet := true } })
  ∧ (∀ s : State, rollover s = startSave (raise .gasDayEnd 255
      { s with
        accounts := mapAll (fun a : Account =>
          if a.state = .opened
          then { a with
            previousDay := some { base := a.dayBase, energy := a.dayEnergy }
            dayBase := ⟨0, 0⟩, dayEnergy := ⟨0, 0⟩ }
          else a) s.accounts }))
  ∧ (∀ (s : State) (h : Nat), h ≤ 23 → s.accepts .setGasDayHour 0x61 (byte h) []
      { s with clock := { s.clock with hour := h } })
  ∧ (∀ (s : State) (h : Byte), 23 < h.toNat → s.refuses .setGasDayHour 0x61 [h] .badArgument)
  ∧ ∀ (s : State) (p t : Nat), p < 2 ^ 32 → t < 2 ^ 32 →
    (90000 ≤ p → p ≤ 110000 → 273150 ≤ t → t ≤ 298150 →
      s.accepts .setBaseConditions 0x62 (toBytes 4 p ++ toBytes 4 t) []
        { s with clock := { s.clock with basePressure := p, baseTemperature := t } })
    ∧ ((p < 90000 ∨ 110000 < p ∨ t < 273150 ∨ 298150 < t) →
      s.refuses .setBaseConditions 0x62 (toBytes 4 p ++ toBytes 4 t) .badArgument)

/-- CRYSTAL_FAILURE, CRYSTAL_RUNNING and CRYSTAL_QUALIFICATION_EXPIRY (R181): the source, its qualification of 2 s and CLOCK_CHANGE,
which the first qualification after a cold start does not raise; a qualification that ends, in whatever way, is the first no longer
(log 18). Nothing else changes but the running count. A crystal event that the source or the qualification excludes does not occur
(log 3). The running count moves as log 4 says. -/
def Obligations.CrystalEventsChangeTheSource : Prop :=
  ∀ (s : State) (us : Nat) (t : State), s.powered = true → t = { s with now := s.now + us } →
    (s.clock.source = .crystal → exec (.crystalFailure us) s = .next
      (raise .clockChange 255 { t with clock := { s.clock with source := .fallback } }))
    ∧ (s.clock.source = .fallback → s.clock.qualification.isSome →
      exec (.crystalFailure us) s = .next
        { t with clock := { s.clock with qualification := none, firstQualification := false } })
    ∧ (s.clock.source = .fallback → s.clock.qualification = none →
      exec (.crystalFailure us) s = .next t)
    ∧ (s.clock.source = .fallback → s.clock.qualification = none →
      exec (.crystalRunning us) s = .next
        { t with clock := { s.clock with qualification := some (s.now + us + 2000000) } })
    ∧ ((s.clock.source = .crystal ∨ s.clock.qualification.isSome) →
      exec (.crystalRunning us) s = .next t)
    ∧ (∀ time, s.clock.qualification = some time →
      exec (.crystalQualificationExpiry true) s = .next
        (raiseIf (!s.clock.firstQualification) .clockChange 255
          { s with
            now := max s.now time
            clock := { s.clock with
              source := .crystal, qualification := none, firstQualification := false } })
      ∧ exec (.crystalQualificationExpiry false) s = .next
        { s with
          now := max s.now time
          clock := { s.clock with qualification := none, firstQualification := false } })
    ∧ ∀ running : Bool, s.clock.qualification = none →
      exec (.crystalQualificationExpiry running) s = .next s

/-! ### The supply and the image -/

/-- The supply's crossings and qualifications (R184, R185): a crossing starts or stops the qualification of the state it leaves; an
expiry enters the other state, with SUPPLY in or out of the trip set, the scanner suspended or IDLE, SUPPLY_CHANGE, and at the entry
to LOW a save; updates released before the entry stay released (log 8). An event that cannot occur in a state changes no record (log 3, log 21). The running count moves as log 4 says. -/
def Obligations.SupplyQualifiesItsChanges : Prop :=
  ∀ s : State, s.powered = true →
    (∀ (us : Nat) (t : State), t = { s with now := s.now + us } →
      ((s.supply.state = .normal ∧ s.supply.qualification = none) →
        exec (.supplyFallBelowLow us) s = .next
          { t with supply := { s.supply with qualification := some (s.now + us + 5000) } })
      ∧ ((s.supply.state = .low ∨ s.supply.qualification.isSome) →
        exec (.supplyFallBelowLow us) s = .next t)
      ∧ ((s.supply.state = .low ∧ s.supply.qualification = none) →
        exec (.supplyRiseToRecovery us) s = .next
          { t with supply := { s.supply with qualification := some (s.now + us + 50000) } })
      ∧ ((s.supply.state = .normal ∨ s.supply.qualification.isSome) →
        exec (.supplyRiseToRecovery us) s = .next t)
      ∧ (s.supply.state = .normal →
        exec (.supplyRiseToLow us) s
          = .next { t with supply := { s.supply with qualification := none } }
        ∧ exec (.supplyFallBelowRecovery us) s = .next t)
      ∧ (s.supply.state = .low →
        exec (.supplyFallBelowRecovery us) s
          = .next { t with supply := { s.supply with qualification := none } }
        ∧ exec (.supplyRiseToLow us) s = .next t))
    ∧ (∀ (time : Nat) (u : State), s.supply.qualification = some time →
      (s.supply.state = .normal →
        u = changeTrips (fun c => { c with supply := true })
          { s with
            now := max s.now time
            supply := { s.supply with state := .low, qualification := none } } →
        exec .lowQualificationExpiry s = .next (startSave (raise .supplyChange 255
          { u with scan := { u.scan with
            state := .suspended, list := [], done := 0, conversionEnd := 0 } })))
      ∧ (s.supply.state = .low →
        u = changeTrips (fun c => { c with supply := false })
          { s with
            now := max s.now time
            supply := { s.supply with state := .normal, qualification := none } } →
        exec .normalQualificationExpiry s = .next (grantIfDue (raise .supplyChange 255
          { u with scan := { u.scan with state := .idle } }))))
    ∧ ((s.supply.state = .low ∨ s.supply.qualification = none) →
      exec .lowQualificationExpiry s = .next s)
    ∧ ((s.supply.state = .normal ∨ s.supply.qualification = none) →
      exec .normalQualificationExpiry s = .next s)

/-- SAVE, SAVE_COMPLETION and SUPPLY_FALL_BELOW_RESET (R186, R187, R188, R189): a start takes the snapshot of every item of R187 and
makes the image INVALID; the completion makes it VALID with that snapshot and raises SAVE_DONE; a fall below the reset threshold
stops the part and loses a save in flight. A completion with no save in flight changes nothing (log 3). The running count moves as log 4 says. -/
def Obligations.SavesWriteTheSnapshotOfTheirStart : Prop :=
  ∀ s : State,
    (s.supply.save = none → startSave s =
      { s with
        supply := { s.supply with
          image := none
          save := some
            { start := s.now
              snapshot :=
                { accounts := s.accounts
                  runs := mapAll (fun r : Run =>
                    { state := r.state, config := r.config, orphanActual := r.orphanActual,
                      orphanBase := r.orphanBase, orphanEstimated := r.orphanEstimated }) s.runs
                  quality := s.quality
                  channels := mapAll Channel.config s.channels
                  source := s.scan.source
                  interval := s.scan.interval
                  monitors := mapAll Monitor.config s.monitors
                  header := s.header.config
                  manualDuration := s.header.manualDuration
                  points := s.points
                  pumps := s.pumps
                  terminals := s.terminals
                  levels := mapAll Cause.level s.causes
                  deviceTime := s.clock.deviceTime
                  hour := s.clock.hour
                  basePressure := s.clock.basePressure
                  baseTemperature := s.clock.baseTemperature } } } })
    ∧ (s.supply.save ≠ none → startSave s = s)
    ∧ (s.supply.save = none → s.accepts .save 0x64 [] [] (startSave s))
    ∧ (s.supply.save ≠ none → s.refuses .save 0x64 [] .busy)
    ∧ (s.powered = true →
      (∀ v, s.supply.save = some v → exec .saveCompletion s = .next (raise .portEvent 1
        { s with
          now := max s.now (v.start + 40000)
          supply := { s.supply with image := some v.snapshot, save := none } }))
      ∧ (s.supply.save = none → exec .saveCompletion s = .next s)
      ∧ ∀ us : Nat, exec (.supplyFallBelowReset us) s = .next
        { s with
          now := s.now + us, powered := false, supply := { s.supply with save := none } })

/-- RESET with its key and RST_N_FALL (R27, R49, R67, R99, R121, R146, R162, R175, R193, R199): the warm reset, in the order of its
nine steps; it ends a transaction in progress, and keeps every record it does not name. It keeps the values due (the model's choice,
log 8), the request buffer, which nothing reads, and the record of MISO (log 22; a transaction of which no byte was complete has
none). RESET with another key is refused. The running count moves as log 4 says. -/
def Obligations.WarmResetTakesItsNineSteps : Prop :=
  (∀ (s : State) (us : Nat), s.powered = true →
    exec (.rstNFall us) s = .next (warmReset { s with now := s.now + us }))
  ∧ (∀ s : State, s.serving 0x66 [0xC3] → exec .reset s = .next (warmReset s))
  ∧ (∀ (s : State) (key : Byte), key ≠ 0xC3 → s.refuses .reset 0x66 [key] .badArgument)
  ∧ ∀ (s a b c : State) (closed : List (Fin 12)),
    a = { s with port := { s.port with
      state := .idle, response := none, discard := false
      link := if s.port.link = .high then .high else .ended
      miso := if s.port.link = .receiving [] then [] else s.port.miso } } →
    (((∃ k, s.stroke = some k ∧ k.resolution = .unresolved)
        ∧ b = resolve .unprovenNoPenalty a)
      ∨ ((∀ k, s.stroke = some k → k.resolution ≠ .unresolved) ∧ b = a)) →
    ((∃ (k : Stroke) (i : Fin 12), s.stroke = some k ∧ k.resolution = .unresolved
        ∧ k.beneficiary = .account i ∧ s.accounts[i].state = .closing ∧ closed = [i])
      ∨ ((∀ (k : Stroke) (i : Fin 12), s.stroke = some k → k.resolution = .unresolved →
          k.beneficiary = .account i → s.accounts[i].state ≠ .closing) ∧ closed = [])) →
    c = applyPendingDuty { b with stroke := none } →
    warmReset s = grantIfDue (closed.foldl (fun s i => raise .accountClosed i.1 s)
      (raise .restart 2
        { c with
          pendingDuty := none
          header := { c.header with
            state := if s.trips.stop = true ∨ s.trips.supply = true then .tripped else .idle
            grant := none, timer := none, mask := [], manualTimer := none }
          scan := { s.scan with
            state := if s.supply.state = .low then .suspended else .idle
            list := [], done := 0, conversionEnd := 0
            timer := if s.scan.source = .interval then some (s.now + s.scan.interval * 1000)
              else s.scan.timer }
          monitors := mapAll (fun u : Monitor => { u with
            state := if u.state = .disabled then .disabled else .watching, timer := none })
            s.monitors
          tripTest := false
          trips := { s.trips with monitors := allEqual 16 false }
          runs := mapAll (fun r : Run => { r with
            edgeCount := 0, lastPeriod := 0, lastEdge := none }) s.runs
          released := []
          causes := mapAll (fun k : Cause => { k with subjects := [] }) s.causes }))

/-- COLD_START (R191, R192): without a VALID image every record takes its default and RESTART is raised with COLD_EMPTY; with one the
items of the image are restored, accounts, runs and channels with no work in flight. The queue and the levels applied at the
terminals are kept (log 5), and a crystal not running stops the first qualification (R181). A grant decision may follow in the same
event (R131, R145: the model's deduction, log 16), and the row is taken in any state, powered or not (the model's choice, log 17). -/
def Obligations.ColdStartRestoresOrDefaults : Prop :=
  (∀ (s : State) (running : Bool), s.supply.image = none →
    exec (.coldStart running) s = .next
      { State.reset with
        levels := s.levels, pending := s.pending
        clock :=
          { deviceTime := 0, timeSet := false, hour := 6, source := .fallback,
            qualification := if running then some 2000000 else none
            firstQualification := running, nextSecond := 1000000
            basePressure := 101325, baseTemperature := 288150 } })
  ∧ (∀ (s : State) (m : Image) (running : Bool) (t u : State), s.supply.image = some m →
    t = { State.reset with
      accounts := mapAll (fun a : Account => match a.state with
        | .opened => { a with
            reserved := 0
            waived := if a.point = none then min (a.waived + a.reserved) (2 ^ 64 - 1) else a.waived }
        | .closing => { a with
            state := .closed, reserved := 0, closeTime := some m.deviceTime
            waived := min (a.waived + (a.owed - a.credited - a.waived)) (2 ^ 64 - 1) }
        | _ => a) m.accounts
      runs := mapAll (fun r : RunImage => { Run.unconfigured with
        state := r.state, config := r.config, orphanActual := r.orphanActual,
        orphanBase := r.orphanBase, orphanEstimated := r.orphanEstimated
        held := if r.state = .inService
          then { p := m.channels[r.config.pChannel].fallback,
                 t := m.channels[r.config.tChannel].fallback,
                 pSubstituted := true, tSubstituted := true }
          else Held.zero }) m.runs
      quality := m.quality
      channels := mapAll (fun c : ChannelConfig =>
        { config := c, state := .noData, code := 0, value := c.fallback, liveSeen := false })
        m.channels
      scan := { State.reset.scan with
        source := m.source, interval := m.interval
        timer := if m.source = .interval then some (m.interval * 1000) else none
        result := mapAll (fun c : ChannelConfig => { value := c.fallback, state := .noData })
          m.channels }
      points := m.points
      header := { State.reset.header with config := m.header, manualDuration := m.manualDuration }
      pumps := m.pumps
      monitors := mapAll (fun c : MonitorConfig =>
        { config := c, state := if c.enabled then .watching else .disabled, last := none,
          timer := none }) m.monitors
      causes := mapAll (fun l => { level := l, subjects := [] }) m.levels
      terminals := m.terminals
      levels := s.levels
      pending := s.pending
      clock :=
        { deviceTime := m.deviceTime, timeSet := false, hour := m.hour, source := .fallback,
          qualification := if running then some 2000000 else none
          firstQualification := running, nextSecond := 1000000
          basePressure := m.basePressure, baseTemperature := m.baseTemperature }
      supply := { State.reset.supply with image := some m } } →
    u = ((List.finRange 12).filter (fun i => decide (m.accounts[i].state = .closing))).foldl
      (fun s i => raise .accountClosed i.1 s) (raise .restart 0 t) →
    exec (.coldStart running) s = .next (grantIfDue
      (if u.stopActive then changeTrips (fun c => { c with stop := true }) u else u)))
  ∧ State.reset.accounts = allEqual 12 Account.free
  ∧ State.reset.quality = allEqual 8 Quality.none
  ∧ (∀ r : Fin 6, State.reset.runs[r].state = .unconfigured)
  ∧ (∀ c : Fin 16, State.reset.channels[c].config.enabled = false)
  ∧ (∀ m : Fin 16, State.reset.monitors[m].state = .disabled)
  ∧ (∀ q : Fin 4, State.reset.points[q].state = .disabled)
  ∧ (∀ p : Fin 2, State.reset.pumps[p].state = .isolated)
  ∧ (∀ x : Fin 16, State.reset.terminals[x] = .none)
  ∧ State.reset.clock.basePressure = 101325 ∧ State.reset.clock.baseTemperature = 288150
  ∧ State.reset.clock.hour = 6 ∧ State.reset.scan.source = .interval
  ∧ State.reset.scan.interval = 1000
  ∧ State.reset.header.config = { mode := .fixed, burstLimit := 8, settle := 500, pause := 500 }
  ∧ State.reset.header.manualDuration = 300
  ∧ (∀ k : Fin 16, State.reset.causes[k] =
      { level := if k = CauseKind.restart.code then 3 else if k = CauseKind.portEvent.code then 1
          else 2
        subjects := if k = CauseKind.restart.code then [1] else [] })
  ∧ State.reset.clock.deviceTime = 0 ∧ State.reset.clock.timeSet = false
  ∧ State.reset.clock.source = .fallback ∧ State.reset.clock.qualification.isSome = true
  ∧ State.reset.supply = { state := .normal, qualification := none, image := none, save := none }

/-! ### Terminals and attention -/

/-- MAP TERMINAL (R203, R158): a mapping that passes its checks gives the terminal its function; points that lose their flow by it end an
account grant, STOP follows the stop input, and a grant decision may follow; the mapping a terminal has already changes nothing.
Otherwise the first failing check gives the status. NONE is not exclusive (log 14). STOP is active
while the terminal that holds STOP_IN is low (R158). -/
def Obligations.MapTerminalMovesAFunction : Prop :=
  ∀ (s : State) (x : Fin 16) (f : TerminalFunction) (u v : State) (inUse held : Prop),
    (inUse ↔ match s.terminals[x] with
      | .pulse r => s.runs[r].state = .inService
      | .drive p => s.pumps[p].state ≠ .isolated
      | .proof _ => s.header.state ≠ .idle
      | .valve q => s.points[q].state = .enabled
      | .flowsw _ => s.header.state ≠ .idle
      | _ => False) →
    (held ↔ f ≠ .none ∧ ∃ y : Fin 16, y ≠ x ∧ s.terminals[y] = f) →
    u = ((List.finRange 4).filter (fun q => decide (s.flowing q = true
        ∧ ({ s with terminals := setAt s.terminals x f } : State).flowing q = false))).foldl
      (fun t q => requestEnd (fun g => g.beneficiary ≠ .manual ∧ g.point = q) t)
      { s with terminals := setAt s.terminals x f } →
    v = (if s.stopActive = ({ s with terminals := setAt s.terminals x f } : State).stopActive
      then u else changeTrips (fun c => { c with stop := !s.stopActive }) u) →
    (f = s.terminals[x] → s.accepts .mapTerminal 0x70 (byte x.1 ++ f.bytes) [] s)
    ∧ (f ≠ s.terminals[x] → ¬ inUse → ¬ held →
      s.accepts .mapTerminal 0x70 (byte x.1 ++ f.bytes) [] (grantIfDue v))
    ∧ (f ≠ s.terminals[x] → inUse → s.refuses .mapTerminal 0x70 (byte x.1 ++ f.bytes) .inUse)
    ∧ (f ≠ s.terminals[x] → ¬ inUse → held →
      s.refuses .mapTerminal 0x70 (byte x.1 ++ f.bytes) .conflict)
    ∧ (∀ w : State, (w.holder .stopIn = none → w.stopActive = false)
      ∧ ∀ t : Fin 16, w.holder .stopIn = some t → w.stopActive = !w.levels[t])
    ∧ ∀ t code subject : Byte,
      (15 < t.toNat ∨ ∀ g : TerminalFunction, g.bytes ≠ [code, subject]) →
      s.refuses .mapTerminal 0x70 [t, code, subject] .badArgument

/-- Raising and acknowledging (R205, R208, R209): a raise adds its subject to its kind's set unless the kind's level is 0; ACK ATTENTION
removes the named subjects, ALL every one; SET ATTENTION LEVEL stores the level, emptying the set at 0; each changes one kind
and nothing else. Otherwise BAD_ARGUMENT. ATTN is active exactly while some kind's subject set is not empty (R205), and inactive
while the part is stopped by its supply (log 17). -/
def Obligations.AttentionIsRaisedAndAcknowledged : Prop :=
  ∀ s : State,
    (∀ (kind : CauseKind) (n : Nat) (c : Cause), s.causes[kind.code] = c →
      c.subjects.Pairwise (· < ·) →
      (c.level = 0 → raise kind n s = s)
      ∧ (c.level ≠ 0 → ∃ set : List Nat, set.Pairwise (· < ·) ∧ (∀ m, m ∈ set ↔ m = n ∨ m ∈ c.subjects)
        ∧ raise kind n s
          = { s with causes := setAt s.causes kind.code { c with subjects := set } }))
    ∧ (∀ (k : Fin 16) (named : List Nat) (count : Nat),
      count = ([3, 0, 0, 2, 12, 16, 16, 8, 6, 6, 0, 0, 0, 12, 0, 2] : List Nat).getD k.1 0 →
      1 ≤ named.length → named.length ≤ 16 → (∀ n ∈ named, n < count ∨ n = 255) →
      s.accepts .ackAttention 0x73 (byte k.1 ++ byte named.length ++ named.flatMap byte) []
        { s with
          causes := setAt s.causes k
            { s.causes[k] with
              subjects := if 255 ∈ named then []
                else s.causes[k].subjects.filter (fun n => n ∉ named) } })
    ∧ (∀ (kind : Byte) (subjects : List Byte), subjects.length < 256 →
      (15 < kind.toNat ∨ subjects.length < 1 ∨ 16 < subjects.length
        ∨ ∃ b ∈ subjects, b ≠ 255
          ∧ ([3, 0, 0, 2, 12, 16, 16, 8, 6, 6, 0, 0, 0, 12, 0, 2] : List Nat).getD kind.toNat 0
            ≤ b.toNat) →
      s.refuses .ackAttention 0x73 ([kind] ++ byte subjects.length ++ subjects) .badArgument)
    ∧ (∀ (k : Fin 16) (level : Nat), level ≤ 3 →
      s.accepts .setAttentionLevel 0x74 (byte k.1 ++ byte level) []
        { s with
          causes := setAt s.causes k
            { level := level, subjects := if level = 0 then [] else s.causes[k].subjects } })
    ∧ (∀ kind level : Byte, 15 < kind.toNat ∨ 3 < level.toNat →
      s.refuses .setAttentionLevel 0x74 [kind, level] .badArgument)
    ∧ (s.attn = true ↔ s.powered = true ∧ ∃ k : Fin 16, s.causes[k].subjects ≠ [])

/-! ### The laws -/

/-- The state after reset, a cold start without an image, satisfies every law between records. -/
def Obligations.ResetSatisfiesTheLaws : Prop := State.reset.law

/-- Every step keeps the laws of the Account Table (R2, R5, R6, R8), no OPEN or CLOSING account naming an EMPTY quality slot (R76), and at
most one pump DUTY (R147), in the part and in its
snapshots. -/
def Obligations.StepKeepsAccountAndDutyLaws : Prop :=
  ∀ s t : State, s.law → step s = .next t → t.accountLaw ∧ t.dutyLaw

/-- Every step keeps the laws of the odourant masses (R4, R100, R102) and of the stroke in flight (R108): credited, waived and
reserved stay within owed, the backlog of an account with a point within that point's catch-up limit, and reserved is the mass
of the stroke in flight for the account. -/
def Obligations.StepKeepsObligationLaw : Prop :=
  ∀ s t : State, s.law → step s = .next t → t.obligationLaw

/-- Every step keeps the table of the header's states (R128): what each holds of the grant, the timer and the stroke record; and the
manual mask and timer (R126, R129). -/
def Obligations.StepKeepsHeaderLaw : Prop :=
  ∀ s t : State, s.law → step s = .next t → t.headerLaw

/-- Every step keeps the trip source set to its conditions and the header TRIPPED exactly while it has members (R143, R158), and every
monitor to the table of R163: its delay timer running exactly in TIMING, its delay then above 0, and DISABLED exactly while it is
not enabled (R164). -/
def Obligations.StepKeepsTripAndMonitorLaws : Prop :=
  ∀ s t : State, s.law → step s = .next t → t.tripLaw ∧ t.monitorLaw

/-- Every step keeps each function at one terminal, the terminals that records in service hold on to (R110, R123, R202, R203), the
causes at levels 0 to 3 with subjects of their kind (R205, R209), what the Command Port holds in each of its states (R195), and the
scanner's list and conversions done: none outside SCANNING, some still to come within it (R86, R88), SUSPENDED exactly in LOW (R95)
and the interval timer running exactly under source INTERVAL (R87). -/
def Obligations.StepKeepsTerminalAttentionPortAndScanLaws : Prop :=
  ∀ s t : State, s.law → step s = .next t →
    t.terminalLaw ∧ t.attentionLaw ∧ t.portLaw ∧ t.scanLaw
end

