-- ==== Sys2Proof/Laws/Tables.lean ====
section
/-! SUPPORT. Reading a table after a change of it. -/

namespace Sys2Proof

/-- A record read after one record was replaced. -/
theorem setAt_get {α : Type} {n : Nat} (t : Table α n) (i j : Fin n) (x : α) :
    (setAt t i x)[j] = if i = j then x else t[j] := by
  simp only [setAt, Fin.getElem_fin, Vector.getElem_set, Fin.ext_iff]

/-- The same, read at a number. -/
@[simp] theorem setAt_getNat {α : Type} {n : Nat} (t : Table α n) (i : Fin n) (x : α) (j : Nat)
    (h : j < n) : (setAt t i x)[j] = if i.1 = j then x else t[j] := by
  simp only [setAt, Vector.getElem_set]

/-- A record read after one record was changed. -/
theorem editAt_get {α : Type} {n : Nat} (t : Table α n) (i j : Fin n) (f : α → α) :
    (editAt t i f)[j] = if i = j then f t[i] else t[j] := by
  simp only [editAt, setAt_get]

/-- The same, read at a number. -/
@[simp] theorem editAt_getNat {α : Type} {n : Nat} (t : Table α n) (i : Fin n) (f : α → α)
    (j : Nat) (h : j < n) : (editAt t i f)[j] = if i.1 = j then f t[i.1] else t[j] := by
  simp only [editAt, setAt_getNat, Fin.getElem_fin]

/-- A record read after every record was changed. -/
theorem mapAll_get {α β : Type} {n : Nat} (f : α → β) (t : Table α n) (i : Fin n) :
    (mapAll f t)[i] = f t[i] := by
  simp [mapAll]

/-- The same, read at a number. -/
@[simp] theorem mapAll_getNat {α β : Type} {n : Nat} (f : α → β) (t : Table α n) (j : Nat)
    (h : j < n) : (mapAll f t)[j] = f t[j] := by
  simp [mapAll]

/-- A record of a table of equal records, read at a number. -/
@[simp] theorem allEqual_getNat {α : Type} {n : Nat} (x : α) (j : Nat) (h : j < n) :
    (allEqual n x)[j] = x := by
  simp [allEqual]

/-- Two tables with the same records are equal. -/
theorem table_ext {α : Type} {n : Nat} (t u : Table α n) (h : ∀ i : Fin n, t[i] = u[i]) :
    t = u :=
  Vector.ext fun i hi => h ⟨i, hi⟩

/-- Replacing a record by itself changes nothing. -/
theorem setAt_self {α : Type} {n : Nat} (t : Table α n) (i : Fin n) : setAt t i t[i] = t :=
  table_ext _ _ fun j => by
    rw [setAt_get]
    split
    · next h => rw [h]
    · rfl

/-- A record number that names a record. -/
@[simp] theorem fin?_val {n : Nat} (i : Fin n) : fin? n i.1 = some i := by
  simp [fin?, i.2]

/-- The record numbers are below the count. -/
theorem fin?_eq_some {n x : Nat} {i : Fin n} : fin? n x = some i ↔ x = i.1 := by
  simp only [fin?]
  constructor
  · intro h
    split at h
    · simp only [Option.some.injEq] at h
      rw [← h]
    · simp at h
  · intro h
    subst h
    simp [i.2]

/-- The lists of record numbers, each in order. -/
theorem slots_eq : slots = List.finRange 12 := by decide
theorem runNumbers_eq : runNumbers = List.finRange 6 := by decide
theorem sixteen_eq : sixteen = List.finRange 16 := by decide
theorem pointNumbers_eq : pointNumbers = List.finRange 4 := by decide

/-- Every slot stands in the list of slots, and so on for the other lists of numbers. -/
theorem mem_slots (i : Fin 12) : i ∈ slots := by revert i; decide
theorem mem_runNumbers (i : Fin 6) : i ∈ runNumbers := by revert i; decide
theorem mem_qualitySlots (i : Fin 8) : i ∈ qualitySlots := by revert i; decide
theorem mem_sixteen (i : Fin 16) : i ∈ sixteen := by revert i; decide
theorem mem_pointNumbers (i : Fin 4) : i ∈ pointNumbers := by revert i; decide
theorem mem_pumpNumbers (i : Fin 2) : i ∈ pumpNumbers := by revert i; decide

end Sys2Proof
end

