-- ==== Sys2Proof/Laws/State.lean ====
section
/-! SUPPORT. What each named update of the state leaves as it stands, field by field. -/

namespace Sys2Proof.Machine

/-- What `elapse` leaves as it stands: everything but now. -/
@[simp] theorem elapse_keeps (us : Nat) (s : State) :
    (elapse us s).powered = s.powered ∧ (elapse us s).port = s.port
    ∧ (elapse us s).accounts = s.accounts ∧ (elapse us s).runs = s.runs
    ∧ (elapse us s).released = s.released ∧ (elapse us s).quality = s.quality
    ∧ (elapse us s).channels = s.channels ∧ (elapse us s).scan = s.scan
    ∧ (elapse us s).stroke = s.stroke ∧ (elapse us s).points = s.points
    ∧ (elapse us s).header = s.header ∧ (elapse us s).pumps = s.pumps
    ∧ (elapse us s).pendingDuty = s.pendingDuty ∧ (elapse us s).trips = s.trips
    ∧ (elapse us s).monitors = s.monitors ∧ (elapse us s).dueValues = s.dueValues
    ∧ (elapse us s).tripTest = s.tripTest ∧ (elapse us s).causes = s.causes
    ∧ (elapse us s).terminals = s.terminals ∧ (elapse us s).levels = s.levels
    ∧ (elapse us s).clock = s.clock ∧ (elapse us s).supply = s.supply
    ∧ (elapse us s).pending = s.pending := by
  simp [elapse]

/-- What `reach` leaves as it stands: everything but now. -/
@[simp] theorem reach_keeps (time : Nat) (s : State) :
    (reach time s).powered = s.powered ∧ (reach time s).port = s.port
    ∧ (reach time s).accounts = s.accounts ∧ (reach time s).runs = s.runs
    ∧ (reach time s).released = s.released ∧ (reach time s).quality = s.quality
    ∧ (reach time s).channels = s.channels ∧ (reach time s).scan = s.scan
    ∧ (reach time s).stroke = s.stroke ∧ (reach time s).points = s.points
    ∧ (reach time s).header = s.header ∧ (reach time s).pumps = s.pumps
    ∧ (reach time s).pendingDuty = s.pendingDuty ∧ (reach time s).trips = s.trips
    ∧ (reach time s).monitors = s.monitors ∧ (reach time s).dueValues = s.dueValues
    ∧ (reach time s).tripTest = s.tripTest ∧ (reach time s).causes = s.causes
    ∧ (reach time s).terminals = s.terminals ∧ (reach time s).levels = s.levels
    ∧ (reach time s).clock = s.clock ∧ (reach time s).supply = s.supply
    ∧ (reach time s).pending = s.pending := by
  simp [reach]

/-- What `raise` leaves as it stands: everything but causes. -/
@[simp] theorem raise_keeps (k : CauseKind) (n : Nat) (s : State) :
    (raise k n s).powered = s.powered ∧ (raise k n s).now = s.now ∧ (raise k n s).port = s.port
    ∧ (raise k n s).accounts = s.accounts ∧ (raise k n s).runs = s.runs
    ∧ (raise k n s).released = s.released ∧ (raise k n s).quality = s.quality
    ∧ (raise k n s).channels = s.channels ∧ (raise k n s).scan = s.scan
    ∧ (raise k n s).stroke = s.stroke ∧ (raise k n s).points = s.points
    ∧ (raise k n s).header = s.header ∧ (raise k n s).pumps = s.pumps
    ∧ (raise k n s).pendingDuty = s.pendingDuty ∧ (raise k n s).trips = s.trips
    ∧ (raise k n s).monitors = s.monitors ∧ (raise k n s).dueValues = s.dueValues
    ∧ (raise k n s).tripTest = s.tripTest ∧ (raise k n s).terminals = s.terminals
    ∧ (raise k n s).levels = s.levels ∧ (raise k n s).clock = s.clock
    ∧ (raise k n s).supply = s.supply ∧ (raise k n s).pending = s.pending := by
  simp [raise]

/-- What `editAccount` leaves as it stands: everything but accounts. -/
@[simp] theorem editAccount_keeps (i : Fin 12) (f : Account → Account) (s : State) :
    (editAccount i f s).powered = s.powered ∧ (editAccount i f s).now = s.now
    ∧ (editAccount i f s).port = s.port ∧ (editAccount i f s).runs = s.runs
    ∧ (editAccount i f s).released = s.released ∧ (editAccount i f s).quality = s.quality
    ∧ (editAccount i f s).channels = s.channels ∧ (editAccount i f s).scan = s.scan
    ∧ (editAccount i f s).stroke = s.stroke ∧ (editAccount i f s).points = s.points
    ∧ (editAccount i f s).header = s.header ∧ (editAccount i f s).pumps = s.pumps
    ∧ (editAccount i f s).pendingDuty = s.pendingDuty ∧ (editAccount i f s).trips = s.trips
    ∧ (editAccount i f s).monitors = s.monitors ∧ (editAccount i f s).dueValues = s.dueValues
    ∧ (editAccount i f s).tripTest = s.tripTest ∧ (editAccount i f s).causes = s.causes
    ∧ (editAccount i f s).terminals = s.terminals ∧ (editAccount i f s).levels = s.levels
    ∧ (editAccount i f s).clock = s.clock ∧ (editAccount i f s).supply = s.supply
    ∧ (editAccount i f s).pending = s.pending := by
  simp [editAccount]

/-- What `editRun` leaves as it stands: everything but runs. -/
@[simp] theorem editRun_keeps (r : Fin 6) (f : Run → Run) (s : State) :
    (editRun r f s).powered = s.powered ∧ (editRun r f s).now = s.now
    ∧ (editRun r f s).port = s.port ∧ (editRun r f s).accounts = s.accounts
    ∧ (editRun r f s).released = s.released ∧ (editRun r f s).quality = s.quality
    ∧ (editRun r f s).channels = s.channels ∧ (editRun r f s).scan = s.scan
    ∧ (editRun r f s).stroke = s.stroke ∧ (editRun r f s).points = s.points
    ∧ (editRun r f s).header = s.header ∧ (editRun r f s).pumps = s.pumps
    ∧ (editRun r f s).pendingDuty = s.pendingDuty ∧ (editRun r f s).trips = s.trips
    ∧ (editRun r f s).monitors = s.monitors ∧ (editRun r f s).dueValues = s.dueValues
    ∧ (editRun r f s).tripTest = s.tripTest ∧ (editRun r f s).causes = s.causes
    ∧ (editRun r f s).terminals = s.terminals ∧ (editRun r f s).levels = s.levels
    ∧ (editRun r f s).clock = s.clock ∧ (editRun r f s).supply = s.supply
    ∧ (editRun r f s).pending = s.pending := by
  simp [editRun]

/-- What `editPump` leaves as it stands: everything but pumps. -/
@[simp] theorem editPump_keeps (p : Fin 2) (f : Pump → Pump) (s : State) :
    (editPump p f s).powered = s.powered ∧ (editPump p f s).now = s.now
    ∧ (editPump p f s).port = s.port ∧ (editPump p f s).accounts = s.accounts
    ∧ (editPump p f s).runs = s.runs ∧ (editPump p f s).released = s.released
    ∧ (editPump p f s).quality = s.quality ∧ (editPump p f s).channels = s.channels
    ∧ (editPump p f s).scan = s.scan ∧ (editPump p f s).stroke = s.stroke
    ∧ (editPump p f s).points = s.points ∧ (editPump p f s).header = s.header
    ∧ (editPump p f s).pendingDuty = s.pendingDuty ∧ (editPump p f s).trips = s.trips
    ∧ (editPump p f s).monitors = s.monitors ∧ (editPump p f s).dueValues = s.dueValues
    ∧ (editPump p f s).tripTest = s.tripTest ∧ (editPump p f s).causes = s.causes
    ∧ (editPump p f s).terminals = s.terminals ∧ (editPump p f s).levels = s.levels
    ∧ (editPump p f s).clock = s.clock ∧ (editPump p f s).supply = s.supply
    ∧ (editPump p f s).pending = s.pending := by
  simp [editPump]

/-- What `editMonitor` leaves as it stands: everything but monitors. -/
@[simp] theorem editMonitor_keeps (m : Fin 16) (f : Monitor → Monitor) (s : State) :
    (editMonitor m f s).powered = s.powered ∧ (editMonitor m f s).now = s.now
    ∧ (editMonitor m f s).port = s.port ∧ (editMonitor m f s).accounts = s.accounts
    ∧ (editMonitor m f s).runs = s.runs ∧ (editMonitor m f s).released = s.released
    ∧ (editMonitor m f s).quality = s.quality ∧ (editMonitor m f s).channels = s.channels
    ∧ (editMonitor m f s).scan = s.scan ∧ (editMonitor m f s).stroke = s.stroke
    ∧ (editMonitor m f s).points = s.points ∧ (editMonitor m f s).header = s.header
    ∧ (editMonitor m f s).pumps = s.pumps ∧ (editMonitor m f s).pendingDuty = s.pendingDuty
    ∧ (editMonitor m f s).trips = s.trips ∧ (editMonitor m f s).dueValues = s.dueValues
    ∧ (editMonitor m f s).tripTest = s.tripTest ∧ (editMonitor m f s).causes = s.causes
    ∧ (editMonitor m f s).terminals = s.terminals ∧ (editMonitor m f s).levels = s.levels
    ∧ (editMonitor m f s).clock = s.clock ∧ (editMonitor m f s).supply = s.supply
    ∧ (editMonitor m f s).pending = s.pending := by
  simp [editMonitor]

/-- What `complete` leaves as it stands: everything but port. -/
@[simp] theorem complete_keeps (st : Status) (p : List Byte) (s : State) :
    (complete st p s).powered = s.powered ∧ (complete st p s).now = s.now
    ∧ (complete st p s).accounts = s.accounts ∧ (complete st p s).runs = s.runs
    ∧ (complete st p s).released = s.released ∧ (complete st p s).quality = s.quality
    ∧ (complete st p s).channels = s.channels ∧ (complete st p s).scan = s.scan
    ∧ (complete st p s).stroke = s.stroke ∧ (complete st p s).points = s.points
    ∧ (complete st p s).header = s.header ∧ (complete st p s).pumps = s.pumps
    ∧ (complete st p s).pendingDuty = s.pendingDuty ∧ (complete st p s).trips = s.trips
    ∧ (complete st p s).monitors = s.monitors ∧ (complete st p s).dueValues = s.dueValues
    ∧ (complete st p s).tripTest = s.tripTest ∧ (complete st p s).causes = s.causes
    ∧ (complete st p s).terminals = s.terminals ∧ (complete st p s).levels = s.levels
    ∧ (complete st p s).clock = s.clock ∧ (complete st p s).supply = s.supply
    ∧ (complete st p s).pending = s.pending := by
  simp [complete]

/-- What `newValue` leaves as it stands: everything but dueValues. -/
@[simp] theorem newValue_keeps (src : Source) (v : Nat) (s : State) :
    (newValue src v s).powered = s.powered ∧ (newValue src v s).now = s.now
    ∧ (newValue src v s).port = s.port ∧ (newValue src v s).accounts = s.accounts
    ∧ (newValue src v s).runs = s.runs ∧ (newValue src v s).released = s.released
    ∧ (newValue src v s).quality = s.quality ∧ (newValue src v s).channels = s.channels
    ∧ (newValue src v s).scan = s.scan ∧ (newValue src v s).stroke = s.stroke
    ∧ (newValue src v s).points = s.points ∧ (newValue src v s).header = s.header
    ∧ (newValue src v s).pumps = s.pumps ∧ (newValue src v s).pendingDuty = s.pendingDuty
    ∧ (newValue src v s).trips = s.trips ∧ (newValue src v s).monitors = s.monitors
    ∧ (newValue src v s).tripTest = s.tripTest ∧ (newValue src v s).causes = s.causes
    ∧ (newValue src v s).terminals = s.terminals ∧ (newValue src v s).levels = s.levels
    ∧ (newValue src v s).clock = s.clock ∧ (newValue src v s).supply = s.supply
    ∧ (newValue src v s).pending = s.pending := by
  simp [newValue]

/-- What `completeScan` leaves as it stands: everything but scan, released. -/
@[simp] theorem completeScan_keeps (s : State) :
    (completeScan s).powered = s.powered ∧ (completeScan s).now = s.now
    ∧ (completeScan s).port = s.port ∧ (completeScan s).accounts = s.accounts
    ∧ (completeScan s).runs = s.runs ∧ (completeScan s).quality = s.quality
    ∧ (completeScan s).channels = s.channels ∧ (completeScan s).stroke = s.stroke
    ∧ (completeScan s).points = s.points ∧ (completeScan s).header = s.header
    ∧ (completeScan s).pumps = s.pumps ∧ (completeScan s).pendingDuty = s.pendingDuty
    ∧ (completeScan s).trips = s.trips ∧ (completeScan s).monitors = s.monitors
    ∧ (completeScan s).dueValues = s.dueValues ∧ (completeScan s).tripTest = s.tripTest
    ∧ (completeScan s).causes = s.causes ∧ (completeScan s).terminals = s.terminals
    ∧ (completeScan s).levels = s.levels ∧ (completeScan s).clock = s.clock
    ∧ (completeScan s).supply = s.supply ∧ (completeScan s).pending = s.pending := by
  simp [completeScan]

/-- What `abandonScan` leaves as it stands: everything but scan. -/
@[simp] theorem abandonScan_keeps (st : ScanState) (s : State) :
    (abandonScan st s).powered = s.powered ∧ (abandonScan st s).now = s.now
    ∧ (abandonScan st s).port = s.port ∧ (abandonScan st s).accounts = s.accounts
    ∧ (abandonScan st s).runs = s.runs ∧ (abandonScan st s).released = s.released
    ∧ (abandonScan st s).quality = s.quality ∧ (abandonScan st s).channels = s.channels
    ∧ (abandonScan st s).stroke = s.stroke ∧ (abandonScan st s).points = s.points
    ∧ (abandonScan st s).header = s.header ∧ (abandonScan st s).pumps = s.pumps
    ∧ (abandonScan st s).pendingDuty = s.pendingDuty ∧ (abandonScan st s).trips = s.trips
    ∧ (abandonScan st s).monitors = s.monitors ∧ (abandonScan st s).dueValues = s.dueValues
    ∧ (abandonScan st s).tripTest = s.tripTest ∧ (abandonScan st s).causes = s.causes
    ∧ (abandonScan st s).terminals = s.terminals ∧ (abandonScan st s).levels = s.levels
    ∧ (abandonScan st s).clock = s.clock ∧ (abandonScan st s).supply = s.supply
    ∧ (abandonScan st s).pending = s.pending := by
  simp [abandonScan]

/-- What `closeHeader` leaves as it stands: everything but header. -/
@[simp] theorem closeHeader_keeps (g : Grant) (s : State) :
    (closeHeader g s).powered = s.powered ∧ (closeHeader g s).now = s.now
    ∧ (closeHeader g s).port = s.port ∧ (closeHeader g s).accounts = s.accounts
    ∧ (closeHeader g s).runs = s.runs ∧ (closeHeader g s).released = s.released
    ∧ (closeHeader g s).quality = s.quality ∧ (closeHeader g s).channels = s.channels
    ∧ (closeHeader g s).scan = s.scan ∧ (closeHeader g s).stroke = s.stroke
    ∧ (closeHeader g s).points = s.points ∧ (closeHeader g s).pumps = s.pumps
    ∧ (closeHeader g s).pendingDuty = s.pendingDuty ∧ (closeHeader g s).trips = s.trips
    ∧ (closeHeader g s).monitors = s.monitors ∧ (closeHeader g s).dueValues = s.dueValues
    ∧ (closeHeader g s).tripTest = s.tripTest ∧ (closeHeader g s).causes = s.causes
    ∧ (closeHeader g s).terminals = s.terminals ∧ (closeHeader g s).levels = s.levels
    ∧ (closeHeader g s).clock = s.clock ∧ (closeHeader g s).supply = s.supply
    ∧ (closeHeader g s).pending = s.pending := by
  simp [closeHeader]

/-- What `makeDuty` leaves as it stands: everything but pumps. -/
@[simp] theorem makeDuty_keeps (p : Fin 2) (s : State) :
    (makeDuty p s).powered = s.powered ∧ (makeDuty p s).now = s.now ∧ (makeDuty p s).port = s.port
    ∧ (makeDuty p s).accounts = s.accounts ∧ (makeDuty p s).runs = s.runs
    ∧ (makeDuty p s).released = s.released ∧ (makeDuty p s).quality = s.quality
    ∧ (makeDuty p s).channels = s.channels ∧ (makeDuty p s).scan = s.scan
    ∧ (makeDuty p s).stroke = s.stroke ∧ (makeDuty p s).points = s.points
    ∧ (makeDuty p s).header = s.header ∧ (makeDuty p s).pendingDuty = s.pendingDuty
    ∧ (makeDuty p s).trips = s.trips ∧ (makeDuty p s).monitors = s.monitors
    ∧ (makeDuty p s).dueValues = s.dueValues ∧ (makeDuty p s).tripTest = s.tripTest
    ∧ (makeDuty p s).causes = s.causes ∧ (makeDuty p s).terminals = s.terminals
    ∧ (makeDuty p s).levels = s.levels ∧ (makeDuty p s).clock = s.clock
    ∧ (makeDuty p s).supply = s.supply ∧ (makeDuty p s).pending = s.pending := by
  simp [makeDuty]

/-- What `openGrant` leaves as it stands: everything but header. -/
@[simp] theorem openGrant_keeps (b : Beneficiary) (q : Fin 4) (s : State) :
    (openGrant b q s).powered = s.powered ∧ (openGrant b q s).now = s.now
    ∧ (openGrant b q s).port = s.port ∧ (openGrant b q s).accounts = s.accounts
    ∧ (openGrant b q s).runs = s.runs ∧ (openGrant b q s).released = s.released
    ∧ (openGrant b q s).quality = s.quality ∧ (openGrant b q s).channels = s.channels
    ∧ (openGrant b q s).scan = s.scan ∧ (openGrant b q s).stroke = s.stroke
    ∧ (openGrant b q s).points = s.points ∧ (openGrant b q s).pumps = s.pumps
    ∧ (openGrant b q s).pendingDuty = s.pendingDuty ∧ (openGrant b q s).trips = s.trips
    ∧ (openGrant b q s).monitors = s.monitors ∧ (openGrant b q s).dueValues = s.dueValues
    ∧ (openGrant b q s).tripTest = s.tripTest ∧ (openGrant b q s).causes = s.causes
    ∧ (openGrant b q s).terminals = s.terminals ∧ (openGrant b q s).levels = s.levels
    ∧ (openGrant b q s).clock = s.clock ∧ (openGrant b q s).supply = s.supply
    ∧ (openGrant b q s).pending = s.pending := by
  simp [openGrant]

end Sys2Proof.Machine
end

