-- ==== Sys2Proof/Laws/Frames.lean ====
section
/-! SUPPORT. What each shared operation leaves as it stands, field by field. -/

namespace Sys2Proof.Machine

/-- What `raiseIf` leaves as it stands: everything but causes. -/
@[simp] theorem raiseIf_keeps (b : Bool) (k : CauseKind) (n : Nat) (s : State) :
    (raiseIf b k n s).powered = s.powered ∧ (raiseIf b k n s).now = s.now
    ∧ (raiseIf b k n s).port = s.port ∧ (raiseIf b k n s).accounts = s.accounts
    ∧ (raiseIf b k n s).runs = s.runs ∧ (raiseIf b k n s).released = s.released
    ∧ (raiseIf b k n s).quality = s.quality ∧ (raiseIf b k n s).channels = s.channels
    ∧ (raiseIf b k n s).scan = s.scan ∧ (raiseIf b k n s).stroke = s.stroke
    ∧ (raiseIf b k n s).points = s.points ∧ (raiseIf b k n s).header = s.header
    ∧ (raiseIf b k n s).pumps = s.pumps ∧ (raiseIf b k n s).pendingDuty = s.pendingDuty
    ∧ (raiseIf b k n s).trips = s.trips ∧ (raiseIf b k n s).monitors = s.monitors
    ∧ (raiseIf b k n s).dueValues = s.dueValues ∧ (raiseIf b k n s).tripTest = s.tripTest
    ∧ (raiseIf b k n s).terminals = s.terminals ∧ (raiseIf b k n s).levels = s.levels
    ∧ (raiseIf b k n s).clock = s.clock ∧ (raiseIf b k n s).supply = s.supply
    ∧ (raiseIf b k n s).pending = s.pending := by
  and_intros <;> dsimp only [raiseIf]
  all_goals (repeat' split)
  all_goals simp

/-- What `waive` leaves as it stands: everything but accounts, causes. -/
@[simp] theorem waive_keeps (i : Fin 12) (s : State) :
    (waive i s).powered = s.powered ∧ (waive i s).now = s.now ∧ (waive i s).port = s.port
    ∧ (waive i s).runs = s.runs ∧ (waive i s).released = s.released
    ∧ (waive i s).quality = s.quality ∧ (waive i s).channels = s.channels
    ∧ (waive i s).scan = s.scan ∧ (waive i s).stroke = s.stroke ∧ (waive i s).points = s.points
    ∧ (waive i s).header = s.header ∧ (waive i s).pumps = s.pumps
    ∧ (waive i s).pendingDuty = s.pendingDuty ∧ (waive i s).trips = s.trips
    ∧ (waive i s).monitors = s.monitors ∧ (waive i s).dueValues = s.dueValues
    ∧ (waive i s).tripTest = s.tripTest ∧ (waive i s).terminals = s.terminals
    ∧ (waive i s).levels = s.levels ∧ (waive i s).clock = s.clock ∧ (waive i s).supply = s.supply
    ∧ (waive i s).pending = s.pending := by
  and_intros <;> dsimp only [waive]
  all_goals (repeat' split)
  all_goals simp

/-- What `enterClosed` leaves as it stands: everything but accounts, causes. -/
@[simp] theorem enterClosed_keeps (i : Fin 12) (s : State) :
    (enterClosed i s).powered = s.powered ∧ (enterClosed i s).now = s.now
    ∧ (enterClosed i s).port = s.port ∧ (enterClosed i s).runs = s.runs
    ∧ (enterClosed i s).released = s.released ∧ (enterClosed i s).quality = s.quality
    ∧ (enterClosed i s).channels = s.channels ∧ (enterClosed i s).scan = s.scan
    ∧ (enterClosed i s).stroke = s.stroke ∧ (enterClosed i s).points = s.points
    ∧ (enterClosed i s).header = s.header ∧ (enterClosed i s).pumps = s.pumps
    ∧ (enterClosed i s).pendingDuty = s.pendingDuty ∧ (enterClosed i s).trips = s.trips
    ∧ (enterClosed i s).monitors = s.monitors ∧ (enterClosed i s).dueValues = s.dueValues
    ∧ (enterClosed i s).tripTest = s.tripTest ∧ (enterClosed i s).terminals = s.terminals
    ∧ (enterClosed i s).levels = s.levels ∧ (enterClosed i s).clock = s.clock
    ∧ (enterClosed i s).supply = s.supply ∧ (enterClosed i s).pending = s.pending := by
  simp [enterClosed]

/-- What `resolveAccount` leaves as it stands: everything but accounts, causes. -/
@[simp] theorem resolveAccount_keeps (i : Fin 12) (proven : Bool) (mass : Nat) (s : State) :
    (resolveAccount i proven mass s).powered = s.powered
    ∧ (resolveAccount i proven mass s).now = s.now
    ∧ (resolveAccount i proven mass s).port = s.port
    ∧ (resolveAccount i proven mass s).runs = s.runs
    ∧ (resolveAccount i proven mass s).released = s.released
    ∧ (resolveAccount i proven mass s).quality = s.quality
    ∧ (resolveAccount i proven mass s).channels = s.channels
    ∧ (resolveAccount i proven mass s).scan = s.scan
    ∧ (resolveAccount i proven mass s).stroke = s.stroke
    ∧ (resolveAccount i proven mass s).points = s.points
    ∧ (resolveAccount i proven mass s).header = s.header
    ∧ (resolveAccount i proven mass s).pumps = s.pumps
    ∧ (resolveAccount i proven mass s).pendingDuty = s.pendingDuty
    ∧ (resolveAccount i proven mass s).trips = s.trips
    ∧ (resolveAccount i proven mass s).monitors = s.monitors
    ∧ (resolveAccount i proven mass s).dueValues = s.dueValues
    ∧ (resolveAccount i proven mass s).tripTest = s.tripTest
    ∧ (resolveAccount i proven mass s).terminals = s.terminals
    ∧ (resolveAccount i proven mass s).levels = s.levels
    ∧ (resolveAccount i proven mass s).clock = s.clock
    ∧ (resolveAccount i proven mass s).supply = s.supply
    ∧ (resolveAccount i proven mass s).pending = s.pending := by
  and_intros <;> dsimp only [resolveAccount]
  all_goals (repeat' split)
  all_goals simp

/-- What `resolveManual` leaves as it stands: everything but points. -/
@[simp] theorem resolveManual_keeps (q : Fin 4) (proven : Bool) (mass : Nat) (s : State) :
    (resolveManual q proven mass s).powered = s.powered
    ∧ (resolveManual q proven mass s).now = s.now ∧ (resolveManual q proven mass s).port = s.port
    ∧ (resolveManual q proven mass s).accounts = s.accounts
    ∧ (resolveManual q proven mass s).runs = s.runs
    ∧ (resolveManual q proven mass s).released = s.released
    ∧ (resolveManual q proven mass s).quality = s.quality
    ∧ (resolveManual q proven mass s).channels = s.channels
    ∧ (resolveManual q proven mass s).scan = s.scan
    ∧ (resolveManual q proven mass s).stroke = s.stroke
    ∧ (resolveManual q proven mass s).header = s.header
    ∧ (resolveManual q proven mass s).pumps = s.pumps
    ∧ (resolveManual q proven mass s).pendingDuty = s.pendingDuty
    ∧ (resolveManual q proven mass s).trips = s.trips
    ∧ (resolveManual q proven mass s).monitors = s.monitors
    ∧ (resolveManual q proven mass s).dueValues = s.dueValues
    ∧ (resolveManual q proven mass s).tripTest = s.tripTest
    ∧ (resolveManual q proven mass s).causes = s.causes
    ∧ (resolveManual q proven mass s).terminals = s.terminals
    ∧ (resolveManual q proven mass s).levels = s.levels
    ∧ (resolveManual q proven mass s).clock = s.clock
    ∧ (resolveManual q proven mass s).supply = s.supply
    ∧ (resolveManual q proven mass s).pending = s.pending := by
  and_intros <;> dsimp only [resolveManual]
  all_goals (repeat' split)
  all_goals simp

/-- What `resolveBeneficiary` leaves as it stands: everything but accounts, causes, points. -/
@[simp] theorem resolveBeneficiary_keeps (k : Stroke) (proven : Bool) (s : State) :
    (resolveBeneficiary k proven s).powered = s.powered
    ∧ (resolveBeneficiary k proven s).now = s.now ∧ (resolveBeneficiary k proven s).port = s.port
    ∧ (resolveBeneficiary k proven s).runs = s.runs
    ∧ (resolveBeneficiary k proven s).released = s.released
    ∧ (resolveBeneficiary k proven s).quality = s.quality
    ∧ (resolveBeneficiary k proven s).channels = s.channels
    ∧ (resolveBeneficiary k proven s).scan = s.scan
    ∧ (resolveBeneficiary k proven s).stroke = s.stroke
    ∧ (resolveBeneficiary k proven s).header = s.header
    ∧ (resolveBeneficiary k proven s).pumps = s.pumps
    ∧ (resolveBeneficiary k proven s).pendingDuty = s.pendingDuty
    ∧ (resolveBeneficiary k proven s).trips = s.trips
    ∧ (resolveBeneficiary k proven s).monitors = s.monitors
    ∧ (resolveBeneficiary k proven s).dueValues = s.dueValues
    ∧ (resolveBeneficiary k proven s).tripTest = s.tripTest
    ∧ (resolveBeneficiary k proven s).terminals = s.terminals
    ∧ (resolveBeneficiary k proven s).levels = s.levels
    ∧ (resolveBeneficiary k proven s).clock = s.clock
    ∧ (resolveBeneficiary k proven s).supply = s.supply
    ∧ (resolveBeneficiary k proven s).pending = s.pending := by
  and_intros <;> dsimp only [resolveBeneficiary]
  all_goals (repeat' split)
  all_goals simp

/-- What `requestEnd` leaves as it stands: everything but header. -/
@[simp] theorem requestEnd_keeps (affected : Grant → Bool) (s : State) :
    (requestEnd affected s).powered = s.powered ∧ (requestEnd affected s).now = s.now
    ∧ (requestEnd affected s).port = s.port ∧ (requestEnd affected s).accounts = s.accounts
    ∧ (requestEnd affected s).runs = s.runs ∧ (requestEnd affected s).released = s.released
    ∧ (requestEnd affected s).quality = s.quality ∧ (requestEnd affected s).channels = s.channels
    ∧ (requestEnd affected s).scan = s.scan ∧ (requestEnd affected s).stroke = s.stroke
    ∧ (requestEnd affected s).points = s.points ∧ (requestEnd affected s).pumps = s.pumps
    ∧ (requestEnd affected s).pendingDuty = s.pendingDuty
    ∧ (requestEnd affected s).trips = s.trips ∧ (requestEnd affected s).monitors = s.monitors
    ∧ (requestEnd affected s).dueValues = s.dueValues
    ∧ (requestEnd affected s).tripTest = s.tripTest ∧ (requestEnd affected s).causes = s.causes
    ∧ (requestEnd affected s).terminals = s.terminals ∧ (requestEnd affected s).levels = s.levels
    ∧ (requestEnd affected s).clock = s.clock ∧ (requestEnd affected s).supply = s.supply
    ∧ (requestEnd affected s).pending = s.pending := by
  and_intros <;> dsimp only [requestEnd]
  all_goals (repeat' split)
  all_goals simp

/-- What `failPump` leaves as it stands: everything but pumps, causes, pendingDuty, header. -/
@[simp] theorem failPump_keeps (p : Fin 2) (s : State) :
    (failPump p s).powered = s.powered ∧ (failPump p s).now = s.now ∧ (failPump p s).port = s.port
    ∧ (failPump p s).accounts = s.accounts ∧ (failPump p s).runs = s.runs
    ∧ (failPump p s).released = s.released ∧ (failPump p s).quality = s.quality
    ∧ (failPump p s).channels = s.channels ∧ (failPump p s).scan = s.scan
    ∧ (failPump p s).stroke = s.stroke ∧ (failPump p s).points = s.points
    ∧ (failPump p s).trips = s.trips ∧ (failPump p s).monitors = s.monitors
    ∧ (failPump p s).dueValues = s.dueValues ∧ (failPump p s).tripTest = s.tripTest
    ∧ (failPump p s).terminals = s.terminals ∧ (failPump p s).levels = s.levels
    ∧ (failPump p s).clock = s.clock ∧ (failPump p s).supply = s.supply
    ∧ (failPump p s).pending = s.pending := by
  and_intros <;> dsimp only [failPump]
  all_goals (repeat' split)
  all_goals simp

/-- What `resolvePump` leaves as it stands: everything but pumps, causes, pendingDuty, header. -/
@[simp] theorem resolvePump_keeps (p : Fin 2) (r : Resolution) (s : State) :
    (resolvePump p r s).powered = s.powered ∧ (resolvePump p r s).now = s.now
    ∧ (resolvePump p r s).port = s.port ∧ (resolvePump p r s).accounts = s.accounts
    ∧ (resolvePump p r s).runs = s.runs ∧ (resolvePump p r s).released = s.released
    ∧ (resolvePump p r s).quality = s.quality ∧ (resolvePump p r s).channels = s.channels
    ∧ (resolvePump p r s).scan = s.scan ∧ (resolvePump p r s).stroke = s.stroke
    ∧ (resolvePump p r s).points = s.points ∧ (resolvePump p r s).trips = s.trips
    ∧ (resolvePump p r s).monitors = s.monitors ∧ (resolvePump p r s).dueValues = s.dueValues
    ∧ (resolvePump p r s).tripTest = s.tripTest ∧ (resolvePump p r s).terminals = s.terminals
    ∧ (resolvePump p r s).levels = s.levels ∧ (resolvePump p r s).clock = s.clock
    ∧ (resolvePump p r s).supply = s.supply ∧ (resolvePump p r s).pending = s.pending := by
  and_intros <;> dsimp only [resolvePump]
  all_goals (repeat' split)
  all_goals simp

/-- What `resolve` leaves as it stands: everything but stroke, accounts, causes, points, pumps, pendingDuty, header. -/
@[simp] theorem resolve_keeps (r : Resolution) (s : State) :
    (resolve r s).powered = s.powered ∧ (resolve r s).now = s.now ∧ (resolve r s).port = s.port
    ∧ (resolve r s).runs = s.runs ∧ (resolve r s).released = s.released
    ∧ (resolve r s).quality = s.quality ∧ (resolve r s).channels = s.channels
    ∧ (resolve r s).scan = s.scan ∧ (resolve r s).trips = s.trips
    ∧ (resolve r s).monitors = s.monitors ∧ (resolve r s).dueValues = s.dueValues
    ∧ (resolve r s).tripTest = s.tripTest ∧ (resolve r s).terminals = s.terminals
    ∧ (resolve r s).levels = s.levels ∧ (resolve r s).clock = s.clock
    ∧ (resolve r s).supply = s.supply ∧ (resolve r s).pending = s.pending := by
  and_intros <;> dsimp only [resolve]
  all_goals (repeat' split)
  all_goals simp

/-- What `startStroke` leaves as it stands: everything but accounts, pumps, stroke, header. -/
@[simp] theorem startStroke_keeps (g : Grant) (s : State) :
    (startStroke g s).powered = s.powered ∧ (startStroke g s).now = s.now
    ∧ (startStroke g s).port = s.port ∧ (startStroke g s).runs = s.runs
    ∧ (startStroke g s).released = s.released ∧ (startStroke g s).quality = s.quality
    ∧ (startStroke g s).channels = s.channels ∧ (startStroke g s).scan = s.scan
    ∧ (startStroke g s).points = s.points ∧ (startStroke g s).pendingDuty = s.pendingDuty
    ∧ (startStroke g s).trips = s.trips ∧ (startStroke g s).monitors = s.monitors
    ∧ (startStroke g s).dueValues = s.dueValues ∧ (startStroke g s).tripTest = s.tripTest
    ∧ (startStroke g s).causes = s.causes ∧ (startStroke g s).terminals = s.terminals
    ∧ (startStroke g s).levels = s.levels ∧ (startStroke g s).clock = s.clock
    ∧ (startStroke g s).supply = s.supply ∧ (startStroke g s).pending = s.pending := by
  and_intros <;> dsimp only [startStroke]
  all_goals (repeat' split)
  all_goals simp

/-- What `continueBurst` leaves as it stands: everything but accounts, pumps, stroke, header. -/
@[simp] theorem continueBurst_keeps (s : State) :
    (continueBurst s).powered = s.powered ∧ (continueBurst s).now = s.now
    ∧ (continueBurst s).port = s.port ∧ (continueBurst s).runs = s.runs
    ∧ (continueBurst s).released = s.released ∧ (continueBurst s).quality = s.quality
    ∧ (continueBurst s).channels = s.channels ∧ (continueBurst s).scan = s.scan
    ∧ (continueBurst s).points = s.points ∧ (continueBurst s).pendingDuty = s.pendingDuty
    ∧ (continueBurst s).trips = s.trips ∧ (continueBurst s).monitors = s.monitors
    ∧ (continueBurst s).dueValues = s.dueValues ∧ (continueBurst s).tripTest = s.tripTest
    ∧ (continueBurst s).causes = s.causes ∧ (continueBurst s).terminals = s.terminals
    ∧ (continueBurst s).levels = s.levels ∧ (continueBurst s).clock = s.clock
    ∧ (continueBurst s).supply = s.supply ∧ (continueBurst s).pending = s.pending := by
  and_intros <;> dsimp only [continueBurst]
  all_goals (repeat' split)
  all_goals simp

/-- What `applyPendingDuty` leaves as it stands: everything but pumps, pendingDuty. -/
@[simp] theorem applyPendingDuty_keeps (s : State) :
    (applyPendingDuty s).powered = s.powered ∧ (applyPendingDuty s).now = s.now
    ∧ (applyPendingDuty s).port = s.port ∧ (applyPendingDuty s).accounts = s.accounts
    ∧ (applyPendingDuty s).runs = s.runs ∧ (applyPendingDuty s).released = s.released
    ∧ (applyPendingDuty s).quality = s.quality ∧ (applyPendingDuty s).channels = s.channels
    ∧ (applyPendingDuty s).scan = s.scan ∧ (applyPendingDuty s).stroke = s.stroke
    ∧ (applyPendingDuty s).points = s.points ∧ (applyPendingDuty s).header = s.header
    ∧ (applyPendingDuty s).trips = s.trips ∧ (applyPendingDuty s).monitors = s.monitors
    ∧ (applyPendingDuty s).dueValues = s.dueValues ∧ (applyPendingDuty s).tripTest = s.tripTest
    ∧ (applyPendingDuty s).causes = s.causes ∧ (applyPendingDuty s).terminals = s.terminals
    ∧ (applyPendingDuty s).levels = s.levels ∧ (applyPendingDuty s).clock = s.clock
    ∧ (applyPendingDuty s).supply = s.supply ∧ (applyPendingDuty s).pending = s.pending := by
  and_intros <;> dsimp only [applyPendingDuty]
  all_goals (repeat' split)
  all_goals simp

/-- What `clearStroke` leaves as it stands: everything but accounts, pumps, pendingDuty, stroke, header. -/
@[simp] theorem clearStroke_keeps (s : State) :
    (clearStroke s).powered = s.powered ∧ (clearStroke s).now = s.now
    ∧ (clearStroke s).port = s.port ∧ (clearStroke s).runs = s.runs
    ∧ (clearStroke s).released = s.released ∧ (clearStroke s).quality = s.quality
    ∧ (clearStroke s).channels = s.channels ∧ (clearStroke s).scan = s.scan
    ∧ (clearStroke s).points = s.points ∧ (clearStroke s).trips = s.trips
    ∧ (clearStroke s).monitors = s.monitors ∧ (clearStroke s).dueValues = s.dueValues
    ∧ (clearStroke s).tripTest = s.tripTest ∧ (clearStroke s).causes = s.causes
    ∧ (clearStroke s).terminals = s.terminals ∧ (clearStroke s).levels = s.levels
    ∧ (clearStroke s).clock = s.clock ∧ (clearStroke s).supply = s.supply
    ∧ (clearStroke s).pending = s.pending := by
  and_intros <;> dsimp only [clearStroke]
  all_goals (repeat' split)
  all_goals simp

/-- What `clearIfFinished` leaves as it stands: everything but accounts, pumps, pendingDuty, stroke, header. -/
@[simp] theorem clearIfFinished_keeps (s : State) :
    (clearIfFinished s).powered = s.powered ∧ (clearIfFinished s).now = s.now
    ∧ (clearIfFinished s).port = s.port ∧ (clearIfFinished s).runs = s.runs
    ∧ (clearIfFinished s).released = s.released ∧ (clearIfFinished s).quality = s.quality
    ∧ (clearIfFinished s).channels = s.channels ∧ (clearIfFinished s).scan = s.scan
    ∧ (clearIfFinished s).points = s.points ∧ (clearIfFinished s).trips = s.trips
    ∧ (clearIfFinished s).monitors = s.monitors ∧ (clearIfFinished s).dueValues = s.dueValues
    ∧ (clearIfFinished s).tripTest = s.tripTest ∧ (clearIfFinished s).causes = s.causes
    ∧ (clearIfFinished s).terminals = s.terminals ∧ (clearIfFinished s).levels = s.levels
    ∧ (clearIfFinished s).clock = s.clock ∧ (clearIfFinished s).supply = s.supply
    ∧ (clearIfFinished s).pending = s.pending := by
  and_intros <;> dsimp only [clearIfFinished]
  all_goals (repeat' split)
  all_goals simp

/-- What `grantManual` leaves as it stands: everything but header. -/
@[simp] theorem grantManual_keeps (s : State) :
    (grantManual s).powered = s.powered ∧ (grantManual s).now = s.now
    ∧ (grantManual s).port = s.port ∧ (grantManual s).accounts = s.accounts
    ∧ (grantManual s).runs = s.runs ∧ (grantManual s).released = s.released
    ∧ (grantManual s).quality = s.quality ∧ (grantManual s).channels = s.channels
    ∧ (grantManual s).scan = s.scan ∧ (grantManual s).stroke = s.stroke
    ∧ (grantManual s).points = s.points ∧ (grantManual s).pumps = s.pumps
    ∧ (grantManual s).pendingDuty = s.pendingDuty ∧ (grantManual s).trips = s.trips
    ∧ (grantManual s).monitors = s.monitors ∧ (grantManual s).dueValues = s.dueValues
    ∧ (grantManual s).tripTest = s.tripTest ∧ (grantManual s).causes = s.causes
    ∧ (grantManual s).terminals = s.terminals ∧ (grantManual s).levels = s.levels
    ∧ (grantManual s).clock = s.clock ∧ (grantManual s).supply = s.supply
    ∧ (grantManual s).pending = s.pending := by
  and_intros <;> dsimp only [grantManual]
  all_goals (repeat' split)
  all_goals simp

/-- What `grantAccount` leaves as it stands: everything but header. -/
@[simp] theorem grantAccount_keeps (s : State) :
    (grantAccount s).powered = s.powered ∧ (grantAccount s).now = s.now
    ∧ (grantAccount s).port = s.port ∧ (grantAccount s).accounts = s.accounts
    ∧ (grantAccount s).runs = s.runs ∧ (grantAccount s).released = s.released
    ∧ (grantAccount s).quality = s.quality ∧ (grantAccount s).channels = s.channels
    ∧ (grantAccount s).scan = s.scan ∧ (grantAccount s).stroke = s.stroke
    ∧ (grantAccount s).points = s.points ∧ (grantAccount s).pumps = s.pumps
    ∧ (grantAccount s).pendingDuty = s.pendingDuty ∧ (grantAccount s).trips = s.trips
    ∧ (grantAccount s).monitors = s.monitors ∧ (grantAccount s).dueValues = s.dueValues
    ∧ (grantAccount s).tripTest = s.tripTest ∧ (grantAccount s).causes = s.causes
    ∧ (grantAccount s).terminals = s.terminals ∧ (grantAccount s).levels = s.levels
    ∧ (grantAccount s).clock = s.clock ∧ (grantAccount s).supply = s.supply
    ∧ (grantAccount s).pending = s.pending := by
  and_intros <;> dsimp only [grantAccount]
  all_goals (repeat' split)
  all_goals simp

/-- What `grantIfDue` leaves as it stands: everything but header. -/
@[simp] theorem grantIfDue_keeps (s : State) :
    (grantIfDue s).powered = s.powered ∧ (grantIfDue s).now = s.now ∧ (grantIfDue s).port = s.port
    ∧ (grantIfDue s).accounts = s.accounts ∧ (grantIfDue s).runs = s.runs
    ∧ (grantIfDue s).released = s.released ∧ (grantIfDue s).quality = s.quality
    ∧ (grantIfDue s).channels = s.channels ∧ (grantIfDue s).scan = s.scan
    ∧ (grantIfDue s).stroke = s.stroke ∧ (grantIfDue s).points = s.points
    ∧ (grantIfDue s).pumps = s.pumps ∧ (grantIfDue s).pendingDuty = s.pendingDuty
    ∧ (grantIfDue s).trips = s.trips ∧ (grantIfDue s).monitors = s.monitors
    ∧ (grantIfDue s).dueValues = s.dueValues ∧ (grantIfDue s).tripTest = s.tripTest
    ∧ (grantIfDue s).causes = s.causes ∧ (grantIfDue s).terminals = s.terminals
    ∧ (grantIfDue s).levels = s.levels ∧ (grantIfDue s).clock = s.clock
    ∧ (grantIfDue s).supply = s.supply ∧ (grantIfDue s).pending = s.pending := by
  and_intros <;> dsimp only [grantIfDue]
  all_goals (repeat' split)
  all_goals simp

/-- What `endManual` leaves as it stands: everything but header, causes. -/
@[simp] theorem endManual_keeps (s : State) :
    (endManual s).powered = s.powered ∧ (endManual s).now = s.now ∧ (endManual s).port = s.port
    ∧ (endManual s).accounts = s.accounts ∧ (endManual s).runs = s.runs
    ∧ (endManual s).released = s.released ∧ (endManual s).quality = s.quality
    ∧ (endManual s).channels = s.channels ∧ (endManual s).scan = s.scan
    ∧ (endManual s).stroke = s.stroke ∧ (endManual s).points = s.points
    ∧ (endManual s).pumps = s.pumps ∧ (endManual s).pendingDuty = s.pendingDuty
    ∧ (endManual s).trips = s.trips ∧ (endManual s).monitors = s.monitors
    ∧ (endManual s).dueValues = s.dueValues ∧ (endManual s).tripTest = s.tripTest
    ∧ (endManual s).terminals = s.terminals ∧ (endManual s).levels = s.levels
    ∧ (endManual s).clock = s.clock ∧ (endManual s).supply = s.supply
    ∧ (endManual s).pending = s.pending := by
  and_intros <;> dsimp only [endManual]
  all_goals (repeat' split)
  all_goals simp

/-- What `headerTrip` leaves as it stands: everything but header, stroke, causes. -/
@[simp] theorem headerTrip_keeps (s : State) :
    (headerTrip s).powered = s.powered ∧ (headerTrip s).now = s.now ∧ (headerTrip s).port = s.port
    ∧ (headerTrip s).accounts = s.accounts ∧ (headerTrip s).runs = s.runs
    ∧ (headerTrip s).released = s.released ∧ (headerTrip s).quality = s.quality
    ∧ (headerTrip s).channels = s.channels ∧ (headerTrip s).scan = s.scan
    ∧ (headerTrip s).points = s.points ∧ (headerTrip s).pumps = s.pumps
    ∧ (headerTrip s).pendingDuty = s.pendingDuty ∧ (headerTrip s).trips = s.trips
    ∧ (headerTrip s).monitors = s.monitors ∧ (headerTrip s).dueValues = s.dueValues
    ∧ (headerTrip s).tripTest = s.tripTest ∧ (headerTrip s).terminals = s.terminals
    ∧ (headerTrip s).levels = s.levels ∧ (headerTrip s).clock = s.clock
    ∧ (headerTrip s).supply = s.supply ∧ (headerTrip s).pending = s.pending := by
  and_intros <;> dsimp only [headerTrip]
  all_goals (repeat' split)
  all_goals simp

/-- What `headerUntrip` leaves as it stands: everything but header. -/
@[simp] theorem headerUntrip_keeps (s : State) :
    (headerUntrip s).powered = s.powered ∧ (headerUntrip s).now = s.now
    ∧ (headerUntrip s).port = s.port ∧ (headerUntrip s).accounts = s.accounts
    ∧ (headerUntrip s).runs = s.runs ∧ (headerUntrip s).released = s.released
    ∧ (headerUntrip s).quality = s.quality ∧ (headerUntrip s).channels = s.channels
    ∧ (headerUntrip s).scan = s.scan ∧ (headerUntrip s).stroke = s.stroke
    ∧ (headerUntrip s).points = s.points ∧ (headerUntrip s).pumps = s.pumps
    ∧ (headerUntrip s).pendingDuty = s.pendingDuty ∧ (headerUntrip s).trips = s.trips
    ∧ (headerUntrip s).monitors = s.monitors ∧ (headerUntrip s).dueValues = s.dueValues
    ∧ (headerUntrip s).tripTest = s.tripTest ∧ (headerUntrip s).causes = s.causes
    ∧ (headerUntrip s).terminals = s.terminals ∧ (headerUntrip s).levels = s.levels
    ∧ (headerUntrip s).clock = s.clock ∧ (headerUntrip s).supply = s.supply
    ∧ (headerUntrip s).pending = s.pending := by
  and_intros <;> dsimp only [headerUntrip]
  all_goals (repeat' split)
  all_goals simp

/-- What `changeTrips` leaves as it stands: everything but trips, header, stroke, causes. -/
@[simp] theorem changeTrips_keeps (f : TripSet → TripSet) (s : State) :
    (changeTrips f s).powered = s.powered ∧ (changeTrips f s).now = s.now
    ∧ (changeTrips f s).port = s.port ∧ (changeTrips f s).accounts = s.accounts
    ∧ (changeTrips f s).runs = s.runs ∧ (changeTrips f s).released = s.released
    ∧ (changeTrips f s).quality = s.quality ∧ (changeTrips f s).channels = s.channels
    ∧ (changeTrips f s).scan = s.scan ∧ (changeTrips f s).points = s.points
    ∧ (changeTrips f s).pumps = s.pumps ∧ (changeTrips f s).pendingDuty = s.pendingDuty
    ∧ (changeTrips f s).monitors = s.monitors ∧ (changeTrips f s).dueValues = s.dueValues
    ∧ (changeTrips f s).tripTest = s.tripTest ∧ (changeTrips f s).terminals = s.terminals
    ∧ (changeTrips f s).levels = s.levels ∧ (changeTrips f s).clock = s.clock
    ∧ (changeTrips f s).supply = s.supply ∧ (changeTrips f s).pending = s.pending := by
  and_intros <;> dsimp only [changeTrips]
  all_goals (repeat' split)
  all_goals simp

/-- What `enterTripped` leaves as it stands: everything but monitors, trips, header, stroke, causes. -/
@[simp] theorem enterTripped_keeps (m : Fin 16) (s : State) :
    (enterTripped m s).powered = s.powered ∧ (enterTripped m s).now = s.now
    ∧ (enterTripped m s).port = s.port ∧ (enterTripped m s).accounts = s.accounts
    ∧ (enterTripped m s).runs = s.runs ∧ (enterTripped m s).released = s.released
    ∧ (enterTripped m s).quality = s.quality ∧ (enterTripped m s).channels = s.channels
    ∧ (enterTripped m s).scan = s.scan ∧ (enterTripped m s).points = s.points
    ∧ (enterTripped m s).pumps = s.pumps ∧ (enterTripped m s).pendingDuty = s.pendingDuty
    ∧ (enterTripped m s).dueValues = s.dueValues ∧ (enterTripped m s).tripTest = s.tripTest
    ∧ (enterTripped m s).terminals = s.terminals ∧ (enterTripped m s).levels = s.levels
    ∧ (enterTripped m s).clock = s.clock ∧ (enterTripped m s).supply = s.supply
    ∧ (enterTripped m s).pending = s.pending := by
  and_intros <;> dsimp only [enterTripped]
  all_goals (repeat' split)
  all_goals simp

/-- What `releaseAction` leaves as it stands: everything but trips, header, stroke, causes. -/
@[simp] theorem releaseAction_keeps (m : Fin 16) (a : Action) (s : State) :
    (releaseAction m a s).powered = s.powered ∧ (releaseAction m a s).now = s.now
    ∧ (releaseAction m a s).port = s.port ∧ (releaseAction m a s).accounts = s.accounts
    ∧ (releaseAction m a s).runs = s.runs ∧ (releaseAction m a s).released = s.released
    ∧ (releaseAction m a s).quality = s.quality ∧ (releaseAction m a s).channels = s.channels
    ∧ (releaseAction m a s).scan = s.scan ∧ (releaseAction m a s).points = s.points
    ∧ (releaseAction m a s).pumps = s.pumps ∧ (releaseAction m a s).pendingDuty = s.pendingDuty
    ∧ (releaseAction m a s).monitors = s.monitors ∧ (releaseAction m a s).dueValues = s.dueValues
    ∧ (releaseAction m a s).tripTest = s.tripTest ∧ (releaseAction m a s).terminals = s.terminals
    ∧ (releaseAction m a s).levels = s.levels ∧ (releaseAction m a s).clock = s.clock
    ∧ (releaseAction m a s).supply = s.supply ∧ (releaseAction m a s).pending = s.pending := by
  and_intros <;> dsimp only [releaseAction]
  all_goals (repeat' split)
  all_goals simp

/-- What `startScan` leaves as it stands: everything but scan, released. -/
@[simp] theorem startScan_keeps (s : State) :
    (startScan s).powered = s.powered ∧ (startScan s).now = s.now ∧ (startScan s).port = s.port
    ∧ (startScan s).accounts = s.accounts ∧ (startScan s).runs = s.runs
    ∧ (startScan s).quality = s.quality ∧ (startScan s).channels = s.channels
    ∧ (startScan s).stroke = s.stroke ∧ (startScan s).points = s.points
    ∧ (startScan s).header = s.header ∧ (startScan s).pumps = s.pumps
    ∧ (startScan s).pendingDuty = s.pendingDuty ∧ (startScan s).trips = s.trips
    ∧ (startScan s).monitors = s.monitors ∧ (startScan s).dueValues = s.dueValues
    ∧ (startScan s).tripTest = s.tripTest ∧ (startScan s).causes = s.causes
    ∧ (startScan s).terminals = s.terminals ∧ (startScan s).levels = s.levels
    ∧ (startScan s).clock = s.clock ∧ (startScan s).supply = s.supply
    ∧ (startScan s).pending = s.pending := by
  and_intros <;> dsimp only [startScan]
  all_goals (repeat' split)
  all_goals simp

/-- What `trigger` leaves as it stands: everything but scan, released, causes. -/
@[simp] theorem trigger_keeps (s : State) :
    (trigger s).powered = s.powered ∧ (trigger s).now = s.now ∧ (trigger s).port = s.port
    ∧ (trigger s).accounts = s.accounts ∧ (trigger s).runs = s.runs
    ∧ (trigger s).quality = s.quality ∧ (trigger s).channels = s.channels
    ∧ (trigger s).stroke = s.stroke ∧ (trigger s).points = s.points
    ∧ (trigger s).header = s.header ∧ (trigger s).pumps = s.pumps
    ∧ (trigger s).pendingDuty = s.pendingDuty ∧ (trigger s).trips = s.trips
    ∧ (trigger s).monitors = s.monitors ∧ (trigger s).dueValues = s.dueValues
    ∧ (trigger s).tripTest = s.tripTest ∧ (trigger s).terminals = s.terminals
    ∧ (trigger s).levels = s.levels ∧ (trigger s).clock = s.clock ∧ (trigger s).supply = s.supply
    ∧ (trigger s).pending = s.pending := by
  and_intros <;> dsimp only [trigger]
  all_goals (repeat' split)
  all_goals simp

/-- What `startSave` leaves as it stands: everything but supply. -/
@[simp] theorem startSave_keeps (s : State) :
    (startSave s).powered = s.powered ∧ (startSave s).now = s.now ∧ (startSave s).port = s.port
    ∧ (startSave s).accounts = s.accounts ∧ (startSave s).runs = s.runs
    ∧ (startSave s).released = s.released ∧ (startSave s).quality = s.quality
    ∧ (startSave s).channels = s.channels ∧ (startSave s).scan = s.scan
    ∧ (startSave s).stroke = s.stroke ∧ (startSave s).points = s.points
    ∧ (startSave s).header = s.header ∧ (startSave s).pumps = s.pumps
    ∧ (startSave s).pendingDuty = s.pendingDuty ∧ (startSave s).trips = s.trips
    ∧ (startSave s).monitors = s.monitors ∧ (startSave s).dueValues = s.dueValues
    ∧ (startSave s).tripTest = s.tripTest ∧ (startSave s).causes = s.causes
    ∧ (startSave s).terminals = s.terminals ∧ (startSave s).levels = s.levels
    ∧ (startSave s).clock = s.clock ∧ (startSave s).pending = s.pending := by
  and_intros <;> dsimp only [startSave]
  all_goals (repeat' split)
  all_goals simp

/-- What `rollover` leaves as it stands: everything but accounts, causes, supply. -/
@[simp] theorem rollover_keeps (s : State) :
    (rollover s).powered = s.powered ∧ (rollover s).now = s.now ∧ (rollover s).port = s.port
    ∧ (rollover s).runs = s.runs ∧ (rollover s).released = s.released
    ∧ (rollover s).quality = s.quality ∧ (rollover s).channels = s.channels
    ∧ (rollover s).scan = s.scan ∧ (rollover s).stroke = s.stroke ∧ (rollover s).points = s.points
    ∧ (rollover s).header = s.header ∧ (rollover s).pumps = s.pumps
    ∧ (rollover s).pendingDuty = s.pendingDuty ∧ (rollover s).trips = s.trips
    ∧ (rollover s).monitors = s.monitors ∧ (rollover s).dueValues = s.dueValues
    ∧ (rollover s).tripTest = s.tripTest ∧ (rollover s).terminals = s.terminals
    ∧ (rollover s).levels = s.levels ∧ (rollover s).clock = s.clock
    ∧ (rollover s).pending = s.pending := by
  simp [rollover]

/-- What `writeTotals` leaves as it stands: everything but accounts, runs, causes. -/
@[simp] theorem writeTotals_keeps (r : Fin 6) (owner : Option (Fin 12)) (u : UpdateResults) (e : Bool) (s : State) :
    (writeTotals r owner u e s).powered = s.powered ∧ (writeTotals r owner u e s).now = s.now
    ∧ (writeTotals r owner u e s).port = s.port
    ∧ (writeTotals r owner u e s).released = s.released
    ∧ (writeTotals r owner u e s).quality = s.quality
    ∧ (writeTotals r owner u e s).channels = s.channels
    ∧ (writeTotals r owner u e s).scan = s.scan ∧ (writeTotals r owner u e s).stroke = s.stroke
    ∧ (writeTotals r owner u e s).points = s.points
    ∧ (writeTotals r owner u e s).header = s.header ∧ (writeTotals r owner u e s).pumps = s.pumps
    ∧ (writeTotals r owner u e s).pendingDuty = s.pendingDuty
    ∧ (writeTotals r owner u e s).trips = s.trips
    ∧ (writeTotals r owner u e s).monitors = s.monitors
    ∧ (writeTotals r owner u e s).dueValues = s.dueValues
    ∧ (writeTotals r owner u e s).tripTest = s.tripTest
    ∧ (writeTotals r owner u e s).terminals = s.terminals
    ∧ (writeTotals r owner u e s).levels = s.levels ∧ (writeTotals r owner u e s).clock = s.clock
    ∧ (writeTotals r owner u e s).supply = s.supply
    ∧ (writeTotals r owner u e s).pending = s.pending := by
  and_intros <;> dsimp only [writeTotals]
  all_goals (repeat' split)
  all_goals simp

/-- What `update` leaves as it stands: everything but accounts, runs, causes, dueValues. -/
@[simp] theorem update_keeps (r : Fin 6) (h : Held) (s : State) :
    (update r h s).powered = s.powered ∧ (update r h s).now = s.now ∧ (update r h s).port = s.port
    ∧ (update r h s).released = s.released ∧ (update r h s).quality = s.quality
    ∧ (update r h s).channels = s.channels ∧ (update r h s).scan = s.scan
    ∧ (update r h s).stroke = s.stroke ∧ (update r h s).points = s.points
    ∧ (update r h s).header = s.header ∧ (update r h s).pumps = s.pumps
    ∧ (update r h s).pendingDuty = s.pendingDuty ∧ (update r h s).trips = s.trips
    ∧ (update r h s).monitors = s.monitors ∧ (update r h s).tripTest = s.tripTest
    ∧ (update r h s).terminals = s.terminals ∧ (update r h s).levels = s.levels
    ∧ (update r h s).clock = s.clock ∧ (update r h s).supply = s.supply
    ∧ (update r h s).pending = s.pending := by
  simp [update]

/-- What `zeroCarries` leaves as it stands: everything but runs. -/
@[simp] theorem zeroCarries_keeps (r : Fin 6) (s : State) :
    (zeroCarries r s).powered = s.powered ∧ (zeroCarries r s).now = s.now
    ∧ (zeroCarries r s).port = s.port ∧ (zeroCarries r s).accounts = s.accounts
    ∧ (zeroCarries r s).released = s.released ∧ (zeroCarries r s).quality = s.quality
    ∧ (zeroCarries r s).channels = s.channels ∧ (zeroCarries r s).scan = s.scan
    ∧ (zeroCarries r s).stroke = s.stroke ∧ (zeroCarries r s).points = s.points
    ∧ (zeroCarries r s).header = s.header ∧ (zeroCarries r s).pumps = s.pumps
    ∧ (zeroCarries r s).pendingDuty = s.pendingDuty ∧ (zeroCarries r s).trips = s.trips
    ∧ (zeroCarries r s).monitors = s.monitors ∧ (zeroCarries r s).dueValues = s.dueValues
    ∧ (zeroCarries r s).tripTest = s.tripTest ∧ (zeroCarries r s).causes = s.causes
    ∧ (zeroCarries r s).terminals = s.terminals ∧ (zeroCarries r s).levels = s.levels
    ∧ (zeroCarries r s).clock = s.clock ∧ (zeroCarries r s).supply = s.supply
    ∧ (zeroCarries r s).pending = s.pending := by
  simp [zeroCarries]

/-- What `settle` leaves as it stands: everything but accounts, runs, causes, dueValues. -/
@[simp] theorem settle_keeps (r : Fin 6) (s : State) :
    (settle r s).powered = s.powered ∧ (settle r s).now = s.now ∧ (settle r s).port = s.port
    ∧ (settle r s).released = s.released ∧ (settle r s).quality = s.quality
    ∧ (settle r s).channels = s.channels ∧ (settle r s).scan = s.scan
    ∧ (settle r s).stroke = s.stroke ∧ (settle r s).points = s.points
    ∧ (settle r s).header = s.header ∧ (settle r s).pumps = s.pumps
    ∧ (settle r s).pendingDuty = s.pendingDuty ∧ (settle r s).trips = s.trips
    ∧ (settle r s).monitors = s.monitors ∧ (settle r s).tripTest = s.tripTest
    ∧ (settle r s).terminals = s.terminals ∧ (settle r s).levels = s.levels
    ∧ (settle r s).clock = s.clock ∧ (settle r s).supply = s.supply
    ∧ (settle r s).pending = s.pending := by
  and_intros <;> dsimp only [settle]
  all_goals (repeat' split)
  all_goals simp

end Sys2Proof.Machine
end

