-- ==== Sys2Proof/Laws/Commands.lean ====
section
/-! SUPPORT. What each operation of the command files leaves as it stands, field by field. -/

namespace Sys2Proof.Machine

/-- What `detachRun` leaves as it stands: everything but accounts, runs, causes, dueValues. -/
@[simp] theorem detachRun_keeps (i : Fin 12) (r : Fin 6) (s : State) :
    (detachRun i r s).powered = s.powered ∧ (detachRun i r s).now = s.now
    ∧ (detachRun i r s).port = s.port ∧ (detachRun i r s).released = s.released
    ∧ (detachRun i r s).quality = s.quality ∧ (detachRun i r s).channels = s.channels
    ∧ (detachRun i r s).scan = s.scan ∧ (detachRun i r s).stroke = s.stroke
    ∧ (detachRun i r s).points = s.points ∧ (detachRun i r s).header = s.header
    ∧ (detachRun i r s).pumps = s.pumps ∧ (detachRun i r s).pendingDuty = s.pendingDuty
    ∧ (detachRun i r s).trips = s.trips ∧ (detachRun i r s).monitors = s.monitors
    ∧ (detachRun i r s).tripTest = s.tripTest ∧ (detachRun i r s).terminals = s.terminals
    ∧ (detachRun i r s).levels = s.levels ∧ (detachRun i r s).clock = s.clock
    ∧ (detachRun i r s).supply = s.supply ∧ (detachRun i r s).pending = s.pending := by
  and_intros <;> dsimp only [detachRun]
  all_goals simp

/-- What `leaveOpen` leaves as it stands: everything but accounts, causes. -/
@[simp] theorem leaveOpen_keeps (i : Fin 12) (s : State) :
    (leaveOpen i s).powered = s.powered ∧ (leaveOpen i s).now = s.now
    ∧ (leaveOpen i s).port = s.port ∧ (leaveOpen i s).runs = s.runs
    ∧ (leaveOpen i s).released = s.released ∧ (leaveOpen i s).quality = s.quality
    ∧ (leaveOpen i s).channels = s.channels ∧ (leaveOpen i s).scan = s.scan
    ∧ (leaveOpen i s).stroke = s.stroke ∧ (leaveOpen i s).points = s.points
    ∧ (leaveOpen i s).header = s.header ∧ (leaveOpen i s).pumps = s.pumps
    ∧ (leaveOpen i s).pendingDuty = s.pendingDuty ∧ (leaveOpen i s).trips = s.trips
    ∧ (leaveOpen i s).monitors = s.monitors ∧ (leaveOpen i s).dueValues = s.dueValues
    ∧ (leaveOpen i s).tripTest = s.tripTest ∧ (leaveOpen i s).terminals = s.terminals
    ∧ (leaveOpen i s).levels = s.levels ∧ (leaveOpen i s).clock = s.clock
    ∧ (leaveOpen i s).supply = s.supply ∧ (leaveOpen i s).pending = s.pending := by
  and_intros <;> dsimp only [leaveOpen]
  all_goals (repeat' split)
  all_goals simp

/-- What `pointChanged` leaves as it stands: everything but accounts, causes, header. -/
@[simp] theorem pointChanged_keeps (i : Fin 12) (before : Option (Fin 4)) (s : State) :
    (pointChanged i before s).powered = s.powered ∧ (pointChanged i before s).now = s.now
    ∧ (pointChanged i before s).port = s.port ∧ (pointChanged i before s).runs = s.runs
    ∧ (pointChanged i before s).released = s.released
    ∧ (pointChanged i before s).quality = s.quality
    ∧ (pointChanged i before s).channels = s.channels ∧ (pointChanged i before s).scan = s.scan
    ∧ (pointChanged i before s).stroke = s.stroke ∧ (pointChanged i before s).points = s.points
    ∧ (pointChanged i before s).pumps = s.pumps
    ∧ (pointChanged i before s).pendingDuty = s.pendingDuty
    ∧ (pointChanged i before s).trips = s.trips ∧ (pointChanged i before s).monitors = s.monitors
    ∧ (pointChanged i before s).dueValues = s.dueValues
    ∧ (pointChanged i before s).tripTest = s.tripTest
    ∧ (pointChanged i before s).terminals = s.terminals
    ∧ (pointChanged i before s).levels = s.levels ∧ (pointChanged i before s).clock = s.clock
    ∧ (pointChanged i before s).supply = s.supply ∧ (pointChanged i before s).pending = s.pending := by
  and_intros <;> dsimp only [pointChanged]
  all_goals (repeat' split)
  all_goals simp

/-- What `setLevel` leaves as it stands: everything but levels. -/
@[simp] theorem setLevel_keeps (t : Fin 16) (high : Bool) (s : State) :
    (setLevel t high s).powered = s.powered ∧ (setLevel t high s).now = s.now
    ∧ (setLevel t high s).port = s.port ∧ (setLevel t high s).accounts = s.accounts
    ∧ (setLevel t high s).runs = s.runs ∧ (setLevel t high s).released = s.released
    ∧ (setLevel t high s).quality = s.quality ∧ (setLevel t high s).channels = s.channels
    ∧ (setLevel t high s).scan = s.scan ∧ (setLevel t high s).stroke = s.stroke
    ∧ (setLevel t high s).points = s.points ∧ (setLevel t high s).header = s.header
    ∧ (setLevel t high s).pumps = s.pumps ∧ (setLevel t high s).pendingDuty = s.pendingDuty
    ∧ (setLevel t high s).trips = s.trips ∧ (setLevel t high s).monitors = s.monitors
    ∧ (setLevel t high s).dueValues = s.dueValues ∧ (setLevel t high s).tripTest = s.tripTest
    ∧ (setLevel t high s).causes = s.causes ∧ (setLevel t high s).terminals = s.terminals
    ∧ (setLevel t high s).clock = s.clock ∧ (setLevel t high s).supply = s.supply
    ∧ (setLevel t high s).pending = s.pending := by
  and_intros <;> rfl

/-- What `expireSlot` leaves as it stands: everything but quality, causes. -/
@[simp] theorem expireSlot_keeps (q : Fin 8) (s : State) :
    (expireSlot q s).powered = s.powered ∧ (expireSlot q s).now = s.now
    ∧ (expireSlot q s).port = s.port ∧ (expireSlot q s).accounts = s.accounts
    ∧ (expireSlot q s).runs = s.runs ∧ (expireSlot q s).released = s.released
    ∧ (expireSlot q s).channels = s.channels ∧ (expireSlot q s).scan = s.scan
    ∧ (expireSlot q s).stroke = s.stroke ∧ (expireSlot q s).points = s.points
    ∧ (expireSlot q s).header = s.header ∧ (expireSlot q s).pumps = s.pumps
    ∧ (expireSlot q s).pendingDuty = s.pendingDuty ∧ (expireSlot q s).trips = s.trips
    ∧ (expireSlot q s).monitors = s.monitors ∧ (expireSlot q s).dueValues = s.dueValues
    ∧ (expireSlot q s).tripTest = s.tripTest ∧ (expireSlot q s).terminals = s.terminals
    ∧ (expireSlot q s).levels = s.levels ∧ (expireSlot q s).clock = s.clock
    ∧ (expireSlot q s).supply = s.supply ∧ (expireSlot q s).pending = s.pending := by
  and_intros <;> dsimp only [expireSlot]
  all_goals (repeat' split)
  all_goals simp

/-- What `takeCode` leaves as it stands: everything but channels, causes, dueValues. -/
@[simp] theorem takeCode_keeps (i : Fin 16) (code : BitVec 16) (s : State) :
    (takeCode i code s).powered = s.powered ∧ (takeCode i code s).now = s.now
    ∧ (takeCode i code s).port = s.port ∧ (takeCode i code s).accounts = s.accounts
    ∧ (takeCode i code s).runs = s.runs ∧ (takeCode i code s).released = s.released
    ∧ (takeCode i code s).quality = s.quality ∧ (takeCode i code s).scan = s.scan
    ∧ (takeCode i code s).stroke = s.stroke ∧ (takeCode i code s).points = s.points
    ∧ (takeCode i code s).header = s.header ∧ (takeCode i code s).pumps = s.pumps
    ∧ (takeCode i code s).pendingDuty = s.pendingDuty ∧ (takeCode i code s).trips = s.trips
    ∧ (takeCode i code s).monitors = s.monitors ∧ (takeCode i code s).tripTest = s.tripTest
    ∧ (takeCode i code s).terminals = s.terminals ∧ (takeCode i code s).levels = s.levels
    ∧ (takeCode i code s).clock = s.clock ∧ (takeCode i code s).supply = s.supply
    ∧ (takeCode i code s).pending = s.pending := by
  and_intros <;> dsimp only [takeCode]
  all_goals (repeat' split)
  all_goals simp

/-- What `leaveMask` leaves as it stands: everything but header, causes. -/
@[simp] theorem leaveMask_keeps (q : Fin 4) (s : State) :
    (leaveMask q s).powered = s.powered ∧ (leaveMask q s).now = s.now
    ∧ (leaveMask q s).port = s.port ∧ (leaveMask q s).accounts = s.accounts
    ∧ (leaveMask q s).runs = s.runs ∧ (leaveMask q s).released = s.released
    ∧ (leaveMask q s).quality = s.quality ∧ (leaveMask q s).channels = s.channels
    ∧ (leaveMask q s).scan = s.scan ∧ (leaveMask q s).stroke = s.stroke
    ∧ (leaveMask q s).points = s.points ∧ (leaveMask q s).pumps = s.pumps
    ∧ (leaveMask q s).pendingDuty = s.pendingDuty ∧ (leaveMask q s).trips = s.trips
    ∧ (leaveMask q s).monitors = s.monitors ∧ (leaveMask q s).dueValues = s.dueValues
    ∧ (leaveMask q s).tripTest = s.tripTest ∧ (leaveMask q s).terminals = s.terminals
    ∧ (leaveMask q s).levels = s.levels ∧ (leaveMask q s).clock = s.clock
    ∧ (leaveMask q s).supply = s.supply ∧ (leaveMask q s).pending = s.pending := by
  and_intros <;> dsimp only [leaveMask]
  all_goals (repeat' split)
  all_goals simp

/-- What `disablePoint` leaves as it stands: everything but header, causes. -/
@[simp] theorem disablePoint_keeps (q : Fin 4) (s : State) :
    (disablePoint q s).powered = s.powered ∧ (disablePoint q s).now = s.now
    ∧ (disablePoint q s).port = s.port ∧ (disablePoint q s).accounts = s.accounts
    ∧ (disablePoint q s).runs = s.runs ∧ (disablePoint q s).released = s.released
    ∧ (disablePoint q s).quality = s.quality ∧ (disablePoint q s).channels = s.channels
    ∧ (disablePoint q s).scan = s.scan ∧ (disablePoint q s).stroke = s.stroke
    ∧ (disablePoint q s).points = s.points ∧ (disablePoint q s).pumps = s.pumps
    ∧ (disablePoint q s).pendingDuty = s.pendingDuty ∧ (disablePoint q s).trips = s.trips
    ∧ (disablePoint q s).monitors = s.monitors ∧ (disablePoint q s).dueValues = s.dueValues
    ∧ (disablePoint q s).tripTest = s.tripTest ∧ (disablePoint q s).terminals = s.terminals
    ∧ (disablePoint q s).levels = s.levels ∧ (disablePoint q s).clock = s.clock
    ∧ (disablePoint q s).supply = s.supply ∧ (disablePoint q s).pending = s.pending := by
  simp [disablePoint]

/-- What `writePoint` leaves as it stands: everything but points. -/
@[simp] theorem writePoint_keeps (q : Fin 4) (st : PointState) (limit : Nat) (s : State) :
    (writePoint q st limit s).powered = s.powered ∧ (writePoint q st limit s).now = s.now
    ∧ (writePoint q st limit s).port = s.port ∧ (writePoint q st limit s).accounts = s.accounts
    ∧ (writePoint q st limit s).runs = s.runs ∧ (writePoint q st limit s).released = s.released
    ∧ (writePoint q st limit s).quality = s.quality
    ∧ (writePoint q st limit s).channels = s.channels ∧ (writePoint q st limit s).scan = s.scan
    ∧ (writePoint q st limit s).stroke = s.stroke ∧ (writePoint q st limit s).header = s.header
    ∧ (writePoint q st limit s).pumps = s.pumps
    ∧ (writePoint q st limit s).pendingDuty = s.pendingDuty
    ∧ (writePoint q st limit s).trips = s.trips ∧ (writePoint q st limit s).monitors = s.monitors
    ∧ (writePoint q st limit s).dueValues = s.dueValues
    ∧ (writePoint q st limit s).tripTest = s.tripTest
    ∧ (writePoint q st limit s).causes = s.causes
    ∧ (writePoint q st limit s).terminals = s.terminals
    ∧ (writePoint q st limit s).levels = s.levels ∧ (writePoint q st limit s).clock = s.clock
    ∧ (writePoint q st limit s).supply = s.supply ∧ (writePoint q st limit s).pending = s.pending := by
  and_intros <;> rfl

/-- What `strayProof` leaves as it stands: everything but pumps. -/
@[simp] theorem strayProof_keeps (p : Fin 2) (s : State) :
    (strayProof p s).powered = s.powered ∧ (strayProof p s).now = s.now
    ∧ (strayProof p s).port = s.port ∧ (strayProof p s).accounts = s.accounts
    ∧ (strayProof p s).runs = s.runs ∧ (strayProof p s).released = s.released
    ∧ (strayProof p s).quality = s.quality ∧ (strayProof p s).channels = s.channels
    ∧ (strayProof p s).scan = s.scan ∧ (strayProof p s).stroke = s.stroke
    ∧ (strayProof p s).points = s.points ∧ (strayProof p s).header = s.header
    ∧ (strayProof p s).pendingDuty = s.pendingDuty ∧ (strayProof p s).trips = s.trips
    ∧ (strayProof p s).monitors = s.monitors ∧ (strayProof p s).dueValues = s.dueValues
    ∧ (strayProof p s).tripTest = s.tripTest ∧ (strayProof p s).causes = s.causes
    ∧ (strayProof p s).terminals = s.terminals ∧ (strayProof p s).levels = s.levels
    ∧ (strayProof p s).clock = s.clock ∧ (strayProof p s).supply = s.supply
    ∧ (strayProof p s).pending = s.pending := by
  and_intros <;> rfl

/-- What `releaseIfTripped` leaves as it stands: everything but trips, header, stroke, causes. -/
@[simp] theorem releaseIfTripped_keeps (m : Fin 16) (s : State) :
    (releaseIfTripped m s).powered = s.powered ∧ (releaseIfTripped m s).now = s.now
    ∧ (releaseIfTripped m s).port = s.port ∧ (releaseIfTripped m s).accounts = s.accounts
    ∧ (releaseIfTripped m s).runs = s.runs ∧ (releaseIfTripped m s).released = s.released
    ∧ (releaseIfTripped m s).quality = s.quality ∧ (releaseIfTripped m s).channels = s.channels
    ∧ (releaseIfTripped m s).scan = s.scan ∧ (releaseIfTripped m s).points = s.points
    ∧ (releaseIfTripped m s).pumps = s.pumps ∧ (releaseIfTripped m s).pendingDuty = s.pendingDuty
    ∧ (releaseIfTripped m s).monitors = s.monitors
    ∧ (releaseIfTripped m s).dueValues = s.dueValues
    ∧ (releaseIfTripped m s).tripTest = s.tripTest
    ∧ (releaseIfTripped m s).terminals = s.terminals ∧ (releaseIfTripped m s).levels = s.levels
    ∧ (releaseIfTripped m s).clock = s.clock ∧ (releaseIfTripped m s).supply = s.supply
    ∧ (releaseIfTripped m s).pending = s.pending := by
  and_intros <;> dsimp only [releaseIfTripped]
  all_goals (repeat' split)
  all_goals simp

/-- What `dropDue` leaves as it stands: everything but dueValues. -/
@[simp] theorem dropDue_keeps (m : Fin 16) (s : State) :
    (dropDue m s).powered = s.powered ∧ (dropDue m s).now = s.now ∧ (dropDue m s).port = s.port
    ∧ (dropDue m s).accounts = s.accounts ∧ (dropDue m s).runs = s.runs
    ∧ (dropDue m s).released = s.released ∧ (dropDue m s).quality = s.quality
    ∧ (dropDue m s).channels = s.channels ∧ (dropDue m s).scan = s.scan
    ∧ (dropDue m s).stroke = s.stroke ∧ (dropDue m s).points = s.points
    ∧ (dropDue m s).header = s.header ∧ (dropDue m s).pumps = s.pumps
    ∧ (dropDue m s).pendingDuty = s.pendingDuty ∧ (dropDue m s).trips = s.trips
    ∧ (dropDue m s).monitors = s.monitors ∧ (dropDue m s).tripTest = s.tripTest
    ∧ (dropDue m s).causes = s.causes ∧ (dropDue m s).terminals = s.terminals
    ∧ (dropDue m s).levels = s.levels ∧ (dropDue m s).clock = s.clock
    ∧ (dropDue m s).supply = s.supply ∧ (dropDue m s).pending = s.pending := by
  and_intros <;> rfl

/-- What `evaluateTimed` leaves as it stands: everything but monitors. -/
@[simp] theorem evaluateTimed_keeps (m : Fin 16) (v : Nat) (s : State) :
    (evaluateTimed m v s).powered = s.powered ∧ (evaluateTimed m v s).now = s.now
    ∧ (evaluateTimed m v s).port = s.port ∧ (evaluateTimed m v s).accounts = s.accounts
    ∧ (evaluateTimed m v s).runs = s.runs ∧ (evaluateTimed m v s).released = s.released
    ∧ (evaluateTimed m v s).quality = s.quality ∧ (evaluateTimed m v s).channels = s.channels
    ∧ (evaluateTimed m v s).scan = s.scan ∧ (evaluateTimed m v s).stroke = s.stroke
    ∧ (evaluateTimed m v s).points = s.points ∧ (evaluateTimed m v s).header = s.header
    ∧ (evaluateTimed m v s).pumps = s.pumps ∧ (evaluateTimed m v s).pendingDuty = s.pendingDuty
    ∧ (evaluateTimed m v s).trips = s.trips ∧ (evaluateTimed m v s).dueValues = s.dueValues
    ∧ (evaluateTimed m v s).tripTest = s.tripTest ∧ (evaluateTimed m v s).causes = s.causes
    ∧ (evaluateTimed m v s).terminals = s.terminals ∧ (evaluateTimed m v s).levels = s.levels
    ∧ (evaluateTimed m v s).clock = s.clock ∧ (evaluateTimed m v s).supply = s.supply
    ∧ (evaluateTimed m v s).pending = s.pending := by
  and_intros <;> dsimp only [evaluateTimed]
  all_goals (repeat' split)
  all_goals simp

/-- What `evaluateFollowing` leaves as it stands: everything but monitors, trips, header, stroke, causes. -/
@[simp] theorem evaluateFollowing_keeps (m : Fin 16) (v : Nat) (s : State) :
    (evaluateFollowing m v s).powered = s.powered ∧ (evaluateFollowing m v s).now = s.now
    ∧ (evaluateFollowing m v s).port = s.port ∧ (evaluateFollowing m v s).accounts = s.accounts
    ∧ (evaluateFollowing m v s).runs = s.runs ∧ (evaluateFollowing m v s).released = s.released
    ∧ (evaluateFollowing m v s).quality = s.quality
    ∧ (evaluateFollowing m v s).channels = s.channels ∧ (evaluateFollowing m v s).scan = s.scan
    ∧ (evaluateFollowing m v s).points = s.points ∧ (evaluateFollowing m v s).pumps = s.pumps
    ∧ (evaluateFollowing m v s).pendingDuty = s.pendingDuty
    ∧ (evaluateFollowing m v s).dueValues = s.dueValues
    ∧ (evaluateFollowing m v s).tripTest = s.tripTest
    ∧ (evaluateFollowing m v s).terminals = s.terminals
    ∧ (evaluateFollowing m v s).levels = s.levels ∧ (evaluateFollowing m v s).clock = s.clock
    ∧ (evaluateFollowing m v s).supply = s.supply ∧ (evaluateFollowing m v s).pending = s.pending := by
  and_intros <;> dsimp only [evaluateFollowing]
  all_goals (repeat' split)
  all_goals simp

/-- What `evaluate` leaves as it stands: everything but monitors, trips, header, stroke, causes. -/
@[simp] theorem evaluate_keeps (m : Fin 16) (v : Nat) (s : State) :
    (evaluate m v s).powered = s.powered ∧ (evaluate m v s).now = s.now
    ∧ (evaluate m v s).port = s.port ∧ (evaluate m v s).accounts = s.accounts
    ∧ (evaluate m v s).runs = s.runs ∧ (evaluate m v s).released = s.released
    ∧ (evaluate m v s).quality = s.quality ∧ (evaluate m v s).channels = s.channels
    ∧ (evaluate m v s).scan = s.scan ∧ (evaluate m v s).points = s.points
    ∧ (evaluate m v s).pumps = s.pumps ∧ (evaluate m v s).pendingDuty = s.pendingDuty
    ∧ (evaluate m v s).dueValues = s.dueValues ∧ (evaluate m v s).tripTest = s.tripTest
    ∧ (evaluate m v s).terminals = s.terminals ∧ (evaluate m v s).levels = s.levels
    ∧ (evaluate m v s).clock = s.clock ∧ (evaluate m v s).supply = s.supply
    ∧ (evaluate m v s).pending = s.pending := by
  and_intros <;> dsimp only [evaluate]
  all_goals (repeat' split)
  all_goals simp

/-- What `enterSupply` leaves as it stands: everything but supply. -/
@[simp] theorem enterSupply_keeps (st : SupplyState) (s : State) :
    (enterSupply st s).powered = s.powered ∧ (enterSupply st s).now = s.now
    ∧ (enterSupply st s).port = s.port ∧ (enterSupply st s).accounts = s.accounts
    ∧ (enterSupply st s).runs = s.runs ∧ (enterSupply st s).released = s.released
    ∧ (enterSupply st s).quality = s.quality ∧ (enterSupply st s).channels = s.channels
    ∧ (enterSupply st s).scan = s.scan ∧ (enterSupply st s).stroke = s.stroke
    ∧ (enterSupply st s).points = s.points ∧ (enterSupply st s).header = s.header
    ∧ (enterSupply st s).pumps = s.pumps ∧ (enterSupply st s).pendingDuty = s.pendingDuty
    ∧ (enterSupply st s).trips = s.trips ∧ (enterSupply st s).monitors = s.monitors
    ∧ (enterSupply st s).dueValues = s.dueValues ∧ (enterSupply st s).tripTest = s.tripTest
    ∧ (enterSupply st s).causes = s.causes ∧ (enterSupply st s).terminals = s.terminals
    ∧ (enterSupply st s).levels = s.levels ∧ (enterSupply st s).clock = s.clock
    ∧ (enterSupply st s).pending = s.pending := by
  and_intros <;> rfl

/-- What `stopCrystalQualification` leaves as it stands: everything but clock. -/
@[simp] theorem stopCrystalQualification_keeps (s : State) :
    (stopCrystalQualification s).powered = s.powered ∧ (stopCrystalQualification s).now = s.now
    ∧ (stopCrystalQualification s).port = s.port
    ∧ (stopCrystalQualification s).accounts = s.accounts
    ∧ (stopCrystalQualification s).runs = s.runs
    ∧ (stopCrystalQualification s).released = s.released
    ∧ (stopCrystalQualification s).quality = s.quality
    ∧ (stopCrystalQualification s).channels = s.channels
    ∧ (stopCrystalQualification s).scan = s.scan ∧ (stopCrystalQualification s).stroke = s.stroke
    ∧ (stopCrystalQualification s).points = s.points
    ∧ (stopCrystalQualification s).header = s.header
    ∧ (stopCrystalQualification s).pumps = s.pumps
    ∧ (stopCrystalQualification s).pendingDuty = s.pendingDuty
    ∧ (stopCrystalQualification s).trips = s.trips
    ∧ (stopCrystalQualification s).monitors = s.monitors
    ∧ (stopCrystalQualification s).dueValues = s.dueValues
    ∧ (stopCrystalQualification s).tripTest = s.tripTest
    ∧ (stopCrystalQualification s).causes = s.causes
    ∧ (stopCrystalQualification s).terminals = s.terminals
    ∧ (stopCrystalQualification s).levels = s.levels
    ∧ (stopCrystalQualification s).supply = s.supply
    ∧ (stopCrystalQualification s).pending = s.pending := by
  and_intros <;> rfl

/-- What `abandonCommand` leaves as it stands: everything but port. -/
@[simp] theorem abandonCommand_keeps (s : State) :
    (abandonCommand s).powered = s.powered ∧ (abandonCommand s).now = s.now
    ∧ (abandonCommand s).accounts = s.accounts ∧ (abandonCommand s).runs = s.runs
    ∧ (abandonCommand s).released = s.released ∧ (abandonCommand s).quality = s.quality
    ∧ (abandonCommand s).channels = s.channels ∧ (abandonCommand s).scan = s.scan
    ∧ (abandonCommand s).stroke = s.stroke ∧ (abandonCommand s).points = s.points
    ∧ (abandonCommand s).header = s.header ∧ (abandonCommand s).pumps = s.pumps
    ∧ (abandonCommand s).pendingDuty = s.pendingDuty ∧ (abandonCommand s).trips = s.trips
    ∧ (abandonCommand s).monitors = s.monitors ∧ (abandonCommand s).dueValues = s.dueValues
    ∧ (abandonCommand s).tripTest = s.tripTest ∧ (abandonCommand s).causes = s.causes
    ∧ (abandonCommand s).terminals = s.terminals ∧ (abandonCommand s).levels = s.levels
    ∧ (abandonCommand s).clock = s.clock ∧ (abandonCommand s).supply = s.supply
    ∧ (abandonCommand s).pending = s.pending := by
  and_intros <;> rfl

/-- What `abandonStroke` leaves as it stands: everything but stroke, accounts, causes, points, pumps, pendingDuty, header. -/
@[simp] theorem abandonStroke_keeps (s : State) :
    (abandonStroke s).powered = s.powered ∧ (abandonStroke s).now = s.now
    ∧ (abandonStroke s).port = s.port ∧ (abandonStroke s).runs = s.runs
    ∧ (abandonStroke s).released = s.released ∧ (abandonStroke s).quality = s.quality
    ∧ (abandonStroke s).channels = s.channels ∧ (abandonStroke s).scan = s.scan
    ∧ (abandonStroke s).trips = s.trips ∧ (abandonStroke s).monitors = s.monitors
    ∧ (abandonStroke s).dueValues = s.dueValues ∧ (abandonStroke s).tripTest = s.tripTest
    ∧ (abandonStroke s).terminals = s.terminals ∧ (abandonStroke s).levels = s.levels
    ∧ (abandonStroke s).clock = s.clock ∧ (abandonStroke s).supply = s.supply
    ∧ (abandonStroke s).pending = s.pending := by
  and_intros <;> dsimp only [abandonStroke]
  all_goals (repeat' split)
  all_goals simp

/-- What `dropStroke` leaves as it stands: everything but stroke, pumps, pendingDuty. -/
@[simp] theorem dropStroke_keeps (s : State) :
    (dropStroke s).powered = s.powered ∧ (dropStroke s).now = s.now ∧ (dropStroke s).port = s.port
    ∧ (dropStroke s).accounts = s.accounts ∧ (dropStroke s).runs = s.runs
    ∧ (dropStroke s).released = s.released ∧ (dropStroke s).quality = s.quality
    ∧ (dropStroke s).channels = s.channels ∧ (dropStroke s).scan = s.scan
    ∧ (dropStroke s).points = s.points ∧ (dropStroke s).header = s.header
    ∧ (dropStroke s).trips = s.trips ∧ (dropStroke s).monitors = s.monitors
    ∧ (dropStroke s).dueValues = s.dueValues ∧ (dropStroke s).tripTest = s.tripTest
    ∧ (dropStroke s).causes = s.causes ∧ (dropStroke s).terminals = s.terminals
    ∧ (dropStroke s).levels = s.levels ∧ (dropStroke s).clock = s.clock
    ∧ (dropStroke s).supply = s.supply ∧ (dropStroke s).pending = s.pending := by
  simp [dropStroke]

/-- What `clearHeader` leaves as it stands: everything but header. -/
@[simp] theorem clearHeader_keeps (s : State) :
    (clearHeader s).powered = s.powered ∧ (clearHeader s).now = s.now
    ∧ (clearHeader s).port = s.port ∧ (clearHeader s).accounts = s.accounts
    ∧ (clearHeader s).runs = s.runs ∧ (clearHeader s).released = s.released
    ∧ (clearHeader s).quality = s.quality ∧ (clearHeader s).channels = s.channels
    ∧ (clearHeader s).scan = s.scan ∧ (clearHeader s).stroke = s.stroke
    ∧ (clearHeader s).points = s.points ∧ (clearHeader s).pumps = s.pumps
    ∧ (clearHeader s).pendingDuty = s.pendingDuty ∧ (clearHeader s).trips = s.trips
    ∧ (clearHeader s).monitors = s.monitors ∧ (clearHeader s).dueValues = s.dueValues
    ∧ (clearHeader s).tripTest = s.tripTest ∧ (clearHeader s).causes = s.causes
    ∧ (clearHeader s).terminals = s.terminals ∧ (clearHeader s).levels = s.levels
    ∧ (clearHeader s).clock = s.clock ∧ (clearHeader s).supply = s.supply
    ∧ (clearHeader s).pending = s.pending := by
  and_intros <;> rfl

/-- What `restartInterval` leaves as it stands: everything but scan. -/
@[simp] theorem restartInterval_keeps (s : State) :
    (restartInterval s).powered = s.powered ∧ (restartInterval s).now = s.now
    ∧ (restartInterval s).port = s.port ∧ (restartInterval s).accounts = s.accounts
    ∧ (restartInterval s).runs = s.runs ∧ (restartInterval s).released = s.released
    ∧ (restartInterval s).quality = s.quality ∧ (restartInterval s).channels = s.channels
    ∧ (restartInterval s).stroke = s.stroke ∧ (restartInterval s).points = s.points
    ∧ (restartInterval s).header = s.header ∧ (restartInterval s).pumps = s.pumps
    ∧ (restartInterval s).pendingDuty = s.pendingDuty ∧ (restartInterval s).trips = s.trips
    ∧ (restartInterval s).monitors = s.monitors ∧ (restartInterval s).dueValues = s.dueValues
    ∧ (restartInterval s).tripTest = s.tripTest ∧ (restartInterval s).causes = s.causes
    ∧ (restartInterval s).terminals = s.terminals ∧ (restartInterval s).levels = s.levels
    ∧ (restartInterval s).clock = s.clock ∧ (restartInterval s).supply = s.supply
    ∧ (restartInterval s).pending = s.pending := by
  and_intros <;> dsimp only [restartInterval]
  all_goals (repeat' split)
  all_goals simp

/-- What `resetScan` leaves as it stands: everything but scan. -/
@[simp] theorem resetScan_keeps (s : State) :
    (resetScan s).powered = s.powered ∧ (resetScan s).now = s.now ∧ (resetScan s).port = s.port
    ∧ (resetScan s).accounts = s.accounts ∧ (resetScan s).runs = s.runs
    ∧ (resetScan s).released = s.released ∧ (resetScan s).quality = s.quality
    ∧ (resetScan s).channels = s.channels ∧ (resetScan s).stroke = s.stroke
    ∧ (resetScan s).points = s.points ∧ (resetScan s).header = s.header
    ∧ (resetScan s).pumps = s.pumps ∧ (resetScan s).pendingDuty = s.pendingDuty
    ∧ (resetScan s).trips = s.trips ∧ (resetScan s).monitors = s.monitors
    ∧ (resetScan s).dueValues = s.dueValues ∧ (resetScan s).tripTest = s.tripTest
    ∧ (resetScan s).causes = s.causes ∧ (resetScan s).terminals = s.terminals
    ∧ (resetScan s).levels = s.levels ∧ (resetScan s).clock = s.clock
    ∧ (resetScan s).supply = s.supply ∧ (resetScan s).pending = s.pending := by
  simp [resetScan]

/-- What `resetMonitors` leaves as it stands: everything but monitors, tripTest, trips. -/
@[simp] theorem resetMonitors_keeps (s : State) :
    (resetMonitors s).powered = s.powered ∧ (resetMonitors s).now = s.now
    ∧ (resetMonitors s).port = s.port ∧ (resetMonitors s).accounts = s.accounts
    ∧ (resetMonitors s).runs = s.runs ∧ (resetMonitors s).released = s.released
    ∧ (resetMonitors s).quality = s.quality ∧ (resetMonitors s).channels = s.channels
    ∧ (resetMonitors s).scan = s.scan ∧ (resetMonitors s).stroke = s.stroke
    ∧ (resetMonitors s).points = s.points ∧ (resetMonitors s).header = s.header
    ∧ (resetMonitors s).pumps = s.pumps ∧ (resetMonitors s).pendingDuty = s.pendingDuty
    ∧ (resetMonitors s).dueValues = s.dueValues ∧ (resetMonitors s).causes = s.causes
    ∧ (resetMonitors s).terminals = s.terminals ∧ (resetMonitors s).levels = s.levels
    ∧ (resetMonitors s).clock = s.clock ∧ (resetMonitors s).supply = s.supply
    ∧ (resetMonitors s).pending = s.pending := by
  and_intros <;> rfl

/-- What `resetRuns` leaves as it stands: everything but runs, released. -/
@[simp] theorem resetRuns_keeps (s : State) :
    (resetRuns s).powered = s.powered ∧ (resetRuns s).now = s.now ∧ (resetRuns s).port = s.port
    ∧ (resetRuns s).accounts = s.accounts ∧ (resetRuns s).quality = s.quality
    ∧ (resetRuns s).channels = s.channels ∧ (resetRuns s).scan = s.scan
    ∧ (resetRuns s).stroke = s.stroke ∧ (resetRuns s).points = s.points
    ∧ (resetRuns s).header = s.header ∧ (resetRuns s).pumps = s.pumps
    ∧ (resetRuns s).pendingDuty = s.pendingDuty ∧ (resetRuns s).trips = s.trips
    ∧ (resetRuns s).monitors = s.monitors ∧ (resetRuns s).dueValues = s.dueValues
    ∧ (resetRuns s).tripTest = s.tripTest ∧ (resetRuns s).causes = s.causes
    ∧ (resetRuns s).terminals = s.terminals ∧ (resetRuns s).levels = s.levels
    ∧ (resetRuns s).clock = s.clock ∧ (resetRuns s).supply = s.supply
    ∧ (resetRuns s).pending = s.pending := by
  and_intros <;> rfl

/-- What `clearCauses` leaves as it stands: everything but causes. -/
@[simp] theorem clearCauses_keeps (s : State) :
    (clearCauses s).powered = s.powered ∧ (clearCauses s).now = s.now
    ∧ (clearCauses s).port = s.port ∧ (clearCauses s).accounts = s.accounts
    ∧ (clearCauses s).runs = s.runs ∧ (clearCauses s).released = s.released
    ∧ (clearCauses s).quality = s.quality ∧ (clearCauses s).channels = s.channels
    ∧ (clearCauses s).scan = s.scan ∧ (clearCauses s).stroke = s.stroke
    ∧ (clearCauses s).points = s.points ∧ (clearCauses s).header = s.header
    ∧ (clearCauses s).pumps = s.pumps ∧ (clearCauses s).pendingDuty = s.pendingDuty
    ∧ (clearCauses s).trips = s.trips ∧ (clearCauses s).monitors = s.monitors
    ∧ (clearCauses s).dueValues = s.dueValues ∧ (clearCauses s).tripTest = s.tripTest
    ∧ (clearCauses s).terminals = s.terminals ∧ (clearCauses s).levels = s.levels
    ∧ (clearCauses s).clock = s.clock ∧ (clearCauses s).supply = s.supply
    ∧ (clearCauses s).pending = s.pending := by
  and_intros <;> rfl

/-- What `raiseAfterReset` leaves as it stands: everything but causes. -/
@[simp] theorem raiseAfterReset_keeps (closed : Option (Fin 12)) (s : State) :
    (raiseAfterReset closed s).powered = s.powered ∧ (raiseAfterReset closed s).now = s.now
    ∧ (raiseAfterReset closed s).port = s.port ∧ (raiseAfterReset closed s).accounts = s.accounts
    ∧ (raiseAfterReset closed s).runs = s.runs ∧ (raiseAfterReset closed s).released = s.released
    ∧ (raiseAfterReset closed s).quality = s.quality
    ∧ (raiseAfterReset closed s).channels = s.channels ∧ (raiseAfterReset closed s).scan = s.scan
    ∧ (raiseAfterReset closed s).stroke = s.stroke ∧ (raiseAfterReset closed s).points = s.points
    ∧ (raiseAfterReset closed s).header = s.header ∧ (raiseAfterReset closed s).pumps = s.pumps
    ∧ (raiseAfterReset closed s).pendingDuty = s.pendingDuty
    ∧ (raiseAfterReset closed s).trips = s.trips
    ∧ (raiseAfterReset closed s).monitors = s.monitors
    ∧ (raiseAfterReset closed s).dueValues = s.dueValues
    ∧ (raiseAfterReset closed s).tripTest = s.tripTest
    ∧ (raiseAfterReset closed s).terminals = s.terminals
    ∧ (raiseAfterReset closed s).levels = s.levels ∧ (raiseAfterReset closed s).clock = s.clock
    ∧ (raiseAfterReset closed s).supply = s.supply
    ∧ (raiseAfterReset closed s).pending = s.pending := by
  and_intros <;> dsimp only [raiseAfterReset]
  all_goals (repeat' split)
  all_goals simp

/-- What `settleHeader` leaves as it stands: everything but header. -/
@[simp] theorem settleHeader_keeps (s : State) :
    (settleHeader s).powered = s.powered ∧ (settleHeader s).now = s.now
    ∧ (settleHeader s).port = s.port ∧ (settleHeader s).accounts = s.accounts
    ∧ (settleHeader s).runs = s.runs ∧ (settleHeader s).released = s.released
    ∧ (settleHeader s).quality = s.quality ∧ (settleHeader s).channels = s.channels
    ∧ (settleHeader s).scan = s.scan ∧ (settleHeader s).stroke = s.stroke
    ∧ (settleHeader s).points = s.points ∧ (settleHeader s).pumps = s.pumps
    ∧ (settleHeader s).pendingDuty = s.pendingDuty ∧ (settleHeader s).trips = s.trips
    ∧ (settleHeader s).monitors = s.monitors ∧ (settleHeader s).dueValues = s.dueValues
    ∧ (settleHeader s).tripTest = s.tripTest ∧ (settleHeader s).causes = s.causes
    ∧ (settleHeader s).terminals = s.terminals ∧ (settleHeader s).levels = s.levels
    ∧ (settleHeader s).clock = s.clock ∧ (settleHeader s).supply = s.supply
    ∧ (settleHeader s).pending = s.pending := by
  and_intros <;> rfl

/-- What `keepInputs` leaves as it stands: everything but levels, pending. -/
@[simp] theorem keepInputs_keeps (before : State) (s : State) :
    (keepInputs before s).powered = s.powered ∧ (keepInputs before s).now = s.now
    ∧ (keepInputs before s).port = s.port ∧ (keepInputs before s).accounts = s.accounts
    ∧ (keepInputs before s).runs = s.runs ∧ (keepInputs before s).released = s.released
    ∧ (keepInputs before s).quality = s.quality ∧ (keepInputs before s).channels = s.channels
    ∧ (keepInputs before s).scan = s.scan ∧ (keepInputs before s).stroke = s.stroke
    ∧ (keepInputs before s).points = s.points ∧ (keepInputs before s).header = s.header
    ∧ (keepInputs before s).pumps = s.pumps ∧ (keepInputs before s).pendingDuty = s.pendingDuty
    ∧ (keepInputs before s).trips = s.trips ∧ (keepInputs before s).monitors = s.monitors
    ∧ (keepInputs before s).dueValues = s.dueValues ∧ (keepInputs before s).tripTest = s.tripTest
    ∧ (keepInputs before s).causes = s.causes ∧ (keepInputs before s).terminals = s.terminals
    ∧ (keepInputs before s).clock = s.clock ∧ (keepInputs before s).supply = s.supply := by
  and_intros <;> rfl

/-- What `crystalAtStart` leaves as it stands: everything but clock. -/
@[simp] theorem crystalAtStart_keeps (running : Bool) (s : State) :
    (crystalAtStart running s).powered = s.powered ∧ (crystalAtStart running s).now = s.now
    ∧ (crystalAtStart running s).port = s.port ∧ (crystalAtStart running s).accounts = s.accounts
    ∧ (crystalAtStart running s).runs = s.runs ∧ (crystalAtStart running s).released = s.released
    ∧ (crystalAtStart running s).quality = s.quality
    ∧ (crystalAtStart running s).channels = s.channels ∧ (crystalAtStart running s).scan = s.scan
    ∧ (crystalAtStart running s).stroke = s.stroke ∧ (crystalAtStart running s).points = s.points
    ∧ (crystalAtStart running s).header = s.header ∧ (crystalAtStart running s).pumps = s.pumps
    ∧ (crystalAtStart running s).pendingDuty = s.pendingDuty
    ∧ (crystalAtStart running s).trips = s.trips
    ∧ (crystalAtStart running s).monitors = s.monitors
    ∧ (crystalAtStart running s).dueValues = s.dueValues
    ∧ (crystalAtStart running s).tripTest = s.tripTest
    ∧ (crystalAtStart running s).causes = s.causes
    ∧ (crystalAtStart running s).terminals = s.terminals
    ∧ (crystalAtStart running s).levels = s.levels ∧ (crystalAtStart running s).supply = s.supply
    ∧ (crystalAtStart running s).pending = s.pending := by
  and_intros <;> dsimp only [crystalAtStart]
  all_goals (repeat' split)
  all_goals simp

/-- What `stopAtStart` leaves as it stands: everything but trips, header, stroke, causes. -/
@[simp] theorem stopAtStart_keeps (s : State) :
    (stopAtStart s).powered = s.powered ∧ (stopAtStart s).now = s.now
    ∧ (stopAtStart s).port = s.port ∧ (stopAtStart s).accounts = s.accounts
    ∧ (stopAtStart s).runs = s.runs ∧ (stopAtStart s).released = s.released
    ∧ (stopAtStart s).quality = s.quality ∧ (stopAtStart s).channels = s.channels
    ∧ (stopAtStart s).scan = s.scan ∧ (stopAtStart s).points = s.points
    ∧ (stopAtStart s).pumps = s.pumps ∧ (stopAtStart s).pendingDuty = s.pendingDuty
    ∧ (stopAtStart s).monitors = s.monitors ∧ (stopAtStart s).dueValues = s.dueValues
    ∧ (stopAtStart s).tripTest = s.tripTest ∧ (stopAtStart s).terminals = s.terminals
    ∧ (stopAtStart s).levels = s.levels ∧ (stopAtStart s).clock = s.clock
    ∧ (stopAtStart s).supply = s.supply ∧ (stopAtStart s).pending = s.pending := by
  and_intros <;> dsimp only [stopAtStart]
  all_goals (repeat' split)
  all_goals simp

/-- What `rollIfOtherDay` leaves as it stands: everything but accounts, causes, supply. -/
@[simp] theorem rollIfOtherDay_keeps (time : Nat) (s : State) :
    (rollIfOtherDay time s).powered = s.powered ∧ (rollIfOtherDay time s).now = s.now
    ∧ (rollIfOtherDay time s).port = s.port ∧ (rollIfOtherDay time s).runs = s.runs
    ∧ (rollIfOtherDay time s).released = s.released ∧ (rollIfOtherDay time s).quality = s.quality
    ∧ (rollIfOtherDay time s).channels = s.channels ∧ (rollIfOtherDay time s).scan = s.scan
    ∧ (rollIfOtherDay time s).stroke = s.stroke ∧ (rollIfOtherDay time s).points = s.points
    ∧ (rollIfOtherDay time s).header = s.header ∧ (rollIfOtherDay time s).pumps = s.pumps
    ∧ (rollIfOtherDay time s).pendingDuty = s.pendingDuty
    ∧ (rollIfOtherDay time s).trips = s.trips ∧ (rollIfOtherDay time s).monitors = s.monitors
    ∧ (rollIfOtherDay time s).dueValues = s.dueValues
    ∧ (rollIfOtherDay time s).tripTest = s.tripTest
    ∧ (rollIfOtherDay time s).terminals = s.terminals ∧ (rollIfOtherDay time s).levels = s.levels
    ∧ (rollIfOtherDay time s).clock = s.clock ∧ (rollIfOtherDay time s).pending = s.pending := by
  and_intros <;> dsimp only [rollIfOtherDay]
  all_goals (repeat' split)
  all_goals simp

/-- What `writeTime` leaves as it stands: everything but clock. -/
@[simp] theorem writeTime_keeps (time : Nat) (s : State) :
    (writeTime time s).powered = s.powered ∧ (writeTime time s).now = s.now
    ∧ (writeTime time s).port = s.port ∧ (writeTime time s).accounts = s.accounts
    ∧ (writeTime time s).runs = s.runs ∧ (writeTime time s).released = s.released
    ∧ (writeTime time s).quality = s.quality ∧ (writeTime time s).channels = s.channels
    ∧ (writeTime time s).scan = s.scan ∧ (writeTime time s).stroke = s.stroke
    ∧ (writeTime time s).points = s.points ∧ (writeTime time s).header = s.header
    ∧ (writeTime time s).pumps = s.pumps ∧ (writeTime time s).pendingDuty = s.pendingDuty
    ∧ (writeTime time s).trips = s.trips ∧ (writeTime time s).monitors = s.monitors
    ∧ (writeTime time s).dueValues = s.dueValues ∧ (writeTime time s).tripTest = s.tripTest
    ∧ (writeTime time s).causes = s.causes ∧ (writeTime time s).terminals = s.terminals
    ∧ (writeTime time s).levels = s.levels ∧ (writeTime time s).supply = s.supply
    ∧ (writeTime time s).pending = s.pending := by
  and_intros <;> rfl

/-- What `advanceTime` leaves as it stands: everything but clock. -/
@[simp] theorem advanceTime_keeps (s : State) :
    (advanceTime s).powered = s.powered ∧ (advanceTime s).now = s.now
    ∧ (advanceTime s).port = s.port ∧ (advanceTime s).accounts = s.accounts
    ∧ (advanceTime s).runs = s.runs ∧ (advanceTime s).released = s.released
    ∧ (advanceTime s).quality = s.quality ∧ (advanceTime s).channels = s.channels
    ∧ (advanceTime s).scan = s.scan ∧ (advanceTime s).stroke = s.stroke
    ∧ (advanceTime s).points = s.points ∧ (advanceTime s).header = s.header
    ∧ (advanceTime s).pumps = s.pumps ∧ (advanceTime s).pendingDuty = s.pendingDuty
    ∧ (advanceTime s).trips = s.trips ∧ (advanceTime s).monitors = s.monitors
    ∧ (advanceTime s).dueValues = s.dueValues ∧ (advanceTime s).tripTest = s.tripTest
    ∧ (advanceTime s).causes = s.causes ∧ (advanceTime s).terminals = s.terminals
    ∧ (advanceTime s).levels = s.levels ∧ (advanceTime s).supply = s.supply
    ∧ (advanceTime s).pending = s.pending := by
  and_intros <;> rfl

/-- What `rollAtBoundary` leaves as it stands: everything but accounts, causes, supply. -/
@[simp] theorem rollAtBoundary_keeps (s : State) :
    (rollAtBoundary s).powered = s.powered ∧ (rollAtBoundary s).now = s.now
    ∧ (rollAtBoundary s).port = s.port ∧ (rollAtBoundary s).runs = s.runs
    ∧ (rollAtBoundary s).released = s.released ∧ (rollAtBoundary s).quality = s.quality
    ∧ (rollAtBoundary s).channels = s.channels ∧ (rollAtBoundary s).scan = s.scan
    ∧ (rollAtBoundary s).stroke = s.stroke ∧ (rollAtBoundary s).points = s.points
    ∧ (rollAtBoundary s).header = s.header ∧ (rollAtBoundary s).pumps = s.pumps
    ∧ (rollAtBoundary s).pendingDuty = s.pendingDuty ∧ (rollAtBoundary s).trips = s.trips
    ∧ (rollAtBoundary s).monitors = s.monitors ∧ (rollAtBoundary s).dueValues = s.dueValues
    ∧ (rollAtBoundary s).tripTest = s.tripTest ∧ (rollAtBoundary s).terminals = s.terminals
    ∧ (rollAtBoundary s).levels = s.levels ∧ (rollAtBoundary s).clock = s.clock
    ∧ (rollAtBoundary s).pending = s.pending := by
  and_intros <;> dsimp only [rollAtBoundary]
  all_goals (repeat' split)
  all_goals simp

/-- What `remapStop` leaves as it stands: everything but trips, header, stroke, causes. -/
@[simp] theorem remapStop_keeps (before : State) (s : State) :
    (remapStop before s).powered = s.powered ∧ (remapStop before s).now = s.now
    ∧ (remapStop before s).port = s.port ∧ (remapStop before s).accounts = s.accounts
    ∧ (remapStop before s).runs = s.runs ∧ (remapStop before s).released = s.released
    ∧ (remapStop before s).quality = s.quality ∧ (remapStop before s).channels = s.channels
    ∧ (remapStop before s).scan = s.scan ∧ (remapStop before s).points = s.points
    ∧ (remapStop before s).pumps = s.pumps ∧ (remapStop before s).pendingDuty = s.pendingDuty
    ∧ (remapStop before s).monitors = s.monitors ∧ (remapStop before s).dueValues = s.dueValues
    ∧ (remapStop before s).tripTest = s.tripTest ∧ (remapStop before s).terminals = s.terminals
    ∧ (remapStop before s).levels = s.levels ∧ (remapStop before s).clock = s.clock
    ∧ (remapStop before s).supply = s.supply ∧ (remapStop before s).pending = s.pending := by
  and_intros <;> dsimp only [remapStop]
  all_goals (repeat' split)
  all_goals simp

end Sys2Proof.Machine
end

