-- ==== Sys2Proof/Laws/Serve.lean ====
section
/-! SUPPORT. What the events and the executing events of requests can do. -/

namespace Sys2Proof.Machine

-- One proof after the other: a proof that waits for an earlier one holds a thread and its stack.
set_option Elab.async false

/-- An event answers a next state: its effect while the part is powered, nothing otherwise. -/
theorem event_next {f : State → State} {s t : State} (h : event f s = .next t) :
    t = if s.powered then f s else s := by
  simpa [event] using h.symm

/-- An event of a powered part. -/
theorem event_powered {f : State → State} {s : State} (h : s.powered = true) :
    event f s = .next (f s) := by
  simp [event, h]

/-- An event from outside, of a powered part. -/
theorem eventAfter_powered {us : Nat} {f : State → State} {s : State} (h : s.powered = true) :
    eventAfter us f s = .next (f (elapse us s)) := by
  simp [eventAfter, event, h]

/-- The expiry of a running timer of a powered part. -/
theorem expiry_running {timer : State → Option Nat} {f : State → State} {s : State} {time : Nat}
    (h : s.powered = true) (ht : timer s = some time) :
    expiry timer f s = .next (f (reach time s)) := by
  simp [expiry, event, h, ht]

/-- A request in execution is the one that `executing` finds. -/
theorem executing_of_serving {s : State} {n : Byte} {payload : List Byte}
    (h : s.serving n payload) : s.executing = some ⟨n, payload⟩ := by
  simp [State.executing, h.1, h.2.1, h.2.2]

/-- The executing event of the request in execution. -/
theorem serve_serving {n : Byte} {rule : List Byte → State → Answer} {s : State}
    {payload : List Byte} (h : s.serving n payload) :
    serve n rule s = .next ((rule payload s).completed s) := by
  simp [serve, executing_of_serving h]

/-- The executing event of a request in execution that its rule accepts. -/
theorem serve_ok {n : Byte} {rule : List Byte → State → Answer} {s s' : State}
    {payload out : List Byte} (h : s.serving n payload) (hr : rule payload s = .ok s' out) :
    serve n rule s = .next (complete .ok out s') := by
  simp [serve_serving h, hr, Answer.completed]

/-- The executing event of a request in execution that its rule refuses. -/
theorem serve_refused {n : Byte} {rule : List Byte → State → Answer} {s : State}
    {payload : List Byte} {st : Status} (h : s.serving n payload)
    (hr : rule payload s = .refuse st) : serve n rule s = .next (complete st [] s) := by
  simp [serve_serving h, hr, Answer.completed]

/-- A request without operands in execution. -/
theorem serveBare_ok {n : Byte} {rule : State → Answer} {s s' : State} {out : List Byte}
    (h : s.serving n []) (hr : rule s = .ok s' out) :
    serveBare n rule s = .next (complete .ok out s') :=
  serve_ok h (by simpa using hr)

/-- What an executing event can do: nothing, a refusal by status, or what its rule accepts. -/
theorem serve_cases {n : Byte} {rule : List Byte → State → Answer} {s t : State}
    (h : serve n rule s = .next t) :
    t = s ∨ (∃ st, t = complete st [] s)
      ∨ ∃ payload s' out, rule payload s = .ok s' out ∧ t = complete .ok out s' := by
  simp only [serve, Host.Outcome.next.injEq] at h
  subst h
  split
  · exact .inl rfl
  · next q _ =>
    split
    · cases hr : rule q.payload s with
      | ok s' out => exact .inr (.inr ⟨_, _, _, hr, rfl⟩)
      | refuse st => exact .inr (.inl ⟨st, rfl⟩)
    · exact .inl rfl

/-- A property that the completion keeps and that the rule's accepted effect keeps is kept by the executing event. -/
theorem serve_keeps {P : State → Prop} {n : Byte} {rule : List Byte → State → Answer} {s t : State}
    (hc : ∀ st out s, P s → P (complete st out s))
    (hr : ∀ payload s' out, rule payload s = .ok s' out → P s') (hs : P s)
    (h : serve n rule s = .next t) : P t := by
  rcases serve_cases h with rfl | ⟨st, rfl⟩ | ⟨payload, s', out, he, rfl⟩
  · exact hs
  · exact hc _ _ _ hs
  · exact hc _ _ _ (hr _ _ _ he)

/-- The same for a request without operands. -/
theorem serveBare_keeps {P : State → Prop} {n : Byte} {rule : State → Answer} {s t : State}
    (hc : ∀ st out s, P s → P (complete st out s))
    (hr : ∀ s' out, rule s = .ok s' out → P s') (hs : P s)
    (h : serveBare n rule s = .next t) : P t := by
  refine serve_keeps hc (fun payload s' out he => ?_) hs h
  split at he
  · exact hr _ _ he
  · cases he

/-- A property that an event's effect keeps is kept by the event. -/
theorem event_keeps {P : State → Prop} {f : State → State} {s t : State}
    (hf : s.powered = true → P (f s)) (hs : P s) (h : event f s = .next t) : P t := by
  rw [event_next h]
  split
  · next hp => exact hf hp
  · exact hs

/-- The same for an event from outside. -/
theorem eventAfter_keeps {P : State → Prop} {us : Nat} {f : State → State} {s t : State}
    (hf : s.powered = true → P (f (elapse us s))) (hs : P s) (h : eventAfter us f s = .next t) :
    P t :=
  event_keeps hf hs h

/-- The same for an expiry. -/
theorem expiry_keeps {P : State → Prop} {timer : State → Option Nat} {f : State → State}
    {s t : State} (hf : ∀ time, s.powered = true → timer s = some time → P (f (reach time s)))
    (hs : P s) (h : expiry timer f s = .next t) : P t := by
  refine event_keeps (fun hp => ?_) hs h
  split
  · exact hs
  · next ht => exact hf _ hp ht

end Sys2Proof.Machine
end

