-- ==== Sys2Proof/Laws/Rules.lean ====
section
/-! SUPPORT. What the rule of each request can do when it accepts: one lemma per rule, to be cited instead of unfolding it. -/

namespace Sys2Proof.Machine

-- One proof after the other: a proof that waits for an earlier one holds a thread and its stack.
set_option Elab.async false

/-- A command on a run that is accepted names a run. -/
theorem withRun_ok {field f s' out} (h : withRun field f = .ok s' out) :
    ∃ r : Fin 6, be field = r.1 ∧ f r = .ok s' out := by
  unfold withRun at h; split at h
  · cases h
  · next r hr => exact ⟨r, fin?_eq_some.mp hr, h⟩

/-- A command on a pump that is accepted names a pump. -/
theorem onPump_ok {f p s s' out} (h : onPump f p s = .ok s' out) :
    ∃ u : Fin 2, f u s = .ok s' out := by
  unfold onPump at h; repeat' split at h
  · cases h
  · exact ⟨_, h⟩
  · cases h

/-- The lowest FREE slot is FREE. -/
theorem lowestFree_spec {s : State} {i : Fin 12} (h : s.lowestFree = some i) :
    s.accounts[i].state = .free := by
  simpa using List.find?_some h

/-! ### Reads change no record -/

theorem ruleFindAccount_ok {p s s' out} (h : ruleFindAccount p s = .ok s' out) : s' = s := by
  unfold ruleFindAccount reading at h; repeat' split at h
  all_goals simp_all

theorem ruleListAccounts_ok {p s s' out} (h : ruleListAccounts p s = .ok s' out) : s' = s := by
  unfold ruleListAccounts reading at h; repeat' split at h
  all_goals simp_all

theorem ruleReadAccount_ok {p s s' out} (h : ruleReadAccount p s = .ok s' out) : s' = s := by
  unfold ruleReadAccount reading at h; repeat' split at h
  all_goals simp_all

theorem ruleReadRun_ok {p s s' out} (h : ruleReadRun p s = .ok s' out) : s' = s := by
  unfold ruleReadRun reading at h; split at h
  · obtain ⟨r, _, h⟩ := withRun_ok h
    split at h <;> simp_all
  · cases h

theorem ruleReadComposition_ok {p s s' out} (h : ruleReadComposition p s = .ok s' out) :
    s' = s := by
  unfold ruleReadComposition reading at h; repeat' split at h
  all_goals simp_all

theorem ruleReadChannel_ok {p s s' out} (h : ruleReadChannel p s = .ok s' out) : s' = s := by
  unfold ruleReadChannel reading at h; repeat' split at h
  all_goals simp_all

theorem ruleReadPoint_ok {p s s' out} (h : ruleReadPoint p s = .ok s' out) : s' = s := by
  unfold ruleReadPoint reading at h; repeat' split at h
  all_goals simp_all

theorem ruleReadMonitor_ok {p s s' out} (h : ruleReadMonitor p s = .ok s' out) : s' = s := by
  unfold ruleReadMonitor reading at h; repeat' split at h
  all_goals simp_all

theorem ruleReadAttention_ok {p s s' out} (h : ruleReadAttention p s = .ok s' out) :
    s' = s := by
  unfold ruleReadAttention reading at h; repeat' split at h
  all_goals simp_all

theorem readPump_ok {p : Fin 2} {s s' out} (h : readPump p s = .ok s' out) : s' = s := by
  simp_all [readPump, reading]

/-- A read without operands changes no record. -/
theorem reading_ok {bytes s s' out} (h : reading bytes s = .ok s' out) : s' = s := by
  simp_all [reading]

/-! ### Accounts -/

/-- A quality argument names a slot that is not EMPTY. -/
theorem qualityArg_spec {s : State} {n : Nat} {q : Fin 8} (h : s.qualityArg n = some q) :
    s.quality[q].state ≠ .empty := by
  simp only [State.qualityArg, Option.filter_eq_some_iff] at h
  simpa using h.2

theorem ruleOpenAccount_ok {p s s' out} (h : ruleOpenAccount p s = .ok s' out) :
    ∃ (i : Fin 12) (tag : List Byte) (q : Fin 8) (pt : Option (Fin 4)) (d pr : Nat),
      s.accounts[i].state = .free ∧ s.slotOfTag tag = none ∧ printable tag = true
        ∧ s.quality[q].state ≠ .empty
        ∧ s' = { s with
            accounts := setAt s.accounts i (.fresh tag q pt d pr s.clock.deviceTime) } := by
  unfold ruleOpenAccount openAccount at h; split at h
  · split at h
    · cases h
    · next hb =>
      split at h
      · next hq _ =>
        split at h
        · cases h
        · next ht =>
          split at h
          · cases h
          · next i hi =>
            injection h with h1 _
            simp at hb
            exact ⟨i, _, _, _, _, _, lowestFree_spec hi, by simpa using ht, hb.1.1,
              qualityArg_spec hq, h1.symm⟩
      · cases h
  · cases h

/-- The quality slot of an amendment is not EMPTY, or is the one the account named before. -/
theorem amendment_quality {s : State} {a : Account} {set quality point dose priority : Nat}
    {m : Amendment} (h : s.amendment? a set quality point dose priority = some m) :
    s.quality[m.quality].state ≠ .empty ∨ m.quality = a.quality := by
  unfold State.amendment? at h; split at h
  · next q _ hq _ =>
    split at h
    · injection h with h
      subst h
      split at hq
      · exact .inl (qualityArg_spec hq)
      · exact .inr (Option.some.inj hq).symm
    · cases h
  · cases h

theorem ruleAmendAccount_ok {p s s' out} (h : ruleAmendAccount p s = .ok s' out) :
    ∃ (i : Fin 12) (m : Amendment), s.accounts[i].state = .opened
      ∧ (s.quality[m.quality].state ≠ .empty ∨ m.quality = s.accounts[i].quality)
      ∧ s' = amendAccount i m s := by
  unfold ruleAmendAccount at h; repeat' split at h
  all_goals try cases h
  next hs _ m hm => exact ⟨_, m, by simpa using hs, amendment_quality hm, rfl⟩

theorem ruleAttachRun_ok {p s s' out} (h : ruleAttachRun p s = .ok s' out) :
    ∃ (i : Fin 12) (r : Fin 6), s.accounts[i].state = .opened ∧ s.ownerOf r = none
      ∧ s.accounts[i].runs.length < 4 ∧ s' = attachRun i r s := by
  unfold ruleAttachRun at h; repeat' split at h
  all_goals try cases h
  next hs ho hl => exact ⟨_, _, by simpa using hs, by simpa using ho, by omega, rfl⟩

theorem ruleDetachRun_ok {p s s' out} (h : ruleDetachRun p s = .ok s' out) :
    ∃ (i : Fin 12) (r : Fin 6), s.accounts[i].state = .opened
      ∧ s' = grantIfDue (detachRun i r s) := by
  unfold ruleDetachRun at h; repeat' split at h
  all_goals try cases h
  next hs _ => exact ⟨_, _, by simpa using hs, rfl⟩

theorem ruleCloseAccount_ok {p s s' out} (h : ruleCloseAccount p s = .ok s' out) :
    ∃ i : Fin 12, s.accounts[i].state = .opened ∧ s' = closeAccount i s := by
  unfold ruleCloseAccount at h; repeat' split at h
  all_goals try cases h
  next hs => exact ⟨_, by simpa using hs, rfl⟩

theorem ruleReleaseAccount_ok {p s s' out} (h : ruleReleaseAccount p s = .ok s' out) :
    ∃ i : Fin 12, s.accounts[i].state = .closed
      ∧ s' = { s with accounts := setAt s.accounts i .free } := by
  unfold ruleReleaseAccount at h; repeat' split at h
  all_goals try cases h
  next hs => exact ⟨_, by simpa using hs, rfl⟩

/-! ### Runs -/

theorem ruleConfigureRun_ok {p s s' out} (h : ruleConfigureRun p s = .ok s' out) :
    ∃ (r : Fin 6) (c : RunConfig), s.runs[r].state ≠ .inService
      ∧ s' = editRun r (·.configured c) s := by
  unfold ruleConfigureRun at h
  split at h
  · split at h
    · cases h
    · obtain ⟨r, _, h⟩ := withRun_ok h
      unfold configureRun at h; repeat' split at h
      all_goals try cases h
      next hs _ c _ _ _ => exact ⟨r, c, hs, rfl⟩
  · cases h

theorem ruleSetBands_ok {p s s' out} (h : ruleSetBands p s = .ok s' out) :
    ∃ (r : Fin 6) (bands : List Band), s.runs[r].state ≠ .unconfigured
      ∧ bandsAccepted bands = true
      ∧ s' = editRun r (fun run => { run with config := { run.config with bands := bands } }) s := by
  unfold ruleSetBands at h
  split at h
  · cases h
  · split at h
    · cases h
    · next bands _ =>
      obtain ⟨r, _, h⟩ := withRun_ok h
      unfold setBands at h; repeat' split at h
      all_goals try cases h
      next hs hb => exact ⟨r, bands, hs, by simpa using hb, rfl⟩

theorem rulePlaceInService_ok {p s s' out} (h : rulePlaceInService p s = .ok s' out) :
    ∃ r : Fin 6, s.runs[r].state = .outOfService ∧ (s.holder (.pulse r)).isSome
      ∧ s' = editRun r (·.placed (s.lineConditions r)) s := by
  unfold rulePlaceInService at h
  split at h
  · obtain ⟨r, _, h⟩ := withRun_ok h
    unfold placeInService at h; dsimp only at h; repeat' split at h
    all_goals try cases h
    next hs hh _ =>
      exact ⟨r, by simpa using hs, by simpa [Option.isSome_iff_ne_none] using hh, rfl⟩
  · cases h

theorem ruleRemoveFromService_ok {p s s' out} (h : ruleRemoveFromService p s = .ok s' out) :
    ∃ r : Fin 6, s.runs[r].state = .inService ∧ s' = grantIfDue (removeFromService r s) := by
  unfold ruleRemoveFromService at h
  split at h
  · obtain ⟨r, _, h⟩ := withRun_ok h
    split at h
    · cases h
    · next hs => cases h; exact ⟨r, by simpa using hs, rfl⟩
  · cases h

theorem ruleClearRunTotals_ok {p s s' out} (h : ruleClearRunTotals p s = .ok s' out) :
    ∃ r : Fin 6, s' = editRun r Run.cleared s := by
  unfold ruleClearRunTotals at h
  split at h
  · obtain ⟨r, _, h⟩ := withRun_ok h
    cases h; exact ⟨r, rfl⟩
  · cases h

/-! ### Gas quality -/

theorem rulePostComposition_ok {p s s' out} (h : rulePostComposition p s = .ok s' out) :
    ∃ (q : Fin 8) (c : Quality), c.state = .current ∧ printable c.tag = true
      ∧ s' = { s with quality := setAt s.quality q c } := by
  unfold rulePostComposition postComposition at h; repeat' split at h
  all_goals try cases h
  next hc =>
    simp at hc
    exact ⟨_, _, rfl, hc.1.1.1.1, rfl⟩

theorem ruleRetireComposition_ok {p s s' out} (h : ruleRetireComposition p s = .ok s' out) :
    ∃ q : Fin 8, s.namingCount q = 0 ∧ s' = { s with quality := setAt s.quality q .none } := by
  unfold ruleRetireComposition at h; repeat' split at h
  all_goals try cases h
  next hn => exact ⟨_, by simpa using hn, rfl⟩

/-! ### Channels and scans -/

theorem ruleConfigureChannel_ok {p s s' out} (h : ruleConfigureChannel p s = .ok s' out) :
    ∃ (i : Fin 16) (c : ChannelConfig), c.inRange = true
      ∧ s' = { s with channels := editAt s.channels i (·.configured c) } := by
  unfold ruleConfigureChannel configureChannel at h; repeat' split at h
  all_goals try cases h
  next hc _ => exact ⟨_, _, by simpa using hc, rfl⟩

theorem ruleSetScan_ok {p s s' out} (h : ruleSetScan p s = .ok s' out) :
    ∃ (source : TriggerSource) (interval : Nat), s' = { s with scan := { s.scan with
      source := source
      interval := interval
      timer := if source = .interval then some (s.after interval) else none } } := by
  unfold ruleSetScan setScan at h; split at h
  · split at h
    · cases h
    · split at h
      · cases h
      · split at h
        · cases h
        · injection h with h
          exact ⟨_, _, h.symm⟩
  · cases h

theorem ruleScanNow_ok {s s' out} (h : ruleScanNow s = .ok s' out) :
    s.scan.state = .idle ∧ s' = startScan s := by
  unfold ruleScanNow at h; repeat' split at h
  all_goals try cases h
  next hs => exact ⟨hs, rfl⟩

/-! ### Points and the header -/

theorem ruleConfigurePoint_ok {p s s' out} (h : ruleConfigurePoint p s = .ok s' out) :
    ∃ (q : Fin 4) (st : PointState) (limit : Nat), s.limitBelowPump limit = false
      ∧ (st = .enabled → (s.holder (.valve q)).isSome)
      ∧ s' = configurePoint q st limit s := by
  unfold ruleConfigurePoint configurePointChecked at h; repeat' split at h
  all_goals try cases h
  next hl hv =>
    refine ⟨_, _, _, by simpa using hl, fun he => ?_, rfl⟩
    simp only [he, true_and] at hv
    exact Option.isSome_iff_ne_none.mpr hv

theorem ruleConfigureHeader_ok {p s s' out} (h : ruleConfigureHeader p s = .ok s' out) :
    ∃ c : HeaderConfig, c.inRange = true
      ∧ s' = { s with header := { s.header with config := c } } := by
  unfold ruleConfigureHeader configureHeader at h; repeat' split at h
  all_goals try cases h
  next hc => exact ⟨_, hc, rfl⟩

theorem ruleSetManualTimer_ok {p s s' out} (h : ruleSetManualTimer p s = .ok s' out) :
    ∃ d : Nat, s' = { s with header := { s.header with manualDuration := d } } := by
  unfold ruleSetManualTimer at h; repeat' split at h
  all_goals try cases h
  exact ⟨_, rfl⟩

theorem pointSet?_rising {bytes : List Byte} {mask : List (Fin 4)}
    (h : pointSet? bytes = some mask) : risingPoints mask = true := by
  unfold pointSet? at h; dsimp only at h; repeat' split at h
  all_goals try cases h
  next hr => exact hr

theorem ruleManualDose_ok {p s s' out} (h : ruleManualDose p s = .ok s' out) :
    ∃ mask : List (Fin 4), risingPoints mask = true ∧ s.header.state ≠ .tripped
      ∧ (∀ q ∈ mask, s.points[q].state = .enabled) ∧ s' = manualDose mask s := by
  unfold ruleManualDose at h; repeat' split at h
  all_goals try cases h
  next mask hm ht he =>
    refine ⟨mask, pointSet?_rising hm, fun hh => ht (.inl hh), fun q hq => ?_, rfl⟩
    simp only [List.any_eq_true, beq_iff_eq, not_exists, not_and] at he
    have := he q hq
    cases hs : s.points[q].state
    · exact absurd hs this
    · rfl

/-! ### Pumps -/

theorem ruleConfigurePump_ok {p s s' out} (h : ruleConfigurePump p s = .ok s' out) :
    ∃ (u : Fin 2) (c : PumpConfig), s.pumps[u].state ≠ .duty ∧ s.pumps[u].state ≠ .failed
      ∧ c.inRange = true ∧ s.massAboveLimit c.mass = false
      ∧ s' = editPump u (fun u => { u with config := c, unproven := 0 }) s := by
  unfold ruleConfigurePump configurePump at h; repeat' split at h
  all_goals try cases h
  next hs hc hm =>
    exact ⟨_, _, fun hd => hs (.inl hd), fun hf => hs (.inr hf), by simpa using hc,
      by simpa using hm, rfl⟩

theorem restorePump_ok {u : Fin 2} {s s' out} (h : restorePump u s = .ok s' out) :
    s.pumps[u].state = .isolated ∧ (s.holder (.drive u)).isSome
      ∧ s.massAboveLimit s.pumps[u].config.mass = false
      ∧ s' = editPump u (fun u => { u with state := .standby, unproven := 0 }) s := by
  unfold restorePump at h; repeat' split at h
  all_goals try cases h
  next hs hh hm =>
    exact ⟨by simpa using hs, Option.isSome_iff_ne_none.mpr hh, by simpa using hm, rfl⟩

theorem isolatePump_ok {u : Fin 2} {s s' out} (h : isolatePump u s = .ok s' out) :
    s.pumps[u].state ≠ .duty ∧ s.strokeOf u = false
      ∧ s' = { editPump u (fun u => { u with state := .isolated }) s with
          pendingDuty := if s.pendingDuty = some u then none else s.pendingDuty } := by
  unfold isolatePump at h; split at h
  · cases h
  · next hs =>
    split at h
    · cases h
    · next hk =>
      cases h
      exact ⟨fun hd => hs (.inl hd), by simpa using hk, rfl⟩

theorem resetPump_ok {u : Fin 2} {s s' out} (h : resetPump u s = .ok s' out) :
    s.pumps[u].state = .failed
      ∧ s' = editPump u (fun u => { u with state := .standby, unproven := 0 }) s := by
  unfold resetPump at h; repeat' split at h
  all_goals try cases h
  next hs => exact ⟨by simpa using hs, rfl⟩

theorem selectDuty_ok {u : Fin 2} {s s' out} (h : selectDuty u s = .ok s' out) :
    s.pumps[u].state = .standby
      ∧ ((s.stroke = none ∧ s' = grantIfDue { makeDuty u s with pendingDuty := none })
        ∨ (s.stroke ≠ none ∧ s' = { s with pendingDuty := some u })) := by
  unfold selectDuty at h; repeat' split at h
  all_goals try cases h
  · next hs hk => exact ⟨by simpa using hs, .inl ⟨by simpa using hk, rfl⟩⟩
  · next hs hk => exact ⟨by simpa using hs, .inr ⟨by simpa using hk, rfl⟩⟩

/-! ### Monitors -/

theorem ruleConfigureMonitor_ok {p s s' out} (h : ruleConfigureMonitor p s = .ok s' out) :
    ∃ (m : Fin 16) (c : MonitorConfig), c.inRange = true ∧ s' = configureMonitor m c s := by
  unfold ruleConfigureMonitor at h; dsimp only at h; repeat' split at h
  all_goals try cases h
  next hc => exact ⟨_, _, hc, rfl⟩

theorem ruleAckMonitor_ok {p s s' out} (h : ruleAckMonitor p s = .ok s' out) :
    ∃ m : Fin 16, s.monitors[m].state = .tripped ∧ s' = ackMonitor m s := by
  unfold ruleAckMonitor at h; repeat' split at h
  all_goals try cases h
  next hs => exact ⟨_, by simpa using hs, rfl⟩

theorem ruleTestTripOutput_ok {p s s' out} (h : ruleTestTripOutput p s = .ok s' out) :
    ∃ b : Bool, s' = { s with tripTest := b } := by
  unfold ruleTestTripOutput testTripOutput at h; repeat' split at h
  all_goals try cases h
  exact ⟨_, rfl⟩

/-! ### The station -/

theorem ruleSetTime_ok {p s s' out} (h : ruleSetTime p s = .ok s' out) :
    ∃ time : Nat, s' = setTime time s := by
  unfold ruleSetTime at h; repeat' split at h
  all_goals try cases h
  exact ⟨_, rfl⟩

theorem ruleSetGasDayHour_ok {p s s' out} (h : ruleSetGasDayHour p s = .ok s' out) :
    ∃ hour : Nat, hour ≤ 23 ∧ s' = { s with clock := { s.clock with hour := hour } } := by
  unfold ruleSetGasDayHour at h; repeat' split at h
  all_goals try cases h
  next hh => exact ⟨_, by omega, rfl⟩

theorem ruleSetBaseConditions_ok {p s s' out} (h : ruleSetBaseConditions p s = .ok s' out) :
    ∃ pb tb : Nat, inRange 90000 110000 pb = true ∧ inRange 273150 298150 tb = true
      ∧ s' = { s with clock := { s.clock with basePressure := pb, baseTemperature := tb } } := by
  unfold ruleSetBaseConditions setBaseConditions at h; repeat' split at h
  all_goals try cases h
  next hr =>
    simp only [Bool.and_eq_true] at hr
    exact ⟨_, _, hr.1, hr.2, rfl⟩

theorem ruleSave_ok {s s' out} (h : ruleSave s = .ok s' out) :
    s.supply.save = none ∧ s' = startSave s := by
  unfold ruleSave at h; repeat' split at h
  all_goals try cases h
  next hs => exact ⟨by simpa using hs, rfl⟩

/-! ### Terminals and attention -/

theorem ruleMapTerminal_ok {p s s' out} (h : ruleMapTerminal p s = .ok s' out) :
    s' = s ∨ ∃ (t : Fin 16) (f : TerminalFunction),
      s.functionInUse s.terminals[t] = false ∧ s.heldElsewhere t f = false
        ∧ s' = mapTerminal t f s := by
  unfold ruleMapTerminal mapTerminalChecked at h; repeat' split at h
  all_goals try cases h
  · exact .inl rfl
  · next hu he => exact .inr ⟨_, _, by simpa using hu, by simpa using he, rfl⟩

theorem ruleAckAttention_ok {p s s' out} (h : ruleAckAttention p s = .ok s' out) :
    ∃ (k : Fin 16) (named : List Nat), s' = ackAttention k named s := by
  unfold ruleAckAttention at h; dsimp only at h; repeat' split at h
  all_goals try cases h
  exact ⟨_, _, rfl⟩

theorem ruleSetAttentionLevel_ok {p s s' out} (h : ruleSetAttentionLevel p s = .ok s' out) :
    ∃ (k : Fin 16) (level : Nat), level ≤ 3 ∧ s' = setAttentionLevel k level s := by
  unfold ruleSetAttentionLevel at h; repeat' split at h
  all_goals try cases h
  next hl => exact ⟨_, _, by omega, rfl⟩

end Sys2Proof.Machine
end

