-- ==== Sys2Proof/Laws/Step.lean ====
section
/-! SUPPORT. What a command can do to the state, said once: a property that each of these effects brings about is brought about by
every command, and by every step. -/

namespace Sys2Proof.Machine

-- One proof after the other: a proof that waits for an earlier one holds a thread and its stack.
set_option Elab.async false

/-- `Q` before an effect gives `P` after it, for every effect that a command can have. -/
structure Effects (Q P : State → Prop) : Prop where
  self : ∀ s, Q s → P s
  complete : ∀ st out s, P s → P (complete st out s)
  elapse : ∀ us s, Q s → Q (elapse us s)
  reach : ∀ time s, Q s → Q (reach time s)
  link : ∀ l m s, Q s → Q { s with port := { s.port with link := l, miso := m } }
  accept : ∀ q s, Q s → P (acceptRequest q s)
  discard : ∀ s, Q s → P (discardRequest s)
  refuse : ∀ s, Q s → P (refuseFrame s)
  openAccount : ∀ i tag q pt d pr s, Q s → s.accounts[(i : Fin 12)].state = .free →
    s.slotOfTag tag = none → printable tag = true → s.quality[(q : Fin 8)].state ≠ .empty →
    P { s with accounts := setAt s.accounts i (.fresh tag q pt d pr s.clock.deviceTime) }
  amendAccount : ∀ i m s, Q s → s.accounts[(i : Fin 12)].state = .opened →
    (s.quality[m.quality].state ≠ .empty ∨ m.quality = s.accounts[i].quality) →
    P (amendAccount i m s)
  attachRun : ∀ i r s, Q s → s.accounts[(i : Fin 12)].state = .opened → s.ownerOf r = none →
    s.accounts[i].runs.length < 4 → P (attachRun i r s)
  detachRun : ∀ i r s, Q s → s.accounts[(i : Fin 12)].state = .opened →
    P (grantIfDue (detachRun i r s))
  closeAccount : ∀ i s, Q s → s.accounts[(i : Fin 12)].state = .opened → P (closeAccount i s)
  releaseAccount : ∀ i s, Q s → s.accounts[(i : Fin 12)].state = .closed →
    P { s with accounts := setAt s.accounts i .free }
  configureRun : ∀ r c s, Q s → s.runs[(r : Fin 6)].state ≠ .inService →
    P (editRun r (·.configured c) s)
  setBands : ∀ r bands s, Q s → bandsAccepted bands = true →
    P (editRun r (fun run => { run with config := { run.config with bands := bands } }) s)
  placeInService : ∀ r s, Q s → (s.holder (.pulse r)).isSome →
    P (editRun r (·.placed (s.lineConditions r)) s)
  removeFromService : ∀ r s, Q s → P (grantIfDue (removeFromService r s))
  clearRunTotals : ∀ r s, Q s → P (editRun r Run.cleared s)
  postComposition : ∀ q c s, Q s → c.state = .current →
    P { s with quality := setAt s.quality q c }
  retireComposition : ∀ q s, Q s → s.namingCount q = 0 →
    P { s with quality := setAt s.quality q .none }
  channels : ∀ i c s, Q s → P { s with channels := editAt s.channels i (·.configured c) }
  setScan : ∀ source interval s, Q s → P { s with scan := { s.scan with
    source := source
    interval := interval
    timer := if source = .interval then some (s.after interval) else none } }
  startScan : ∀ s, Q s → s.scan.state = .idle → P (startScan s)
  configurePoint : ∀ q st limit s, Q s → s.limitBelowPump limit = false →
    (st = .enabled → (s.holder (.valve q)).isSome) → P (configurePoint q st limit s)
  headerConfig : ∀ c s, Q s → P { s with header := { s.header with config := c } }
  manualDuration : ∀ d s, Q s → P { s with header := { s.header with manualDuration := d } }
  manualDose : ∀ mask s, Q s → risingPoints mask = true →
    (∀ q ∈ mask, s.points[q].state = .enabled) → P (manualDose mask s)
  configurePump : ∀ u c s, Q s → s.pumps[(u : Fin 2)].state ≠ .duty →
    s.massAboveLimit c.mass = false →
    P (editPump u (fun u => { u with config := c, unproven := 0 }) s)
  restorePump : ∀ u s, Q s → s.pumps[(u : Fin 2)].state = .isolated →
    (s.holder (.drive u)).isSome → s.massAboveLimit s.pumps[u].config.mass = false →
    P (editPump u (fun u => { u with state := .standby, unproven := 0 }) s)
  isolatePump : ∀ u d s, Q s → s.pumps[(u : Fin 2)].state ≠ .duty →
    P { editPump u (fun u => { u with state := .isolated }) s with pendingDuty := d }
  resetPump : ∀ u s, Q s → s.pumps[(u : Fin 2)].state = .failed →
    P (editPump u (fun u => { u with state := .standby, unproven := 0 }) s)
  selectDuty : ∀ u s, Q s → s.pumps[(u : Fin 2)].state = .standby → s.stroke = none →
    P (grantIfDue { makeDuty u s with pendingDuty := none })
  deferDuty : ∀ u s, Q s → P { s with pendingDuty := some u }
  configureMonitor : ∀ m c s, Q s → P (configureMonitor m c s)
  ackMonitor : ∀ m s, Q s → s.monitors[(m : Fin 16)].state = .tripped → P (ackMonitor m s)
  tripTest : ∀ b s, Q s → P { s with tripTest := b }
  setTime : ∀ time s, Q s → P (setTime time s)
  clock : ∀ c s, Q s → P { s with clock := c }
  startSave : ∀ s, Q s → P (startSave s)
  mapTerminal : ∀ t f s, Q s → s.functionInUse s.terminals[(t : Fin 16)] = false →
    s.heldElsewhere t f = false → P (mapTerminal t f s)
  ackAttention : ∀ k named s, Q s → P (ackAttention k named s)
  setAttentionLevel : ∀ k level s, Q s → level ≤ 3 → P (setAttentionLevel k level s)
  stoppedLevel : ∀ t b s, Q s → s.powered = false → P (setLevel t b s)
  quietLevel : ∀ t b s, Q s → s.terminals[(t : Fin 16)].quiet b = true → P (setLevel t b s)
  pulse : ∀ t b r s, Q s → s.terminals[(t : Fin 16)] = .pulse r →
    P (pulseAt r b (setLevel t b s))
  proof : ∀ t p s, Q s → s.terminals[(t : Fin 16)] = .proof p → P (proofOf p (setLevel t true s))
  flowDrop : ∀ t q s, Q s → s.terminals[(t : Fin 16)] = .flowsw q →
    P (requestEnd (Grant.accountAt q) (setLevel t false s))
  flowRise : ∀ t q s, Q s → s.terminals[(t : Fin 16)] = .flowsw q →
    P (grantIfDue (setLevel t true s))
  syncLevel : ∀ t s, Q s → s.terminals[(t : Fin 16)] = .sync → P (setLevel t true s)
  sync : ∀ t s, Q s → s.terminals[(t : Fin 16)] = .sync → P (trigger (setLevel t true s))
  stopIn : ∀ t s, Q s → s.terminals[(t : Fin 16)] = .stopIn →
    P (changeTrips (.withStop true) (setLevel t false s))
  stopOut : ∀ t s, Q s → s.terminals[(t : Fin 16)] = .stopIn →
    P (grantIfDue (changeTrips (.withStop false) (setLevel t true s)))
  warmReset : ∀ s, Q s → P (warmReset s)
  coldStart : ∀ b s, Q s → P (coldStart b s)
  qualification : ∀ q s, Q s → P (setQualification q s)
  enterLow : ∀ s, Q s → P (enterLow s)
  returnToNormal : ∀ s, Q s → s.supply.state = .low → P (returnToNormal s)
  powerDown : ∀ s, Q s → P (powerDown s)
  saveDone : ∀ v s, Q s → s.supply.save = some v →
    P (raise .portEvent 1 { s with supply := { s.supply with image := some v.snapshot, save := none } })
  clockChange : ∀ b c s, Q s → P (raiseIf b .clockChange Config.subjectAll { s with clock := c })
  deviceSecond : ∀ s, Q s → P (deviceSecond s)
  expireSlot : ∀ q s, Q s → P (expireSlot q s)
  intervalExpiry : ∀ s, Q s → P (intervalExpiry s)
  conversionEnd : ∀ code s, Q s → P (conversionEnd code s)
  dropUpdate : ∀ l s, Q s → P { s with released := l }
  meteringUpdate : ∀ r h l s, Q s → P (grantIfDue (update r h { s with released := l }))
  evaluate : ∀ m v l s, Q s → P (grantIfDue (evaluate m v { s with dueValues := l }))
  delayExpiry : ∀ m s, Q s → P (delayExpiry m s)
  settleExpiry : ∀ s, Q s → P (settleExpiry s)
  onTimeExpiry : ∀ s, Q s → P (onTimeExpiry s)
  proofWindowExpiry : ∀ s, Q s → P (proofWindowExpiry s)
  spacingExpiry : ∀ s, Q s → P (spacingExpiry s)
  pauseExpiry : ∀ s, Q s → P (pauseExpiry s)
  endManual : ∀ s, Q s → P (endManual s)

/-- In supply LOW no released update is taken (R49, log 8). -/
theorem takeReleased_low {r : Fin 6} {s : State} (h : s.supply.state = .low) :
    takeReleased r s = s := by simp [takeReleased, h]

/-- What METERING_UPDATE can do: nothing, take a release that is not made, or make the update that it takes. -/
theorem takeReleased_cases (r : Fin 6) (s : State) :
    takeReleased r s = s
    ∨ ∃ l, takeReleased r s = { s with released := l }
      ∨ ∃ held, takeReleased r s = grantIfDue (update r held { s with released := l }) := by
  unfold takeReleased; dsimp only
  repeat' split
  · exact .inl rfl
  · exact .inl rfl
  · exact .inr ⟨_, .inr ⟨_, rfl⟩⟩
  · exact .inr ⟨_, .inl rfl⟩

/-- A read that is accepted changes no record. -/
theorem serve_read {Q P : State → Prop} (e : Effects Q P) {n : Byte}
    {rule : List Byte → State → Answer} {s t : State}
    (hr : ∀ {payload s s' out}, rule payload s = .ok s' out → s' = s) (hs : Q s)
    (h : serve n rule s = .next t) : P t :=
  serve_keeps e.complete (fun _ _ _ he => hr he ▸ e.self s hs) (e.self s hs) h

/-- The same for a read without operands. -/
theorem serveBare_read {Q P : State → Prop} (e : Effects Q P) {n : Byte} {f : State → List Byte}
    {s t : State} (hs : Q s) (h : serveBare n (fun s => reading (f s) s) s = .next t) : P t :=
  serveBare_keeps e.complete (fun _ _ he => reading_ok he ▸ e.self s hs) (e.self s hs) h

/-- A terminal event: the level alone while the part is stopped, the event after its time otherwise. -/
theorem terminal_keeps {Q P : State → Prop} (e : Effects Q P) {us : Nat} {t : Fin 16} {b : Bool}
    {f : State → State} {s u : State} (hf : ∀ s, Q s → P (f s)) (hs : Q s)
    (h : (.next (if s.powered then f (elapse us s) else setLevel t b s) : Result) = .next u) :
    P u := by
  injection h with h
  subst h
  split
  · exact hf _ (e.elapse _ _ hs)
  · next hp => exact e.stoppedLevel _ _ _ hs (by simpa using hp)

/-- Clocking bytes moves nothing of the port but the link. -/
theorem clockPart_eq (bytes : Part (List Byte)) (p : Port) :
    ∃ l m, p.clockPart bytes = { p with link := l, miso := m } := by
  unfold Port.clockPart Port.clockBytes Port.clockFirst Port.clockFetch Port.fall
  dsimp only
  repeat' split
  all_goals exact ⟨_, _, rfl⟩

/-- The end of a request transaction with its bytes. -/
theorem requestEnds_brings {Q P : State → Prop} (e : Effects Q P) {bytes : List Byte} {s : State}
    (hs : Q s) : P (requestEnds bytes s) := by
  unfold requestEnds; repeat' split
  · exact e.discard _ hs
  · exact e.accept _ _ hs
  · exact e.refuse _ hs

/-- A transaction, or a part of one. -/
theorem transaction_brings {Q P : State → Prop} (e : Effects Q P) {bytes : Part (List Byte)}
    {s : State} (hs : Q s) : P (transaction bytes s) := by
  obtain ⟨l, m, hp⟩ := clockPart_eq bytes s.port
  have hq := e.link l m _ hs
  have hr := e.link .high m _ hs
  unfold transaction; rw [hp]; dsimp only; repeat' split
  · unfold riseLink; dsimp only; split
    · exact requestEnds_brings e hr
    · exact e.self _ hr
  · exact e.self _ hq
  · exact e.self _ hs

/-- What every command brings about (R195 to R209 and the rules of every block). -/
theorem exec_brings {Q P : State → Prop} (e : Effects Q P) {c : Instr} {s t : State} (hs : Q s)
    (h : exec c s = .next t) : P t := by
  have h0 := e.self s hs
  have hc := e.complete
  cases c
  case requestFrame bytes us =>
    exact eventAfter_keeps (fun _ => transaction_brings e (e.elapse us _ hs)) h0 h
  case fetch n us =>
    exact eventAfter_keeps (fun _ => transaction_brings e (e.elapse us _ hs)) h0 h
  case findAccount => exact serve_read e (rule := ruleFindAccount) ruleFindAccount_ok hs h
  case listAccounts => exact serve_read e (rule := ruleListAccounts) ruleListAccounts_ok hs h
  case readAccount => exact serve_read e (rule := ruleReadAccount) ruleReadAccount_ok hs h
  case readRun => exact serve_read e (rule := ruleReadRun) ruleReadRun_ok hs h
  case readComposition => exact serve_read e (rule := ruleReadComposition) ruleReadComposition_ok hs h
  case readChannel => exact serve_read e (rule := ruleReadChannel) ruleReadChannel_ok hs h
  case readPoint => exact serve_read e (rule := ruleReadPoint) ruleReadPoint_ok hs h
  case readMonitor => exact serve_read e (rule := ruleReadMonitor) ruleReadMonitor_ok hs h
  case readAttention => exact serve_read e (rule := ruleReadAttention) ruleReadAttention_ok hs h
  case readPump =>
    exact serve_read e (rule := onPump readPump)
      (fun h => by obtain ⟨_, h⟩ := onPump_ok h; exact readPump_ok h) hs h
  case readScan => exact serveBare_read e (f := (·.scanBytes)) hs h
  case readHeader => exact serveBare_read e (f := (·.headerBytes)) hs h
  case readMonitorSummary => exact serveBare_read e (f := (·.summaryBytes)) hs h
  case readTime => exact serveBare_read e (f := (·.clock.bytes)) hs h
  case readSupply => exact serveBare_read e (f := (·.supplyBytes)) hs h
  case readTerminals => exact serveBare_read e (f := (·.terminalBytes)) hs h
  case readLevels =>
    exact serveBare_keeps hc (fun _ _ he => by rw [reading_ok he]; exact h0) h0 h
  case openAccount =>
    exact serve_keeps hc (fun _ _ _ h => by
      obtain ⟨_, _, _, _, _, _, h1, h2, h3, h4, rfl⟩ := ruleOpenAccount_ok h
      exact e.openAccount _ _ _ _ _ _ _ hs h1 h2 h3 h4) h0 h
  case amendAccount =>
    exact serve_keeps hc (fun _ _ _ h => by
      obtain ⟨_, _, h1, h2, rfl⟩ := ruleAmendAccount_ok h
      exact e.amendAccount _ _ _ hs h1 h2) h0 h
  case attachRun =>
    exact serve_keeps hc (fun _ _ _ h => by
      obtain ⟨_, _, h1, h2, h3, rfl⟩ := ruleAttachRun_ok h
      exact e.attachRun _ _ _ hs h1 h2 h3) h0 h
  case detachRun =>
    exact serve_keeps hc (fun _ _ _ h => by
      obtain ⟨_, _, h1, rfl⟩ := ruleDetachRun_ok h
      exact e.detachRun _ _ _ hs h1) h0 h
  case closeAccount =>
    exact serve_keeps hc (fun _ _ _ h => by
      obtain ⟨_, h1, rfl⟩ := ruleCloseAccount_ok h
      exact e.closeAccount _ _ hs h1) h0 h
  case releaseAccount =>
    exact serve_keeps hc (fun _ _ _ h => by
      obtain ⟨_, h1, rfl⟩ := ruleReleaseAccount_ok h
      exact e.releaseAccount _ _ hs h1) h0 h
  case configureRun =>
    exact serve_keeps hc (fun _ _ _ h => by
      obtain ⟨_, _, h1, rfl⟩ := ruleConfigureRun_ok h
      exact e.configureRun _ _ _ hs h1) h0 h
  case setBands =>
    exact serve_keeps hc (fun _ _ _ h => by
      obtain ⟨_, _, _, h2, rfl⟩ := ruleSetBands_ok h
      exact e.setBands _ _ _ hs h2) h0 h
  case placeInService =>
    exact serve_keeps hc (fun _ _ _ h => by
      obtain ⟨_, _, h2, rfl⟩ := rulePlaceInService_ok h
      exact e.placeInService _ _ hs h2) h0 h
  case removeFromService =>
    exact serve_keeps hc (fun _ _ _ h => by
      obtain ⟨_, _, rfl⟩ := ruleRemoveFromService_ok h
      exact e.removeFromService _ _ hs) h0 h
  case clearRunTotals =>
    exact serve_keeps hc (fun _ _ _ h => by
      obtain ⟨_, rfl⟩ := ruleClearRunTotals_ok h
      exact e.clearRunTotals _ _ hs) h0 h
  case postComposition =>
    exact serve_keeps hc (fun _ _ _ h => by
      obtain ⟨_, _, h1, _, rfl⟩ := rulePostComposition_ok h
      exact e.postComposition _ _ _ hs h1) h0 h
  case retireComposition =>
    exact serve_keeps hc (fun _ _ _ h => by
      obtain ⟨_, h1, rfl⟩ := ruleRetireComposition_ok h
      exact e.retireComposition _ _ hs h1) h0 h
  case configureChannel =>
    exact serve_keeps hc (fun _ _ _ h => by
      obtain ⟨_, _, _, rfl⟩ := ruleConfigureChannel_ok h
      exact e.channels _ _ _ hs) h0 h
  case setScan =>
    exact serve_keeps hc (fun _ _ _ h => by
      obtain ⟨_, _, rfl⟩ := ruleSetScan_ok h
      exact e.setScan _ _ _ hs) h0 h
  case scanNow =>
    exact serveBare_keeps hc (fun _ _ h => by
      obtain ⟨h1, rfl⟩ := ruleScanNow_ok h
      exact e.startScan _ hs h1) h0 h
  case configurePoint =>
    exact serve_keeps hc (fun _ _ _ h => by
      obtain ⟨_, _, _, h1, h2, rfl⟩ := ruleConfigurePoint_ok h
      exact e.configurePoint _ _ _ _ hs h1 h2) h0 h
  case configureHeader =>
    exact serve_keeps hc (fun _ _ _ h => by
      obtain ⟨_, _, rfl⟩ := ruleConfigureHeader_ok h
      exact e.headerConfig _ _ hs) h0 h
  case manualDose =>
    exact serve_keeps hc (fun _ _ _ h => by
      obtain ⟨_, h1, _, h2, rfl⟩ := ruleManualDose_ok h
      exact e.manualDose _ _ hs h1 h2) h0 h
  case setManualTimer =>
    exact serve_keeps hc (fun _ _ _ h => by
      obtain ⟨_, rfl⟩ := ruleSetManualTimer_ok h
      exact e.manualDuration _ _ hs) h0 h
  case configurePump =>
    exact serve_keeps hc (fun _ _ _ h => by
      obtain ⟨_, _, h1, _, _, h2, rfl⟩ := ruleConfigurePump_ok h
      exact e.configurePump _ _ _ hs h1 h2) h0 h
  case restorePump =>
    exact serve_keeps hc (fun _ _ _ h => by
      obtain ⟨_, h⟩ := onPump_ok h
      obtain ⟨h1, h2, h3, rfl⟩ := restorePump_ok h
      exact e.restorePump _ _ hs h1 h2 h3) h0 h
  case isolatePump =>
    exact serve_keeps hc (fun _ _ _ h => by
      obtain ⟨_, h⟩ := onPump_ok h
      obtain ⟨h1, _, rfl⟩ := isolatePump_ok h
      exact e.isolatePump _ _ _ hs h1) h0 h
  case resetPump =>
    exact serve_keeps hc (fun _ _ _ h => by
      obtain ⟨_, h⟩ := onPump_ok h
      obtain ⟨h1, rfl⟩ := resetPump_ok h
      exact e.resetPump _ _ hs h1) h0 h
  case selectDuty =>
    exact serve_keeps hc (fun _ _ _ h => by
      obtain ⟨_, h⟩ := onPump_ok h
      obtain ⟨h1, ⟨h2, rfl⟩ | ⟨_, rfl⟩⟩ := selectDuty_ok h
      · exact e.selectDuty _ _ hs h1 h2
      · exact e.deferDuty _ _ hs) h0 h
  case configureMonitor =>
    exact serve_keeps hc (fun _ _ _ h => by
      obtain ⟨_, _, _, rfl⟩ := ruleConfigureMonitor_ok h
      exact e.configureMonitor _ _ _ hs) h0 h
  case ackMonitor =>
    exact serve_keeps hc (fun _ _ _ h => by
      obtain ⟨_, h1, rfl⟩ := ruleAckMonitor_ok h
      exact e.ackMonitor _ _ hs h1) h0 h
  case testTripOutput =>
    exact serve_keeps hc (fun _ _ _ h => by
      obtain ⟨_, rfl⟩ := ruleTestTripOutput_ok h
      exact e.tripTest _ _ hs) h0 h
  case setTime =>
    exact serve_keeps hc (fun _ _ _ h => by
      obtain ⟨_, rfl⟩ := ruleSetTime_ok h
      exact e.setTime _ _ hs) h0 h
  case setGasDayHour =>
    exact serve_keeps hc (fun _ _ _ h => by
      obtain ⟨_, _, rfl⟩ := ruleSetGasDayHour_ok h
      exact e.clock _ _ hs) h0 h
  case setBaseConditions =>
    exact serve_keeps hc (fun _ _ _ h => by
      obtain ⟨_, _, _, _, rfl⟩ := ruleSetBaseConditions_ok h
      exact e.clock _ _ hs) h0 h
  case save =>
    exact serveBare_keeps hc (fun _ _ h => by
      obtain ⟨_, rfl⟩ := ruleSave_ok h
      exact e.startSave _ hs) h0 h
  case reset =>
    simp only [exec, execReset, Host.Outcome.next.injEq] at h
    subst h; repeat' split
    · exact h0
    · exact e.warmReset _ hs
    · exact hc _ _ _ h0
    · exact h0
  case mapTerminal =>
    exact serve_keeps hc (fun _ _ _ h => by
      obtain rfl | ⟨_, _, h1, h2, rfl⟩ := ruleMapTerminal_ok h
      · exact h0
      · exact e.mapTerminal _ _ _ hs h1 h2) h0 h
  case ackAttention =>
    exact serve_keeps hc (fun _ _ _ h => by
      obtain ⟨_, _, rfl⟩ := ruleAckAttention_ok h
      exact e.ackAttention _ _ _ hs) h0 h
  case setAttentionLevel =>
    exact serve_keeps hc (fun _ _ _ h => by
      obtain ⟨_, _, h1, rfl⟩ := ruleSetAttentionLevel_ok h
      exact e.setAttentionLevel _ _ _ hs h1) h0 h
  case pulseEdge t b us =>
    refine terminal_keeps e (f := pulseEdge t b) (fun s hs => ?_) hs h
    unfold pulseEdge; dsimp only; split
    · next hq =>
      split
      · next r hr => exact e.pulse _ _ _ _ hs hr
      · exact e.quietLevel _ _ _ hs hq.1
    · exact e.self _ hs
  case proofActivation t us =>
    refine terminal_keeps e (f := proofActivation t) (fun s hs => ?_) hs h
    unfold proofActivation; split
    · next hp =>
      split
      · exact e.self _ hs
      · exact e.proof _ _ _ hs hp
    · exact e.self _ hs
  case flowDrop t us =>
    refine terminal_keeps e (f := flowDrop t) (fun s hs => ?_) hs h
    unfold flowDrop; split
    · next hf =>
      split
      · exact e.flowDrop _ _ _ hs hf
      · exact e.self _ hs
    · exact e.self _ hs
  case flowRise t us =>
    refine terminal_keeps e (f := flowRise t) (fun s hs => ?_) hs h
    unfold flowRise; split
    · next hf =>
      split
      · exact e.self _ hs
      · exact e.flowRise _ _ _ hs hf
    · exact e.self _ hs
  case syncActivation t us =>
    refine terminal_keeps e (f := syncActivation t) (fun s hs => ?_) hs h
    unfold syncActivation; dsimp only; split
    · next hf =>
      split
      · exact e.sync _ _ hs hf.1
      · exact e.syncLevel _ _ hs hf.1
    · exact e.self _ hs
  case stopInActive t us =>
    refine terminal_keeps e (f := stopInActive t) (fun s hs => ?_) hs h
    unfold stopInActive; split
    · next hf => exact e.stopIn _ _ hs hf.1
    · exact e.self _ hs
  case stopInInactive t us =>
    refine terminal_keeps e (f := stopInInactive t) (fun s hs => ?_) hs h
    unfold stopInInactive; split
    · next hf => exact e.stopOut _ _ hs hf.1
    · exact e.self _ hs
  case rstNFall us => exact eventAfter_keeps (fun _ => e.warmReset _ (e.elapse us _ hs)) h0 h
  case coldStart b =>
    simp only [exec, execColdStart, Host.Outcome.next.injEq] at h
    subst h; exact e.coldStart _ _ hs
  case supplyFallBelowLow us =>
    refine eventAfter_keeps (fun _ => ?_) h0 h
    unfold startQualification; split
    · exact e.qualification _ _ (e.elapse us _ hs)
    · exact e.self _ (e.elapse us _ hs)
  case supplyRiseToLow us =>
    refine eventAfter_keeps (fun _ => ?_) h0 h
    unfold stopQualification; split
    · exact e.qualification _ _ (e.elapse us _ hs)
    · exact e.self _ (e.elapse us _ hs)
  case lowQualificationExpiry =>
    simp only [exec, execLowQualificationExpiry] at h
    exact expiry_keeps (fun _ _ _ => e.enterLow _ (e.reach _ _ hs)) h0 h
  case supplyRiseToRecovery us =>
    refine eventAfter_keeps (fun _ => ?_) h0 h
    unfold startQualification; split
    · exact e.qualification _ _ (e.elapse us _ hs)
    · exact e.self _ (e.elapse us _ hs)
  case supplyFallBelowRecovery us =>
    refine eventAfter_keeps (fun _ => ?_) h0 h
    unfold stopQualification; split
    · exact e.qualification _ _ (e.elapse us _ hs)
    · exact e.self _ (e.elapse us _ hs)
  case normalQualificationExpiry =>
    simp only [exec, execNormalQualificationExpiry] at h
    refine expiry_keeps (fun _ _ ht => ?_) h0 h
    split at ht
    · next hl => exact e.returnToNormal _ (e.reach _ _ hs) hl
    · cases ht
  case supplyFallBelowReset us =>
    exact eventAfter_keeps (fun _ => e.powerDown _ (e.elapse us _ hs)) h0 h
  case saveCompletion =>
    refine event_keeps (fun _ => ?_) h0 h
    unfold saveCompletion; split
    · exact h0
    · next v hv => exact e.saveDone v _ (e.reach _ _ hs) hv
  case crystalFailure us =>
    refine eventAfter_keeps (fun _ => ?_) h0 h
    have hq := e.elapse us _ hs
    unfold crystalFailure; repeat' split
    · exact e.clockChange true _ _ hq
    · exact e.clock _ _ hq
    · exact e.self _ hq
  case crystalRunning us =>
    refine eventAfter_keeps (fun _ => ?_) h0 h
    have hq := e.elapse us _ hs
    unfold crystalFound; split
    · exact e.clock _ _ hq
    · exact e.self _ hq
  case crystalQualificationExpiry b =>
    simp only [exec, execCrystalQualificationExpiry] at h
    refine expiry_keeps (fun _ _ _ => ?_) h0 h
    unfold crystalQualified; split
    · exact e.clockChange _ _ (reach _ s) (e.reach _ _ hs)
    · exact e.clock _ (reach _ s) (e.reach _ _ hs)
  case deviceSecond => exact event_keeps (fun _ => e.deviceSecond _ hs) h0 h
  case validityExpiry q => exact event_keeps (fun _ => e.expireSlot _ _ hs) h0 h
  case intervalExpiry =>
    simp only [exec, execIntervalExpiry] at h
    exact expiry_keeps (fun _ _ _ => e.intervalExpiry _ (e.reach _ _ hs)) h0 h
  case conversionEnd code => exact event_keeps (fun _ => e.conversionEnd _ _ hs) h0 h
  case meteringUpdate r =>
    refine event_keeps (fun _ => ?_) h0 h
    rcases takeReleased_cases r s with he | ⟨_, he | ⟨_, he⟩⟩ <;> rw [he]
    · exact h0
    · exact e.dropUpdate _ _ hs
    · exact e.meteringUpdate _ _ _ _ hs
  case monitorEvaluation m =>
    simp only [exec, execMonitorEvaluation] at h
    refine event_keeps (fun _ => ?_) h0 h
    split
    · exact h0
    · exact e.evaluate _ _ _ _ hs
  case delayExpiry m => exact event_keeps (fun _ => e.delayExpiry _ _ hs) h0 h
  case settleExpiry => exact event_keeps (fun _ => e.settleExpiry _ hs) h0 h
  case onTimeExpiry => exact event_keeps (fun _ => e.onTimeExpiry _ hs) h0 h
  case proofWindowExpiry => exact event_keeps (fun _ => e.proofWindowExpiry _ hs) h0 h
  case spacingExpiry => exact event_keeps (fun _ => e.spacingExpiry _ hs) h0 h
  case pauseExpiry => exact event_keeps (fun _ => e.pauseExpiry _ hs) h0 h
  case manualTimerExpiry =>
    simp only [exec, execManualTimerExpiry] at h
    exact expiry_keeps (fun _ _ _ => e.endManual _ (e.reach _ _ hs)) h0 h
  case unknownCommand =>
    simp only [exec, execUnknownCommand, Host.Outcome.next.injEq] at h
    subst h; repeat' split
    · exact h0
    · exact h0
    · exact hc _ _ _ h0

/-- What every step brings about, for properties that the queue does not touch. -/
theorem step_brings {Q P : State → Prop} (e : Effects Q P)
    (hq : ∀ l s, Q s → Q { s with pending := l }) {s t : State} (hs : Q s)
    (h : step s = .next t) : P t := by
  unfold step at h; split at h
  · injection h with h
    exact h ▸ e.self s hs
  · exact exec_brings e (hq _ _ hs) h

end Sys2Proof.Machine
end

