-- ==== Sys2Proof/Laws/Shared.lean ====
section
/-! SUPPORT. What the lemmas on the laws share: folds, the parts of an update, and what the searches find. -/

namespace Sys2Proof.Machine

-- One proof after the other: a proof that waits for an earlier one holds a thread and its stack.
set_option Elab.async false

theorem law_now {s : State} {n : Nat} (h : s.law) : ({ s with now := n } : State).law :=
  ⟨h.account, h.obligation, h.duty, h.header, h.trip, h.terminal, h.attention,
    h.monitor, h.port, h.scan⟩

theorem law_pending {s : State} {l : List Instr} (h : s.law) : ({ s with pending := l } : State).law :=
  ⟨h.account, h.obligation, h.duty, h.header, h.trip, h.terminal, h.attention,
    h.monitor, h.port, h.scan⟩

theorem law_link {s : State} {l : Link} {m : List Byte} (h : s.law) :
    ({ s with port := { s.port with link := l, miso := m } } : State).law :=
  ⟨h.account, h.obligation, h.duty, h.header, h.trip, h.terminal, h.attention,
    h.monitor, ⟨h.port.idle, h.port.executing, h.port.ready⟩, h.scan⟩

theorem fold_keeps {α : Type} {P : State → Prop} {f : State → α → State}
    (hf : ∀ s a, P s → P (f s a)) (l : List α) (s : State) (h : P s) : P (l.foldl f s) := by
  induction l generalizing s with
  | nil => exact h
  | cons a as ih => exact ih _ (hf _ _ h)

theorem holder_some {s : State} {f : TerminalFunction} {t : Fin 16} (h : s.holder f = some t) :
    s.terminals[t] = f := by
  simpa using List.find?_some h

theorem holder_isSome {s : State} {f : TerminalFunction} (h : (s.holder f).isSome) :
    ∃ t : Fin 16, s.terminals[t] = f := by
  obtain ⟨t, ht⟩ := Option.isSome_iff_exists.mp h
  exact ⟨t, holder_some ht⟩

theorem evaluate_state (run : Run) (now : Nat) : (run.evaluate now).state = run.state := by
  unfold Run.evaluate; dsimp only; repeat' split
  all_goals rfl

/-- What one update is made of (R24, R28). -/
theorem update_eq (r : Fin 6) (held : Held) (s : State) :
    ∃ (run : Run) (raised estimated : Bool) (u : UpdateResults),
      run.state = s.runs[r].state
        ∧ update r held s = newValue (.rate r) u.rate (writeTotals r (s.ownerOf r) u estimated
            (raiseIf raised .overspeed r.1 (editRun r (fun _ => run) s))) :=
  ⟨(s.runs[r].evaluate s.now).afterStages held s.ms
      (stages (s.updateInputs (s.runs[r].evaluate s.now) held (s.ownerOf r))),
    decide ((s.runs[r].evaluate s.now).config.overspeed < (s.runs[r].evaluate s.now).frequency)
      && !(s.runs[r].evaluate s.now).aboveOverspeed,
    s.estimated held (s.ownerOf r)
      (stages (s.updateInputs (s.runs[r].evaluate s.now) held (s.ownerOf r))).clamped,
    stages (s.updateInputs (s.runs[r].evaluate s.now) held (s.ownerOf r)),
    evaluate_state s.runs[r] s.now, rfl⟩

/-- The stroke-start test passes only with a DUTY pump (R134). -/
theorem strokeTest_duty {s : State} {g : Grant} (h : s.strokeTest g = true) : s.dutyPump.isSome := by
  simp only [State.strokeTest, Bool.and_eq_true] at h
  have h2 := h.2
  split at h2
  · simp only [Bool.and_eq_true] at h2
    have := h2.1.1
    simp only [State.candidate, Bool.and_eq_true] at this
    have := this.2
    split at this
    · cases this
    · next hp => simp [hp]
  · simp only [Bool.and_eq_true] at h2; exact h2.2

theorem dutyPump_some {s : State} {p : Fin 2} (h : s.dutyPump = some p) : s.pumps[p].state = .duty := by
  simpa using List.find?_some h

theorem candidate_some {s : State} {i : Fin 12} (h : s.candidate i = true) {p : Fin 2} (hp : s.dutyPump = some p) :
    s.accounts[i].state = .opened ∧ s.accounts[i].point ≠ none ∧ s.pumps[p].config.mass ≤ s.accounts[i].freeBacklog := by
  simp only [State.candidate, Bool.and_eq_true] at h
  obtain ⟨⟨h1, h2⟩, h3⟩ := h
  rw [hp] at h3
  refine ⟨by simpa using h1, fun hn => ?_, by simpa using h3⟩
  rw [hn] at h2; cases h2

theorem inFlight_iff {s : State} {i : Fin 12} : s.inFlight i = true ↔ ∃ k, s.stroke = some k ∧ k.beneficiary = .account i ∧ k.resolution = .unresolved := by
  unfold State.inFlight; split
  · next h => simp [h]
  · next k h => simp [h]

theorem editMonitor_get (m j : Fin 16) (f : Monitor → Monitor) (s : State) :
    (editMonitor m f s).monitors[j] = if m = j then f s.monitors[m] else s.monitors[j] := by
  simp only [editMonitor, editAt_get]

/-- Of two pumps, the one that is neither is none. -/
theorem fin2_other : ∀ p a : Fin 2, ¬1 - p = a → ¬p = a → a = 1 - p := by decide

theorem stopActive_congr {s t : State} (ht : t.terminals = s.terminals) (hl : t.levels = s.levels) :
    t.stopActive = s.stopActive := by
  simp [State.stopActive, State.holder, ht, hl]

theorem risingPoints_pairwise {l : List (Fin 4)} (h : risingPoints l = true) :
    l.Pairwise (fun p q => p.1 < q.1) := by
  induction l with
  | nil => simp
  | cons a as ih =>
    cases as with
    | nil => simp
    | cons b bs =>
      simp only [risingPoints, Bool.and_eq_true, decide_eq_true_eq] at h
      have hi := ih h.2
      rw [List.pairwise_cons] at hi ⊢
      refine ⟨fun c hc => ?_, List.pairwise_cons.mpr hi⟩
      rcases List.mem_cons.mp hc with rfl | hc
      · exact h.1
      · exact Nat.lt_trans h.1 (hi.1 c hc)

theorem massAboveLimit_le {s : State} {m : Nat} (h : s.massAboveLimit m = false) (q : Fin 4) : m ≤ s.points[q].limit := by
  simp only [State.massAboveLimit, List.any_eq_false, decide_eq_true_eq, Nat.not_lt] at h
  exact h q (mem_pointNumbers q)

end Sys2Proof.Machine
end

