-- ==== Sys2Proof/Laws/Accounts.lean ====
section
/-! SUPPORT. What each shared operation does to the laws of the Account Table (R1 to R8). -/

namespace Sys2Proof.Machine

-- One proof after the other: a proof that waits for an earlier one holds a thread and its stack.
set_option Elab.async false

/-! ### Accounts (R1, R5, R6, R8) -/

/-- An account that names its quality slot (R76). -/
def Account.naming (a : Account) : Prop := a.state = .opened ∨ a.state = .closing

/-- Two records that the laws of the Account Table, but for the one on quality slots, do not tell apart. -/
structure SameHolder (a b : Account) : Prop where
  state : b.state = a.state := by rfl
  tag : b.tag = a.tag := by rfl
  runs : b.runs = a.runs := by rfl
  closed : b.closeTime = a.closeTime := by rfl

/-- Two records that the laws of the Account Table do not tell apart. -/
structure SameOwner (a b : Account) : Prop extends SameHolder a b where
  quality : b.quality = a.quality := by rfl

theorem SameOwner.refl (a : Account) : SameOwner a a := {}

theorem AccountLaw.renamed {t u : Table Account 12} {v w : Table Quality 8} (h : AccountLaw t v)
    (e : ∀ i : Fin 12, SameHolder t[i] u[i])
    (hq : ∀ (i : Fin 12) (q : Fin 8), t[i].naming → u[i].quality = q → w[q].state ≠ .empty) :
    AccountLaw u w where
  runs i := by rw [(e i).runs]; exact h.runs i
  owner i := by rw [(e i).runs, (e i).state]; exact h.owner i
  single i j r := by rw [(e i).runs, (e j).runs]; exact h.single i j r
  tags i j := by rw [(e i).state, (e j).state, (e i).tag, (e j).tag]; exact h.tags i j
  closed i := by rw [(e i).closed, (e i).state]; exact h.closed i
  named i q := by rw [(e i).state]; exact hq i q

theorem AccountLaw.congr {t u : Table Account 12} {v w : Table Quality 8} (h : AccountLaw t v)
    (e : ∀ i : Fin 12, SameOwner t[i] u[i])
    (hq : ∀ q : Fin 8, v[q].state ≠ .empty → w[q].state ≠ .empty) : AccountLaw u w :=
  h.renamed (fun i => (e i).toSameHolder)
    (fun i q hi he => hq q (h.named i q hi ((e i).quality.symm.trans he)))

/-- A record without runs replaced by one that is no OPEN account, with the tag kept if it is not FREE, and the quality slot if it
names one. -/
theorem AccountLaw.shut {t : Table Account 12} {c : Table Quality 8} {i : Fin 12} {a : Account}
    (h : AccountLaw t c)
    (hr : a.runs = []) (ht : a.state ≠ .free → a.tag = t[i].tag ∧ t[i].state ≠ .free)
    (hc : a.closeTime.isSome ↔ a.state = .closed)
    (hn : a.naming → a.quality = t[i].quality ∧ t[i].naming) : AccountLaw (setAt t i a) c := by
  have key : ∀ j : Fin 12, (setAt t i a)[j].runs = [] ∨ (setAt t i a)[j] = t[j] := by
    intro j; rw [setAt_get]; split
    · exact .inl hr
    · exact .inr rfl
  refine ⟨fun j => ?_, fun j hj => ?_, fun j k r hj hk => ?_, fun j k hj hk he => ?_, fun j => ?_,
    fun j q hj he => ?_⟩
  · rcases key j with e | e
    · rw [e]; simp
    · rw [e]; exact h.runs j
  · rcases key j with e | e
    · exact absurd e hj
    · rw [e] at hj ⊢; exact h.owner j hj
  · rcases key j with e | e
    · rw [e] at hj; cases hj
    · rcases key k with e' | e'
      · rw [e'] at hk; cases hk
      · rw [e] at hj; rw [e'] at hk; exact h.single j k r hj hk
  · have tagOf : ∀ j : Fin 12, (setAt t i a)[j].state ≠ .free → t[j].state ≠ .free ∧ (setAt t i a)[j].tag = t[j].tag := by
      intro j hj; rw [setAt_get] at hj ⊢; split at hj
      · next e => subst e; rw [if_pos rfl]; exact ⟨(ht hj).2, (ht hj).1⟩
      · next e => rw [if_neg e]; exact ⟨hj, rfl⟩
    have h1 := tagOf j hj
    have h2 := tagOf k hk
    exact h.tags j k h1.1 h2.1 (h1.2.symm.trans (he.trans h2.2))
  · rw [setAt_get]; split
    · exact hc
    · exact h.closed j
  · rw [setAt_get] at hj he; split at hj
    · next e =>
      rw [if_pos e] at he
      exact h.named i q (hn hj).2 ((hn hj).1.symm.trans he)
    · next e => rw [if_neg e] at he; exact h.named j q hj he

/-- What the laws of the Account Table depend on is the same in both states. -/
structure SameAccounts (s t : State) : Prop where
  account : ∀ i : Fin 12, SameOwner s.accounts[i] t.accounts[i] := by simp [SameOwner.refl]
  supply : t.supply = s.supply := by simp
  posted : ∀ q : Fin 8, s.quality[q].state ≠ .empty → t.quality[q].state ≠ .empty := by simp

theorem SameAccounts.refl (s : State) : SameAccounts s s := {}

theorem SameAccounts.trans {s t u : State} (h : SameAccounts s t) (k : SameAccounts t u) : SameAccounts s u :=
  ⟨fun i => ⟨⟨(k.account i).state.trans (h.account i).state, (k.account i).tag.trans (h.account i).tag,
    (k.account i).runs.trans (h.account i).runs, (k.account i).closed.trans (h.account i).closed⟩,
    (k.account i).quality.trans (h.account i).quality⟩,
    k.supply.trans h.supply, fun q hq => k.posted q (h.posted q hq)⟩

theorem SameAccounts.law {s t : State} (e : SameAccounts s t) (h : s.accountLaw) : t.accountLaw :=
  ⟨h.1.congr e.account e.posted, by simpa [State.snapshots, e.supply] using h.2⟩

theorem accountLaw_table {s t : State} (h : s.accountLaw) (ha : AccountLaw t.accounts t.quality)
    (hs : t.supply = s.supply := by simp) : t.accountLaw :=
  ⟨ha, by simpa [State.snapshots, hs] using h.2⟩

theorem fold_accounts {α : Type} {f : State → α → State} (hf : ∀ s a, SameAccounts s (f s a)) (l : List α)
    (s : State) : SameAccounts s (l.foldl f s) := by
  induction l generalizing s with
  | nil => exact .refl s
  | cons a as ih => exact (hf s a).trans (ih _)

theorem editAccount_accounts {s : State} {i : Fin 12} {f : Account → Account}
    (hf : SameOwner s.accounts[i] (f s.accounts[i])) : SameAccounts s (editAccount i f s) where
  account j := by
    simp only [editAccount, editAt_get]; split
    · next e => subst e; exact hf
    · exact .refl _

theorem waive_accounts (i : Fin 12) (s : State) : SameAccounts s (waive i s) := by
  unfold waive; dsimp only; repeat' split
  · exact .refl s
  · exact .refl s
  · next q _ _ => exact .trans (t := editAccount i (fun a => { a with waived := addMass a.waived (s.accounts[i].backlog - s.points[q].limit) }) s) (editAccount_accounts {}) {}

theorem enterClosed_accountLaw {s : State} {i : Fin 12} (h : s.accountLaw) (hr : s.accounts[i].runs = [])
    (hs : s.accounts[i].state ≠ .free) : (enterClosed i s).accountLaw :=
  accountLaw_table h (h.1.shut hr (fun _ => ⟨rfl, hs⟩) (by simp) (by simp [Account.naming]))

theorem writeTotals_accounts (r o u e) (s : State) : SameAccounts s (writeTotals r o u e s) := by
  unfold writeTotals; dsimp only; split
  · next i =>
    have h1 : ∀ q, SameAccounts s (editAccount i (fun a => a.addUpdate q u.actual u.base e) s) :=
      fun q => editAccount_accounts {}
    split
    · exact (h1 _).trans (waive_accounts i _)
    · exact h1 _
  · exact {}

theorem update_accounts (r hd) (s : State) : SameAccounts s (update r hd s) := by
  obtain ⟨run, b, e, u, _, he⟩ := update_eq r hd s
  rw [he]
  refine .trans (t := raiseIf b .overspeed r.1 (editRun r (fun _ => run) s)) {} ?_
  exact (writeTotals_accounts r (s.ownerOf r) u e _).trans {}

theorem settle_accounts (r) (s : State) : SameAccounts s (settle r s) := by
  unfold settle zeroCarries; split
  · exact (update_accounts r s.runs[r].held s).trans (t := update r s.runs[r].held s) {}
  · exact {}

/-- Removing a run from a list. -/
theorem detachRun_accountLaw {s : State} {i r} (h : s.accountLaw) : (detachRun i r s).accountLaw := by
  have h1 := (settle_accounts r s).law h
  unfold detachRun
  generalize settle r s = t at h1
  refine accountLaw_table h1 ?_
  have sub : ∀ j : Fin 12, ((editAccount i (fun a => { a with runs := a.runs.filter (· != r) }) t).accounts[j].runs).Sublist t.accounts[j].runs
      ∧ (editAccount i (fun a => { a with runs := a.runs.filter (· != r) }) t).accounts[j].state = t.accounts[j].state
      ∧ (editAccount i (fun a => { a with runs := a.runs.filter (· != r) }) t).accounts[j].tag = t.accounts[j].tag
      ∧ (editAccount i (fun a => { a with runs := a.runs.filter (· != r) }) t).accounts[j].closeTime = t.accounts[j].closeTime
      ∧ (editAccount i (fun a => { a with runs := a.runs.filter (· != r) }) t).accounts[j].quality = t.accounts[j].quality := by
    intro j; simp only [editAccount, editAt_get]; split
    · next e => subst e; exact ⟨List.filter_sublist, rfl, rfl, rfl, rfl⟩
    · exact ⟨.refl _, rfl, rfl, rfl, rfl⟩
  refine ⟨fun j => ?_, fun j hj => ?_, fun j k r hj hk => ?_, fun j k hj hk he => ?_, fun j => ?_,
    fun j q => ?_⟩
  · exact ⟨(sub j).1.nodup (h1.1.runs j).1, Nat.le_trans (sub j).1.length_le (h1.1.runs j).2⟩
  · rw [(sub j).2.1]
    refine h1.1.owner j fun hn => hj ?_
    have := (sub j).1; rw [hn] at this; exact List.eq_nil_of_sublist_nil this
  · exact h1.1.single j k r ((sub j).1.subset hj) ((sub k).1.subset hk)
  · rw [(sub j).2.1] at hj; rw [(sub k).2.1] at hk; rw [(sub j).2.2.1, (sub k).2.2.1] at he
    exact h1.1.tags j k hj hk he
  · rw [(sub j).2.2.2.1, (sub j).2.1]; exact h1.1.closed j
  · rw [(sub j).2.1, (sub j).2.2.2.2]; exact h1.1.named j q

/-- The list of the account after a detach (R23). -/
theorem detachRun_runs (i r) (s : State) :
    (detachRun i r s).accounts[i].runs = s.accounts[i].runs.filter (· != r)
    ∧ (detachRun i r s).accounts[i].state = s.accounts[i].state := by
  have := (settle_accounts r s).account i
  simp only [detachRun, editAccount, editAt_get, if_true]
  exact ⟨by rw [this.runs], this.state⟩

/-- Detaching every run leaves the list empty (R9). -/
theorem detachAll_runs (i) (s : State) : (detachAll i s).accounts[i].runs = []
    ∧ (detachAll i s).accounts[i].state = s.accounts[i].state := by
  have key : ∀ (l : List (Fin 6)) (t : State), (∀ r ∈ t.accounts[i].runs, r ∈ l) →
      (l.foldl (fun s r => detachRun i r s) t).accounts[i].runs = []
      ∧ (l.foldl (fun s r => detachRun i r s) t).accounts[i].state = t.accounts[i].state := by
    intro l
    induction l with
    | nil =>
      intro t ht
      exact ⟨List.eq_nil_iff_forall_not_mem.mpr fun r hr => absurd (ht r hr) (by simp), rfl⟩
    | cons a as ih =>
      intro t ht
      have e := detachRun_runs i a t
      have := ih (detachRun i a t) (fun r hr => by
        rw [e.1] at hr
        have hm := List.mem_filter.mp hr
        rcases List.mem_cons.mp (ht r hm.1) with rfl | hh
        · simp at hm
        · exact hh)
      exact ⟨this.1, this.2.trans e.2⟩
  exact key _ s fun r hr => hr

theorem leaveOpen_accountLaw {s : State} {i} (h : s.accountLaw) (hr : s.accounts[i].runs = []) (hs : s.accounts[i].state = .opened) :
    (leaveOpen i s).accountLaw := by
  have hc := h.1.closed i
  unfold leaveOpen; split
  · refine accountLaw_table h ((h.1.shut (i := i) hr (fun _ => ⟨rfl, by rw [hs]; decide⟩) ?_
      (fun _ => ⟨rfl, .inl hs⟩)))
    simp only [reduceCtorEq, iff_false]
    intro hh; have := hc.mp hh; rw [hs] at this; cases this
  · exact enterClosed_accountLaw h hr (by rw [hs]; decide)

theorem requestEnd_accounts (f : Grant → Bool) (s : State) : SameAccounts s (requestEnd f s) := {}

theorem closeAccount_accountLaw {s : State} {i} (h : s.accountLaw) (hs : s.accounts[i].state = .opened) :
    (closeAccount i s).accountLaw := by
  have h1 : (detachAll i s).accountLaw := fold_keeps (fun _ _ h => detachRun_accountLaw h) _ _ h
  have h2 := detachAll_runs i s
  have e := requestEnd_accounts (·.forAccount i) (detachAll i s)
  exact leaveOpen_accountLaw (e.law h1) (by rw [(e.account i).runs]; exact h2.1) (by rw [(e.account i).state, h2.2]; exact hs)

theorem resolved_owner (p : Bool) (m : Nat) (a : Account) : SameOwner a (a.resolved p m) := by
  unfold Account.resolved Account.creditStroke Account.releaseStroke; repeat' split
  all_goals exact {}

theorem resolveBeneficiary_accountLaw {s : State} {k : Stroke} {b : Bool} (h : s.accountLaw) :
    (resolveBeneficiary k b s).accountLaw := by
  unfold resolveBeneficiary; split
  · next i _ =>
    have e := editAccount_accounts (s := s) (i := i) (f := fun a => a.resolved b k.mass) (resolved_owner _ _ _)
    unfold resolveAccount; dsimp only; split
    · next hc =>
      have h1 := e.law h
      refine enterClosed_accountLaw h1 ?_ (by rw [hc]; decide)
      cases hr : (editAccount i (fun a => a.resolved b k.mass) s).accounts[i].runs with
      | nil => rfl
      | cons r rs =>
        have := h1.1.owner i (by rw [hr]; simp)
        rw [hc] at this; cases this
    · exact e.law h
  · unfold resolveManual; split
    · exact accountLaw_table h h.1
    · exact h

theorem failPump_accounts (p) (s : State) : SameAccounts s (failPump p s) := {}

theorem resolvePump_accounts (p r) (s : State) : SameAccounts s (resolvePump p r s) := {}

theorem resolve_accountLaw {r} {s : State} (h : s.accountLaw) : (resolve r s).accountLaw := by
  unfold resolve; dsimp only; split
  · exact h
  · next k _ =>
    have h1 : (resolveBeneficiary k (r == .proven) { s with stroke := some { k with resolution := r, phase := if k.phase = .proofWait then .recover else k.phase } }).accountLaw :=
      resolveBeneficiary_accountLaw (accountLaw_table h h.1)
    exact (resolvePump_accounts _ _ _).law h1

theorem startStroke_accounts (g) (s : State) : SameAccounts s (startStroke g s) := by
  unfold startStroke; dsimp only; split
  · exact .refl s
  · refine { account := fun i => ?_, supply := ?_, posted := fun q hq => ?_ }
    · split
      · next j _ => exact (editAccount_accounts (s := s) (i := j) {}).account i
      · exact .refl _
    · split <;> rfl
    · split <;> exact hq

theorem continueBurst_accounts (s : State) : SameAccounts s (continueBurst s) := by
  unfold continueBurst; repeat' split
  · exact .refl s
  · exact startStroke_accounts _ s
  · exact {}

theorem applyPendingDuty_accounts (s : State) : SameAccounts s (applyPendingDuty s) := {}

theorem clearIfFinished_accounts (s : State) : SameAccounts s (clearIfFinished s) := by
  have h1 : SameAccounts s (applyPendingDuty { s with stroke := none }) :=
    .trans (t := { s with stroke := none }) {} (applyPendingDuty_accounts _)
  unfold clearIfFinished clearStroke; dsimp only; repeat' split
  · exact .refl s
  · exact h1.trans (continueBurst_accounts _)
  · exact h1
  · exact .refl s

theorem completeScan_accounts (s : State) : SameAccounts s (completeScan s) := {}

theorem grantIfDue_accounts (s : State) : SameAccounts s (grantIfDue s) := {}

theorem startSave_accountLaw {s : State} (h : s.accountLaw) : (startSave s).accountLaw := by
  unfold startSave; split
  · exact h
  · refine ⟨h.1, fun m hm => ?_⟩
    simp [State.snapshots, State.snapshot] at hm
    subst hm; exact h.1

theorem rollover_accountLaw {s : State} (h : s.accountLaw) : (rollover s).accountLaw := by
  refine startSave_accountLaw ?_
  refine SameAccounts.law (s := s) { account := fun i => ?_ } h
  simp only [raise_keeps, mapAll_get, Account.rollover]; split
  · exact {}
  · exact .refl _

theorem pointChanged_accounts (i : Fin 12) (before : Option (Fin 4)) (s : State) :
    SameAccounts s (pointChanged i before s) := by
  have h := requestEnd_accounts (·.forAccount i) s
  unfold pointChanged; dsimp only; repeat' split
  · exact .refl s
  · exact h.trans (editAccount_accounts {})
  · exact h.trans (waive_accounts i _)
  · exact h

theorem attachRun_accountLaw {s : State} {i r} (h : s.accountLaw) (hs : s.accounts[i].state = .opened)
    (ho : s.ownerOf r = none) (hl : s.accounts[i].runs.length < 4) : (attachRun i r s).accountLaw := by
  have free : ∀ j : Fin 12, r ∉ s.accounts[j].runs := by
    intro j hj
    have := List.find?_eq_none.mp ho j (mem_slots j)
    simp at this
    exact this hj
  have h1 := (settle_accounts r s).law h
  have e := (settle_accounts r s).account
  have free' : ∀ j : Fin 12, r ∉ (settle r s).accounts[j].runs := fun j => by rw [(e j).runs]; exact free j
  have hs' : (settle r s).accounts[i].state = .opened := (e i).state.trans hs
  have hl' : (settle r s).accounts[i].runs.length < 4 := by rw [(e i).runs]; exact hl
  unfold attachRun
  generalize settle r s = t at *
  refine accountLaw_table h1 ?_
  have get : ∀ j : Fin 12, (editAccount i (fun a => { a with runs := a.runs ++ [r] }) t).accounts[j]
      = if i = j then { t.accounts[i] with runs := t.accounts[i].runs ++ [r] } else t.accounts[j] := by
    intro j; simp only [editAccount, editAt_get]
  have mem : ∀ (j : Fin 12) (q : Fin 6), q ∈ (editAccount i (fun a => { a with runs := a.runs ++ [r] }) t).accounts[j].runs →
      q ∈ t.accounts[j].runs ∨ (q = r ∧ j = i) := by
    intro j q hq; rw [get] at hq; split at hq
    · next e =>
      subst e
      rcases List.mem_append.mp hq with hq | hq
      · exact .inl hq
      · exact .inr ⟨by simpa using hq, rfl⟩
    · exact .inl hq
  have st : ∀ j : Fin 12, (editAccount i (fun a => { a with runs := a.runs ++ [r] }) t).accounts[j].state = t.accounts[j].state
      ∧ (editAccount i (fun a => { a with runs := a.runs ++ [r] }) t).accounts[j].tag = t.accounts[j].tag
      ∧ (editAccount i (fun a => { a with runs := a.runs ++ [r] }) t).accounts[j].closeTime = t.accounts[j].closeTime
      ∧ (editAccount i (fun a => { a with runs := a.runs ++ [r] }) t).accounts[j].quality = t.accounts[j].quality := by
    intro j; rw [get]; split
    · next e => subst e; exact ⟨rfl, rfl, rfl, rfl⟩
    · exact ⟨rfl, rfl, rfl, rfl⟩
  refine ⟨fun j => ?_, fun j hj => ?_, fun j k q hj hk => ?_, fun j k hj hk he => ?_, fun j => ?_,
    fun j p => ?_⟩
  · rw [get]; split
    · refine ⟨?_, by rw [List.length_append]; exact hl'⟩
      refine List.nodup_append.mpr ⟨(h1.1.runs i).1, by simp, ?_⟩
      intro a ha b hb; simp at hb; subst hb; rintro rfl; exact free' i ha
    · exact h1.1.runs j
  · rw [(st j).1]
    rw [get] at hj; split at hj
    · next e => subst e; exact hs'
    · exact h1.1.owner j hj
  · rcases mem j q hj with a | a <;> rcases mem k q hk with b | b
    · exact h1.1.single j k q a b
    · rw [b.1] at a; exact absurd a (free' j)
    · rw [a.1] at b; exact absurd b (free' k)
    · exact a.2.trans b.2.symm
  · rw [(st j).1] at hj; rw [(st k).1] at hk; rw [(st j).2.1, (st k).2.1] at he
    exact h1.1.tags j k hj hk he
  · rw [(st j).2.2.1, (st j).1]; exact h1.1.closed j
  · rw [(st j).1, (st j).2.2.2]; exact h1.1.named j p

theorem openAccount_accountLaw {s : State} {i tag q pt d pr} (h : s.accountLaw)
    (ht : s.slotOfTag tag = none) (hq : s.quality[(q : Fin 8)].state ≠ .empty) :
    AccountLaw (setAt s.accounts i (.fresh tag q pt d pr s.clock.deviceTime)) s.quality := by
  have fresh : ∀ j : Fin 12, s.accounts[j].state ≠ .free → s.accounts[j].tag ≠ tag := by
    intro j hj he
    have := List.find?_eq_none.mp ht j (mem_slots j)
    simp at this
    exact this hj he
  refine ⟨fun j => ?_, fun j hj => ?_, fun j k r hj hk => ?_, fun j k hj hk he => ?_, fun j => ?_,
    fun j c hj he => ?_⟩
  · rw [setAt_get]; split
    · simp [Account.fresh, Account.free]
    · exact h.1.runs j
  · rw [setAt_get] at hj ⊢; split at hj
    · exact absurd rfl hj
    · next e => rw [if_neg e]; exact h.1.owner j hj
  · rw [setAt_get] at hj hk; split at hj
    · cases hj
    · split at hk
      · cases hk
      · exact h.1.single j k r hj hk
  · rw [setAt_get] at hj hk he; rw [setAt_get] at he
    by_cases e : i = j <;> by_cases e' : i = k
    · exact e.symm.trans e'
    · rw [if_pos e, if_neg e'] at he; rw [if_neg e'] at hk
      exact absurd he.symm (fresh k hk)
    · rw [if_neg e, if_pos e'] at he; rw [if_neg e] at hj
      exact absurd he (fresh j hj)
    · rw [if_neg e, if_neg e'] at he; rw [if_neg e] at hj; rw [if_neg e'] at hk
      exact h.1.tags j k hj hk he
  · rw [setAt_get]; split
    · simp [Account.fresh, Account.free]
    · exact h.1.closed j
  · rw [setAt_get] at hj he; split at hj
    · next e => rw [if_pos e] at he; exact he ▸ hq
    · next e => rw [if_neg e] at he; exact h.1.named j c hj he

/-- An amendment names a slot that is not EMPTY, or the same slot as before (R18). -/
theorem amended_accountLaw {s : State} {i} {m : Amendment} (h : s.accountLaw)
    (hq : s.quality[m.quality].state ≠ .empty ∨ m.quality = s.accounts[i].quality) :
    (editAccount i (fun a => { a with
      quality := m.quality, point := m.point, dose := m.dose, priority := m.priority }) s).accountLaw := by
  refine accountLaw_table h (h.1.renamed (fun j => ?_) fun j q hj he => ?_)
  · simp only [editAccount, editAt_get]; split
    · next e => subst e; exact {}
    · exact {}
  · simp only [editAccount, editAt_get] at he; split at he
    · next e =>
      subst e he
      rcases hq with hq | hq
      · exact hq
      · exact h.1.named i _ hj hq.symm
    · exact h.1.named j q hj he

/-- A slot is posted, or retired while no account names it (R70, R77). -/
theorem setQuality_accountLaw {s : State} {q c} (h : s.accountLaw)
    (hq : c.state ≠ .empty ∨ s.namingCount q = 0) :
    ({ s with quality := setAt s.quality q c } : State).accountLaw := by
  refine accountLaw_table (s := s) h (h.1.renamed (fun j => {}) fun j p hj he => ?_)
  rw [setAt_get]; split
  · next e =>
    subst e
    rcases hq with hq | hq
    · exact hq
    · have := List.countP_eq_zero.mp hq j (mem_slots j)
      simp only [Account.names, Bool.and_eq_true, Bool.or_eq_true, beq_iff_eq, not_and] at this
      exact absurd he (this hj)
  · exact h.1.named j p hj he

/-- An expiry takes a slot to STALE, never to EMPTY (R73, R76). -/
theorem expireSlot_accounts (q : Fin 8) (s : State) : SameAccounts s (expireSlot q s) := by
  refine { account := by simp [SameOwner.refl], posted := fun p hp => ?_ }
  unfold expireSlot; split
  · simp only [raise_keeps, editAt_get]; split
    · simp
    · exact hp
  · exact hp

/-- The countdown keeps every slot posted (R72). -/
theorem countDownAll_accounts (s : State) : SameAccounts s (countDownAll s) := by
  refine .trans (t := { s with quality := mapAll Quality.countDown s.quality })
    { posted := fun p hp => ?_ } (fold_accounts (fun s q => expireSlot_accounts q s) _ _)
  simp only [mapAll_get, Quality.countDown]; split <;> exact hp

theorem image_accountLaw {m : Image} (h : AccountLaw m.accounts m.quality) : m.state.accountLaw := by
  have get : ∀ j : Fin 12, m.state.accounts[j] = m.accounts[j].restored m.deviceTime := by
    intro j; simp only [Image.state, mapAll_get]
  have st : ∀ j : Fin 12, m.state.accounts[j].runs = m.accounts[j].runs ∧ m.state.accounts[j].tag = m.accounts[j].tag
      ∧ (m.state.accounts[j].state = m.accounts[j].state ∧ m.state.accounts[j].closeTime = m.accounts[j].closeTime
        ∨ m.accounts[j].state = .closing ∧ m.state.accounts[j].state = .closed ∧ m.state.accounts[j].closeTime.isSome)
      ∧ m.state.accounts[j].quality = m.accounts[j].quality := by
    intro j; rw [get]; unfold Account.restored; split
    · next e => exact ⟨rfl, rfl, .inl ⟨rfl, rfl⟩, rfl⟩
    · next e => exact ⟨rfl, rfl, .inr ⟨e, rfl, rfl⟩, rfl⟩
    · exact ⟨rfl, rfl, .inl ⟨rfl, rfl⟩, rfl⟩
    · exact ⟨rfl, rfl, .inl ⟨rfl, rfl⟩, rfl⟩
  have nf : ∀ j : Fin 12, m.state.accounts[j].state ≠ .free → m.accounts[j].state ≠ .free := by
    intro j hj; rcases (st j).2.2.1 with e | e
    · rw [← e.1]; exact hj
    · rw [e.1]; decide
  refine ⟨⟨fun j => ?_, fun j hj => ?_, fun j k r hj hk => ?_, fun j k hj hk he => ?_, fun j => ?_,
    fun j q hj he => ?_⟩, fun m' hm' => ?_⟩
  · rw [(st j).1]; exact h.runs j
  · rw [(st j).1] at hj
    have := h.owner j hj
    rcases (st j).2.2.1 with e | e
    · rw [e.1]; exact this
    · rw [e.1] at this; cases this
  · rw [(st j).1] at hj; rw [(st k).1] at hk; exact h.single j k r hj hk
  · rw [(st j).2.1, (st k).2.1] at he; exact h.tags j k (nf j hj) (nf k hk) he
  · rcases (st j).2.2.1 with e | e
    · rw [e.1, e.2]; exact h.closed j
    · exact ⟨fun _ => e.2.1, fun _ => e.2.2⟩
  · rw [(st j).2.2.2] at he
    rcases (st j).2.2.1 with e | e
    · rw [e.1] at hj; exact h.named j q hj he
    · rw [e.2.1] at hj; exact absurd hj (by decide)
  · simp [State.snapshots, Image.state, State.reset] at hm'
    subst hm'; exact h

theorem coldStart_accountLaw {s b} (h0 : State.reset.accountLaw) (h : s.accountLaw) : (coldStart b s).accountLaw := by
  have h1 : (startState s.supply.image).accountLaw := by
    unfold startState; split
    · exact h0
    · next m hm =>
      refine (SameAccounts.trans (t := raise .restart 0 m.state) {} (fold_accounts (fun s i => {}) _ _)).law (image_accountLaw (h.2 m (by simp [State.snapshots, hm])))
  have e : SameAccounts (startState s.supply.image) (coldStart b s) :=
    { account := by simp [coldStart, SameOwner.refl], supply := by simp [coldStart],
      posted := by simp [coldStart] }
  exact e.law h1

theorem warmReset_accountLaw {s} (h : s.accountLaw) : (warmReset s).accountLaw := by
  have h1 : (abandonStroke (abandonCommand s)).accountLaw := by
    have h0 : (abandonCommand s).accountLaw := h
    unfold abandonStroke; repeat' split
    · exact h0
    · exact resolve_accountLaw h0
    · exact h0
  have e : SameAccounts (abandonStroke (abandonCommand s)) (warmReset s) :=
    { account := by simp [warmReset, dropStroke, SameOwner.refl],
      supply := by simp [warmReset, dropStroke], posted := by simp [warmReset, dropStroke] }
  exact e.law h1

end Sys2Proof.Machine
end

