-- ==== Sys2Proof/Laws/Bytes.lean ====
section
/-! SUPPORT. Numbers and their bytes, payloads and their fields, frames and their requests. -/

namespace Sys2Proof.Machine

-- One proof after the other: a proof that waits for an earlier one holds a thread and its stack.
set_option Elab.async false

@[simp] theorem length_toBytes (width n : Nat) : (toBytes width n).length = width := by
  induction width with
  | zero => rfl
  | succ w ih => simp [toBytes, ih]

/-- The number that bytes spell, after bytes that spell another. -/
theorem be_foldl (bytes : List Byte) (n : Nat) :
    bytes.foldl (fun n b => n * 256 + b.toNat) n = n * 256 ^ bytes.length + be bytes := by
  induction bytes generalizing n with
  | nil => simp [be]
  | cons b bs ih =>
    simp only [be, List.foldl_cons, List.length_cons, Nat.zero_mul, Nat.zero_add] at ih ⊢
    rw [ih, ih b.toNat, Nat.pow_succ, Nat.add_mul, Nat.mul_assoc, Nat.mul_comm 256, Nat.add_assoc]

theorem be_cons (b : Byte) (bs : List Byte) : be (b :: bs) = b.toNat * 256 ^ bs.length + be bs := by
  simp only [be, List.foldl_cons, Nat.zero_mul, Nat.zero_add]
  exact be_foldl bs b.toNat

/-- The bytes of a number spell it, modulo their range. -/
theorem be_toBytes_mod (width n : Nat) : be (toBytes width n) = n % 256 ^ width := by
  induction width with
  | zero => simp [toBytes, be, Nat.mod_one]
  | succ w ih =>
    have h : n % (256 ^ w * 256) = n % 256 ^ w + 256 ^ w * (n / 256 ^ w % 256) := Nat.mod_mul
    rw [toBytes, be_cons, length_toBytes, ih, BitVec.toNat_ofNat, Nat.pow_succ 256 w, h,
      Nat.mul_comm (256 ^ w), Nat.add_comm]

/-- The bytes of a number that fits spell it. -/
@[simp] theorem be_toBytes {width n : Nat} (h : n < 256 ^ width) : be (toBytes width n) = n := by
  rw [be_toBytes_mod, Nat.mod_eq_of_lt h]

theorem byte_eq (n : Nat) : byte n = toBytes 1 n := rfl

@[simp] theorem length_byte (n : Nat) : (byte n).length = 1 := rfl

@[simp] theorem be_byte {n : Nat} (h : n < 256) : be (byte n) = n := be_toBytes (width := 1) h

/-- The first field of a payload and the rest. -/
theorem fields_append {w : Nat} {ws : List Nat} {x y : List Byte} (h : x.length = w) :
    fields (w :: ws) (x ++ y) = (fields ws y).map (x :: ·) := by
  subst h
  have : ¬(x ++ y).length < x.length := by rw [List.length_append]; omega
  rw [fields, if_neg this]
  simp

/-- The last field of a payload. -/
theorem fields_last {w : Nat} {x : List Byte} (h : x.length = w) : fields [w] x = some [x] := by
  have := fields_append (ws := []) (y := []) h
  rw [List.append_nil] at this
  rw [this]; rfl

/-- A payload whose length is not that of its fields has no fields. -/
theorem fields_none {ws : List Nat} {bytes : List Byte} (h : bytes.length ≠ ws.sum) :
    fields ws bytes = none := by
  induction ws generalizing bytes with
  | nil =>
    cases bytes with
    | nil => simp at h
    | cons => rfl
  | cons w ws ih =>
    rw [fields]; split
    · rfl
    · next hw =>
      rw [ih]
      · rfl
      · rw [List.length_drop]
        rw [List.sum_cons] at h
        omega

/-- The entries of a list. -/
theorem entries_cons {ws : List Nat} {n : Nat} {x y : List Byte} {entry : List (List Byte)}
    (hx : x.length = ws.sum) (he : fields ws x = some entry) :
    entries ws (n + 1) (x ++ y) = (entries ws n y).map (entry :: ·) := by
  have h1 : (x ++ y).take ws.sum = x := by rw [← hx]; simp
  have h2 : (x ++ y).drop ws.sum = y := by rw [← hx]; simp
  rw [entries, h1, h2, he]

/-- A list whose length is not that of its entries has no entries. -/
theorem entries_none {ws : List Nat} {n : Nat} {bytes : List Byte}
    (h : bytes.length ≠ n * ws.sum) : entries ws n bytes = none := by
  induction n generalizing bytes with
  | zero =>
    cases bytes with
    | nil => simp at h
    | cons => rfl
  | succ n ih =>
    rw [entries]; split
    · rfl
    · next he =>
      rw [ih]
      · rfl
      · rw [List.length_drop]
        have hl : ¬ (bytes.take ws.sum).length ≠ ws.sum := fun hne => by
          rw [fields_none hne] at he; cases he
        rw [List.length_take] at hl
        rw [Nat.succ_mul] at h
        omega

/-- The request in the bytes of a transaction (R195): the bytes are its frame, and its payload at most 60 bytes long. -/
theorem requestOf_eq_some {bytes : List Byte} {q : Request} :
    requestOf bytes = some q ↔ bytes = q.frame ∧ q.payload.length ≤ 60 := by
  constructor
  · intro h
    unfold requestOf at h
    split at h
    · next number length rest =>
      split at h
      · next hc =>
        obtain ⟨h1, h2, h3⟩ := hc
        cases h
        have hr : rest.length = length.toNat + 1 := by
          simp only [List.length_cons] at h2; omega
        have ht : (rest.take length.toNat).length = length.toNat := by
          rw [List.length_take]; omega
        refine ⟨?_, by rw [ht]; exact h1⟩
        have hd : (number :: length :: rest).dropLast = number :: length :: rest.take length.toNat := by
          rw [List.dropLast_eq_take]
          simp only [List.length_cons]
          have : rest.length + 1 + 1 - 1 = length.toNat + 1 + 1 := by omega
          rw [this]; rfl
        have hne : number :: length :: rest ≠ [] := by simp
        have hl : (number :: length :: rest).getLast hne = crc8 (number :: length :: rest).dropLast := by
          rw [List.getLast?_eq_some_getLast hne] at h3
          exact Option.some.inj h3
        have hs := List.dropLast_concat_getLast hne
        rw [hl, hd] at hs
        rw [← hs]
        simp only [Request.frame, withCrc, ht, BitVec.ofNat_toNat, BitVec.setWidth_eq]
      · cases h
    · cases h
  · rintro ⟨rfl, h⟩
    obtain ⟨number, payload⟩ := q
    have h256 : payload.length < 256 := by simp only at h; omega
    have hn : (BitVec.ofNat 8 payload.length).toNat = payload.length := by
      rw [BitVec.toNat_ofNat]; exact Nat.mod_eq_of_lt h256
    simp only [Request.frame, withCrc, List.cons_append, requestOf, hn]
    rw [if_pos]
    · simp
    · refine ⟨h, by simp, ?_⟩
      rw [← List.cons_append, ← List.cons_append, List.getLast?_append, List.dropLast_concat]
      rfl

theorem requestOf_frame {q : Request} (h : q.payload.length ≤ 60) : requestOf q.frame = some q :=
  requestOf_eq_some.mpr ⟨rfl, h⟩

/-- Bytes that are the frame of no request. -/
theorem requestOf_eq_none {bytes : List Byte} :
    requestOf bytes = none ↔ ∀ q : Request, q.payload.length ≤ 60 → bytes ≠ q.frame := by
  constructor
  · intro h q hq hb
    rw [hb, requestOf_frame hq] at h
    cases h
  · intro h
    cases hr : requestOf bytes with
    | none => rfl
    | some q =>
      obtain ⟨h1, h2⟩ := requestOf_eq_some.mp hr
      exact absurd h1 (h q h2)

end Sys2Proof.Machine
end

