-- ==== Sys2Proof/Laws/Arguments.lean ====
section
/-! SUPPORT. What the checks of request arguments and the searches of tables find. -/

namespace Sys2Proof.Machine

-- One proof after the other: a proof that waits for an earlier one holds a thread and its stack.
set_option Elab.async false

/-- A record number that may be none takes one byte. -/
@[simp] theorem length_numberOrNone {n : Nat} (p : Option (Fin n)) :
    (numberOrNone p).length = 1 := by cases p <;> rfl

/-- A tag of printable characters (R6). -/
theorem printable_iff {tag : List Byte} :
    printable tag = true ↔ tag.length = 8 ∧ ∀ b ∈ tag, 0x20 ≤ b.toNat ∧ b.toNat ≤ 0x7E := by
  simp [printable]

/-- No slot outside FREE holds the tag. -/
theorem slotOfTag_none {s : State} {tag : List Byte} : s.slotOfTag tag = none
    ↔ ∀ j : Fin 12, s.accounts[j].state ≠ .free → s.accounts[j].tag ≠ tag := by
  unfold State.slotOfTag
  rw [List.find?_eq_none]
  refine ⟨fun h j h1 h2 => ?_, fun h j _ => by simp; exact h j⟩
  have := h j (mem_slots j)
  simp at this
  exact this h1 h2

/-- The FREE slot below which none is FREE. -/
theorem lowestFree_eq {s : State} {i : Fin 12} (h : s.accounts[i].state = .free)
    (hl : ∀ j : Fin 12, j.1 < i.1 → s.accounts[j].state ≠ .free) : s.lowestFree = some i := by
  unfold State.lowestFree
  cases hf : slots.find? (fun i => s.accounts[i].state == .free) with
  | none =>
    have := List.find?_eq_none.mp hf i (mem_slots i)
    simp at this
    exact absurd h this
  | some j =>
    have h1 := List.find?_some hf
    simp at h1
    congr 1
    rcases Nat.lt_trichotomy j.1 i.1 with hlt | he | hgt
    · exact absurd h1 (hl j hlt)
    · exact Fin.ext he
    · exfalso
      rw [slots_eq, List.find?_eq_some_iff_getElem] at hf
      obtain ⟨_, k, hk, hj, hn⟩ := hf
      simp at hj
      have hkj : k = j.1 := by rw [← hj]
      have := hn i.1 (by omega)
      simp at this
      exact this h

/-- No slot is FREE. -/
theorem lowestFree_none {s : State} :
    s.lowestFree = none ↔ ∀ j : Fin 12, s.accounts[j].state ≠ .free := by
  unfold State.lowestFree
  rw [List.find?_eq_none]
  exact ⟨fun h j => by simpa using h j (mem_slots j), fun h j _ => by simpa using h j⟩

/-- A quality argument that passes its check. -/
theorem qualityArg_eq {s : State} {q : Fin 8} (h : s.quality[q].state ≠ .empty) :
    s.qualityArg q.1 = some q := by
  simp only [State.qualityArg, fin?_val, Option.filter]
  simp
  simpa using h

/-- A quality argument that fails its check. -/
theorem qualityArg_none {s : State} {n : Nat}
    (h : ∀ j : Fin 8, n = j.1 → s.quality[j].state = .empty) : s.qualityArg n = none := by
  unfold State.qualityArg
  cases hf : fin? 8 n with
  | none => rfl
  | some j =>
    simp [Option.filter]
    simpa using h j (fin?_eq_some.mp hf)

/-- A point field, sent and read. -/
theorem point?_eq (p : Option (Fin 4)) : point? (be (numberOrNone p)) = some p := by
  cases p with
  | none => rfl
  | some i =>
    have : be (byte i.1) = i.1 := be_byte (by omega)
    simp only [numberOrNone, this, point?]
    rw [if_neg (by simp [Config.absent]; omega)]
    simp

/-- A point argument that passes its check. -/
theorem pointArg_eq {s : State} {p : Option (Fin 4)}
    (h : ∀ pt, p = some pt → s.points[pt].state = .enabled) :
    s.pointArg (be (numberOrNone p)) = some p := by
  unfold State.pointArg
  rw [point?_eq]
  cases p with
  | none => rfl
  | some i =>
    have := h i rfl
    simp [Option.filter]
    simpa using this

/-- A point argument that fails its check. -/
theorem pointArg_none {s : State} {n : Nat} (h0 : n ≠ 255)
    (h : ∀ j : Fin 4, n = j.1 → s.points[j].state ≠ .enabled) : s.pointArg n = none := by
  unfold State.pointArg point?
  rw [if_neg (show n ≠ Config.absent from h0)]
  cases hf : fin? 4 n with
  | none => rfl
  | some j =>
    simp [Option.filter]
    simpa using h j (fin?_eq_some.mp hf)

/-- No account's list holds the run (R8). -/
theorem ownerOf_none {s : State} {r : Fin 6} :
    s.ownerOf r = none ↔ ∀ j : Fin 12, r ∉ s.accounts[j].runs := by
  unfold State.ownerOf
  rw [List.find?_eq_none]
  exact ⟨fun h j => by simpa using h j (mem_slots j), fun h j _ => by simpa using h j⟩

/-- The one account whose list holds the run (R8). -/
theorem ownerOf_some {s : State} {r : Fin 6} {i : Fin 12} (h : r ∈ s.accounts[i].runs)
    (h1 : ∀ j : Fin 12, r ∈ s.accounts[j].runs → j = i) : s.ownerOf r = some i := by
  cases hf : s.ownerOf r with
  | none => exact absurd h (ownerOf_none.mp hf i)
  | some j =>
    have := List.find?_some hf
    simp at this
    rw [h1 j this]

/-- No terminal holds the function (R202). -/
theorem holder_none {s : State} {f : TerminalFunction} :
    s.holder f = none ↔ ∀ x : Fin 16, s.terminals[x] ≠ f := by
  unfold State.holder
  rw [List.find?_eq_none]
  exact ⟨fun h j => by simpa using h j (mem_sixteen j), fun h j _ => by simpa using h j⟩

/-- A grant to the account, as a condition on the grant. -/
theorem forAccount_eq (i : Fin 12) :
    (fun g : Grant => decide (g.beneficiary = .account i)) = (·.forAccount i) := by
  funext g
  simp only [Grant.forAccount, Bool.beq_eq_decide_eq]

end Sys2Proof.Machine
end

