-- ==== Sys2Proof/Laws/Attention.lean ====
section
/-! SUPPORT. What each shared operation does to the law of the Attention Unit (R205). -/

namespace Sys2Proof.Machine

-- One proof after the other: a proof that waits for an earlier one holds a thread and its stack.
set_option Elab.async false

theorem insertMember_mem {n m : Nat} {l : List Nat} : m ∈ insertMember n l ↔ m = n ∨ m ∈ l := by
  induction l with
  | nil => simp [insertMember]
  | cons a as ih =>
    unfold insertMember
    split
    · simp
    · split
      · next h => subst h; simp
      · simp [ih]; grind

theorem insertMember_sorted {n : Nat} {l : List Nat} (h : l.Pairwise (· < ·)) :
    (insertMember n l).Pairwise (· < ·) := by
  induction l with
  | nil => simp [insertMember]
  | cons a as ih =>
    unfold insertMember
    rw [List.pairwise_cons] at h
    split
    · next hn =>
      rw [List.pairwise_cons]
      exact ⟨fun b hb => by rcases List.mem_cons.mp hb with rfl | hb; exact hn; exact Nat.lt_trans hn (h.1 b hb), List.pairwise_cons.mpr h⟩
    · split
      · exact List.pairwise_cons.mpr h
      · rw [List.pairwise_cons]
        refine ⟨fun b hb => ?_, ih h.2⟩
        rcases insertMember_mem.mp hb with rfl | hb
        · omega
        · exact h.1 b hb

theorem attentionLaw_congr {s t : State} (h : s.attentionLaw) (hc : t.causes = s.causes := by simp)
    (hs : t.supply = s.supply := by simp) : t.attentionLaw := by
  simpa [State.attentionLaw, State.snapshots, hc, hs] using h

theorem raise_attention {s : State} {k : CauseKind} {n : Nat} (hn : CauseKind.owns k.code n)
    (h : s.attentionLaw) : (raise k n s).attentionLaw := by
  refine ⟨fun j => ?_, h.2⟩
  have hj := h.1 j
  by_cases hk : k.code = j
  · subst hk
    simp only [raise, editAt_get, if_true, Cause.raised]
    split
    · exact hj
    · next hl =>
      exact ⟨hj.1, insertMember_sorted hj.2.1,
        fun m hm => (insertMember_mem.mp hm).elim (fun e => e ▸ hn) (hj.2.2.1 m),
        fun h0 => absurd h0 hl⟩
  · simpa only [raise, editAt_get, hk, if_false] using hj

theorem owns_all {k : Fin 16} (h : subjectCount[k] = 0) : CauseKind.owns k Config.subjectAll := by
  simp [CauseKind.owns, h]

theorem owns_lt {k : Fin 16} {n : Nat} (h : n < subjectCount[k]) : CauseKind.owns k n := by
  unfold CauseKind.owns; split <;> omega

theorem raiseIf_attention {s : State} {b : Bool} {k : CauseKind} {n : Nat}
    (hn : CauseKind.owns k.code n) (h : s.attentionLaw) : (raiseIf b k n s).attentionLaw := by
  unfold raiseIf; split
  · exact raise_attention hn h
  · exact h

theorem waive_attention {s i} (h : s.attentionLaw) : (waive i s).attentionLaw := by
  unfold waive; dsimp only; repeat' split
  · exact h
  · exact h
  · exact raise_attention (owns_lt i.2) (attentionLaw_congr h)

theorem enterClosed_attention {s i} (h : s.attentionLaw) : (enterClosed i s).attentionLaw :=
  raise_attention (owns_lt i.2) (attentionLaw_congr h)

theorem resolveAccount_attention {s i b m} (h : s.attentionLaw) :
    (resolveAccount i b m s).attentionLaw := by
  unfold resolveAccount; dsimp only; split
  · exact enterClosed_attention (attentionLaw_congr h)
  · exact attentionLaw_congr h

theorem resolveBeneficiary_attention {s k b} (h : s.attentionLaw) :
    (resolveBeneficiary k b s).attentionLaw := by
  unfold resolveBeneficiary; split
  · exact resolveAccount_attention h
  · exact attentionLaw_congr h

theorem requestEnd_attention {s f} (h : s.attentionLaw) : (requestEnd f s).attentionLaw :=
  attentionLaw_congr h

theorem grantIfDue_attention {s} (h : s.attentionLaw) : (grantIfDue s).attentionLaw :=
  attentionLaw_congr h

theorem failPump_attention {s p} (h : s.attentionLaw) : (failPump p s).attentionLaw := by
  have := raise_attention (k := .pumpFailed) (owns_lt p.2)
    (attentionLaw_congr (t := editPump p (fun u => { u with state := .failed }) s) h)
  unfold failPump; dsimp only; split
  · exact attentionLaw_congr this
  · exact attentionLaw_congr this

theorem resolvePump_attention {s p r} (h : s.attentionLaw) : (resolvePump p r s).attentionLaw := by
  unfold resolvePump; dsimp only; repeat' split
  · exact attentionLaw_congr h
  · exact failPump_attention (attentionLaw_congr h)
  · exact attentionLaw_congr h
  · exact h
  · exact h

theorem resolve_attention {s r} (h : s.attentionLaw) : (resolve r s).attentionLaw := by
  unfold resolve; split
  · exact h
  · exact resolvePump_attention (resolveBeneficiary_attention (attentionLaw_congr h))

theorem clearIfFinished_attention {s} (h : s.attentionLaw) : (clearIfFinished s).attentionLaw :=
  attentionLaw_congr h

theorem endManual_attention {s} (h : s.attentionLaw) : (endManual s).attentionLaw := by
  unfold endManual; split
  · exact h
  · exact raise_attention (owns_all (by decide)) (attentionLaw_congr h)

theorem headerTrip_attention {s} (h : s.attentionLaw) : (headerTrip s).attentionLaw := by
  unfold headerTrip; split
  · exact h
  · exact endManual_attention (attentionLaw_congr h)

theorem changeTrips_attention {s f} (h : s.attentionLaw) : (changeTrips f s).attentionLaw := by
  unfold changeTrips; dsimp only; repeat' split
  · exact headerTrip_attention (raise_attention (owns_all (by decide)) (attentionLaw_congr h))
  · exact attentionLaw_congr h
  · exact attentionLaw_congr h

theorem enterTripped_attention {s m} (h : s.attentionLaw) : (enterTripped m s).attentionLaw := by
  have := raise_attention (k := .monitorTrip) (owns_lt m.2)
    (attentionLaw_congr (t := editMonitor m (fun u => { u with state := .tripped, timer := none }) s) h)
  unfold enterTripped; dsimp only; split
  · exact changeTrips_attention this
  · exact this

theorem releaseAction_attention {s m a} (h : s.attentionLaw) :
    (releaseAction m a s).attentionLaw := by
  unfold releaseAction; split
  · exact changeTrips_attention h
  · exact h

theorem trigger_attention {s} (h : s.attentionLaw) : (trigger s).attentionLaw := by
  unfold trigger; split
  · exact attentionLaw_congr h
  · exact raise_attention (owns_all (by decide)) h
  · exact h

theorem startSave_attention {s} (h : s.attentionLaw) : (startSave s).attentionLaw := by
  unfold startSave; split
  · exact h
  · refine ⟨h.1, fun m hm => ?_⟩
    simp [State.snapshots, State.snapshot] at hm
    subst hm
    intro k; simpa using (h.1 k).1

theorem rollover_attention {s} (h : s.attentionLaw) : (rollover s).attentionLaw :=
  startSave_attention (raise_attention (owns_all (by decide)) (attentionLaw_congr h))

theorem writeTotals_attention {s r o u e} (h : s.attentionLaw) :
    (writeTotals r o u e s).attentionLaw := by
  unfold writeTotals; dsimp only; repeat' split
  · exact waive_attention (attentionLaw_congr h)
  · exact attentionLaw_congr h
  · exact raiseIf_attention (owns_lt r.2) (attentionLaw_congr h)

theorem update_attention {s r hd} (h : s.attentionLaw) : (update r hd s).attentionLaw := by
  have h1 : (editRun r (fun _ => (s.runs[r].evaluate s.now).afterStages hd s.ms (stages (s.updateInputs (s.runs[r].evaluate s.now) hd (s.ownerOf r)))) s).attentionLaw := attentionLaw_congr h
  exact attentionLaw_congr (writeTotals_attention (raiseIf_attention (k := .overspeed) (n := r.1) (owns_lt r.2) h1)) rfl rfl

theorem settle_attention {s r} (h : s.attentionLaw) : (settle r s).attentionLaw := by
  unfold settle; split
  · exact attentionLaw_congr (update_attention h) rfl rfl
  · exact attentionLaw_congr h

theorem complete_attention (st out s) (h : s.attentionLaw) : (complete st out s).attentionLaw :=
  attentionLaw_congr h

theorem causes_attention {s : State} {cs : Table Cause 16} (h : s.attentionLaw)
   (hc : ∀ k : Fin 16, cs[k].level ≤ 3 ∧ cs[k].subjects.Pairwise (· < ·) ∧ (∀ n ∈ cs[k].subjects, CauseKind.owns k n)
    ∧ (cs[k].level = 0 → cs[k].subjects = [])) : ({ s with causes := cs } : State).attentionLaw := ⟨hc, h.2⟩

theorem detachRun_attention {s i r} (h : s.attentionLaw) : (detachRun i r s).attentionLaw :=
  attentionLaw_congr (settle_attention (r := r) h) rfl rfl

theorem fold_attention {α : Type} {f : State → α → State} (hf : ∀ s a, s.attentionLaw → (f s a).attentionLaw)
    (l : List α) (s : State) (h : s.attentionLaw) : (l.foldl f s).attentionLaw := by
  induction l generalizing s with
  | nil => exact h
  | cons a as ih => exact ih _ (hf _ _ h)

theorem closeAccount_attention {s i} (h : s.attentionLaw) : (closeAccount i s).attentionLaw := by
  have h1 : (requestEnd (·.forAccount i) (detachAll i s)).attentionLaw :=
    requestEnd_attention (fold_attention (fun _ _ h => detachRun_attention h) _ _ h)
  unfold closeAccount leaveOpen; split
  · exact attentionLaw_congr h1
  · exact enterClosed_attention h1

theorem pointChanged_attention {s i b} (h : s.attentionLaw) : (pointChanged i b s).attentionLaw := by
  unfold pointChanged; dsimp only; repeat' split
  · exact h
  · exact attentionLaw_congr h
  · exact waive_attention (attentionLaw_congr h)
  · exact attentionLaw_congr h

theorem expireSlot_attention {s q} (h : s.attentionLaw) : (expireSlot q s).attentionLaw := by
  unfold expireSlot; split
  · exact raise_attention (owns_lt q.2) (attentionLaw_congr h)
  · exact h

theorem leaveMask_attention {s q} (h : s.attentionLaw) : (leaveMask q s).attentionLaw := by
  unfold leaveMask; repeat' split
  · exact endManual_attention h
  · exact attentionLaw_congr h
  · exact h

theorem configurePoint_attention {s q st l} (h : s.attentionLaw) : (configurePoint q st l s).attentionLaw := by
  have h1 : (writePoint q st l s).attentionLaw := attentionLaw_congr h rfl rfl
  have h2 : (afterLimit q s.points[q] (writePoint q st l s)).attentionLaw := by
    unfold afterLimit; split
    · exact fold_attention (fun s a h => waive_attention h) _ _ h1
    · exact h1
  unfold configurePoint afterState
  apply grantIfDue_attention
  split
  · exact requestEnd_attention (leaveMask_attention h2)
  · exact h2

theorem releaseIfTripped_attention {s m} (h : s.attentionLaw) : (releaseIfTripped m s).attentionLaw := by
  unfold releaseIfTripped; split
  · exact releaseAction_attention h
  · exact h

theorem evaluate_attention {s m v} (h : s.attentionLaw) : (evaluate m v s).attentionLaw := by
  unfold evaluate; dsimp only; split
  · exact h
  · have h1 : (editMonitor m (fun u => { u with last := some v }) s).attentionLaw := attentionLaw_congr h
    split
    · unfold evaluateFollowing; dsimp only; repeat' split
      · exact enterTripped_attention h1
      · exact h1
      · exact releaseAction_attention (attentionLaw_congr h1)
      · exact h1
      · exact h1
      · exact h1
    · unfold evaluateTimed; dsimp only; repeat' split
      all_goals exact attentionLaw_congr h

theorem delayExpiry_attention {s m} (h : s.attentionLaw) : (delayExpiry m s).attentionLaw := by
  unfold delayExpiry; dsimp only; repeat' split
  · exact enterTripped_attention (attentionLaw_congr h)
  · exact attentionLaw_congr h
  · exact h

theorem continueBurst_attention {s} (h : s.attentionLaw) : (continueBurst s).attentionLaw :=
  attentionLaw_congr h

theorem image_attention {s : State} {m : Image} (h : s.attentionLaw) (hm : s.supply.image = some m) :
    m.state.attentionLaw := by
  have hl := h.2 m (by simp [State.snapshots, hm])
  refine ⟨fun k => ?_, fun m' hm' => ?_⟩
  · simp [Image.state]; exact hl k
  · simp [State.snapshots, Image.state, State.reset] at hm'
    subst hm'; exact hl

theorem coldStart_attention {s b} (h0 : State.reset.attentionLaw) (h : s.attentionLaw) : (coldStart b s).attentionLaw := by
  have h1 : (startState s.supply.image).attentionLaw := by
    unfold startState; split
    · exact h0
    · next m hm =>
      exact fold_attention (fun s i h => raise_attention (owns_lt i.2) h) _ _
        (raise_attention (k := .restart) (owns_lt (by decide)) (image_attention h hm))
  have h2 : (crystalAtStart b (keepInputs s (startState s.supply.image))).attentionLaw := by
    unfold crystalAtStart; split
    · exact attentionLaw_congr h1 rfl rfl
    · exact attentionLaw_congr h1 rfl rfl
  unfold coldStart stopAtStart
  apply grantIfDue_attention
  split
  · exact changeTrips_attention h2
  · exact h2

theorem clearCauses_attention {s} (h : s.attentionLaw) : (clearCauses s).attentionLaw :=
  ⟨fun k => by simpa [clearCauses] using (h.1 k).1, h.2⟩

theorem warmReset_attention {s} (h : s.attentionLaw) : (warmReset s).attentionLaw := by
  have h1 : (abandonStroke (abandonCommand s)).attentionLaw := by
    unfold abandonStroke; repeat' split
    · exact attentionLaw_congr h rfl rfl
    · exact resolve_attention (attentionLaw_congr h rfl rfl)
    · exact attentionLaw_congr h rfl rfl
  have h2 : (resetScan (clearHeader (dropStroke (abandonStroke (abandonCommand s))))).attentionLaw := by
    have : (clearHeader (dropStroke (abandonStroke (abandonCommand s)))).attentionLaw := attentionLaw_congr h1 (by simp [clearHeader, dropStroke]) (by simp [clearHeader, dropStroke])
    exact attentionLaw_congr this
  have h3 : (clearCauses (resetRuns (resetMonitors (resetScan (clearHeader (dropStroke (abandonStroke (abandonCommand s)))))))).attentionLaw :=
    clearCauses_attention (attentionLaw_congr h2 rfl rfl)
  have h4 : (raiseAfterReset s.closedByReset (clearCauses (resetRuns (resetMonitors (resetScan (clearHeader (dropStroke (abandonStroke (abandonCommand s))))))))).attentionLaw := by
   unfold raiseAfterReset; dsimp only; split
   · exact raise_attention (owns_lt (by decide)) h3
   · exact raise_attention (owns_lt (Fin.isLt _)) (raise_attention (k := .restart) (owns_lt (by decide)) h3)
  exact grantIfDue_attention (attentionLaw_congr h4 rfl rfl)

end Sys2Proof.Machine
end

