-- ==== Sys2Proof/Laws/Decisions.lean ====
section
/-! SUPPORT. What the choices and the roundings come to: the DUTY pump, the trip set, the grant's order, bands and rounding. -/

namespace Sys2Proof

-- One proof after the other: a proof that waits for an earlier one holds a thread and its stack.
set_option Elab.async false

/-- A record replaced twice. -/
theorem setAt_setAt {α : Type} {n : Nat} (t : Table α n) (i : Fin n) (x y : α) :
    setAt (setAt t i x) i y = setAt t i y :=
  table_ext _ _ fun j => by simp only [setAt_get]; split <;> rfl

/-- The first of a numbered list that meets a condition. -/
theorem find_range {α : Type} {n : Nat} (f : Nat → α) (p : α → Bool) (k : Nat) (hk : k < n)
    (h1 : p (f k) = true) (h2 : ∀ j < k, p (f j) = false) :
    ((List.range n).map f).find? p = some (f k) := by
  rw [List.find?_eq_some_iff_getElem]
  exact ⟨h1, k, by simpa using hk, by simp, fun j hj => by simp [h2 j hj]⟩

namespace Machine

/-- Some pump is DUTY (R147). -/
theorem dutyPump_isSome {s : State} :
    s.dutyPump.isSome = true ↔ ∃ p : Fin 2, s.pumps[p].state = .duty := by
  unfold State.dutyPump
  rw [List.find?_isSome]
  exact ⟨fun ⟨p, _, h⟩ => ⟨p, by simpa using h⟩,
    fun ⟨p, h⟩ => ⟨p, mem_pumpNumbers p, by simpa using h⟩⟩

/-- The only DUTY pump (R147). -/
theorem dutyPump_eq {s : State} {p : Fin 2} (hp : s.pumps[p].state = .duty)
    (hu : ∀ r : Fin 2, s.pumps[r].state = .duty → r = p) : s.dutyPump = some p := by
  cases h : s.dutyPump with
  | none =>
    have := List.find?_eq_none.mp h p (mem_pumpNumbers p)
    simp at this
    exact absurd hp this
  | some r =>
    have := List.find?_some h
    rw [hu r (by simpa using this)]

/-- The trip source set has no member (R158). -/
theorem tripSet_isEmpty (t : TripSet) : t.isEmpty = true
    ↔ t.stop = false ∧ t.supply = false ∧ ∀ m : Fin 16, t.monitors[m] = false := by
  simp only [TripSet.isEmpty, Bool.and_eq_true, Bool.not_eq_true', List.all_eq_true]
  exact ⟨fun ⟨⟨h1, h2⟩, h3⟩ => ⟨h1, h2, fun m => by simpa using h3 m (mem_sixteen m)⟩,
    fun ⟨h1, h2, h3⟩ => ⟨⟨h1, h2⟩, fun m _ => by simpa using h3 m⟩⟩

/-- The cyclic order of slots after one (R132). -/
theorem slotsAfter_eq (i : Fin 12) : slotsAfter i = (List.range 12).map
    (fun k => (⟨(i.1 + 1 + k) % 12, Nat.mod_lt _ (by omega)⟩ : Fin 12)) := by
  revert i
  decide

/-- The cyclic order of points after one (R132). -/
theorem pointsAfter_eq (i : Fin 4) : pointsAfter i = (List.range 4).map
    (fun k => (⟨(i.1 + 1 + k) % 4, Nat.mod_lt _ (by omega)⟩ : Fin 4)) := by
  revert i
  decide

/-- The slot that FIXED mode chooses, as a fold over slots in ascending order (R132). -/
theorem preferred_foldl (s : State) (i : Fin 12) : ∀ (l : List (Fin 12)) (acc : Option (Fin 12)),
    (∀ j ∈ l, s.accounts[j].priority < s.accounts[i].priority
      ∨ (s.accounts[j].priority = s.accounts[i].priority ∧ i.1 ≤ j.1)) →
    l.Pairwise (fun a b => a.1 < b.1) →
    (acc = some i ∨ (i ∈ l ∧ ∀ j, acc = some j →
      s.accounts[j].priority < s.accounts[i].priority)) →
    l.foldl s.preferred acc = some i := by
  intro l
  induction l with
  | nil =>
    intro acc _ _ h
    rcases h with h | ⟨h, _⟩
    · exact h
    · cases h
  | cons a as ih =>
    intro acc hl hp h
    simp only [List.foldl_cons]
    refine ih _ (fun j hj => hl j (by simp [hj])) (List.pairwise_cons.mp hp).2 ?_
    rcases h with rfl | ⟨hi, hacc⟩
    · left
      unfold State.preferred
      dsimp only
      rw [if_neg]
      have := hl a (by simp)
      omega
    · rcases List.mem_cons.mp hi with rfl | hi
      · left
        unfold State.preferred
        cases acc with
        | none => rfl
        | some b =>
          have := hacc b rfl
          dsimp only
          rw [if_pos this]
      · right
        refine ⟨hi, fun j hj => ?_⟩
        have hia := (List.pairwise_cons.mp hp).1 i hi
        have ha := hl a (by simp)
        have : s.accounts[a].priority < s.accounts[i].priority := by omega
        unfold State.preferred at hj
        split at hj
        · cases hj
          exact this
        · next b =>
          split at hj
          · cases hj
            exact this
          · cases hj
            exact hacc _ rfl

/-- The band that a frequency selects (R33). -/
theorem meterFactor_eq {f mf : Nat} {bands : List Band}
    (h : ∃ before b after, bands = before ++ b :: after ∧ (∀ c ∈ before, c.limit < f)
      ∧ (f ≤ b.limit ∨ after = []) ∧ mf = b.factor) : meterFactor f bands = mf := by
  obtain ⟨before, b, after, rfl, hb, ha, rfl⟩ := h
  induction before with
  | nil =>
    cases after with
    | nil => rfl
    | cons c cs =>
      rcases ha with ha | ha
      · simp [meterFactor, ha]
      · cases ha
  | cons c cs ih =>
    have hc := hb c (by simp)
    have := ih (fun x hx => hb x (by simp [hx]))
    cases cs with
    | nil =>
      simp only [List.cons_append, List.nil_append] at *
      rw [meterFactor, if_neg (by omega)]
      · exact this
      · simp
    | cons e es =>
      simp only [List.cons_append] at *
      rw [meterFactor, if_neg (by omega)]
      · exact this
      · simp

/-- The nearest quotient, halves up (00, Rounding and clamping). -/
theorem roundHalfUp_eq {n d q : Nat} (hd : 0 < d) (h1 : 2 * q * d ≤ 2 * n + d)
    (h2 : 2 * n + d < 2 * (q + 1) * d) : roundHalfUp n d = q := by
  unfold roundHalfUp
  rw [Nat.div_eq_iff (by omega)]
  have e1 : 2 * (q + 1) * d = 2 * q * d + 2 * d := by simp [Nat.mul_add, Nat.add_mul]
  have e2 : q * (2 * d) = 2 * q * d := by simp [Nat.mul_left_comm, Nat.mul_assoc]
  constructor <;> omega

/-- The nearest thousandth, halves away from zero (R35). -/
theorem roundHalfAway_thousand {n m : Int} (h1 : (1000 * m - n).natAbs ≤ 500)
    (h2 : (1000 * m - n).natAbs = 500 → n.natAbs < (1000 * m).natAbs) :
    roundHalfAway n 1000 = m := by
  unfold roundHalfAway roundHalfUp
  split <;> omega

/-- The nearest 43,690th, halves away from zero (R90). -/
theorem roundHalfAway_span {n m : Int} (h1 : (43690 * m - n).natAbs ≤ 21845)
    (h2 : (43690 * m - n).natAbs = 21845 → n.natAbs < (43690 * m).natAbs) :
    roundHalfAway n 43690 = m := by
  unfold roundHalfAway roundHalfUp
  split <;> omega

/-- Limits in strictly ascending order (R55). -/
theorem ascending_iff {bands : List Band} :
    ascending bands = true ↔ bands.Pairwise (fun b c => b.limit < c.limit) := by
  induction bands with
  | nil => simp [ascending]
  | cons a as ih =>
    cases as with
    | nil => simp [ascending]
    | cons b bs =>
      simp only [ascending, Bool.and_eq_true, decide_eq_true_eq, ih]
      rw [List.pairwise_cons (a := a)]
      constructor
      · rintro ⟨h1, h2⟩
        refine ⟨fun c hc => ?_, h2⟩
        rcases List.mem_cons.mp hc with rfl | hc
        · exact h1
        · exact Nat.lt_trans h1 ((List.pairwise_cons.mp h2).1 c hc)
      · rintro ⟨h1, h2⟩
        exact ⟨h1 b (by simp), h2⟩

end Machine

end Sys2Proof
end

