-- ==== Sys2Proof/Laws/Duty.lean ====
section
/-! SUPPORT. What each shared operation does to the law of the duty pump (R147). -/

namespace Sys2Proof.Machine

-- One proof after the other: a proof that waits for an earlier one holds a thread and its stack.
set_option Elab.async false

/-! ### At most one DUTY pump (R147) -/

/-- The law depends on the pumps and the snapshots alone. -/
theorem dutyLaw_congr {s t : State} (h : s.dutyLaw) (hp : t.pumps = s.pumps := by simp)
    (hs : t.supply = s.supply := by simp) : t.dutyLaw := by
  simpa [State.dutyLaw, State.snapshots, hp, hs] using h

/-- Changing a pump without making it DUTY. -/
theorem editPump_duty {s : State} {p : Fin 2} {f : Pump → Pump}
    (hf : (f s.pumps[p]).state = .duty → s.pumps[p].state = .duty) (h : s.dutyLaw) :
    (editPump p f s).dutyLaw := by
  refine ⟨fun a b ha hb => ?_, h.2⟩
  simp only [editPump, editAt_get] at ha hb
  have key : ∀ a : Fin 2, (if p = a then f s.pumps[p] else s.pumps[a]).state = .duty → s.pumps[a].state = .duty := by
    intro a ha
    split at ha
    · next hh => subst hh; exact hf ha
    · exact ha
  exact h.1 a b (key a ha) (key b hb)

/-- Making a pump DUTY (R152). -/
theorem makeDuty_duty {s : State} {p : Fin 2} (h : s.dutyLaw) : (makeDuty p s).dutyLaw := by
  have key : ∀ a : Fin 2, (makeDuty p s).pumps[a].state = .duty → a = p := by
    intro a ha
    simp only [makeDuty, editAt_get, mapAll_get] at ha
    split at ha
    · next hh => exact hh.symm
    · split at ha
      · cases ha
      · next hn => exact absurd ha hn
  exact ⟨fun a b ha hb => (key a ha).trans (key b hb).symm, h.2⟩

theorem failPump_duty {s : State} {p : Fin 2} (h : s.dutyLaw) : (failPump p s).dutyLaw := by
  have h1 : (raise .pumpFailed p.1 (editPump p (fun u => { u with state := .failed }) s)).dutyLaw :=
    dutyLaw_congr (editPump_duty (p := p) (f := fun u => { u with state := .failed }) (fun h => by cases h) h)
  unfold failPump; dsimp only; split
  · refine dutyLaw_congr (s := editPump (1 - p) (fun u => { u with state := .duty })
      (raise .pumpFailed p.1 (editPump p (fun u => { u with state := .failed }) s))) ?_ (by simp) (by simp)
    have key : ∀ a : Fin 2, (editPump (1 - p) (fun u => { u with state := .duty })
      (raise .pumpFailed p.1 (editPump p (fun u => { u with state := .failed }) s))).pumps[a].state = .duty → a = 1 - p := by
      intro a ha
      simp only [editPump, raise, editAt_get] at ha
      split at ha
      · next hh => exact hh.symm
      · next hne =>
        split at ha
        · cases ha
        · next hpa => exact fin2_other p a hne hpa
    exact ⟨fun a b ha hb => (key a ha).trans (key b hb).symm, h1.2⟩
  · exact dutyLaw_congr h1

theorem resolvePump_duty {s : State} {p : Fin 2} {r : Resolution} (h : s.dutyLaw) :
    (resolvePump p r s).dutyLaw := by
  have he : ∀ f : Pump → Pump, (∀ u, (f u).state = u.state) → (editPump p f s).dutyLaw :=
    fun f hf => editPump_duty (fun hd => by rwa [hf] at hd) h
  unfold resolvePump; dsimp only; split
  · exact he _ fun _ => rfl
  · split
    · exact failPump_duty (he (fun u => { u with unproven := u.unproven + 1 }) fun _ => rfl)
    · exact he (fun u => { u with unproven := u.unproven + 1 }) fun _ => rfl
  · exact h
  · exact h

theorem resolve_duty {s : State} {r : Resolution} (h : s.dutyLaw) : (resolve r s).dutyLaw := by
  unfold resolve; split
  · exact h
  · exact resolvePump_duty (dutyLaw_congr h)

theorem startStroke_duty {s : State} {g : Grant} (h : s.dutyLaw) : (startStroke g s).dutyLaw := by
  unfold startStroke; dsimp only; split
  · exact h
  · have key : ∀ (p : Fin 2) (t : State), t.dutyLaw → (editPump p (fun u => { u with strokes := (u.strokes + 1) % Config.wrap32 }) t).dutyLaw :=
      fun p t ht => editPump_duty (fun hd => hd) ht
    split
    · exact key _ _ (dutyLaw_congr h)
    · exact key _ _ h

theorem continueBurst_duty {s : State} (h : s.dutyLaw) : (continueBurst s).dutyLaw := by
  unfold continueBurst; split
  · exact h
  · split
    · exact startStroke_duty h
    · exact dutyLaw_congr h

theorem applyPendingDuty_duty {s : State} (h : s.dutyLaw) : (applyPendingDuty s).dutyLaw := by
  unfold applyPendingDuty; dsimp only; split
  · exact h
  · split
    · exact dutyLaw_congr (makeDuty_duty h) rfl rfl
    · exact dutyLaw_congr h rfl rfl

theorem clearIfFinished_duty {s : State} (h : s.dutyLaw) : (clearIfFinished s).dutyLaw := by
  unfold clearIfFinished clearStroke; dsimp only; repeat' split
  · exact h
  · exact continueBurst_duty (applyPendingDuty_duty (dutyLaw_congr h rfl rfl))
  · exact applyPendingDuty_duty (dutyLaw_congr h rfl rfl)
  · exact h

theorem grantIfDue_duty {s : State} (h : s.dutyLaw) : (grantIfDue s).dutyLaw := dutyLaw_congr h

theorem startSave_duty {s : State} (h : s.dutyLaw) : (startSave s).dutyLaw := by
  unfold startSave; split
  · exact h
  · refine ⟨h.1, fun m hm => ?_⟩
    simp [State.snapshots, State.snapshot] at hm
    subst hm; exact h.1

theorem rollover_duty {s : State} (h : s.dutyLaw) : (rollover s).dutyLaw :=
  startSave_duty (dutyLaw_congr h)

theorem warmReset_duty {s : State} (h : s.dutyLaw) : (warmReset s).dutyLaw := by
  have h1 : (abandonStroke (abandonCommand s)).dutyLaw := by
    unfold abandonStroke; repeat' split
    · exact dutyLaw_congr h
    · exact resolve_duty (dutyLaw_congr h)
    · exact dutyLaw_congr h
  have h2 : (dropStroke (abandonStroke (abandonCommand s))).dutyLaw :=
    applyPendingDuty_duty (s := { abandonStroke (abandonCommand s) with stroke := none }) h1
  exact dutyLaw_congr h2 (by simp [warmReset]) (by simp [warmReset])

theorem image_duty {s : State} {m : Image} (h : s.dutyLaw) (hm : s.supply.image = some m) :
    m.state.dutyLaw := by
  have hl := h.2 m (by simp [State.snapshots, hm])
  refine ⟨hl, fun m' hm' => ?_⟩
  simp [State.snapshots, Image.state, State.reset] at hm'
  subst hm'; exact hl

theorem coldStart_duty {s b} (h0 : State.reset.dutyLaw) (h : s.dutyLaw) : (coldStart b s).dutyLaw := by
  have h1 : (startState s.supply.image).dutyLaw := by
    unfold startState; split
    · exact h0
    · next m hm =>
      exact fold_keeps (fun s i h => dutyLaw_congr h) _ _ (dutyLaw_congr (s := m.state) (image_duty h hm))
  exact dutyLaw_congr h1 (by simp [coldStart]) (by simp [coldStart])

end Sys2Proof.Machine
end

