-- ==== Sys2Proof/Laws/Header.lean ====
section
/-! SUPPORT. What each shared operation does to the laws of the header (R128, R129). -/

namespace Sys2Proof.Machine

-- One proof after the other: a proof that waits for an earlier one holds a thread and its stack.
set_option Elab.async false

/-! ### The header (R128, R129) -/

/-- What the laws of the header depend on is the same in both states. -/
structure SameHeader (s t : State) : Prop where
  state : t.header.state = s.header.state := by simp
  grant : t.header.grant.isSome = s.header.grant.isSome := by simp
  timer : t.header.timer = s.header.timer := by simp
  mask : t.header.mask = s.header.mask := by simp
  manual : t.header.manualTimer = s.header.manualTimer := by simp
  stroke : t.stroke.isSome = s.stroke.isSome := by simp
  point : ∀ q : Fin 4, t.points[q].state = s.points[q].state := by simp

theorem SameHeader.refl (s : State) : SameHeader s s := {}

theorem SameHeader.trans {s t u : State} (h : SameHeader s t) (k : SameHeader t u) :
    SameHeader s u :=
  ⟨k.state.trans h.state, k.grant.trans h.grant, k.timer.trans h.timer, k.mask.trans h.mask,
    k.manual.trans h.manual, k.stroke.trans h.stroke, fun q => (k.point q).trans (h.point q)⟩

theorem SameHeader.shape {s t : State} (e : SameHeader s t) (h : s.headerShape) : t.headerShape := by
  have hn : ∀ {α : Type} {a b : Option α}, b.isSome = a.isSome → a = none → b = none := by
    intro α a b h ha
    subst ha
    cases b
    · rfl
    · cases h
  unfold State.headerShape at *
  have hg := e.grant
  have hk := e.stroke
  rw [e.state, e.timer]
  revert h
  cases s.header.state
  · exact fun h => ⟨hn hg h.1, h.2⟩
  · exact fun h => ⟨hg ▸ h.1, h.2.1, hn hk h.2.2⟩
  · exact fun h => ⟨hg ▸ h.1, h.2.1, hk ▸ h.2.2⟩
  · exact fun h => ⟨hg ▸ h.1, h.2.1, hn hk h.2.2⟩
  · exact fun h => ⟨hn hg h.1, h.2⟩

theorem SameHeader.law {s t : State} (e : SameHeader s t) (h : s.headerLaw) : t.headerLaw := by
  refine ⟨e.shape h.1, ?_⟩
  unfold State.maskLaw
  rw [e.mask, e.manual]
  exact ⟨h.2.1, h.2.2.1, fun q hq => (e.point q).trans (h.2.2.2 q hq)⟩

theorem requestEnd_header (f : Grant → Bool) (s : State) : SameHeader s (requestEnd f s) := by
  unfold requestEnd; split
  · exact .refl s
  · next g hg =>
    split
    · exact { grant := by simp [hg] }
    · exact .refl s

theorem failPump_header (p : Fin 2) (s : State) : SameHeader s (failPump p s) := by
  unfold failPump; dsimp only
  refine .trans ?_ (requestEnd_header _ _)
  split
  · exact {}
  · exact {}

theorem resolvePump_header (p : Fin 2) (r : Resolution) (s : State) :
    SameHeader s (resolvePump p r s) := by
  unfold resolvePump; dsimp only; split
  · exact {}
  · split
    · exact .trans (t := editPump p (fun u => { u with unproven := u.unproven + 1 }) s) {} (failPump_header _ _)
    · exact {}
  · exact .refl s
  · exact .refl s

theorem resolveBeneficiary_header (k : Stroke) (b : Bool) (s : State) :
    SameHeader s (resolveBeneficiary k b s) := by
  refine { point := fun q => ?_ }
  unfold resolveBeneficiary resolveManual; split
  · simp
  · split
    · simp only [editAt_get]; split
      · next e => subst e; rfl
      · rfl
    · rfl

theorem resolve_header (r : Resolution) (s : State) : SameHeader s (resolve r s) := by
  unfold resolve; dsimp only; split
  · exact .refl s
  · next k hk =>
    exact .trans (.trans (t := { s with stroke := some _ }) { stroke := by simp [hk] }
      (resolveBeneficiary_header _ _ _)) (resolvePump_header _ _ _)

/-- After the stroke-start test the header is STROKING with a stroke, or CLOSING (R133, R136). -/
theorem continueBurst_shape {s : State} (hg : s.header.grant.isSome) (hk : s.stroke = none) :
    (continueBurst s).headerShape := by
  unfold continueBurst; split
  · next h => simp [h] at hg
  · next g hgr =>
    split
    · next ht =>
      obtain ⟨p, hp⟩ := Option.isSome_iff_exists.mp (strokeTest_duty ht)
      simp [startStroke, hp, State.headerShape]
    · simp [closeHeader, State.headerShape, hgr, hk]

theorem continueBurst_mask (s : State) : (continueBurst s).header.mask = s.header.mask
    ∧ (continueBurst s).header.manualTimer = s.header.manualTimer := by
  unfold continueBurst startStroke; dsimp only; repeat' split
  all_goals exact ⟨rfl, rfl⟩

theorem maskLaw_congr {s t : State} (h : s.maskLaw) (hm : t.header.mask = s.header.mask)
    (ht : t.header.manualTimer = s.header.manualTimer)
    (hq : ∀ q : Fin 4, t.points[q].state = s.points[q].state) : t.maskLaw := by
  unfold State.maskLaw; rw [hm, ht]
  exact ⟨h.1, h.2.1, fun q hq' => (hq q).trans (h.2.2 q hq')⟩

theorem continueBurst_header {s : State} (h : s.maskLaw) (hg : s.header.grant.isSome)
    (hk : s.stroke = none) : (continueBurst s).headerLaw :=
  ⟨continueBurst_shape hg hk,
    maskLaw_congr h (continueBurst_mask s).1 (continueBurst_mask s).2 (by simp)⟩

theorem applyPendingDuty_header (s : State) : SameHeader s (applyPendingDuty s) := {}

theorem clearStroke_header {s : State} (h : s.headerLaw) : (clearStroke s).headerLaw := by
  have e := applyPendingDuty_header ({ s with stroke := none } : State)
  have hm : (applyPendingDuty { s with stroke := none }).maskLaw :=
    maskLaw_congr h.2 (by simp) (by simp) (by simp)
  have hs := h.1
  unfold clearStroke; dsimp only
  unfold State.headerShape at hs
  split
  · next hst =>
    have hst' : s.header.state = .stroking := by simpa using hst
    rw [hst'] at hs
    exact continueBurst_header hm (by simpa using hs.1) (by simp)
  · next hst =>
    have hst' : s.header.state ≠ .stroking := by simpa using hst
    refine ⟨?_, hm⟩
    unfold State.headerShape
    rw [e.state]
    dsimp only
    revert hs hst'
    cases s.header.state
    · exact fun h _ => by simpa using h
    · exact fun h _ => by simpa using And.intro h.1 h.2.1
    · exact fun _ h => absurd rfl h
    · exact fun h _ => by simpa using And.intro h.1 h.2.1
    · exact fun h _ => by simpa using h

theorem clearIfFinished_header {s : State} (h : s.headerLaw) : (clearIfFinished s).headerLaw := by
  unfold clearIfFinished; repeat' split
  · exact h
  · exact clearStroke_header h
  · exact h

theorem grantIfDue_header {s : State} (h : s.headerLaw) : (grantIfDue s).headerLaw := by
  have key : ∀ (b : Beneficiary) (q : Fin 4) (t : State), t.stroke = none → t.maskLaw → (openGrant b q t).headerLaw := by
    intro b q t ht hm
    exact ⟨by simp [openGrant, State.headerShape, ht], hm⟩
  unfold grantIfDue; split
  · next hd =>
    have hk : s.stroke = none := by simp [State.decisionDue] at hd; exact hd.1.2
    split
    · unfold grantManual; split
      · exact h
      · exact key _ _ _ hk h.2
    · unfold grantAccount; repeat' split
      · exact h
      · exact h
      · exact key _ _ _ hk h.2
  · exact h

theorem endManual_header {s : State} (h : s.headerLaw) : (endManual s).headerLaw := by
  unfold endManual; split
  · exact h
  · exact ⟨h.1, by simp [State.maskLaw, raise]⟩

theorem headerTrip_header {s : State} (h : s.headerLaw) : (headerTrip s).headerLaw := by
  unfold headerTrip; dsimp only; split
  · exact h
  · exact endManual_header ⟨by simp [State.headerShape], h.2⟩

theorem changeTrips_header {s : State} {f : TripSet → TripSet} (h : s.headerLaw) :
    (changeTrips f s).headerLaw := by
  have h1 : ({ s with trips := f s.trips } : State).headerLaw := h
  unfold changeTrips headerUntrip; dsimp only; repeat' split
  · exact headerTrip_header h1
  · next ht =>
    refine ⟨?_, h.2⟩
    have := h.1
    unfold State.headerShape at this ⊢
    rw [ht] at this
    exact this
  · exact h
  · exact h

theorem enterTripped_header {s : State} {m : Fin 16} (h : s.headerLaw) : (enterTripped m s).headerLaw := by
  have h1 : (raise .monitorTrip m.1 (editMonitor m (fun u => { u with state := .tripped, timer := none }) s)).headerLaw := h
  unfold enterTripped; dsimp only; split
  · exact changeTrips_header h1
  · exact h1

theorem releaseAction_header {s : State} {m a} (h : s.headerLaw) : (releaseAction m a s).headerLaw := by
  unfold releaseAction; split
  · exact changeTrips_header h
  · exact h

theorem leaveMask_header {s : State} {q : Fin 4} (h : s.headerLaw) :
    (leaveMask q s).headerLaw ∧ q ∉ (leaveMask q s).header.mask := by
  unfold leaveMask; split
  · split
    · refine ⟨endManual_header h, ?_⟩
      unfold endManual; split
      · next he => simp at he; simp [he]
      · simp [raise]
    · next hc ha =>
      refine ⟨⟨h.1, ?_, ?_, ?_⟩, by simp⟩
      · have h2 := h.2.1
        simp only [List.contains_iff_mem, List.all_eq_true, Classical.not_forall] at hc ha
        constructor
        · intro _ hn
          obtain ⟨x, hx, hne⟩ := ha
          have : x ∈ s.header.mask.filter (· != q) := List.mem_filter.mpr ⟨hx, by simpa using hne⟩
          have hn' : s.header.mask.filter (· != q) = [] := hn
          rw [hn'] at this; simp at this
        · intro _; exact h2.mpr (fun hn => by rw [hn] at hc; simp at hc)
      · exact h.2.2.1.filter _
      · exact fun p hp => h.2.2.2 p (List.mem_filter.mp hp).1
  · next hc => exact ⟨h, by simpa using hc⟩

theorem detachAll_header (i : Fin 12) (s : State) (h : s.headerLaw) : (detachAll i s).headerLaw :=
  fold_keeps (fun _ _ h => SameHeader.law {} h) _ _ h

theorem pointChanged_header (i : Fin 12) (before : Option (Fin 4)) (s : State) :
    SameHeader s (pointChanged i before s) := by
  have h := requestEnd_header (·.forAccount i) s
  unfold pointChanged; dsimp only; repeat' split
  · exact .refl s
  · exact h.trans (t := requestEnd (·.forAccount i) s) {}
  · exact h.trans (t := requestEnd (·.forAccount i) s) {}
  · exact h

theorem fold_header {α : Type} {f : State → α → State} (hf : ∀ s a, SameHeader s (f s a)) (l : List α)
    (s : State) : SameHeader s (l.foldl f s) := by
  induction l generalizing s with
  | nil => exact .refl s
  | cons a as ih => exact (hf s a).trans (ih _)

theorem configurePoint_header {q : Fin 4} {st : PointState} {l : Nat} {s : State} (h : s.headerLaw) :
    (configurePoint q st l s).headerLaw := by
  -- the law but for the mask member being disabled
  have hw : ∀ t : State, SameHeader (writePoint q st l s) t → t.headerShape ∧ (t.header.manualTimer.isSome ↔ t.header.mask ≠ []) ∧ t.header.mask.Pairwise (fun p q => p.1 < q.1)
      ∧ (∀ p ∈ t.header.mask, p ≠ q → t.points[p].state = .enabled) ∧ t.points[q].state = st := by
    intro t e
    have h1 : (writePoint q st l s).headerShape := h.1
    refine ⟨e.shape h1, by rw [e.manual, e.mask]; exact h.2.1, by rw [e.mask]; exact h.2.2.1, fun p hp hne => ?_, ?_⟩
    · rw [e.point, e.mask] at *
      simp only [writePoint, editAt_get, if_neg (Ne.symm hne)]
      exact h.2.2.2 p hp
    · rw [e.point]; simp only [writePoint, editAt_get, if_true]
  have ha : SameHeader (writePoint q st l s) (afterLimit q s.points[q] (writePoint q st l s)) := by
    unfold afterLimit; split
    · exact fold_header (fun _ _ => {}) _ _
    · exact .refl _
  obtain ⟨h1, h2, h3, h4, h5⟩ := hw _ ha
  apply grantIfDue_header
  generalize afterLimit q s.points[q] (writePoint q st l s) = t at *
  have hmem : q ∈ t.header.mask → s.points[q].state = .enabled := fun hq => h.2.2.2 q (by rw [ha.mask] at hq; exact hq)
  unfold afterState disablePoint; split
  · refine (requestEnd_header _ _).law ?_
    unfold leaveMask; split
    · split
      · unfold endManual; split
        · next he => exact ⟨h1, h2, h3, by simp at he; simp [he]⟩
        · exact ⟨h1, by simp [State.maskLaw, raise]⟩
      · next hc hall =>
        refine ⟨h1, ?_, h3.filter _, fun p hp => ?_⟩
        · simp only [List.contains_iff_mem, List.all_eq_true, Classical.not_forall] at hc hall
          constructor
          · intro _ hn
            obtain ⟨x, hx, hne⟩ := hall
            have : x ∈ t.header.mask.filter (· != q) := List.mem_filter.mpr ⟨hx, by simpa using hne⟩
            have hn' : t.header.mask.filter (· != q) = [] := hn
            rw [hn'] at this; simp at this
          · intro _; exact h2.mpr (fun hn => by rw [hn] at hc; simp at hc)
        · have := List.mem_filter.mp hp
          exact h4 p this.1 (by simpa using this.2)
    · next hc => exact ⟨h1, h2, h3, fun p hp => h4 p hp (fun e => hc (by simpa [e] using hp))⟩
  · next hn =>
    refine ⟨h1, h2, h3, fun p hp => ?_⟩
    by_cases e : p = q
    · subst e
      have := hmem hp
      simp only [not_and] at hn
      cases hs : t.points[p].state
      · exact absurd hs (hn this)
      · rfl
    · exact h4 p hp e

theorem evaluate_header {s : State} {m v} (h : s.headerLaw) : (evaluate m v s).headerLaw := by
  have h1 : ∀ f, (editMonitor m f s).headerLaw := fun _ => h
  unfold evaluate; dsimp only; split
  · exact h
  · split
    · unfold evaluateFollowing; dsimp only; repeat' split
      · exact enterTripped_header (h1 _)
      · exact h
      · exact releaseAction_header h
      · exact h
      · exact h
      · exact h
    · exact SameHeader.law {} h

theorem coldStart_header (h0 : State.reset.headerLaw) (b : Bool) (s : State) : (coldStart b s).headerLaw := by
  have h1 : (startState s.supply.image).headerLaw := by
    unfold startState; split
    · exact h0
    · next m _ =>
      refine fold_keeps (fun _ _ h => SameHeader.law {} h) _ _ ?_
      exact ⟨⟨rfl, rfl⟩, by simp [State.maskLaw, State.reset, Image.state, raise]⟩
  have h2 : (crystalAtStart b (keepInputs s (startState s.supply.image))).headerLaw := SameHeader.law {} h1
  unfold coldStart stopAtStart
  apply grantIfDue_header
  split
  · exact changeTrips_header h2
  · exact h2

theorem warmReset_header (s : State) : (warmReset s).headerLaw := by
  apply grantIfDue_header
  unfold settleHeader
  refine ⟨?_, by simp [State.maskLaw, clearHeader]⟩
  unfold State.headerShape; dsimp only
  split
  · next h => split at h <;> simp [clearHeader]
  all_goals
    first
    | (next h => split at h <;> cases h)
    | simp [clearHeader]

theorem settle_header (r : Fin 6) (s : State) : SameHeader s (settle r s) := {}

theorem detachRun_header (i : Fin 12) (r : Fin 6) (s : State) : SameHeader s (detachRun i r s) := {}

theorem attachRun_header (i : Fin 12) (r : Fin 6) (s : State) : SameHeader s (attachRun i r s) :=
  (settle_header r s).trans (t := settle r s) ⟨rfl, rfl, rfl, rfl, rfl, rfl, fun _ => rfl⟩

theorem leaveOpen_header (i : Fin 12) (s : State) : SameHeader s (leaveOpen i s) := {}

theorem update_header (r : Fin 6) (hd : Held) (s : State) : SameHeader s (update r hd s) := {}

theorem removeFromService_header (r : Fin 6) (s : State) : SameHeader s (removeFromService r s) where
  state := by simp [removeFromService]
  grant := by simp [removeFromService]
  timer := by simp [removeFromService]
  mask := by simp [removeFromService]
  manual := by simp [removeFromService]
  stroke := by simp [removeFromService]
  point := by simp [removeFromService]

theorem startScan_header (s : State) : SameHeader s (startScan s) := {}

theorem trigger_header (s : State) : SameHeader s (trigger s) := {}

theorem startSave_header (s : State) : SameHeader s (startSave s) := {}

theorem rollover_header (s : State) : SameHeader s (rollover s) := {}

theorem expireSlot_header (q : Fin 8) (s : State) : SameHeader s (expireSlot q s) := {}

theorem rollAtBoundary_header (s : State) : SameHeader s (rollAtBoundary s) := by
  unfold rollAtBoundary; split
  · exact {}
  · exact .refl s

theorem completeScan_header (s : State) : SameHeader s (completeScan s) := {}

theorem takeCode_header (i c) (s : State) : SameHeader s (takeCode i c s) := {}

theorem makeDuty_header (u) (s : State) : SameHeader s (makeDuty u s) := {}

end Sys2Proof.Machine
end

