-- ==== Sys2Proof/Laws/Obligation.lean ====
section
/-! SUPPORT. What each shared operation does to the laws of the odourant masses (R100, R102, R117). -/

namespace Sys2Proof.Machine

-- One proof after the other: a proof that waits for an earlier one holds a thread and its stack.
set_option Elab.async false

/-! ### The obligation (R4, R100, R102, R108) -/

/-- Two records that the laws of the masses do not tell apart. -/
structure SameMasses (a b : Account) : Prop where
  state : b.state = a.state := by rfl
  point : b.point = a.point := by rfl
  owed : b.owed = a.owed := by rfl
  credited : b.credited = a.credited := by rfl
  waived : b.waived = a.waived := by rfl
  reserved : b.reserved = a.reserved := by rfl

theorem SameMasses.refl (a : Account) : SameMasses a a := {}

theorem SameMasses.backlog {a b : Account} (e : SameMasses a b) : b.backlog = a.backlog := by
  rw [Account.backlog, Account.backlog, e.owed, e.credited, e.waived]

/-- What the laws of the masses read of a stroke. -/
def Stroke.weight (k : Stroke) : Fin 2 × Beneficiary × Nat × Resolution :=
  (k.pump, k.beneficiary, k.mass, k.resolution)

/-- What the laws of the masses depend on is the same in both states, or keeps them. -/
structure SameObligation (s t : State) : Prop where
  account : ∀ i : Fin 12, SameMasses s.accounts[i] t.accounts[i] := by simp [SameMasses.refl]
  limit : ∀ q : Fin 4, t.points[q].limit = s.points[q].limit := by simp
  pump : ∀ p : Fin 2, t.pumps[p].state = s.pumps[p].state := by simp
  mass : ∀ p : Fin 2, t.pumps[p].config.mass = s.pumps[p].config.mass := by simp
  stroke : t.stroke.map Stroke.weight = s.stroke.map Stroke.weight := by simp
  supply : t.supply = s.supply := by simp

theorem SameObligation.refl (s : State) : SameObligation s s := {}

theorem SameObligation.trans {s t u : State} (h : SameObligation s t) (k : SameObligation t u) :
    SameObligation s u :=
  ⟨fun i => ⟨(k.account i).state.trans (h.account i).state, (k.account i).point.trans (h.account i).point,
    (k.account i).owed.trans (h.account i).owed, (k.account i).credited.trans (h.account i).credited,
    (k.account i).waived.trans (h.account i).waived, (k.account i).reserved.trans (h.account i).reserved⟩,
    fun q => (k.limit q).trans (h.limit q), fun p => (k.pump p).trans (h.pump p),
    fun p => (k.mass p).trans (h.mass p), k.stroke.trans h.stroke, k.supply.trans h.supply⟩

/-- The laws of one record. -/
structure MassLaw (points : Table Point 4) (a : Account) : Prop where
  masses : a.credited + a.waived + a.reserved ≤ a.owed ∧ a.owed ≤ Config.maxMass
  limit : ∀ q : Fin 4, a.point = some q → a.backlog ≤ points[q].limit
  settled : a.state = .free ∨ a.state = .closed → a.credited + a.waived = a.owed ∧ a.reserved = 0
  pointless : a.state = .opened → a.point = none → a.backlog ≤ a.reserved

theorem obligationLaw_iff {a : Table Account 12} {q : Table Point 4} {p : Table Pump 2} :
    ObligationLaw a q p ↔ (∀ i : Fin 12, MassLaw q a[i])
      ∧ ∀ (u : Fin 2) (x : Fin 4), p[u].state ≠ .isolated → p[u].config.mass ≤ q[x].limit :=
  ⟨fun h => ⟨fun i => ⟨h.masses i, h.limit i, h.settled i, h.pointless i⟩, h.strokeMass⟩,
    fun h => ⟨fun i => (h.1 i).masses, fun i => (h.1 i).limit, fun i => (h.1 i).settled,
      fun i => (h.1 i).pointless, h.2⟩⟩

theorem MassLaw.congr {q q' : Table Point 4} {a b : Account} (h : MassLaw q a) (e : SameMasses a b)
    (hq : ∀ x : Fin 4, q'[x].limit = q[x].limit) : MassLaw q' b where
  masses := by rw [e.credited, e.waived, e.reserved, e.owed]; exact h.masses
  limit x hx := by rw [e.backlog, hq]; exact h.limit x (e.point ▸ hx)
  settled hs := by
    rw [e.credited, e.waived, e.reserved, e.owed]; exact h.settled (e.state ▸ hs)
  pointless hs hx := by rw [e.backlog, e.reserved]; exact h.pointless (e.state ▸ hs) (e.point ▸ hx)

/-- The laws of the part but for those of its snapshots. -/
structure State.massLaw (s : State) : Prop where
  account : ∀ i : Fin 12, MassLaw s.points s.accounts[i]
  strokeMass : ∀ (p : Fin 2) (q : Fin 4), s.pumps[p].state ≠ .isolated →
    s.pumps[p].config.mass ≤ s.points[q].limit
  stroke : ∀ k, s.stroke = some k → s.strokeLaw k
  reserve : ∀ i : Fin 12, s.accounts[i].reserved = s.strokeReserve i

theorem obligation_iff {s : State} : s.obligationLaw ↔ s.massLaw
    ∧ ∀ m ∈ s.snapshots, ObligationLaw m.accounts m.points m.pumps := by
  constructor
  · rintro ⟨h1, h2, h3, h4⟩
    have := obligationLaw_iff.mp h1
    exact ⟨⟨this.1, this.2, h3, h4⟩, h2⟩
  · rintro ⟨h, h2⟩
    exact ⟨obligationLaw_iff.mpr ⟨h.account, h.strokeMass⟩, h2, h.stroke, h.reserve⟩

theorem obligation_of {s t : State} (h : s.obligationLaw) (ht : t.massLaw)
    (hs : t.supply = s.supply := by simp) : t.obligationLaw :=
  obligation_iff.mpr ⟨ht, by simpa [State.snapshots, hs] using h.2.1⟩

theorem strokeReserve_congr {s t : State} (h : t.stroke.map Stroke.weight = s.stroke.map Stroke.weight)
    (i : Fin 12) : t.strokeReserve i = s.strokeReserve i := by
  unfold State.strokeReserve
  cases ht : t.stroke <;> cases hs : s.stroke <;> rw [ht, hs] at h <;> simp [Stroke.weight] at h ⊢
  obtain ⟨h1, h2, h3, h4⟩ := h
  rw [h2, h3, h4]

theorem SameObligation.massLaw {s t : State} (e : SameObligation s t) (h : s.massLaw) : t.massLaw where
  account i := (h.account i).congr (e.account i) e.limit
  strokeMass p q hp := by rw [e.mass, e.limit]; exact h.strokeMass p q (e.pump p ▸ hp)
  stroke k hk hr := by
    have he := e.stroke
    rw [hk] at he
    cases hs : s.stroke with
    | none => rw [hs] at he; cases he
    | some k' =>
      rw [hs] at he; simp [Stroke.weight] at he
      obtain ⟨e1, e2, e3, e4⟩ := he
      obtain ⟨g1, g2, g3⟩ := h.stroke k' hs (e4 ▸ hr)
      have hp : t.pumps[k.pump] = t.pumps[k'.pump] := by
        have : ∀ p q : Fin 2, p = q → t.pumps[p] = t.pumps[q] := by rintro p _ rfl; rfl
        exact this _ _ e1
      refine ⟨by rw [hp, e.pump]; exact g1, by rw [hp, e.mass, e3]; exact g2, fun i hi => ?_⟩
      rw [(e.account i).state]; exact g3 i (e2 ▸ hi)
  reserve i := by rw [(e.account i).reserved, strokeReserve_congr e.stroke]; exact h.reserve i

theorem SameObligation.law {s t : State} (e : SameObligation s t) (h : s.obligationLaw) : t.obligationLaw :=
  obligation_of h (e.massLaw (obligation_iff.mp h).1) e.supply

theorem obligation_mass {s : State} (h : s.obligationLaw) : s.massLaw := (obligation_iff.mp h).1

theorem fold_obligation {α : Type} {f : State → α → State} (hf : ∀ s a, SameObligation s (f s a)) (l : List α)
    (s : State) : SameObligation s (l.foldl f s) := by
  induction l generalizing s with
  | nil => exact .refl s
  | cons a as ih => exact (hf s a).trans (ih _)

/-- The mass reserved never exceeds a catch-up limit. -/
theorem reserve_le {s : State} (h2 : ∀ (p : Fin 2) (q : Fin 4), s.pumps[p].state ≠ .isolated →
      s.pumps[p].config.mass ≤ s.points[q].limit) (h3 : ∀ k, s.stroke = some k → s.strokeLaw k)
    (h4 : ∀ i : Fin 12, s.accounts[i].reserved = s.strokeReserve i) (i : Fin 12) (q : Fin 4) :
    s.accounts[i].reserved ≤ s.points[q].limit := by
  rw [h4]; unfold State.strokeReserve; split
  · exact Nat.zero_le _
  · next k hk =>
    split
    · next hr =>
      obtain ⟨g1, g2, _⟩ := h3 k hk hr.2
      rw [← g2]; exact h2 _ _ (by rw [g1]; decide)
    · exact Nat.zero_le _

/-- One record changed without a change of what the stroke record reads of it. -/
theorem massLaw_edit {s : State} {i : Fin 12} {f : Account → Account} (h2 : ∀ (p : Fin 2) (q : Fin 4), s.pumps[p].state ≠ .isolated →
      s.pumps[p].config.mass ≤ s.points[q].limit) (h3 : ∀ k, s.stroke = some k → s.strokeLaw k)
    (h4 : ∀ i : Fin 12, s.accounts[i].reserved = s.strokeReserve i)
    (ho : ∀ j : Fin 12, i ≠ j → MassLaw s.points s.accounts[j])
    (hf : MassLaw s.points (f s.accounts[i])) (hr : (f s.accounts[i]).reserved = s.accounts[i].reserved)
    (hs : (∃ k, s.stroke = some k ∧ k.beneficiary = .account i ∧ k.resolution = .unresolved) →
      (f s.accounts[i]).state = s.accounts[i].state ∨ (f s.accounts[i]).state = .closing) :
    (editAccount i f s).massLaw where
  account j := by
    simp only [editAccount, editAt_get]; split
    · exact hf
    · next e => exact ho j e
  strokeMass := h2
  stroke k hk hu := by
    obtain ⟨g1, g2, g3⟩ := h3 k hk hu
    refine ⟨g1, g2, fun j hj => ?_⟩
    simp only [editAccount, editAt_get]; split
    · next e =>
      subst e
      rcases hs ⟨k, hk, hj, hu⟩ with e | e
      · rw [e]; exact g3 i hj
      · exact .inr e
    · exact g3 j hj
  reserve j := by
    show (editAt s.accounts i f)[j].reserved = s.strokeReserve j
    rw [editAt_get]; split
    · next e => subst e; rw [hr]; exact h4 i
    · exact h4 j

/-- The waiver brings the record within the limit (R102). -/
theorem waived_law {q : Table Point 4} {a : Account} {x : Fin 4} (hx : a.point = some x)
    (h1 : a.credited + a.waived + a.reserved ≤ a.owed ∧ a.owed ≤ Config.maxMass)
    (h2 : a.state = .free ∨ a.state = .closed → a.credited + a.waived = a.owed ∧ a.reserved = 0)
    (hr : a.reserved ≤ q[x].limit) :
    MassLaw q { a with waived := addMass a.waived (a.backlog - q[x].limit) } := by
  have hb : a.backlog = a.owed - a.credited - a.waived := rfl
  obtain ⟨g1, g2⟩ := h1
  have hw : addMass a.waived (a.backlog - q[x].limit) = a.waived + (a.backlog - q[x].limit) :=
    Nat.min_eq_left (by omega)
  rw [hw]
  refine ⟨⟨?_, g2⟩, fun y hy => ?_, fun hs => ?_, fun _ hy => ?_⟩
  · show a.credited + (a.waived + (a.backlog - q[x].limit)) + a.reserved ≤ a.owed
    omega
  · have : x = y := Option.some.inj (hx.symm.trans hy)
    subst this
    show a.owed - a.credited - (a.waived + (a.backlog - q[x].limit)) ≤ q[x].limit
    omega
  · obtain ⟨e1, e2⟩ := h2 hs
    refine ⟨?_, e2⟩
    show a.credited + (a.waived + (a.backlog - q[x].limit)) = a.owed
    omega
  · exact absurd (hx.symm.trans hy) (by simp)

/-- The waiver rule restores the law of one record, all else being lawful (R102). -/
theorem waive_mass {s : State} {i : Fin 12} (h2 : ∀ (p : Fin 2) (q : Fin 4), s.pumps[p].state ≠ .isolated →
      s.pumps[p].config.mass ≤ s.points[q].limit) (h3 : ∀ k, s.stroke = some k → s.strokeLaw k)
    (h4 : ∀ i : Fin 12, s.accounts[i].reserved = s.strokeReserve i)
    (ho : ∀ j : Fin 12, i ≠ j → MassLaw s.points s.accounts[j])
    (h1 : s.accounts[i].credited + s.accounts[i].waived + s.accounts[i].reserved ≤ s.accounts[i].owed
      ∧ s.accounts[i].owed ≤ Config.maxMass)
    (h5 : s.accounts[i].state = .free ∨ s.accounts[i].state = .closed →
      s.accounts[i].credited + s.accounts[i].waived = s.accounts[i].owed ∧ s.accounts[i].reserved = 0)
    (h6 : s.accounts[i].state = .opened → s.accounts[i].point = none → s.accounts[i].backlog ≤ s.accounts[i].reserved) :
    (waive i s).massLaw := by
  have base : MassLaw s.points s.accounts[i] → s.massLaw := fun hi =>
    ⟨fun j => if e : i = j then e ▸ hi else ho j e, h2, h3, h4⟩
  unfold waive; dsimp only; split
  · next hn => exact base ⟨h1, fun q hq => absurd (hn.symm.trans hq) (by simp), h5, h6⟩
  · next q hq =>
    split
    · next he =>
      refine base ⟨h1, fun y hy => ?_, h5, h6⟩
      have : q = y := Option.some.inj (hq.symm.trans hy)
      subst this
      omega
    · refine SameObligation.massLaw (s := editAccount i (fun a => { a with waived := addMass a.waived (s.accounts[i].backlog - s.points[q].limit) }) s) {} ?_
      exact massLaw_edit h2 h3 h4 ho (waived_law hq h1 h5 (reserve_le h2 h3 h4 i q)) rfl fun _ => .inl rfl

theorem enterClosed_mass {s : State} {i : Fin 12} (h : s.massLaw) (hr : s.accounts[i].reserved = 0)
    (hk : ¬∃ k, s.stroke = some k ∧ k.beneficiary = .account i ∧ k.resolution = .unresolved) :
    (enterClosed i s).massLaw := by
  have hf : MassLaw s.points { s.accounts[i] with
      state := .closed
      waived := addMass s.accounts[i].waived s.accounts[i].backlog
      closeTime := some s.clock.deviceTime } := by
    generalize ha : s.accounts[i] = a at hr
    have hb : a.backlog = a.owed - a.credited - a.waived := rfl
    have g := (h.account i).masses
    rw [ha] at g
    have hw : addMass a.waived a.backlog = a.waived + a.backlog := Nat.min_eq_left (by omega)
    rw [hw]
    refine ⟨⟨?_, g.2⟩, fun y hy => ?_, fun _ => ⟨?_, hr⟩, fun hs => by cases hs⟩
    · show a.credited + (a.waived + a.backlog) + a.reserved ≤ a.owed; omega
    · show a.owed - a.credited - (a.waived + a.backlog) ≤ _; omega
    · show a.credited + (a.waived + a.backlog) = a.owed; omega
  refine SameObligation.massLaw (s := editAccount i (fun a =>
      { a with
        state := .closed
        waived := addMass a.waived a.backlog
        closeTime := some s.clock.deviceTime }) s) { account := fun _ => .refl _ } ?_
  exact massLaw_edit h.strokeMass h.stroke h.reserve (fun j _ => h.account j) hf rfl fun hh => absurd hh hk

theorem writeTotals_mass {r : Fin 6} {o : Option (Fin 12)} {u : UpdateResults} {e : Bool} {s : State} (h : s.massLaw)
    (ho : ∀ i, o = some i → s.accounts[i].state = .opened) : (writeTotals r o u e s).massLaw := by
  unfold writeTotals; dsimp only; split
  · next i =>
    have hs := ho i rfl
    generalize hq : s.quality[s.accounts[i].quality].heating = hv
    have g := (h.account i).masses
    have step : ∀ b : Account, s.accounts[i].addUpdate hv u.actual u.base e = b →
        b.state = s.accounts[i].state ∧ b.point = s.accounts[i].point ∧ b.credited = s.accounts[i].credited
        ∧ b.waived = s.accounts[i].waived ∧ b.reserved = s.accounts[i].reserved
        ∧ b.owed = addMass s.accounts[i].owed (s.accounts[i].owedIncrement u.base) := by
      rintro b rfl; exact ⟨rfl, rfl, rfl, rfl, rfl, rfl⟩
    obtain ⟨e1, e2, e3, e4, e5, e6⟩ := step _ rfl
    have hadd : addMass s.accounts[i].owed (s.accounts[i].owedIncrement u.base)
        = min (s.accounts[i].owed + s.accounts[i].owedIncrement u.base) Config.maxMass := rfl
    have own : (editAccount i (fun a => a.addUpdate hv u.actual u.base e) s).accounts[i]
        = s.accounts[i].addUpdate hv u.actual u.base e := by simp only [editAccount, editAt_get, if_true]
    have other : ∀ j : Fin 12, i ≠ j → (editAccount i (fun a => a.addUpdate hv u.actual u.base e) s).accounts[j] = s.accounts[j] := by
      intro j hj; simp only [editAccount, editAt_get, if_neg hj]
    have st : ∀ k, s.stroke = some k → (editAccount i (fun a => a.addUpdate hv u.actual u.base e) s).strokeLaw k := by
      intro k hk hu
      obtain ⟨g1, g2, g3⟩ := h.stroke k hk hu
      refine ⟨g1, g2, fun j hj => ?_⟩
      by_cases hij : i = j
      · subst hij; rw [own, e1]; exact .inl hs
      · rw [other j hij]; exact g3 j hj
    have rs : ∀ j : Fin 12, (editAccount i (fun a => a.addUpdate hv u.actual u.base e) s).accounts[j].reserved = s.strokeReserve j := by
      intro j
      by_cases hij : i = j
      · subst hij; rw [own, e5]; exact h.reserve i
      · rw [other j hij]; exact h.reserve j
    split
    · next hinc =>
      have hp : s.accounts[i].point ≠ none := by
        intro hn; unfold Account.owedIncrement at hinc; rw [if_neg (by rw [hn]; decide)] at hinc; omega
      refine waive_mass (s := editAccount i (fun a => a.addUpdate hv u.actual u.base e) s) h.strokeMass st rs (fun j hj => by rw [other j hj]; exact h.account j) ?_ ?_ ?_
      · rw [own, e3, e4, e5, e6, hadd]; omega
      · rw [own, e1, hs]; rintro (hh | hh) <;> cases hh
      · rw [own, e2]; exact fun _ hn => absurd hn hp
    · next hinc =>
      have h0 : s.accounts[i].owedIncrement u.base = 0 := by omega
      have h6 : (s.accounts[i].addUpdate hv u.actual u.base e).owed = s.accounts[i].owed := by
        rw [e6, h0]; exact Nat.min_eq_left g.2
      refine SameObligation.massLaw (s := s) { account := fun j => ?_ } h
      by_cases hij : i = j
      · subst hij; rw [own]; exact ⟨e1, e2, h6, e3, e4, e5⟩
      · rw [other j hij]; exact .refl _
  · exact SameObligation.massLaw (s := s) {} h

theorem update_mass {r hd} {s : State} (h : s.massLaw) (ha : ∀ i, s.ownerOf r = some i → s.accounts[i].state = .opened) :
    (update r hd s).massLaw := by
  obtain ⟨run, b, e, u, _, he⟩ := update_eq r hd s
  rw [he]
  have h1 : (raiseIf b .overspeed r.1 (editRun r (fun _ => run) s)).massLaw := SameObligation.massLaw (s := s) {} h
  have h2 := writeTotals_mass (r := r) (o := s.ownerOf r) (u := u) (e := e) h1 (fun i hi => by simpa using ha i hi)
  exact SameObligation.massLaw {} h2

theorem settle_mass {r} {s : State} (h : s.massLaw) (ha : ∀ i, s.ownerOf r = some i → s.accounts[i].state = .opened) :
    (settle r s).massLaw := by
  unfold settle zeroCarries; split
  · exact SameObligation.massLaw (s := update r s.runs[r].held s) {} (update_mass h ha)
  · exact SameObligation.massLaw (s := s) {} h

theorem detachRun_mass {i r} {s : State} (h : s.massLaw) (ha : ∀ i, s.ownerOf r = some i → s.accounts[i].state = .opened) :
    (detachRun i r s).massLaw := by
  refine SameObligation.massLaw (s := settle r s) { account := fun j => ?_ , limit := ?_, pump := ?_, mass := ?_, stroke := ?_, supply := ?_} (settle_mass h ha)
  · simp only [detachRun, editAccount, editAt_get]; split
    · next e => subst e; exact {}
    · exact .refl _
  all_goals simp [detachRun]

/-! accounts' states through settle (from Acct) -/

theorem waive_state (i : Fin 12) (s : State) (j : Fin 12) : (waive i s).accounts[j].state = s.accounts[j].state
    ∧ (waive i s).accounts[j].runs = s.accounts[j].runs := by
  unfold waive; dsimp only; repeat' split
  · exact ⟨rfl, rfl⟩
  · exact ⟨rfl, rfl⟩
  · simp only [raise_keeps, editAccount, editAt_get]; split
    · next e => subst e; exact ⟨rfl, rfl⟩
    · exact ⟨rfl, rfl⟩

theorem update_owner (r hd) (s : State) (j : Fin 12) : (update r hd s).accounts[j].state = s.accounts[j].state
    ∧ (update r hd s).accounts[j].runs = s.accounts[j].runs := by
  obtain ⟨run, b, e, u, _, he⟩ := update_eq r hd s
  rw [he]
  unfold writeTotals; dsimp only; split
  · next i _ =>
    have h1 : ∀ q, (editAccount i (fun a => a.addUpdate q u.actual u.base e) (raiseIf b .overspeed r.1 (editRun r (fun _ => run) s))).accounts[j].state = s.accounts[j].state
        ∧ (editAccount i (fun a => a.addUpdate q u.actual u.base e) (raiseIf b .overspeed r.1 (editRun r (fun _ => run) s))).accounts[j].runs = s.accounts[j].runs := by
      intro q; simp only [editAccount, editAt_get, raiseIf_keeps, editRun_keeps]; split
      · next e => subst e; exact ⟨rfl, rfl⟩
      · exact ⟨rfl, rfl⟩
    split
    · simp only [newValue_keeps]
      rw [(waive_state _ _ _).1, (waive_state _ _ _).2]; exact h1 _
    · exact h1 _
  · simp

theorem settle_owner (r) (s : State) (j : Fin 12) : (settle r s).accounts[j].state = s.accounts[j].state
    ∧ (settle r s).accounts[j].runs = s.accounts[j].runs := by
  unfold settle zeroCarries; split
  · simpa using update_owner r s.runs[r].held s j
  · simp

theorem detachRun_owner (i r) (s : State) (j : Fin 12) : (detachRun i r s).accounts[j].state = s.accounts[j].state
    ∧ ∀ x ∈ (detachRun i r s).accounts[j].runs, x ∈ s.accounts[j].runs := by
  have h := settle_owner r s j
  simp only [detachRun, editAccount, editAt_get]; split
  · next e => subst e; exact ⟨h.1, fun x hx => by rw [← h.2]; exact (List.mem_filter.mp hx).1⟩
  · exact ⟨h.1, fun x hx => by rw [← h.2]; exact hx⟩

/-- Every account that has runs is OPEN. -/
def ownersOpen (s : State) : Prop := ∀ i : Fin 12, s.accounts[i].runs ≠ [] → s.accounts[i].state = .opened

theorem ownersOpen_owner {s : State} (h : ownersOpen s) {r i} (ho : s.ownerOf r = some i) : s.accounts[i].state = .opened := by
  have := List.find?_some ho
  refine h i fun hn => ?_
  rw [hn] at this; simp at this

theorem detachAll_mass {i} {s : State} (h : s.massLaw) (ha : ownersOpen s) :
    (detachAll i s).massLaw ∧ (detachAll i s).accounts[i].state = s.accounts[i].state ∧ (detachAll i s).supply = s.supply := by
  unfold detachAll
  refine fold_keeps (P := fun t => (t.massLaw ∧ t.accounts[i].state = s.accounts[i].state ∧ t.supply = s.supply) ∧ ownersOpen t) (fun t r ht => ?_) _ s ⟨⟨h, rfl, rfl⟩, ha⟩ |>.1
  refine ⟨⟨detachRun_mass ht.1.1 (fun _ ho => ownersOpen_owner ht.2 ho), (detachRun_owner i r t i).1.trans ht.1.2.1, by simpa using ht.1.2.2⟩, fun j hj => ?_⟩
  rw [(detachRun_owner i r t j).1]
  refine ht.2 j fun hn => hj ?_
  exact List.eq_nil_iff_forall_not_mem.mpr fun x hx => by have := (detachRun_owner i r t j).2 x hx; rw [hn] at this; cases this

theorem reserve_zero {s : State} (h : s.massLaw) {i : Fin 12} (hn : ¬∃ k, s.stroke = some k ∧ k.beneficiary = .account i ∧ k.resolution = .unresolved) :
    s.accounts[i].reserved = 0 := by
  rw [h.reserve i]; unfold State.strokeReserve; split
  · rfl
  · next k hk => rw [if_neg]; exact fun hr => hn ⟨k, hk, hr.1, hr.2⟩

theorem leaveOpen_mass {i} {s : State} (h : s.massLaw) : (leaveOpen i s).massLaw := by
  unfold leaveOpen; split
  · next hf =>
    have g := h.account i
    refine massLaw_edit h.strokeMass h.stroke h.reserve (fun j _ => h.account j) ⟨g.masses, g.limit, ?_, fun hh => by cases hh⟩ rfl fun _ => .inr rfl
    rintro (hh | hh) <;> cases hh
  · next hf =>
    have hn := fun hh => hf (inFlight_iff.mpr hh)
    exact enterClosed_mass h (reserve_zero h hn) hn

theorem requestEnd_obligation (f : Grant → Bool) (s : State) : SameObligation s (requestEnd f s) := {}

theorem closeAccount_mass {i} {s : State} (h : s.massLaw) (ha : ownersOpen s) :
    (closeAccount i s).massLaw := by
  obtain ⟨h1, _⟩ := detachAll_mass (i := i) h ha
  have e := requestEnd_obligation (·.forAccount i) (detachAll i s)
  exact leaveOpen_mass (e.massLaw h1)

/-- The record after a resolution of its stroke (R117). -/
theorem resolved_law {q : Table Point 4} {a : Account} {b : Bool} (h : MassLaw q a) : MassLaw q (a.resolved b a.reserved)
    ∧ (a.resolved b a.reserved).reserved = 0 ∧ (a.resolved b a.reserved).state = a.state := by
  obtain ⟨⟨g1, g2⟩, g3, g4, g5⟩ := h
  have hb : a.backlog = a.owed - a.credited - a.waived := rfl
  unfold Account.resolved; split
  · have hc : addMass a.credited a.reserved = a.credited + a.reserved := Nat.min_eq_left (by omega)
    unfold Account.creditStroke
    rw [hc]
    refine ⟨⟨⟨?_, g2⟩, fun x hx => ?_, fun hs => ⟨?_, rfl⟩, fun hs hp => ?_⟩, rfl, rfl⟩
    · show a.credited + a.reserved + a.waived + 0 ≤ a.owed; omega
    · have := g3 x hx
      show a.owed - (a.credited + a.reserved) - a.waived ≤ _; omega
    · have := g4 hs
      show a.credited + a.reserved + a.waived = a.owed; omega
    · have := g5 hs hp
      show a.owed - (a.credited + a.reserved) - a.waived ≤ 0; omega
  · unfold Account.releaseStroke; split
    · next hs =>
      have hc : addMass a.waived a.reserved = a.waived + a.reserved := Nat.min_eq_left (by omega)
      rw [hc]
      have := g5 hs.1 hs.2
      refine ⟨⟨⟨?_, g2⟩, fun x hx => ?_, fun hh => ?_, fun _ _ => ?_⟩, rfl, rfl⟩
      · show a.credited + (a.waived + a.reserved) + 0 ≤ a.owed; omega
      · rw [show a.point = some x from hx] at hs; cases hs.2
      · rw [show a.state = _ from hs.1] at hh; rcases hh with hh | hh <;> cases hh
      · show a.owed - a.credited - (a.waived + a.reserved) ≤ 0; omega
    · next hs =>
      refine ⟨⟨⟨?_, g2⟩, g3, fun hh => ⟨(g4 hh).1, rfl⟩, fun h1 h2 => absurd ⟨h1, h2⟩ hs⟩, rfl, rfl⟩
      show a.credited + a.waived + 0 ≤ a.owed; omega

/-- The laws with a stroke that has just been resolved: only its account's reserve is still to be returned. -/
theorem resolveBeneficiary_mass {s : State} {k k' : Stroke} {b : Bool} (h : s.massLaw) (hk : s.stroke = some k)
    (hu : k.resolution = .unresolved) (hu' : k'.resolution ≠ .unresolved) :
    (resolveBeneficiary k b { s with stroke := some k' }).massLaw := by
  have nok : ∀ i, ¬∃ j, (some k' : Option Stroke) = some j ∧ j.beneficiary = .account i ∧ j.resolution = .unresolved := by
    rintro i ⟨j, hj, _, hr⟩; cases hj; exact hu' hr
  have rz : ∀ i : Fin 12, k.beneficiary ≠ .account i → s.accounts[i].reserved = 0 := by
    intro i hi; apply reserve_zero h; rintro ⟨j, hj, hb, _⟩
    rw [hk] at hj; cases hj; exact hi hb
  have sr : ∀ (t : State) (i : Fin 12), t.stroke = some k' → t.strokeReserve i = 0 := by
    intro t i ht; unfold State.strokeReserve; rw [ht]; simp only; rw [if_neg]; exact fun hh => hu' hh.2
  unfold resolveBeneficiary; split
  · next i hb =>
    have hres : s.accounts[i].reserved = k.mass := by
      rw [h.reserve i]; unfold State.strokeReserve; rw [hk]; simp only; rw [if_pos ⟨hb, hu⟩]
    obtain ⟨r1, r2, r3⟩ := resolved_law (b := b) (h.account i)
    rw [hres] at r1 r2 r3
    have h1 : (editAccount i (·.resolved b k.mass) { s with stroke := some k' }).massLaw := by
      refine ⟨fun j => ?_, h.strokeMass, fun j hj hr => ?_, fun j => ?_⟩
      · simp only [editAccount, editAt_get]; split
        · exact r1
        · exact h.account j
      · cases hj; exact absurd hr hu'
      · rw [sr _ _ rfl]; simp only [editAccount, editAt_get]; split
        · exact r2
        · next e => exact rz j (fun hh => e (by rw [hb] at hh; cases hh; rfl))
    unfold resolveAccount; dsimp only; split
    · exact enterClosed_mass h1 ((h1.reserve i).trans (sr _ _ rfl)) (nok i)
    · exact h1
  · next hb =>
    have h1 : ({ s with stroke := some k' } : State).massLaw := by
      refine ⟨h.account, h.strokeMass, fun j hj hr => ?_, fun j => ?_⟩
      · cases hj; exact absurd hr hu'
      · rw [sr _ _ rfl]; exact rz j (by rw [hb]; simp)
    unfold resolveManual; split
    · refine SameObligation.massLaw (s := { s with stroke := some k' }) { limit := fun q => ?_ } h1
      simp only [editAt_get]; split
      · next e => subst e; rfl
      · rfl
    · exact h1

/-- Changes of pumps while no stroke is in flight. -/
theorem massLaw_pumps {s t : State} (h : s.massLaw) (hk : ∀ k, s.stroke = some k → k.resolution ≠ .unresolved)
    (ha : t.accounts = s.accounts := by simp) (hq : t.points = s.points := by simp) (hs : t.stroke = s.stroke := by simp)
    (hm : ∀ p : Fin 2, t.pumps[p].state ≠ .isolated → s.pumps[p].state ≠ .isolated ∧ t.pumps[p].config.mass = s.pumps[p].config.mass) :
    t.massLaw where
  account i := by rw [ha, hq]; exact h.account i
  strokeMass p q hp := by rw [(hm p hp).2, hq]; exact h.strokeMass p q (hm p hp).1
  stroke k hk' hr := absurd hr (hk k (hs ▸ hk'))
  reserve i := by rw [ha, strokeReserve_congr (s := s) (by rw [hs])]; exact h.reserve i

theorem editPump_same {s : State} {p : Fin 2} {f : Pump → Pump} (h1 : (f s.pumps[p]).state = s.pumps[p].state)
    (h2 : (f s.pumps[p]).config = s.pumps[p].config) : SameObligation s (editPump p f s) where
  pump j := by
    simp only [editPump, editAt_get]; split
    · next e => subst e; exact h1
    · rfl
  mass j := by
    simp only [editPump, editAt_get]; split
    · next e => subst e; rw [h2]
    · rfl

theorem resolvePump_mass {s : State} {p : Fin 2} {r : Resolution} (h : s.massLaw) (hk : ∀ k, s.stroke = some k → k.resolution ≠ .unresolved)
    (hp : s.pumps[p].state ≠ .isolated) : (resolvePump p r s).massLaw := by
  unfold resolvePump; dsimp only; split
  · exact (editPump_same rfl rfl).massLaw h
  · have h1 : (editPump p (fun u => { u with unproven := u.unproven + 1 }) s).massLaw := (editPump_same rfl rfl).massLaw h
    have hp1 : (editPump p (fun u => { u with unproven := u.unproven + 1 }) s).pumps[p].state ≠ .isolated := by
      simpa [editPump, editAt_get] using hp
    have hk1 : ∀ k, (editPump p (fun u => { u with unproven := u.unproven + 1 }) s).stroke = some k → k.resolution ≠ .unresolved := hk
    generalize editPump p (fun u => { u with unproven := u.unproven + 1 }) s = t at h1 hp1 hk1
    split
    · unfold failPump; dsimp only
      have h2 : (raise .pumpFailed p.1 (editPump p (fun u => { u with state := .failed }) t)).massLaw := by
        refine massLaw_pumps h1 hk1 (hm := fun j hj => ?_)
        simp only [raise_keeps, editPump, editAt_get] at hj ⊢; split
        · next e => subst e; exact ⟨hp1, rfl⟩
        · next e => rw [if_neg e] at hj; exact ⟨hj, rfl⟩
      have hk2 : ∀ k, (raise .pumpFailed p.1 (editPump p (fun u => { u with state := .failed }) t)).stroke = some k → k.resolution ≠ .unresolved := hk1
      generalize raise .pumpFailed p.1 (editPump p (fun u => { u with state := .failed }) t) = u at h2 hk2
      split
      · next ho =>
        have h3 : (editPump (1 - p) (fun u => { u with state := .duty }) u).massLaw := by
          refine massLaw_pumps h2 hk2 (hm := fun j hj => ?_)
          simp only [editPump, editAt_get] at hj ⊢; split
          · next e => subst e; exact ⟨by rw [ho]; decide, rfl⟩
          · next e => rw [if_neg e] at hj; exact ⟨hj, rfl⟩
        have h4 : ({ editPump (1 - p) (fun u => { u with state := .duty }) u with pendingDuty := none } : State).massLaw := ⟨h3.account, h3.strokeMass, h3.stroke, h3.reserve⟩
        exact (requestEnd_obligation _ _).massLaw h4
      · have h4 : ({ u with pendingDuty := none } : State).massLaw := ⟨h2.account, h2.strokeMass, h2.stroke, h2.reserve⟩
        exact (requestEnd_obligation _ _).massLaw h4
    · exact h1
  · exact h
  · exact h

theorem resolve_mass {s : State} {k : Stroke} {r : Resolution} (h : s.massLaw) (hk : s.stroke = some k)
    (hu : k.resolution = .unresolved) (hr : r ≠ .unresolved) :
    (resolve r s).massLaw ∧ ∀ j, (resolve r s).stroke = some j → j.resolution ≠ .unresolved := by
  have hd := (h.stroke k hk hu).1
  unfold resolve; rw [hk]; dsimp only
  refine ⟨resolvePump_mass (resolveBeneficiary_mass h hk hu (by exact hr)) (fun j hj => ?_) ?_, fun j hj => ?_⟩
  · simp at hj; subst hj; exact hr
  · simp only [resolveBeneficiary_keeps]; rw [hd]; decide
  · simp at hj; subst hj; exact hr

theorem makeDuty_mass {s : State} {p : Fin 2} (h : s.massLaw) (hk : s.stroke = none) (hp : s.pumps[p].state ≠ .isolated) :
    (makeDuty p s).massLaw := by
  refine massLaw_pumps h (by simp [hk]) (hm := fun j hj => ?_)
  simp only [makeDuty, editAt_get, mapAll_get] at hj ⊢
  split
  · next e =>
    subst e; refine ⟨hp, ?_⟩
    split <;> rfl
  · next e =>
    rw [if_neg e] at hj
    split at hj
    · next e2 => rw [if_pos e2]; exact ⟨by rw [e2]; decide, rfl⟩
    · next e2 => rw [if_neg e2]; exact ⟨hj, rfl⟩

theorem noStroke_mass {s : State} (h : s.massLaw) (hk : ∀ k, s.stroke = some k → k.resolution ≠ .unresolved) :
    ({ s with stroke := none } : State).massLaw where
  account := h.account
  strokeMass := h.strokeMass
  stroke k hk' := by cases hk'
  reserve i := reserve_zero h fun ⟨k, hk', _, hr⟩ => hk k hk' hr

theorem applyPendingDuty_mass {s : State} (h : s.massLaw) (hk : s.stroke = none) : (applyPendingDuty s).massLaw := by
  unfold applyPendingDuty; dsimp only; split
  · exact h
  · split
    · next hp =>
      have h1 := makeDuty_mass h hk (by rw [hp]; decide)
      exact ⟨h1.account, h1.strokeMass, h1.stroke, h1.reserve⟩
    · exact ⟨h.account, h.strokeMass, h.stroke, h.reserve⟩

theorem startStroke_mass {s : State} {g : Grant} (h : s.massLaw) (hk : s.stroke = none) (hg : s.strokeTest g = true) :
    (startStroke g s).massLaw := by
  unfold startStroke; dsimp only; split
  · exact h
  · next p hp =>
    have hd := dutyPump_some hp
    have rz : ∀ i : Fin 12, s.accounts[i].reserved = 0 := fun i => reserve_zero h (by simp [hk])
    have pm : ∀ (j : Fin 2) (t : State), t.pumps = s.pumps → (editPump p (fun u => { u with strokes := (u.strokes + 1) % Config.wrap32 }) t).pumps[j].state = s.pumps[j].state
        ∧ (editPump p (fun u => { u with strokes := (u.strokes + 1) % Config.wrap32 }) t).pumps[j].config = s.pumps[j].config := by
      intro j t ht; simp only [editPump, editAt_get, ht]; split
      · next e => subst e; exact ⟨rfl, rfl⟩
      · exact ⟨rfl, rfl⟩
    split
    · next i hb =>
      have hc : s.candidate i = true := by
        simp only [State.strokeTest, hb, Bool.and_eq_true] at hg; exact hg.2.1.1
      obtain ⟨c1, c2, c3⟩ := candidate_some hc hp
      have own : ∀ j : Fin 12, (editAccount i (fun a => { a with reserved := s.pumps[p].config.mass }) s).accounts[j]
          = if i = j then { s.accounts[i] with reserved := s.pumps[p].config.mass } else s.accounts[j] := by
        intro j; simp only [editAccount, editAt_get]
      refine ⟨fun j => ?_, fun j q hj => ?_, fun k hk' hu => ?_, fun j => ?_⟩
      · show MassLaw s.points (editAccount i (fun a => { a with reserved := s.pumps[p].config.mass }) s).accounts[j]
        rw [own]; split
        · obtain ⟨⟨g1, g2⟩, g3, g4, g5⟩ := h.account i
          have := rz i
          have hf : s.accounts[i].freeBacklog = s.accounts[i].owed - s.accounts[i].credited - s.accounts[i].waived - s.accounts[i].reserved := rfl
          refine ⟨⟨?_, g2⟩, g3, fun hs => ?_, fun _ hn => absurd hn c2⟩
          · show s.accounts[i].credited + s.accounts[i].waived + s.pumps[p].config.mass ≤ s.accounts[i].owed; omega
          · rw [show s.accounts[i].state = _ from c1] at hs; rcases hs with hs | hs <;> cases hs
        · exact h.account j
      · have := pm j (editAccount i (fun a => { a with reserved := s.pumps[p].config.mass }) s) rfl
        rw [show _ = _ from this.1] at hj
        rw [show _ = _ from this.2]
        exact h.strokeMass j q hj
      · cases hk'
        have := pm p (editAccount i (fun a => { a with reserved := s.pumps[p].config.mass }) s) rfl
        refine ⟨this.1.trans hd, by rw [show _ = _ from this.2], fun j hj => ?_⟩
        show (editAccount i (fun a => { a with reserved := s.pumps[p].config.mass }) s).accounts[j].state = _ ∨ _
        have hj' : g.beneficiary = .account j := hj
        rw [hb] at hj'; cases hj'
        rw [own, if_pos rfl]; exact .inl c1
      · show (editAccount i (fun a => { a with reserved := s.pumps[p].config.mass }) s).accounts[j].reserved = _
        rw [own]
        unfold State.strokeReserve; dsimp only
        by_cases e : i = j
        · subst e; rw [if_pos rfl, if_pos ⟨hb, rfl⟩]
        · rw [if_neg e, if_neg]
          · exact rz j
          · rintro ⟨hh, _⟩; rw [hb] at hh; cases hh; exact e rfl
    · next hb =>
      refine ⟨h.account, fun j q hj => ?_, fun k hk' hu => ?_, fun j => ?_⟩
      · have := pm j s rfl
        rw [show _ = _ from this.1] at hj
        rw [show _ = _ from this.2]
        exact h.strokeMass j q hj
      · cases hk'
        have := pm p s rfl
        refine ⟨this.1.trans hd, by rw [show _ = _ from this.2], fun j hj => ?_⟩
        have hj' : g.beneficiary = .account j := hj
        rw [hb] at hj'; cases hj'
      · show s.accounts[j].reserved = _
        rw [rz j]; unfold State.strokeReserve; dsimp only
        rw [if_neg]; rintro ⟨hh, _⟩; rw [hb] at hh; cases hh

theorem continueBurst_mass {s : State} (h : s.massLaw) (hk : s.stroke = none) : (continueBurst s).massLaw := by
  unfold continueBurst; split
  · exact h
  · split
    · next ht => exact startStroke_mass h hk ht
    · exact SameObligation.massLaw {} h

theorem clearIfFinished_mass {s : State} (h : s.massLaw) : (clearIfFinished s).massLaw := by
  unfold clearIfFinished clearStroke; dsimp only; split
  · exact h
  · next k hk =>
    split
    · next hf =>
      have hr : ∀ j, s.stroke = some j → j.resolution ≠ .unresolved := by
        intro j hj; rw [hk] at hj; cases hj
        simp [Stroke.finished] at hf; exact hf.1.2
      have h1 := applyPendingDuty_mass (s := { s with stroke := none }) (noStroke_mass h hr) rfl
      split
      · exact continueBurst_mass h1 (by simp)
      · exact h1
    · exact h

theorem grantIfDue_obligation (s : State) : SameObligation s (grantIfDue s) := {}

theorem finish_mass {s : State} (h : s.massLaw) : (grantIfDue (clearIfFinished s)).massLaw :=
  (grantIfDue_obligation _).massLaw (clearIfFinished_mass h)

theorem startSave_obligation {s : State} (h : s.obligationLaw) : (startSave s).obligationLaw := by
  unfold startSave; split
  · exact h
  · refine ⟨h.1, fun m hm => ?_, h.2.2.1, h.2.2.2⟩
    simp [State.snapshots, State.snapshot] at hm
    subst hm; exact h.1

theorem rollover_obligation {s : State} (h : s.obligationLaw) : (rollover s).obligationLaw := by
  refine startSave_obligation ?_
  refine SameObligation.law (s := s) { account := fun i => ?_ } h
  simp only [raise_keeps, mapAll_get, Account.rollover]; split
  · exact {}
  · exact .refl _

theorem amend_mass {s : State} {i : Fin 12} {m : Amendment} (h : s.massLaw) (hs : s.accounts[i].state = .opened) :
    (pointChanged i s.accounts[i].point (editAccount i (fun a =>
      { a with quality := m.quality, point := m.point, dose := m.dose, priority := m.priority }) s)).massLaw := by
  have g := h.account i
  have own : (editAccount i (fun a =>
      { a with quality := m.quality, point := m.point, dose := m.dose, priority := m.priority }) s).accounts[i]
      = { s.accounts[i] with quality := m.quality, point := m.point, dose := m.dose, priority := m.priority } := by
    simp only [editAccount, editAt_get, if_true]
  have other : ∀ j : Fin 12, i ≠ j → (editAccount i (fun a =>
      { a with quality := m.quality, point := m.point, dose := m.dose, priority := m.priority }) s).accounts[j] = s.accounts[j] := by
    intro j hj; simp only [editAccount, editAt_get, if_neg hj]
  generalize ht : editAccount i (fun a =>
      { a with quality := m.quality, point := m.point, dose := m.dose, priority := m.priority }) s = t at own other
  have keep : t.points = s.points ∧ t.pumps = s.pumps ∧ t.stroke = s.stroke := by subst ht; exact ⟨rfl, rfl, rfl⟩
  have h2 : ∀ (p : Fin 2) (q : Fin 4), t.pumps[p].state ≠ .isolated → t.pumps[p].config.mass ≤ t.points[q].limit := by
    rw [keep.1, keep.2.1]; exact h.strokeMass
  have res : ∀ j : Fin 12, t.accounts[j].reserved = s.accounts[j].reserved ∧ t.accounts[j].state = s.accounts[j].state := by
    intro j; by_cases e : i = j
    · subst e; rw [own]; exact ⟨rfl, rfl⟩
    · rw [other j e]; exact ⟨rfl, rfl⟩
  have h3 : ∀ k, t.stroke = some k → t.strokeLaw k := by
    intro k hk hu
    obtain ⟨g1, g2, g3⟩ := h.stroke k (keep.2.2 ▸ hk) hu
    refine ⟨by rw [keep.2.1]; exact g1, by rw [keep.2.1]; exact g2, fun j hj => ?_⟩
    rw [(res j).2]; exact g3 j hj
  have h4 : ∀ j : Fin 12, t.accounts[j].reserved = t.strokeReserve j := by
    intro j; rw [(res j).1, strokeReserve_congr (s := s) (by rw [keep.2.2])]; exact h.reserve j
  have ho : ∀ j : Fin 12, i ≠ j → MassLaw t.points t.accounts[j] := by
    intro j hj; rw [other j hj, keep.1]; exact h.account j
  have hst : t.accounts[i].state = .opened := (res i).2.trans hs
  unfold pointChanged; dsimp only; split
  · next he =>
    refine ⟨fun j => if e : i = j then ?_ else ho j e, h2, h3, h4⟩
    subst e; rw [own] at he
    refine (g.congr (b := t.accounts[i]) ?_ (by rw [keep.1]; exact fun _ => rfl))
    rw [own]; exact { point := he }
  · next hne =>
    have hR := fun q => reserve_le h2 h3 h4 i q
    split
    · next q hq hn =>
      have hn' : t.accounts[i].point = none := by simpa using hn
      refine massLaw_edit (s := requestEnd (·.forAccount i) t) ?_ ?_ ?_ ?_ ?_ ?_ ?_
      · simpa using h2
      · simpa [State.strokeLaw] using h3
      · intro j; rw [strokeReserve_congr (s := t) (by simp)]; simpa using h4 j
      · simpa using ho
      · simp only [requestEnd_keeps]
        have hw : addMass t.accounts[i].waived t.accounts[i].freeBacklog = t.accounts[i].waived + t.accounts[i].freeBacklog := by
          rw [own]; refine Nat.min_eq_left ?_
          have := g.masses
          show s.accounts[i].waived + (s.accounts[i].owed - s.accounts[i].credited - s.accounts[i].waived - s.accounts[i].reserved) ≤ _
          omega
        rw [hw]
        have gm : t.accounts[i].credited + t.accounts[i].waived + t.accounts[i].reserved ≤ t.accounts[i].owed ∧ t.accounts[i].owed ≤ Config.maxMass := by
          rw [own]; exact g.masses
        have hf : t.accounts[i].freeBacklog = t.accounts[i].owed - t.accounts[i].credited - t.accounts[i].waived - t.accounts[i].reserved := rfl
        refine ⟨⟨?_, gm.2⟩, fun y hy => ?_, fun hh => ?_, fun _ _ => ?_⟩
        · show t.accounts[i].credited + (t.accounts[i].waived + t.accounts[i].freeBacklog) + t.accounts[i].reserved ≤ t.accounts[i].owed; omega
        · rw [show t.accounts[i].point = some y from hy] at hn'; cases hn'
        · rw [show t.accounts[i].state = _ from hst] at hh; rcases hh with hh | hh <;> cases hh
        · show t.accounts[i].owed - t.accounts[i].credited - (t.accounts[i].waived + t.accounts[i].freeBacklog) ≤ t.accounts[i].reserved; omega
      · rfl
      · exact fun _ => .inl rfl
    · next q q' hq hn =>
      have hn' : t.accounts[i].point = some q' := by simpa using hn
      refine waive_mass (s := requestEnd (·.forAccount i) t) ?_ ?_ ?_ ?_ ?_ ?_ ?_
      · simpa using h2
      · simpa [State.strokeLaw] using h3
      · intro j; rw [strokeReserve_congr (s := t) (by simp)]; simpa using h4 j
      · simpa using ho
      · simp only [requestEnd_keeps]; rw [own]; exact g.masses
      · simp only [requestEnd_keeps]; rw [hst]; rintro (hh | hh) <;> cases hh
      · simp only [requestEnd_keeps]; rw [hn']; intro _ hh; cases hh
    · next hq =>
      refine (requestEnd_obligation _ t).massLaw ⟨fun j => if e : i = j then ?_ else ho j e, h2, h3, h4⟩
      subst e
      have hb := g.pointless hs hq
      refine ⟨by rw [own]; exact g.masses, fun y hy => ?_, fun hh => ?_, fun _ hy => ?_⟩
      · have := hR y
        rw [(res i).1] at this
        rw [own]
        exact Nat.le_trans (show s.accounts[i].backlog ≤ _ from hb) this
      · rw [hst] at hh; rcases hh with hh | hh <;> cases hh
      · rw [own] at hy ⊢; exact hb

theorem afterLimit_mass {s : State} {q st l} (h : s.massLaw) (hl : s.limitBelowPump l = false) :
    (afterLimit q s.points[q] (writePoint q st l s)).massLaw := by
  have lim : ∀ x : Fin 4, (writePoint q st l s).points[x].limit = if q = x then l else s.points[x].limit := by
    intro x; simp only [writePoint, editAt_get]; split <;> rfl
  have h2 : ∀ (p : Fin 2) (x : Fin 4), (writePoint q st l s).pumps[p].state ≠ .isolated →
      (writePoint q st l s).pumps[p].config.mass ≤ (writePoint q st l s).points[x].limit := by
    intro p x hp; rw [lim]; split
    · simp only [State.limitBelowPump, List.any_eq_false] at hl
      have := hl p (mem_pumpNumbers p)
      have hp' : s.pumps[p].state ≠ .isolated := hp
      simp only [Bool.and_eq_true, bne_iff_ne, ne_eq, hp', not_false_eq_true, true_and, decide_eq_true_eq, Nat.not_lt] at this
      exact this
    · exact h.strokeMass p x hp
  unfold afterLimit; split
  · next hlt =>
    have hlt' : l < s.points[q].limit := by have := lim q; rw [if_pos rfl] at this; omega
    -- after the waivers of the accounts in a list, the records still unlawful are the bound ones not in it
    have key : ∀ (todo : List (Fin 12)) (t : State), t.points = (writePoint q st l s).points → t.pumps = s.pumps → t.stroke = s.stroke →
        (∀ k, t.stroke = some k → t.strokeLaw k) → (∀ j : Fin 12, t.accounts[j].reserved = t.strokeReserve j) →
        (∀ j : Fin 12, MassLaw s.points t.accounts[j]) →
        (∀ j : Fin 12, j ∉ todo → MassLaw t.points t.accounts[j]) →
        (todo.foldl (fun s i => waive i s) t).massLaw := by
      intro todo
      induction todo with
      | nil =>
        intro t e1 e2 e3 g3 g4 _ g5
        refine ⟨fun j => g5 j (by simp), ?_, g3, g4⟩
        show ∀ (p : Fin 2) (q : Fin 4), t.pumps[p].state ≠ _ → t.pumps[p].config.mass ≤ t.points[q].limit
        rw [e1, e2]; exact h2
      | cons a as ih =>
        intro t e1 e2 e3 g3 g4 g6 g5
        -- one waiver
        have hw : ∀ j : Fin 12, a ≠ j → (waive a t).accounts[j] = t.accounts[j] := by
          intro j hj; unfold waive; dsimp only; repeat' split
          · rfl
          · rfl
          · simp only [raise_keeps, editAccount, editAt_get, if_neg hj]
        have g2 : ∀ (p : Fin 2) (x : Fin 4), t.pumps[p].state ≠ .isolated → t.pumps[p].config.mass ≤ t.points[x].limit := by
          rw [e1, e2]; exact h2
        have hres : ∀ j : Fin 12, (waive a t).accounts[j].reserved = t.accounts[j].reserved := by
          intro j; unfold waive; dsimp only; repeat' split
          · rfl
          · rfl
          · simp only [raise_keeps, editAccount, editAt_get]; split
            · next e => subst e; rfl
            · rfl
        have hR := reserve_le g2 g3 g4 a
        have la : MassLaw t.points (waive a t).accounts[a] ∧ MassLaw s.points (waive a t).accounts[a] := by
          have gm := g6 a
          unfold waive; dsimp only; split
          · next hn => exact ⟨⟨gm.masses, fun y hy => absurd (hn.symm.trans hy) (by simp), gm.settled, gm.pointless⟩, gm⟩
          · next x hx =>
            split
            · next he =>
              refine ⟨⟨gm.masses, fun y hy => ?_, gm.settled, gm.pointless⟩, gm⟩
              have : x = y := Option.some.inj (hx.symm.trans hy)
              subst this; omega
            · have w := waived_law (q := t.points) hx gm.masses gm.settled (hR x)
              simp only [raise_keeps, editAccount, editAt_get, if_true]
              refine ⟨w, w.masses, fun y hy => ?_, w.settled, w.pointless⟩
              refine Nat.le_trans (w.limit y hy) ?_
              rw [e1, lim]; split
              · next e => subst e; omega
              · exact Nat.le_refl _
        refine ih (waive a t) (by simpa using e1) (by simpa using e2) (by simpa using e3) ?_ ?_ ?_ ?_
        · intro k hk hu
          obtain ⟨q1, q2, q3⟩ := g3 k (by simpa using hk) hu
          refine ⟨by simpa using q1, by simpa using q2, fun j hj => ?_⟩
          rw [(waive_state a t j).1]; exact q3 j hj
        · intro j; rw [hres, strokeReserve_congr (s := t) (by simp)]; exact g4 j
        · intro j; by_cases e : a = j
          · subst e; exact la.2
          · rw [hw j e]; exact g6 j
        · intro j hj
          rw [show (waive a t).points = t.points by simp]
          by_cases e : a = j
          · subst e; exact la.1
          · rw [hw j e]; exact g5 j (by simp [Ne.symm e, hj])
    refine key _ _ rfl rfl rfl h.stroke h.reserve h.account fun j hj => ?_
    have gm := h.account j
    refine ⟨gm.masses, fun y hy => ?_, gm.settled, gm.pointless⟩
    rw [lim]; split
    · next e =>
      subst e
      have hnb : (writePoint q st l s).boundBy q j = false := by
        cases hb : (writePoint q st l s).boundBy q j
        · rfl
        · exact absurd (List.mem_filter.mpr ⟨mem_slots j, hb⟩) hj
      have hst : s.accounts[j].state = .free ∨ s.accounts[j].state = .closed := by
        have hy' : s.accounts[j].point = some q := hy
        have : (writePoint q st l s).boundBy q j = ((s.accounts[j].state == .opened || s.accounts[j].state == .closing) && s.accounts[j].point == some q) := rfl
        rw [this, hy'] at hnb
        generalize s.accounts[j].state = x at hnb ⊢
        cases x
        · exact .inl rfl
        · simp at hnb
        · simp at hnb
        · exact .inr rfl
      have hse := gm.settled hst
      have hb : s.accounts[j].backlog = s.accounts[j].owed - s.accounts[j].credited - s.accounts[j].waived := rfl
      show s.accounts[j].backlog ≤ l
      omega
    · exact gm.limit y hy
  · next hge =>
    refine ⟨fun j => ?_, h2, h.stroke, h.reserve⟩
    have gm := h.account j
    refine ⟨gm.masses, fun y hy => ?_, gm.settled, gm.pointless⟩
    rw [lim]; split
    · next e =>
      subst e
      have := gm.limit q hy
      have hl' := lim q
      rw [if_pos rfl] at hl'
      show s.accounts[j].backlog ≤ l
      omega
    · exact gm.limit y hy

theorem afterLimit_supply (q b) (s : State) : (afterLimit q b s).supply = s.supply := by
  unfold afterLimit; split
  · exact fold_keeps (P := fun t => t.supply = s.supply) (fun t a h => by simpa using h) _ _ rfl
  · rfl

theorem restored_law {q : Table Point 4} {a : Account} {t : Nat} (h : MassLaw q a) : MassLaw q (a.restored t)
    ∧ (a.restored t).reserved = 0 := by
  obtain ⟨⟨g1, g2⟩, g3, g4, g5⟩ := h
  have hb : a.backlog = a.owed - a.credited - a.waived := rfl
  unfold Account.restored; split
  · next hs =>
    split
    · next hp =>
      have hc : addMass a.waived a.reserved = a.waived + a.reserved := Nat.min_eq_left (by omega)
      rw [hc]
      have := g5 hs hp
      refine ⟨⟨⟨?_, g2⟩, fun x hx => ?_, fun hh => ?_, fun _ _ => ?_⟩, rfl⟩
      · show a.credited + (a.waived + a.reserved) + 0 ≤ a.owed; omega
      · rw [show a.point = some x from hx] at hp; cases hp
      · rw [show a.state = _ from hs] at hh; rcases hh with hh | hh <;> cases hh
      · show a.owed - a.credited - (a.waived + a.reserved) ≤ 0; omega
    · next hp =>
      refine ⟨⟨⟨?_, g2⟩, g3, fun hh => ?_, fun _ hh => absurd hh hp⟩, rfl⟩
      · show a.credited + a.waived + 0 ≤ a.owed; omega
      · rw [show a.state = _ from hs] at hh; rcases hh with hh | hh <;> cases hh
  · next hs =>
    have hc : addMass a.waived a.backlog = a.waived + a.backlog := Nat.min_eq_left (by omega)
    rw [hc]
    refine ⟨⟨⟨?_, g2⟩, fun x hx => ?_, fun _ => ⟨?_, rfl⟩, fun hh => by cases hh⟩, rfl⟩
    · show a.credited + (a.waived + a.backlog) + 0 ≤ a.owed; omega
    · show a.owed - a.credited - (a.waived + a.backlog) ≤ _; omega
    · show a.credited + (a.waived + a.backlog) = a.owed; omega
  · next hs => exact ⟨⟨⟨g1, g2⟩, g3, g4, g5⟩, (g4 (.inr hs)).2⟩
  · next hs => exact ⟨⟨⟨g1, g2⟩, g3, g4, g5⟩, (g4 (.inl hs)).2⟩

theorem image_obligation {m : Image} (h : ObligationLaw m.accounts m.points m.pumps) : m.state.obligationLaw := by
  have hi := obligationLaw_iff.mp h
  have get : ∀ j : Fin 12, m.state.accounts[j] = m.accounts[j].restored m.deviceTime := by
    intro j; simp only [Image.state, mapAll_get]
  refine obligation_iff.mpr ⟨⟨fun j => ?_, h.strokeMass, fun k hk => (by cases hk), fun j => ?_⟩, fun m' hm' => ?_⟩
  · rw [get]; exact (restored_law (hi.1 j)).1
  · rw [get]; exact (restored_law (hi.1 j)).2
  · simp [State.snapshots, Image.state, State.reset] at hm'
    subst hm'; exact h

theorem coldStart_obligation {s b} (h0 : State.reset.obligationLaw) (h : s.obligationLaw) : (coldStart b s).obligationLaw := by
  have h1 : (startState s.supply.image).obligationLaw := by
    unfold startState; split
    · exact h0
    · next m hm =>
      refine (SameObligation.trans (t := raise .restart 0 m.state) {} (fold_obligation (fun s i => {}) _ _)).law (image_obligation (h.2.1 m (by simp [State.snapshots, hm])))
  have hk : (startState s.supply.image).stroke = none := by
    unfold startState; split
    · rfl
    · unfold Image.raiseClosed
      exact fold_keeps (P := fun t => t.stroke = none) (fun t a h => by simpa using h) _ _ rfl
  have e : SameObligation (startState s.supply.image) (coldStart b s) :=
    { account := by simp [coldStart, SameMasses.refl], limit := by simp [coldStart], pump := by simp [coldStart],
      mass := by simp [coldStart],
      stroke := by
        unfold coldStart stopAtStart
        simp only [grantIfDue_keeps]
        split
        · unfold changeTrips headerTrip headerUntrip endManual; dsimp only
          repeat' split
          all_goals simp [hk]
        · simp
      supply := by simp [coldStart] }
  exact e.law h1

theorem warmReset_obligation {s} (h : s.obligationLaw) : (warmReset s).obligationLaw := by
  have h0 : (abandonCommand s).massLaw := SameObligation.massLaw (s := s) {} (obligation_iff.mp h).1
  have h1 : (abandonStroke (abandonCommand s)).massLaw ∧ ∀ k, (abandonStroke (abandonCommand s)).stroke = some k → k.resolution ≠ .unresolved := by
    unfold abandonStroke; split
    · next hn => exact ⟨h0, fun k hk => by rw [hn] at hk; cases hk⟩
    · next k hk =>
      split
      · next hr => exact resolve_mass h0 hk hr (by decide)
      · next hr => exact ⟨h0, fun j hj => by rw [hk] at hj; cases hj; exact hr⟩
  have hsup : (abandonStroke (abandonCommand s)).supply = s.supply := by simp
  unfold warmReset
  generalize abandonStroke (abandonCommand s) = t at h1 hsup
  have h2 : (dropStroke t).massLaw := by
    have := applyPendingDuty_mass (s := { t with stroke := none }) (noStroke_mass h1.1 h1.2) rfl
    exact ⟨this.account, this.strokeMass, this.stroke, this.reserve⟩
  have hsup2 : (dropStroke t).supply = s.supply := by simpa [dropStroke] using hsup
  generalize dropStroke t = u at h2 hsup2
  refine obligation_of h (SameObligation.massLaw (s := u) { account := ?_, limit := ?_, pump := ?_, mass := ?_, stroke := ?_, supply := ?_} h2) ?_
  · simp [SameMasses.refl]
  all_goals simp [hsup2]

theorem changeTrips_weight (f) (s : State) : (changeTrips f s).stroke.map Stroke.weight = s.stroke.map Stroke.weight := by
  have hc : ∀ k : Stroke, k.cut.weight = k.weight := by intro k; unfold Stroke.cut; split <;> rfl
  have he : ∀ u : State, (endManual u).stroke = u.stroke := by intro u; unfold endManual; split <;> rfl
  have ht : ∀ u : State, (headerTrip u).stroke.map Stroke.weight = u.stroke.map Stroke.weight := by
    intro u; unfold headerTrip; dsimp only; split
    · rfl
    · rw [he]; dsimp only; split
      · cases u.stroke with
        | none => rfl
        | some k => simp [hc]
      · rfl
  unfold changeTrips headerUntrip; dsimp only; repeat' split
  · rw [ht]; rfl
  all_goals rfl

theorem changeTrips_obligation (f) (s : State) : SameObligation s (changeTrips f s) where
  stroke := changeTrips_weight f s

theorem releaseAction_obligation (m a) (s : State) : SameObligation s (releaseAction m a s) := by
  unfold releaseAction; split
  · exact changeTrips_obligation _ s
  · exact .refl s

theorem enterTripped_obligation (m) (s : State) : SameObligation s (enterTripped m s) := by
  have h1 : SameObligation s (raise .monitorTrip m.1 (editMonitor m (fun u => { u with state := .tripped, timer := none }) s)) := {}
  unfold enterTripped; dsimp only; split
  · exact h1.trans (changeTrips_obligation _ _)
  · exact h1

theorem editMonitor_obligation (m f) (s : State) : SameObligation s (editMonitor m f s) := {}

theorem evaluate_obligation (m v) (s : State) : SameObligation s (evaluate m v s) := by
  unfold evaluate; dsimp only; split
  · exact .refl s
  · refine (editMonitor_obligation m (fun u => { u with last := some v }) s).trans ?_
    generalize editMonitor m (fun u => { u with last := some v }) s = t
    split
    · unfold evaluateFollowing; dsimp only; repeat' split
      · exact enterTripped_obligation m t
      · exact .refl t
      · exact (editMonitor_obligation m _ t).trans (releaseAction_obligation m _ _)
      · exact .refl t
      · exact .refl t
      · exact .refl t
    · unfold evaluateTimed; dsimp only; repeat' split
      · exact editMonitor_obligation m _ t
      · exact .refl t
      · exact editMonitor_obligation m _ t
      · exact .refl t
      · exact .refl t
      · exact .refl t

theorem attachRun_mass {i r} {s : State} (h : s.massLaw) (ha : ∀ i, s.ownerOf r = some i → s.accounts[i].state = .opened) :
    (attachRun i r s).massLaw := by
  refine SameObligation.massLaw (s := settle r s) { account := fun j => ?_ , limit := ?_, pump := ?_, mass := ?_, stroke := ?_, supply := ?_} (settle_mass h ha)
  · simp only [attachRun, editAccount, editAt_get]; split
    · next e => subst e; exact {}
    · exact .refl _
  all_goals simp [attachRun]

theorem endManual_obligation (s : State) : SameObligation s (endManual s) := by
  unfold endManual; split
  · exact .refl s
  · exact {}

theorem afterState_obligation (q b) (s : State) : SameObligation s (afterState q b s) := by
  have h1 : SameObligation s (leaveMask q s) := by
    unfold leaveMask; repeat' split
    · exact endManual_obligation s
    · exact {}
    · exact .refl s
  unfold afterState disablePoint; split
  · exact h1.trans (requestEnd_obligation _ _)
  · exact .refl s

theorem editPump_idle {s : State} {u : Fin 2} {f : Pump → Pump} (h : s.massLaw) (hd : s.pumps[u].state ≠ .duty)
    (hf : (f s.pumps[u]).state ≠ .isolated → ∀ q : Fin 4, (f s.pumps[u]).config.mass ≤ s.points[q].limit) :
    (editPump u f s).massLaw where
  account := h.account
  strokeMass p q hp := by
    simp only [editPump, editAt_get] at hp ⊢; split
    · next e => rw [if_pos e] at hp; exact hf hp q
    · next e => rw [if_neg e] at hp; exact h.strokeMass p q hp
  stroke k hk hu := by
    obtain ⟨g1, g2, g3⟩ := h.stroke k hk hu
    have : u ≠ k.pump := by rintro rfl; exact hd g1
    refine ⟨?_, ?_, g3⟩
    · simp only [editPump, editAt_get, if_neg this]; exact g1
    · simp only [editPump, editAt_get, if_neg this]; exact g2
  reserve := h.reserve

theorem openAccount_mass {s : State} {i tag q pt d pr} (h : s.massLaw) (hs : s.accounts[(i : Fin 12)].state = .free) :
    ({ s with accounts := setAt s.accounts i (.fresh tag q pt d pr s.clock.deviceTime) } : State).massLaw := by
  have nk : ¬∃ k, s.stroke = some k ∧ k.beneficiary = .account i ∧ k.resolution = .unresolved := by
    rintro ⟨k, hk, hb, hu⟩
    rcases (h.stroke k hk hu).2.2 i hb with e | e <;> rw [hs] at e <;> cases e
  refine massLaw_edit (f := fun _ => .fresh tag q pt d pr s.clock.deviceTime) h.strokeMass h.stroke h.reserve (fun j _ => h.account j) ?_ ?_ (fun hh => absurd hh nk)
  · exact ⟨⟨Nat.le_refl _, by simp [Account.fresh, Account.free]⟩, fun x _ => Nat.zero_le _, fun _ => ⟨rfl, rfl⟩, fun _ _ => Nat.le_refl _⟩
  · exact (reserve_zero h nk).symm

theorem releaseAccount_mass {s : State} {i} (h : s.massLaw) (hs : s.accounts[(i : Fin 12)].state = .closed) :
    ({ s with accounts := setAt s.accounts i .free } : State).massLaw := by
  have nk : ¬∃ k, s.stroke = some k ∧ k.beneficiary = .account i ∧ k.resolution = .unresolved := by
    rintro ⟨k, hk, hb, hu⟩
    rcases (h.stroke k hk hu).2.2 i hb with e | e <;> rw [hs] at e <;> cases e
  refine massLaw_edit (f := fun _ => .free) h.strokeMass h.stroke h.reserve (fun j _ => h.account j) ?_ ?_ (fun hh => absurd hh nk)
  · exact ⟨⟨Nat.le_refl _, by simp [Account.free]⟩, fun x hx => (by cases hx), fun _ => ⟨rfl, rfl⟩, fun _ _ => Nat.le_refl _⟩
  · exact (reserve_zero h nk).symm

theorem completeScan_obligation (s : State) : SameObligation s (completeScan s) := {}

theorem law_ownersOpen {s : State} (h : s.law) : ownersOpen s := h.account.1.owner

end Sys2Proof.Machine
end

