-- ==== Sys2Proof/Laws/Requests.lean ====
section
/-! SUPPORT. From the rule of a request to what its executing event answers, and the kinds of transaction. -/

namespace Sys2Proof.Machine

-- One proof after the other: a proof that waits for an earlier one holds a thread and its stack.
set_option Elab.async false

/-- A request that its rule accepts. -/
theorem accepts_of {c : Instr} {n : Byte} {rule : List Byte → State → Answer} {s t : State}
    {payload out : List Byte} (hc : exec c s = serve n rule s) (hr : rule payload s = .ok t out) :
    s.accepts c n payload out t := fun h => hc.trans (serve_ok h hr)

/-- A request that its rule refuses. -/
theorem refuses_of {c : Instr} {n : Byte} {rule : List Byte → State → Answer} {s : State}
    {payload : List Byte} {st : Status} (hc : exec c s = serve n rule s)
    (hr : rule payload s = .refuse st) : s.refuses c n payload st :=
  fun h => hc.trans (serve_refused h hr)

/-- A request without operands that its rule accepts. -/
theorem accepts_bare {c : Instr} {n : Byte} {rule : State → Answer} {s t : State}
    {out : List Byte} (hc : exec c s = serveBare n rule s) (hr : rule s = .ok t out) :
    s.accepts c n [] out t := fun h => hc.trans (serveBare_ok h hr)

/-- A request without operands that its rule refuses. -/
theorem refuses_bare {c : Instr} {n : Byte} {rule : State → Answer} {s : State} {st : Status}
    (hc : exec c s = serveBare n rule s) (hr : rule s = .refuse st) :
    s.refuses c n [] st :=
  fun h => hc.trans (serve_refused h (by simpa using hr))

/-- The request that `executing` finds is in execution. -/
theorem serving_of_executing {s : State} {q : Request} (h : s.executing = some q) :
    s.serving q.number q.payload := by
  unfold State.executing at h
  split at h
  · next hc => exact ⟨hc.1, hc.2, h⟩
  · cases h

/-- A request without operands, as a request. -/
theorem serveBare_eq (n : Byte) (rule : State → Answer) (s : State) : serveBare n rule s =
    serve n (fun payload s => if payload = [] then rule s else .refuse .badArgument) s := rfl

/-- The executing event of a request that is not in execution. -/
theorem serve_idle {n : Byte} {rule : List Byte → State → Answer} {s : State}
    (h : ∀ payload, ¬ s.serving n payload) : serve n rule s = .next s := by
  unfold serve
  congr 1
  split
  · rfl
  · next q hq =>
    rw [if_neg]
    rintro rfl
    exact h q.payload (serving_of_executing hq)

/-- The rows that are executing events of requests with a command number. -/
def requestRows : List Instr :=
  [.openAccount, .findAccount, .listAccounts, .readAccount, .amendAccount, .attachRun,
   .detachRun, .closeAccount, .releaseAccount, .configureRun, .setBands, .placeInService,
   .removeFromService, .clearRunTotals, .readRun, .postComposition, .retireComposition, .readComposition,
   .configureChannel, .setScan, .scanNow, .readChannel, .readScan, .configurePoint,
   .readPoint, .configureHeader, .manualDose, .setManualTimer, .readHeader, .configurePump,
   .restorePump, .isolatePump, .selectDuty, .resetPump, .readPump, .configureMonitor,
   .ackMonitor, .testTripOutput, .readMonitor, .readMonitorSummary, .setTime, .setGasDayHour,
   .setBaseConditions, .readTime, .save, .readSupply, .reset, .mapTerminal,
   .readTerminals, .readAttention, .ackAttention, .setAttentionLevel, .readLevels]

theorem mem_requestRows {c : Instr} {n : Byte} (h : requestNumber c = some n) :
    c ∈ requestRows := by
  cases c <;> first | (cases h; done) | simp [requestRows]

/-- Every such row but RESET serves its command number by one rule. -/
theorem exec_serve {c : Instr} {n : Byte} (h : requestNumber c = some n) (hc : c ≠ .reset) :
    ∃ rule : List Byte → State → Answer, ∀ s, exec c s = serve n rule s := by
  cases c <;> first
    | (cases h; done)
    | exact absurd rfl hc
    | (cases h; exact ⟨_, fun _ => serveBare_eq _ _ _⟩)
    | (cases h; exact ⟨_, fun _ => rfl⟩)

/-- The known command numbers are those of the rows. -/
theorem knownCommands_contains {n : Byte} :
    knownCommands.contains n = true ↔ ∃ c, requestNumber c = some n := by
  have hk : knownCommands = requestRows.filterMap requestNumber := by decide
  rw [hk, List.contains_eq_mem, decide_eq_true_eq, List.mem_filterMap]
  exact ⟨fun ⟨c, _, h⟩ => ⟨c, h⟩, fun ⟨c, h⟩ => ⟨c, mem_requestRows h, h⟩⟩

/-- A whole request transaction (R194): its bytes are taken up with CS_N high again. -/
theorem transaction_request {bytes : List Byte} {s : State} (h : s.port.link = .high)
    (hne : bytes ≠ []) (h0 : bytes.head? ≠ some 0) :
    transaction (.whole bytes) s = requestEnds bytes
      { s with port := { s.port with link := .high, miso := List.replicate bytes.length 0 } } := by
  cases bytes with
  | nil => exact absurd rfl hne
  | cons b rest =>
    have hb : ¬ b = 0#8 := by simpa using h0
    simp [transaction, Part.begins, Part.ends, Part.content, h, Port.clockPart, Port.fall,
      Port.clockBytes, Port.clockFirst, hb, riseLink]

/-- A transaction whose first byte is 0x00 is a FETCH, whatever bytes follow (R194). -/
theorem transaction_fetch (rest : List Byte) :
    transaction (.whole (0 :: rest)) = transaction (fetchBytes (.whole rest.length))
      ∧ transaction (.first (0 :: rest)) = transaction (fetchBytes (.first rest.length)) := by
  constructor <;> funext s <;>
    simp [transaction, fetchBytes, Part.begins, Part.ends, Part.content, Port.clockPart, Port.fall,
      Port.clockBytes, Port.clockFirst, List.replicate_succ]

/-- A part for which CS_N does not stand right (log 3). -/
theorem transaction_misfit {bytes : Part (List Byte)} {s : State}
    (h : bytes.begins ≠ decide (s.port.link = .high)) : transaction bytes s = s := by
  unfold transaction; rw [if_neg h]

/-- A record number outside its range. -/
theorem fin?_none {n x : Nat} (h : n ≤ x) : fin? n x = none := by
  simp [fin?, Nat.not_lt.mpr h]

/-- The number that one byte spells. -/
@[simp] theorem be_single (b : Byte) : be [b] = b.toNat := by simp [be]

/-- Two fields of one byte. -/
theorem fields_two (a b : Byte) : fields [1, 1] [a, b] = some [[a], [b]] := rfl

/-- Two numbers of one byte. -/
theorem fields_numbers (a b : Nat) : fields [1, 1] (byte a ++ byte b) = some [byte a, byte b] := rfl

/-- The whole entries that fit are the first ones, up to where the next does not fit. -/
theorem fitting_eq {room fit : Nat} {es : List (List Byte)} (hf : fit ≤ es.length)
    (h1 : (es.take fit).flatten.length ≤ room)
    (h2 : fit = es.length ∨ room < (es.take (fit + 1)).flatten.length) :
    fitting room es = es.take fit := by
  induction fit generalizing room es with
  | zero =>
    cases es with
    | nil => rfl
    | cons e es =>
      rcases h2 with h | h
      · cases h
      · have : ¬ e.length ≤ room := by simp at h; omega
        simp [fitting, this]
  | succ fit ih =>
    cases es with
    | nil => simp at hf
    | cons e es =>
      simp only [List.length_cons, List.take_succ_cons, List.flatten_cons, List.length_append,
        Nat.add_right_cancel_iff] at hf h1 h2
      rw [fitting, if_pos (by omega), ih (by omega) (by omega) (by omega), List.take_succ_cons]

end Sys2Proof.Machine
end

