-- ==== Sys2Proof/Laws/Terminals.lean ====
section
/-! SUPPORT. What each shared operation does to the laws of the Terminal Map (R202, R203). -/

namespace Sys2Proof.Machine

-- One proof after the other: a proof that waits for an earlier one holds a thread and its stack.
set_option Elab.async false

/-! ### The Terminal Map (R110, R123, R202, R203) -/

/-- The law survives a change of records in which no record takes hold of a terminal. -/
theorem TerminalLaw.mono {m : Table TerminalFunction 16} {points points' : Table Point 4}
    {pumps pumps' : Table Pump 2} {run run' : Fin 6 → Prop} (h : TerminalLaw m points pumps run)
    (hq : ∀ q : Fin 4, points'[q].state = .enabled → points[q].state = .enabled)
    (hp : ∀ p : Fin 2, pumps'[p].state ≠ .isolated → pumps[p].state ≠ .isolated)
    (hr : ∀ r, run' r → run r) : TerminalLaw m points' pumps' run' :=
  ⟨h.single, fun q hh => h.valve q (hq q hh), fun p hh => h.drive p (hp p hh),
    fun r hh => h.pulse r (hr r hh)⟩

/-- The law depends on these fields alone. -/
theorem terminalLaw_congr {s t : State} (h : s.terminalLaw)
    (ht : t.terminals = s.terminals := by simp) (hq : t.points = s.points := by simp)
    (hp : t.pumps = s.pumps := by simp) (hr : t.runs = s.runs := by simp)
    (hs : t.supply = s.supply := by simp) : t.terminalLaw := by
  simpa [State.terminalLaw, State.snapshots, ht, hq, hp, hr, hs] using h

/-- The law under changes of points, pumps and runs in which none takes hold of a terminal. -/
theorem terminalLaw_mono {s t : State} (h : s.terminalLaw)
    (ht : t.terminals = s.terminals := by simp) (hs : t.supply = s.supply := by simp)
    (hq : ∀ q : Fin 4, t.points[q].state = .enabled → s.points[q].state = .enabled := by simp)
    (hp : ∀ p : Fin 2, t.pumps[p].state ≠ .isolated → s.pumps[p].state ≠ .isolated := by simp)
    (hr : ∀ r : Fin 6, t.runs[r].state = .inService → s.runs[r].state = .inService := by simp) :
    t.terminalLaw := by
  refine ⟨?_, by simpa [State.snapshots, hs] using h.2⟩
  rw [ht]
  exact h.1.mono hq hp hr

theorem editRun_terminal {s : State} {r : Fin 6} {f : Run → Run} (h : s.terminalLaw)
    (hf : (f s.runs[r]).state = .inService → s.runs[r].state = .inService) :
    (editRun r f s).terminalLaw := by
  refine terminalLaw_mono h (hr := fun j hj => ?_)
  simp only [editRun, editAt_get] at hj
  split at hj
  · next e => subst e; exact hf hj
  · exact hj

theorem editPump_terminal {s : State} {p : Fin 2} {f : Pump → Pump} (h : s.terminalLaw)
    (hf : (f s.pumps[p]).state ≠ .isolated → s.pumps[p].state ≠ .isolated) :
    (editPump p f s).terminalLaw := by
  refine terminalLaw_mono h (hp := fun j hj => ?_)
  simp only [editPump, editAt_get] at hj
  split at hj
  · next e => subst e; exact hf hj
  · exact hj

theorem makeDuty_terminal {s : State} {p : Fin 2} (h : s.terminalLaw)
    (hp : s.pumps[p].state ≠ .isolated) : (makeDuty p s).terminalLaw := by
  refine terminalLaw_mono h (hp := fun j hj => ?_)
  simp only [makeDuty, editAt_get, mapAll_get] at hj
  split at hj
  · next e => subst e; exact hp
  · split at hj
    · next e => rw [e]; decide
    · exact hj

theorem failPump_terminal {s : State} {p : Fin 2} (h : s.terminalLaw)
    (hp : s.pumps[p].state ≠ .isolated) : (failPump p s).terminalLaw := by
  have h1 : (raise .pumpFailed p.1 (editPump p (fun u => { u with state := .failed }) s)).terminalLaw :=
    terminalLaw_congr (editPump_terminal (f := fun u => { u with state := .failed }) h fun _ => hp)
  unfold failPump; dsimp only; split
  · next hst =>
    exact terminalLaw_congr (editPump_terminal (p := 1 - p) (f := fun u => { u with state := .duty }) h1 fun _ => by rw [hst]; decide)
  · exact terminalLaw_congr h1

theorem resolvePump_terminal {s : State} {p : Fin 2} {r : Resolution} (h : s.terminalLaw)
    (hp : s.pumps[p].state ≠ .isolated) : (resolvePump p r s).terminalLaw := by
  have he : ∀ f : Pump → Pump, (∀ u, (f u).state = u.state) → (editPump p f s).terminalLaw :=
    fun f hf => editPump_terminal h fun hd => by rwa [hf] at hd
  unfold resolvePump; dsimp only; split
  · exact he _ fun _ => rfl
  · split
    · refine failPump_terminal (he (fun u => { u with unproven := u.unproven + 1 }) fun _ => rfl) ?_
      simpa [editPump, editAt_get] using hp
    · exact he (fun u => { u with unproven := u.unproven + 1 }) fun _ => rfl
  · exact h
  · exact h

/-- A change of manual totals alone. -/
theorem resolveBeneficiary_terminal {s : State} {k : Stroke} {b : Bool} (h : s.terminalLaw) :
    (resolveBeneficiary k b s).terminalLaw := by
  refine terminalLaw_mono h (hq := fun q => ?_)
  unfold resolveBeneficiary resolveManual; split
  · simp
  · split
    · simp only [editAt_get]; split
      · next e => subst e; exact id
      · exact id
    · exact id

theorem resolve_terminal {s : State} {r : Resolution} (h : s.terminalLaw)
    (hp : ∀ k, s.stroke = some k → s.pumps[k.pump].state ≠ .isolated) :
    (resolve r s).terminalLaw := by
  unfold resolve; dsimp only; split
  · exact h
  · next k hk =>
    exact resolvePump_terminal (resolveBeneficiary_terminal (terminalLaw_congr h)) (by simpa using hp k hk)

theorem startStroke_terminal {s : State} {g : Grant} (h : s.terminalLaw) :
    (startStroke g s).terminalLaw := by
  refine terminalLaw_mono h (hp := fun q => ?_)
  unfold startStroke; dsimp only; split
  · exact id
  · split
    all_goals
      simp only [editPump, editAt_get, editAccount]
      split
      · next e => subst e; exact id
      · exact id

theorem continueBurst_terminal {s : State} (h : s.terminalLaw) : (continueBurst s).terminalLaw := by
  unfold continueBurst; split
  · exact h
  · split
    · exact startStroke_terminal h
    · exact terminalLaw_congr h

theorem applyPendingDuty_terminal {s : State} (h : s.terminalLaw) :
    (applyPendingDuty s).terminalLaw := by
  unfold applyPendingDuty; dsimp only; split
  · exact h
  · split
    · next hp => exact terminalLaw_congr (makeDuty_terminal h (by rw [hp]; decide)) rfl rfl rfl rfl rfl
    · exact terminalLaw_congr h rfl rfl rfl rfl rfl

theorem clearIfFinished_terminal {s : State} (h : s.terminalLaw) :
    (clearIfFinished s).terminalLaw := by
  unfold clearIfFinished clearStroke; dsimp only; repeat' split
  · exact h
  · exact continueBurst_terminal (applyPendingDuty_terminal (terminalLaw_congr h rfl rfl rfl rfl rfl))
  · exact applyPendingDuty_terminal (terminalLaw_congr h rfl rfl rfl rfl rfl)
  · exact h

theorem grantIfDue_terminal {s : State} (h : s.terminalLaw) : (grantIfDue s).terminalLaw :=
  terminalLaw_congr h

/-- An update leaves a run in its state. -/
theorem writeTotals_terminal {s : State} {r o u e} (h : s.terminalLaw) :
    (writeTotals r o u e s).terminalLaw := by
  unfold writeTotals; dsimp only; repeat' split
  · exact terminalLaw_congr h
  · exact terminalLaw_congr h
  · exact terminalLaw_congr (editRun_terminal (r := r) (f := fun run => run.addOrphan u.actual u.base e) h fun hd => hd)

theorem update_terminal {s : State} {r hd} (h : s.terminalLaw) : (update r hd s).terminalLaw := by
  obtain ⟨run, b, e, u, hr, he⟩ := update_eq r hd s
  rw [he]
  have h1 : (editRun r (fun _ => run) s).terminalLaw := editRun_terminal h fun hs => hr ▸ hs
  have h2 : (raiseIf b .overspeed r.1 (editRun r (fun _ => run) s)).terminalLaw := terminalLaw_congr h1
  exact terminalLaw_congr (writeTotals_terminal (r := r) (o := s.ownerOf r) (u := u) (e := e) h2)

theorem settle_terminal {s : State} {r} (h : s.terminalLaw) : (settle r s).terminalLaw := by
  unfold settle zeroCarries; split
  · exact editRun_terminal (update_terminal h) fun hd => hd
  · exact editRun_terminal h fun hd => hd

theorem detachRun_terminal {s : State} {i r} (h : s.terminalLaw) : (detachRun i r s).terminalLaw :=
  terminalLaw_congr (settle_terminal (r := r) h) rfl rfl rfl rfl rfl

theorem startSave_terminal {s : State} (h : s.terminalLaw) : (startSave s).terminalLaw := by
  unfold startSave; split
  · exact h
  · refine ⟨h.1, fun m hm => ?_⟩
    simp [State.snapshots, State.snapshot] at hm
    subst hm
    exact h.1.mono (fun _ => id) (fun _ => id) (fun r hr => by simpa using hr)

theorem rollover_terminal {s : State} (h : s.terminalLaw) : (rollover s).terminalLaw :=
  startSave_terminal (terminalLaw_congr h)

/-- MAP TERMINAL keeps the map's laws (R203). -/
theorem remapped_terminal {s : State} {t : Fin 16} {f : TerminalFunction} (h : s.terminalLaw)
    (hu : s.functionInUse s.terminals[t] = false) (he : s.heldElsewhere t f = false) :
    ({ s with terminals := setAt s.terminals t f } : State).terminalLaw := by
  have keep : ∀ g : TerminalFunction, s.functionInUse g = true → (∃ u : Fin 16, s.terminals[u] = g) →
      ∃ u : Fin 16, (setAt s.terminals t f)[u] = g := by
    rintro g hg ⟨u, hu'⟩
    refine ⟨u, ?_⟩
    rw [setAt_get, if_neg]
    · exact hu'
    · rintro rfl; rw [hu', hg] at hu; cases hu
  refine ⟨⟨fun a b hab hne => ?_, fun q hq => keep _ (by simpa [State.functionInUse] using hq) (h.1.valve q hq),
    fun p hp => keep _ (by simpa [State.functionInUse] using hp) (h.1.drive p hp),
    fun r hr => keep _ (by simpa [State.functionInUse] using hr) (h.1.pulse r hr)⟩, h.2⟩
  have other : ∀ u : Fin 16, t ≠ u → f ≠ .none → s.terminals[u] ≠ f := by
    intro u hu' hf hh
    simp only [State.heldElsewhere, Bool.and_eq_false_iff, bne_eq_false_iff_eq, List.any_eq_false] at he
    rcases he with he | he
    · exact hf he
    · have := he u (mem_sixteen u)
      simp [hh, Ne.symm hu'] at this
  rw [setAt_get] at hne
  rw [setAt_get, setAt_get] at hab
  by_cases ha : t = a
  · rw [if_pos ha] at hab hne
    by_cases hb : t = b
    · exact ha.symm.trans hb
    · rw [if_neg hb] at hab
      exact absurd hab.symm (other b hb hne)
  · rw [if_neg ha] at hab hne
    by_cases hb : t = b
    · rw [if_pos hb] at hab
      exact absurd hab (other a ha (hab ▸ hne))
    · rw [if_neg hb] at hab
      exact h.1.single a b hab hne

/-- The pump of a stroke in flight is in service (R154). -/
def strokeServed (s : State) : Prop := ∀ k, s.stroke = some k → k.resolution = .unresolved → s.pumps[k.pump].state ≠ .isolated

theorem resolveAndClear_terminal {s : State} {r : Resolution} (h : s.terminalLaw)
    (hp : ∀ k, s.stroke = some k → s.pumps[k.pump].state ≠ .isolated) :
    (grantIfDue (clearIfFinished (resolve r s))).terminalLaw :=
  grantIfDue_terminal (clearIfFinished_terminal (resolve_terminal h hp))

theorem law_served {s : State} (h : s.law) : strokeServed s := fun k hk hr => by
  rw [(h.obligation.2.2.1 k hk hr).1]; decide

theorem writePoint_terminal {s : State} {q : Fin 4} {st : PointState} {l : Nat} (h : s.terminalLaw) (hv : st = .enabled → (s.holder (.valve q)).isSome) :
   (writePoint q st l s).terminalLaw := by
  refine ⟨⟨h.1.single, fun p hp => ?_, h.1.drive, h.1.pulse⟩, h.2⟩
  simp only [writePoint, editAt_get] at hp
  split at hp
  · next e => subst e; exact holder_isSome (hv hp)
  · exact h.1.valve p hp

theorem warmReset_terminal {s : State} (h : s.terminalLaw) (hk : strokeServed s) : (warmReset s).terminalLaw := by
  have h1 : (abandonStroke (abandonCommand s)).terminalLaw := by
    unfold abandonStroke; repeat' split
    · exact terminalLaw_congr h
    · next k hs hr =>
      refine resolve_terminal (terminalLaw_congr h) fun k' hk' => ?_
      have : k' = k := Option.some.inj (hk'.symm.trans hs)
      subst this
      exact hk k' hk' hr
    · exact terminalLaw_congr h
  have h2 : (dropStroke (abandonStroke (abandonCommand s))).terminalLaw :=
    applyPendingDuty_terminal (s := { abandonStroke (abandonCommand s) with stroke := none }) h1
  refine terminalLaw_mono h2 (by simp [warmReset]) (by simp [warmReset]) (by simp [warmReset]) (by simp [warmReset]) (fun r hr => ?_)
  simpa [warmReset, resetRuns, Run.untimed] using hr

theorem image_terminal {s : State} {m : Image} (h : s.terminalLaw) (hm : s.supply.image = some m) :
    m.state.terminalLaw := by
  have hl := h.2 m (by simp [State.snapshots, hm])
  refine ⟨hl.mono (fun _ => id) (fun _ => id) (fun r hr => by simpa [Image.state, Image.run] using hr), fun m' hm' => ?_⟩
  simp [State.snapshots, Image.state, State.reset] at hm'
  subst hm'; exact hl

theorem coldStart_terminal {s b} (h0 : State.reset.terminalLaw) (h : s.terminalLaw) : (coldStart b s).terminalLaw := by
  have h1 : (startState s.supply.image).terminalLaw := by
    unfold startState; split
    · exact h0
    · next m hm =>
      exact fold_keeps (fun s i h => terminalLaw_congr h) _ _ (terminalLaw_congr (s := m.state) (image_terminal h hm))
  exact terminalLaw_congr h1 (by simp [coldStart]) (by simp [coldStart]) (by simp [coldStart]) (by simp [coldStart]) (by simp [coldStart])

end Sys2Proof.Machine
end

