-- ==== Sys2Proof/Laws/Trips.lean ====
section
/-! SUPPORT. What each shared operation does to the law of the trip source set (R143, R158). -/

namespace Sys2Proof.Machine

-- One proof after the other: a proof that waits for an earlier one holds a thread and its stack.
set_option Elab.async false

/-! ### Trips (R143, R158) -/

/-- What the law of the trips depends on is the same in both states. -/
structure SameTrips (s t : State) : Prop where
  powered : t.powered = s.powered := by simp
  tripped : t.header.state = .tripped ↔ s.header.state = .tripped := by simp
  trips : t.trips = s.trips := by simp
  terminals : t.terminals = s.terminals := by simp
  levels : t.levels = s.levels := by simp
  supply : t.supply.state = s.supply.state := by simp
  monitor : ∀ m : Fin 16, (t.monitors[m].state == .tripped) = (s.monitors[m].state == .tripped) := by simp
  action : ∀ m : Fin 16, t.monitors[m].config.action = s.monitors[m].config.action := by simp

theorem SameTrips.refl (s : State) : SameTrips s s := {}

theorem SameTrips.trans {s t u : State} (h : SameTrips s t) (k : SameTrips t u) : SameTrips s u :=
  ⟨k.powered.trans h.powered, k.tripped.trans h.tripped, k.trips.trans h.trips,
    k.terminals.trans h.terminals, k.levels.trans h.levels, k.supply.trans h.supply,
    fun m => (k.monitor m).trans (h.monitor m), fun m => (k.action m).trans (h.action m)⟩

theorem SameTrips.law {s t : State} (e : SameTrips s t) (h : s.tripLaw) : t.tripLaw := by
  intro hp
  obtain ⟨h1, h2, h3, h4⟩ := h (e.powered ▸ hp)
  refine ⟨?_, ?_, ?_, fun m => ?_⟩
  · rw [e.tripped, e.trips]; exact h1
  · rw [e.trips, stopActive_congr e.terminals e.levels]; exact h2
  · rw [e.trips, e.supply]; exact h3
  · rw [e.trips, e.monitor, e.action]; exact h4 m

theorem headerTrip_tripped (s : State) : (headerTrip s).header.state = .tripped := by
  have he : ∀ u : State, (endManual u).header.state = u.header.state := by
    intro u; unfold endManual; split <;> rfl
  unfold headerTrip; dsimp only; split
  · next h => exact h
  · rw [he]

/-- After a join or a leave the header is TRIPPED exactly while the set has members (R142, R143). -/
theorem changeTrips_tripped {s : State} {f : TripSet → TripSet}
    (h : s.header.state = .tripped ↔ s.trips.isEmpty = false) :
    (changeTrips f s).header.state = .tripped ↔ (f s.trips).isEmpty = false := by
  unfold changeTrips headerUntrip; dsimp only
  cases h1 : s.trips.isEmpty <;> cases h2 : (f s.trips).isEmpty <;> simp [h1] at h ⊢
  · exact h
  · simp [h]
  · exact headerTrip_tripped _
  · exact h

theorem changeTrips_trips {s : State} {f : TripSet → TripSet} : (changeTrips f s).trips = f s.trips := by
  unfold changeTrips headerTrip headerUntrip endManual; dsimp only; repeat' split
  all_goals simp

/-- A join or a leave that meets the new conditions of the members (R158). -/
theorem changeTrips_tripLaw {s : State} {f : TripSet → TripSet}
    (h : s.powered = true → (s.header.state = .tripped ↔ s.trips.isEmpty = false)
      ∧ (f s.trips).stop = s.stopActive ∧ (f s.trips).supply = (s.supply.state == .low)
      ∧ ∀ m : Fin 16, (f s.trips).monitors[m]
          = (s.monitors[m].state == .tripped && s.monitors[m].config.action == .headerTrip)) :
    (changeTrips f s).tripLaw := by
  intro hp
  obtain ⟨h1, h2, h3, h4⟩ := h (by simpa using hp)
  refine ⟨?_, ?_, ?_, fun m => ?_⟩
  · rw [changeTrips_trips]; exact changeTrips_tripped h1
  · rw [changeTrips_trips, stopActive_congr (s := s) (by simp) (by simp)]; exact h2
  · rw [changeTrips_trips]; simpa using h3
  · rw [changeTrips_trips]; simpa using h4 m

theorem enterTripped_tripLaw {s : State} {m : Fin 16} (h : s.tripLaw) :
    (enterTripped m s).tripLaw := by
  unfold enterTripped; dsimp only; split
  · next ha =>
    refine changeTrips_tripLaw fun hp => ?_
    obtain ⟨h1, h2, h3, h4⟩ := h hp
    refine ⟨h1, h2, h3, fun j => ?_⟩
    simp only [raise_keeps, editMonitor_get] at ha ⊢
    simp only [TripSet.withMonitor, setAt_get, editMonitor_keeps]
    split
    · next e =>
      subst e
      simp only [if_true] at ha
      show true = (MonitorState.tripped == .tripped && s.monitors[m].config.action == .headerTrip)
      rw [ha]; rfl
    · exact h4 j
  · next ha =>
    intro hp
    obtain ⟨h1, h2, h3, h4⟩ := h hp
    refine ⟨h1, h2, h3, fun j => ?_⟩
    simp only [raise_keeps, editMonitor_get, editMonitor_keeps] at ha ⊢
    split
    · next e =>
      subst e
      rw [h4 m]
      simp only [if_true] at ha
      have : (s.monitors[m].config.action == Action.headerTrip) = false := by simpa using ha
      show (_ && _) = (_ && (s.monitors[m].config.action == Action.headerTrip))
      rw [this, Bool.and_false, Bool.and_false]
    · exact h4 j

/-- A monitor that was TRIPPED and no longer is, with its action released (R168). -/
theorem releaseAction_tripLaw {s : State} {m : Fin 16} {f : Monitor → Monitor} (h : s.tripLaw)
    (hf : (f s.monitors[m]).state ≠ .tripped) :
    (releaseAction m s.monitors[m].config.action (editMonitor m f s)).tripLaw := by
  unfold releaseAction; split
  · next ha =>
    refine changeTrips_tripLaw fun hp => ?_
    obtain ⟨h1, h2, h3, h4⟩ := h hp
    refine ⟨h1, h2, h3, fun j => ?_⟩
    simp only [editMonitor_get]
    simp only [TripSet.withMonitor, setAt_get, editMonitor_keeps]
    split
    · have : (((f s.monitors[m]).state) == MonitorState.tripped) = false := by simpa using hf
      rw [this]; rfl
    · exact h4 j
  · next ha =>
    intro hp
    obtain ⟨h1, h2, h3, h4⟩ := h hp
    refine ⟨h1, h2, h3, fun j => ?_⟩
    simp only [editMonitor_get, editMonitor_keeps]
    split
    · next e =>
      subst e
      have : ((f s.monitors[m]).state == MonitorState.tripped) = false := by simpa using hf
      have ha' : (s.monitors[m].config.action == Action.headerTrip) = false := by simpa using ha
      rw [h4 m, this, ha']; simp
    · exact h4 j

theorem editMonitor_trips {s : State} {m : Fin 16} {f : Monitor → Monitor}
    (hs : ((f s.monitors[m]).state == .tripped) = (s.monitors[m].state == .tripped))
    (ha : (f s.monitors[m]).config.action = s.monitors[m].config.action) :
    SameTrips s (editMonitor m f s) where
  monitor j := by
    rw [editMonitor_get]; split
    · next e => subst e; exact hs
    · rfl
  action j := by
    rw [editMonitor_get]; split
    · next e => subst e; exact ha
    · rfl

theorem openGrant_trips {b q} {s : State} (h : s.header.state ≠ .tripped) :
    SameTrips s (openGrant b q s) where
  tripped := by simp [openGrant, h]

theorem grantIfDue_trips (s : State) : SameTrips s (grantIfDue s) := by
  unfold grantIfDue; split
  · next hd =>
    have hi : s.header.state ≠ .tripped := by
      simp [State.decisionDue] at hd; rw [hd.1.1.1]; decide
    unfold grantManual grantAccount; repeat' split
    all_goals first
      | exact .refl s
      | exact .trans (t := { s with header := _ }) {} (openGrant_trips hi)
  · exact .refl s

theorem continueBurst_trips {s : State} (h : s.header.state ≠ .tripped) :
    SameTrips s (continueBurst s) := by
  unfold continueBurst startStroke closeHeader; dsimp only; repeat' split
  · exact .refl s
  · exact .refl s
  all_goals exact { tripped := by simp [h] }

theorem applyPendingDuty_trips (s : State) : SameTrips s (applyPendingDuty s) := {}

theorem clearIfFinished_trips (s : State) : SameTrips s (clearIfFinished s) := by
  have h1 : SameTrips s (applyPendingDuty { s with stroke := none }) :=
    .trans (t := { s with stroke := none }) {} (applyPendingDuty_trips _)
  unfold clearIfFinished clearStroke; dsimp only; repeat' split
  · exact .refl s
  · next hs => exact h1.trans (continueBurst_trips (by rw [hs]; decide))
  · exact h1
  · exact .refl s

theorem requestEnd_trips (f : Grant → Bool) (s : State) : SameTrips s (requestEnd f s) := by
  unfold requestEnd; repeat' split
  all_goals exact {}

theorem resolve_trips (r : Resolution) (s : State) : SameTrips s (resolve r s) where
  tripped := by
    have e := fun f s => (requestEnd_trips f s).tripped
    unfold resolve resolvePump failPump; dsimp only; repeat' split
    all_goals simp [e]

theorem fold_trips {α : Type} {f : State → α → State} (hf : ∀ s a, SameTrips s (f s a)) (l : List α)
    (s : State) : SameTrips s (l.foldl f s) := by
  induction l generalizing s with
  | nil => exact .refl s
  | cons a as ih => exact (hf s a).trans (ih _)

theorem settle_trips (r : Fin 6) (s : State) : SameTrips s (settle r s) := {}

theorem detachRun_trips (i : Fin 12) (r : Fin 6) (s : State) : SameTrips s (detachRun i r s) := {}

theorem attachRun_trips (i : Fin 12) (r : Fin 6) (s : State) : SameTrips s (attachRun i r s) :=
  (settle_trips r s).trans (t := settle r s) ⟨rfl, Iff.rfl, rfl, rfl, rfl, rfl, fun _ => rfl, fun _ => rfl⟩

theorem leaveOpen_trips (i : Fin 12) (s : State) : SameTrips s (leaveOpen i s) := {}

theorem update_trips (r : Fin 6) (hd : Held) (s : State) : SameTrips s (update r hd s) := {}

theorem removeFromService_trips (r : Fin 6) (s : State) : SameTrips s (removeFromService r s) where
  powered := by simp [removeFromService]
  tripped := by simp [removeFromService]
  trips := by simp [removeFromService]
  terminals := by simp [removeFromService]
  levels := by simp [removeFromService]
  supply := by simp [removeFromService]
  monitor := by simp [removeFromService]
  action := by simp [removeFromService]

theorem startScan_trips (s : State) : SameTrips s (startScan s) := {}

theorem trigger_trips (s : State) : SameTrips s (trigger s) := {}

theorem startSave_trips (s : State) : SameTrips s (startSave s) where
  supply := by unfold startSave; split <;> rfl

theorem rollover_trips (s : State) : SameTrips s (rollover s) :=
  .trans (t := raise .gasDayEnd Config.subjectAll { s with accounts := mapAll Account.rollover s.accounts }) {} (startSave_trips _)

theorem expireSlot_trips (q : Fin 8) (s : State) : SameTrips s (expireSlot q s) := {}

theorem rollAtBoundary_trips (s : State) : SameTrips s (rollAtBoundary s) := by
  unfold rollAtBoundary; split
  · exact rollover_trips s
  · exact .refl s

theorem completeScan_trips (s : State) : SameTrips s (completeScan s) := {}

theorem takeCode_trips (i c) (s : State) : SameTrips s (takeCode i c s) := {}

theorem makeDuty_trips (u) (s : State) : SameTrips s (makeDuty u s) := {}

theorem pointChanged_trips (i : Fin 12) (before : Option (Fin 4)) (s : State) :
    SameTrips s (pointChanged i before s) := by
  have h := requestEnd_trips (·.forAccount i) s
  unfold pointChanged; dsimp only; repeat' split
  · exact .refl s
  · exact h.trans (t := requestEnd (·.forAccount i) s) {}
  · exact h.trans (t := requestEnd (·.forAccount i) s) {}
  · exact h

theorem endManual_trips (s : State) : SameTrips s (endManual s) := by
  unfold endManual; split
  · exact .refl s
  · exact {}

theorem leaveMask_trips (q : Fin 4) (s : State) : SameTrips s (leaveMask q s) := by
  unfold leaveMask; repeat' split
  · exact endManual_trips s
  · exact {}
  · exact .refl s

theorem afterState_trips (q : Fin 4) (b : Point) (s : State) : SameTrips s (afterState q b s) := by
  unfold afterState disablePoint; split
  · exact (leaveMask_trips q s).trans (requestEnd_trips _ _)
  · exact .refl s

theorem afterLimit_trips (q : Fin 4) (b : Point) (s : State) : SameTrips s (afterLimit q b s) := by
  unfold afterLimit; split
  · exact fold_trips (fun _ _ => {}) _ _
  · exact .refl s

theorem pulseAt_trips (r b) (s : State) : SameTrips s (pulseAt r b s) := by
  unfold pulseAt; split
  · exact {}
  · exact .refl s

theorem evaluate_tripLaw {s : State} {m v} (h : s.tripLaw) : (evaluate m v s).tripLaw := by
  unfold evaluate; dsimp only; split
  · exact h
  · have e : SameTrips s (editMonitor m (fun u => { u with last := some v }) s) := editMonitor_trips rfl rfl
    have h := e.law h
    generalize editMonitor m (fun u => { u with last := some v }) s = t at h
    split
    · unfold evaluateFollowing; dsimp only; split
      · next hs =>
        split
        · exact enterTripped_tripLaw h
        · exact h
      · next hs =>
        split
        · exact releaseAction_tripLaw (f := fun u => { u with state := .watching, timer := none }) h (by simp)
        · exact h
      · exact h
      · exact h
    · unfold evaluateTimed; dsimp only; split
      · next hs =>
        split
        · exact (editMonitor_trips (f := fun u => { u with state := .timing, timer := some (t.after u.config.delay) }) (by rw [hs]; rfl) rfl).law h
        · exact h
      · next hs =>
        split
        · exact (editMonitor_trips (f := fun u => { u with state := .watching, timer := none }) (by rw [hs]; rfl) rfl).law h
        · exact h
      · exact h
      · exact h

/-- A level at a terminal that does not hold STOP_IN (R158). -/
theorem setLevel_stopActive {s : State} {t : Fin 16} {b : Bool} (ht : s.terminals[t] ≠ .stopIn) :
    (setLevel t b s).stopActive = s.stopActive := by
  unfold State.stopActive
  have : (setLevel t b s).holder .stopIn = s.holder .stopIn := rfl
  rw [this]
  cases hh : s.holder .stopIn with
  | none => rfl
  | some u =>
    simp only [setLevel, setAt_get]
    rw [if_neg]
    rintro rfl; exact ht (holder_some hh)

theorem setLevel_tripLaw {s : State} {t : Fin 16} {b : Bool} (h : s.tripLaw) (ht : s.terminals[t] ≠ .stopIn) :
    (setLevel t b s).tripLaw := by
  intro hp
  obtain ⟨h1, h2, h3, h4⟩ := h hp
  exact ⟨h1, (setLevel_stopActive ht).symm ▸ h2, h3, h4⟩

theorem stopActive_at {s : State} {t : Fin 16} {b : Bool} (h : s.terminalLaw)
    (ht : s.terminals[t] = .stopIn) : (setLevel t b s).stopActive = !b := by
  unfold State.stopActive
  have : (setLevel t b s).holder .stopIn = s.holder .stopIn := rfl
  rw [this]
  cases hh : s.holder .stopIn with
  | none =>
    have := List.find?_eq_none.mp hh t (mem_sixteen t)
    rw [ht] at this; simp at this
  | some u =>
    have hu := holder_some hh
    have : u = t := h.1.single u t (hu.trans ht.symm) (by rw [hu]; decide)
    subst this
    simp only [setLevel, setAt_get, if_true]

theorem stopIn_tripLaw {s : State} {t : Fin 16} {b : Bool} (h : s.law) (ht : s.terminals[t] = .stopIn) :
    (changeTrips (.withStop (!b)) (setLevel t b s)).tripLaw := by
  refine changeTrips_tripLaw fun hp => ?_
  obtain ⟨h1, h2, h3, h4⟩ := h.trip hp
  exact ⟨h1, (stopActive_at h.terminal ht).symm, h3, h4⟩

theorem mapTerminal_tripLaw {s : State} {t f} (h : s.tripLaw) : (mapTerminal t f s).tripLaw := by
  have e : SameTrips { s with terminals := setAt s.terminals t f } (dropFlows s { s with terminals := setAt s.terminals t f }) :=
    fold_trips (fun _ _ => requestEnd_trips _ _) _ _
  unfold mapTerminal; dsimp only
  generalize dropFlows s { s with terminals := setAt s.terminals t f } = u at e
  have hu : u.powered = true → (u.header.state = .tripped ↔ u.trips.isEmpty = false) ∧ u.trips.stop = s.stopActive
      ∧ u.trips.supply = (u.supply.state == .low) ∧ ∀ m : Fin 16, u.trips.monitors[m]
          = (u.monitors[m].state == .tripped && u.monitors[m].config.action == .headerTrip) := by
    intro hp
    obtain ⟨h1, h2, h3, h4⟩ := h (by rw [e.powered] at hp; exact hp)
    refine ⟨by rw [e.tripped, e.trips]; exact h1, by rw [e.trips]; exact h2, by rw [e.trips, e.supply]; exact h3, fun m => ?_⟩
    rw [e.trips, e.monitor, e.action]; exact h4 m
  refine (grantIfDue_trips _).law ?_
  unfold remapStop; split
  · next hs => exact fun hp => ⟨(hu hp).1, hs ▸ (hu hp).2.1, (hu hp).2.2⟩
  · refine changeTrips_tripLaw fun hp => ?_
    obtain ⟨h1, h2, h3, h4⟩ := hu hp
    exact ⟨h1, rfl, h3, h4⟩

theorem changeTrips_supply {s : State} {st : SupplyState} (h : s.tripLaw) :
    (changeTrips (.withSupply (st == .low)) (enterSupply st s)).tripLaw := by
  refine changeTrips_tripLaw fun hp => ?_
  obtain ⟨h1, h2, h3, h4⟩ := h hp
  exact ⟨h1, h2, rfl, h4⟩

theorem configureMonitor_tripLaw {m c} {s : State} (h : s.tripLaw) : (configureMonitor m c s).tripLaw := by
  refine (grantIfDue_trips _).law ?_
  have h0 : (dropDue m s).tripLaw := h
  generalize dropDue m s = t at h0
  have hs : (Monitor.start c).state ≠ .tripped := by unfold Monitor.start; dsimp only; split <;> decide
  unfold releaseIfTripped releaseAction
  split
  · next ht =>
    split
    · next ha =>
      intro hp
      have hp0 : t.powered = true := by simpa using hp
      obtain ⟨h1, h2, h3, h4⟩ := h0 hp0
      refine ⟨?_, ?_, ?_, fun j => ?_⟩
      · simp only [editMonitor_keeps, changeTrips_trips]; exact changeTrips_tripped h1
      · rw [stopActive_congr (s := t) (by simp) (by simp)]; simpa [changeTrips_trips, TripSet.withMonitor] using h2
      · simpa [changeTrips_trips, TripSet.withMonitor] using h3
      · rw [editMonitor_get]; simp only [editMonitor_keeps, changeTrips_trips, TripSet.withMonitor, setAt_get]
        split
        · have : ((Monitor.start c).state == MonitorState.tripped) = false := by simpa using hs
          rw [this]; rfl
        · simpa using h4 j
    · next ha =>
      intro hp
      obtain ⟨h1, h2, h3, h4⟩ := h0 hp
      refine ⟨h1, h2, h3, fun j => ?_⟩
      rw [editMonitor_get]; split
      · next e =>
        subst e
        have ha' : (t.monitors[m].config.action == Action.headerTrip) = false := by simpa using ha
        have : ((Monitor.start c).state == MonitorState.tripped) = false := by simpa using hs
        show t.trips.monitors[m] = _
        rw [h4 m, this, ha']; simp
      · exact h4 j
  · next ht =>
    intro hp
    obtain ⟨h1, h2, h3, h4⟩ := h0 hp
    refine ⟨h1, h2, h3, fun j => ?_⟩
    rw [editMonitor_get]; split
    · next e =>
      subst e
      have ht' : (t.monitors[m].state == MonitorState.tripped) = false := by simpa using ht
      have : ((Monitor.start c).state == MonitorState.tripped) = false := by simpa using hs
      show t.trips.monitors[m] = _
      rw [h4 m, this, ht']; rfl
    · exact h4 j

theorem warmReset_tripLaw {s : State} (h : s.tripLaw) : (warmReset s).tripLaw := by
  refine (grantIfDue_trips _).law ?_
  have e1 : SameTrips s (dropStroke (abandonStroke (abandonCommand s))) := by
    have : SameTrips s (abandonStroke (abandonCommand s)) := by
      unfold abandonStroke; repeat' split
      · exact {}
      · exact .trans (t := abandonCommand s) {} (resolve_trips _ _)
      · exact {}
    refine this.trans ?_
    generalize abandonStroke (abandonCommand s) = t
    exact .trans (t := applyPendingDuty { t with stroke := none }) (.trans (t := { t with stroke := none }) {} (applyPendingDuty_trips _)) {}
  have h1 := e1.law h
  generalize dropStroke (abandonStroke (abandonCommand s)) = t at h1
  have e2 : SameTrips t (resetScan (clearHeader t)) := by
    refine .trans (t := clearHeader t) ⟨rfl, Iff.rfl, rfl, rfl, rfl, rfl, fun _ => rfl, fun _ => rfl⟩ ?_
    generalize clearHeader t = v
    unfold resetScan restartInterval; split
    · exact {}
    · exact {}
  have h2 := e2.law h1
  generalize resetScan (clearHeader t) = u at h2
  intro hp
  have hp' : u.powered = true := by simpa [settleHeader] using hp
  obtain ⟨g1, g2, g3, g4⟩ := h2 hp'
  refine ⟨?_, ?_, ?_, fun m => ?_⟩
  · simp only [settleHeader]
    cases he : (raiseAfterReset s.closedByReset (clearCauses (resetRuns (resetMonitors u)))).trips.isEmpty <;> simp
  · rw [stopActive_congr (s := u) (by simp [settleHeader]) (by simp [settleHeader])]
    simpa [settleHeader, resetMonitors] using g2
  · simpa [settleHeader, resetMonitors] using g3
  · simp [settleHeader, resetMonitors, Monitor.rested]
    intro hs; split at hs
    · cases hs
    · next hn => simp [hs] at hn

theorem startState_untripped (i : Option Image) : (startState i).powered = true ∧ (startState i).header.state = .idle ∧ (startState i).trips = .none
    ∧ (startState i).supply.state = .normal ∧ ∀ m : Fin 16, (startState i).monitors[m].state ≠ .tripped := by
  unfold startState; split
  · exact ⟨rfl, rfl, rfl, rfl, by simp [State.reset, Monitor.start, MonitorConfig.default]⟩
  · next m =>
    unfold Image.raiseClosed
    refine fold_keeps (P := fun t => t.powered = true ∧ t.header.state = .idle ∧ t.trips = .none
      ∧ t.supply.state = .normal ∧ ∀ m : Fin 16, t.monitors[m].state ≠ .tripped) (fun t a h => by simpa using h) _ _ ?_
    refine ⟨rfl, rfl, rfl, rfl, fun j => ?_⟩
    simp only [raise_keeps, Image.state, Fin.getElem_fin, mapAll_getNat, Monitor.start]
    split <;> decide

theorem coldStart_tripLaw (b : Bool) (s : State) : (coldStart b s).tripLaw := by
  refine (grantIfDue_trips _).law ?_
  obtain ⟨h1, h2, h3, h4, h5⟩ := startState_untripped s.supply.image
  have hmon : ∀ m : Fin 16, ((crystalAtStart b (keepInputs s (startState s.supply.image))).monitors[m].state == MonitorState.tripped) = false := by
    intro m
    simpa using h5 m
  unfold stopAtStart; split
  · next hs =>
    refine changeTrips_tripLaw fun _ => ⟨?_, hs.symm, ?_, fun m => ?_⟩
    · simp [h2, h3, TripSet.isEmpty, TripSet.none]
    · simp [h3, h4, TripSet.withStop, TripSet.none]
    · rw [hmon]; simp [h3, TripSet.withStop, TripSet.none]
  · next hs =>
    intro _
    refine ⟨?_, ?_, ?_, fun m => ?_⟩
    · simp [h2, h3, TripSet.isEmpty, TripSet.none]
    · have : (crystalAtStart b (keepInputs s (startState s.supply.image))).stopActive = false := by simpa using hs
      rw [this]; simp [h3, TripSet.none]
    · simp [h3, h4, TripSet.none]
    · rw [hmon]; simp [h3, TripSet.none]

end Sys2Proof.Machine
end

