-- ==== Sys2Proof/Laws/Units.lean ====
section
/-! SUPPORT. What each shared operation does to the laws of the Monitor Unit (R163), the Command Port (R195) and the Analog
Scanner (R86). -/

namespace Sys2Proof.Machine

-- One proof after the other: a proof that waits for an earlier one holds a thread and its stack.
set_option Elab.async false

/-! ### Monitors (R163) -/

theorem monitorLaw_congr {s t : State} (h : s.monitorLaw) (hm : t.monitors = s.monitors := by simp) :
    t.monitorLaw := by
  unfold State.monitorLaw at h ⊢; rwa [hm]

theorem editMonitor_monitors {s : State} {m : Fin 16} {f : Monitor → Monitor} (h : s.monitorLaw)
    (hf : MonitorLaw s.monitors[m] → MonitorLaw (f s.monitors[m])) : (editMonitor m f s).monitorLaw := by
  intro j
  rw [editMonitor_get]; split
  · exact hf (h m)
  · exact h j

/-- A monitor as CONFIGURE MONITOR and the cold start leave it (R164). -/
theorem start_monitor (c : MonitorConfig) : MonitorLaw (.start c) := by
  cases he : c.enabled <;> constructor <;> simp [Monitor.start, he]

/-- A monitor that was not DISABLED returns to WATCHING, its timer stopped (R166, R167, R169). -/
theorem MonitorLaw.watching {u : Monitor} (h : MonitorLaw u) (hs : u.state ≠ .disabled) :
    MonitorLaw { u with state := .watching, timer := none } where
  timer := by simp
  delay := by simp
  disabled := by simpa using fun he => hs (h.disabled.mpr he)

/-- A monitor that was not DISABLED starts its delay, which is above 0 (R166, R170). -/
theorem MonitorLaw.timing {u : Monitor} (h : MonitorLaw u) (hs : u.state ≠ .disabled)
    (hd : u.config.delay ≠ 0) (t : Nat) :
    MonitorLaw { u with state := .timing, timer := some t } where
  timer := by simp
  delay _ := Nat.pos_of_ne_zero hd
  disabled := by simpa using fun he => hs (h.disabled.mpr he)

theorem MonitorLaw.enters {u : Monitor} (h : MonitorLaw u) (hs : u.state ≠ .disabled) :
    MonitorLaw { u with state := .tripped, timer := none } where
  timer := by simp
  delay := by simp
  disabled := by simpa using fun he => hs (h.disabled.mpr he)

theorem enterTripped_monitors {s : State} {m : Fin 16} (h : s.monitorLaw)
    (hs : s.monitors[m].state ≠ .disabled) : (enterTripped m s).monitorLaw := by
  have h1 : (editMonitor m (fun u => { u with state := .tripped, timer := none }) s).monitorLaw :=
    editMonitor_monitors h (fun hu => hu.enters hs)
  unfold enterTripped; dsimp only; split
  · exact monitorLaw_congr h1
  · exact monitorLaw_congr h1

theorem ackMonitor_monitors {s : State} {m : Fin 16} (h : s.monitorLaw)
    (hs : s.monitors[m].state = .tripped) : (ackMonitor m s).monitorLaw := by
  unfold ackMonitor; dsimp only; split
  · exact h
  · next hd =>
    have h1 : (editMonitor m (·.retimed (s.after s.monitors[m].config.delay)) s).monitorLaw :=
      editMonitor_monitors h fun hu => by
        unfold Monitor.retimed; split
        · exact hu.timing (by rw [hs]; decide) hd _
        · exact hu.watching (by rw [hs]; decide)
    exact monitorLaw_congr h1

theorem configureMonitor_monitors {s : State} {m : Fin 16} {c : MonitorConfig} (h : s.monitorLaw) :
    (configureMonitor m c s).monitorLaw := by
  have h1 : (releaseIfTripped m (dropDue m s)).monitorLaw := by
    have h0 : (dropDue m s).monitorLaw := h
    unfold releaseIfTripped; split
    · exact monitorLaw_congr h0
    · exact h0
  have h2 : (editMonitor m (fun _ => .start c) (releaseIfTripped m (dropDue m s))).monitorLaw :=
    editMonitor_monitors h1 fun _ => start_monitor c
  exact monitorLaw_congr h2 (by simp [configureMonitor])

theorem evaluate_monitors {s : State} {m : Fin 16} {v : Nat} (h : s.monitorLaw) :
    (evaluate m v s).monitorLaw := by
  unfold evaluate; dsimp only; split
  · exact h
  · next hs =>
    have h1 : (editMonitor m (fun u => { u with last := some v }) s).monitorLaw :=
      editMonitor_monitors h fun hu => ⟨hu.timer, hu.delay, hu.disabled⟩
    have hs1 : (editMonitor m (fun u => { u with last := some v }) s).monitors[m].state ≠ .disabled := by
      rw [editMonitor_get, if_pos rfl]; exact hs
    generalize editMonitor m (fun u => { u with last := some v }) s = t at h1 hs1
    split
    · unfold evaluateFollowing; dsimp only; repeat' split
      · exact enterTripped_monitors h1 hs1
      · exact h1
      · have h2 : (editMonitor m (fun u => { u with state := .watching, timer := none }) t).monitorLaw :=
          editMonitor_monitors h1 fun hu => hu.watching hs1
        exact monitorLaw_congr h2
      all_goals exact h1
    · next hd =>
      unfold evaluateTimed; dsimp only; repeat' split
      · exact editMonitor_monitors h1 fun hu => hu.timing hs1 hd _
      · exact h1
      · exact editMonitor_monitors h1 fun hu => hu.watching hs1
      all_goals exact h1

theorem delayExpiry_monitors {s : State} {m : Fin 16} (h : s.monitorLaw) :
    (delayExpiry m s).monitorLaw := by
  unfold delayExpiry; dsimp only; split
  · next time hs _ =>
    have h0 : (reach time s).monitorLaw := h
    have hs0 : (reach time s).monitors[m].state ≠ .disabled := by
      rw [show (reach time s).monitors[m].state = _ from hs]; decide
    split
    · exact enterTripped_monitors h0 hs0
    · exact editMonitor_monitors h0 fun hu => hu.watching hs0
  · exact h

/-- The warm reset leaves no monitor in TIMING or TRIPPED (R175). -/
theorem rested_monitor {u : Monitor} (h : MonitorLaw u) : MonitorLaw u.rested := by
  have := h.disabled
  constructor <;> cases hs : u.state <;> simp_all [Monitor.rested]

theorem warmReset_monitors {s : State} (h : s.monitorLaw) : (warmReset s).monitorLaw := by
  have h1 : (warmReset s).monitors = mapAll Monitor.rested s.monitors := by
    simp [warmReset, dropStroke, resetMonitors]
  intro m
  rw [h1, mapAll_get]
  exact rested_monitor (h m)

theorem coldStart_monitors (b : Bool) (s : State) : (coldStart b s).monitorLaw := by
  have h0 : State.reset.monitorLaw := fun m => by
    simpa [State.reset] using start_monitor .default
  have h1 : (startState s.supply.image).monitorLaw := by
    unfold startState; split
    · exact h0
    · next i _ =>
      unfold Image.raiseClosed
      refine fold_keeps (P := State.monitorLaw) (fun s a h => monitorLaw_congr h) _ _ ?_
      intro m
      simp only [raise_keeps, Image.state, mapAll_get]
      exact start_monitor _
  exact monitorLaw_congr h1 (by simp [coldStart])

/-! ### The Command Port (R195) -/

theorem portLaw_congr {s t : State} (h : s.portLaw) (hp : t.port = s.port := by simp) : t.portLaw := by
  unfold State.portLaw at h ⊢; rwa [hp]

/-- A completion leaves a response, whatever the port held (R196). -/
theorem complete_port (st : Status) (out : List Byte) (s : State) : (complete st out s).portLaw := by
  constructor <;> simp [complete]

theorem acceptRequest_port (q : Request) (s : State) : (acceptRequest q s).portLaw := by
  constructor <;> simp [acceptRequest]

theorem refuseFrame_port (s : State) : (refuseFrame s).portLaw := by
  constructor <;> simp [refuseFrame]

theorem discardRequest_port {s : State} (h : s.portLaw) : (discardRequest s).portLaw :=
  ⟨h.idle, h.executing, h.ready⟩

theorem warmReset_port (s : State) : (warmReset s).portLaw := by
  have h1 : (warmReset s).port = (abandonCommand s).port := by simp [warmReset, dropStroke]
  constructor <;> simp [h1, abandonCommand]

theorem coldStart_port (b : Bool) (s : State) : (coldStart b s).portLaw := by
  have h1 : (startState s.supply.image).portLaw := by
    unfold startState; split
    · constructor <;> simp [State.reset, Port.start]
    · next i _ =>
      unfold Image.raiseClosed
      refine fold_keeps (P := State.portLaw) (fun s a h => portLaw_congr h) _ _ ?_
      constructor <;> simp [Image.state, State.reset, Port.start]
  exact portLaw_congr h1 (by simp [coldStart])

/-! ### The Analog Scanner (R86) -/

theorem scanLaw_congr {s t : State} (h : s.scanLaw) (hs : t.scan = s.scan := by simp)
    (hu : t.supply.state = s.supply.state := by simp) : t.scanLaw := by
  unfold State.scanLaw at h ⊢; rwa [hs, hu]

/-- The enabled channels ascend, as the list of a scan does (R88). -/
theorem sixteen_filter_pairwise (f : Fin 16 → Bool) :
    (sixteen.filter f).Pairwise (fun c d => c.1 < d.1) :=
  List.Pairwise.filter _ (by decide)

/-- A scan completes (R91), in NORMAL. -/
theorem completeScan_scan {s : State} (hu : s.supply.state ≠ .low)
    (ht : s.scan.timer.isSome ↔ s.scan.source = .interval) : (completeScan s).scanLaw where
  rest := by simp [completeScan]
  flight := by simp [completeScan]
  suspended := by simpa [completeScan] using hu
  timer := by simpa [completeScan] using ht

theorem startScan_scan {s : State} (h : s.scanLaw) (hs : s.scan.state ≠ .suspended) :
    (startScan s).scanLaw := by
  have hu : s.supply.state ≠ .low := fun hl => hs (h.suspended.mpr hl)
  unfold startScan; dsimp only; split
  · exact completeScan_scan hu h.timer
  · next hl =>
    exact
      { rest := by simp
        flight := fun _ => ⟨sixteen_filter_pairwise (fun c => s.channels[c].config.enabled),
          List.length_pos_iff.mpr (by simpa using hl)⟩
        suspended := by simpa using hu
        timer := h.timer }

theorem trigger_scan {s : State} (h : s.scanLaw) : (trigger s).scanLaw := by
  unfold trigger; split
  · next hs => exact startScan_scan h (by rw [hs]; decide)
  · exact scanLaw_congr h
  · exact h

/-- A scan is abandoned, for SUSPENDED in LOW and for IDLE in NORMAL (R95, R99). -/
theorem abandonScan_scan {s : State} {next : ScanState} (hn : next ≠ .scanning)
    (hu : next = .suspended ↔ s.supply.state = .low)
    (ht : s.scan.timer.isSome ↔ s.scan.source = .interval) : (abandonScan next s).scanLaw where
  rest := by simp [abandonScan]
  flight := by simp [abandonScan, hn]
  suspended := by simpa [abandonScan] using hu
  timer := by simpa [abandonScan] using ht

/-- A save does not touch the supply state (R188). -/
theorem startSave_supply (s : State) : (startSave s).supply.state = s.supply.state := by
  unfold startSave; split <;> rfl

theorem enterLow_scan {s : State} (h : s.scanLaw) : (enterLow s).scanLaw := by
  have h1 : (abandonScan .suspended (changeTrips (.withSupply true) (enterSupply .low s))).scanLaw :=
    abandonScan_scan (by decide) (by simp [enterSupply]) (by simpa [enterSupply] using h.timer)
  exact scanLaw_congr h1 (by simp [enterLow])
    (by simp [enterLow, startSave_supply])

theorem returnToNormal_scan {s : State} (h : s.scanLaw) (hs : s.supply.state = .low) :
    (returnToNormal s).scanLaw := by
  have hr := h.rest (by rw [h.suspended.mpr hs]; decide)
  have h1 : (returnToNormal s).scan = { s.scan with state := .idle } := by
    simp [returnToNormal, enterSupply]
  have h2 : (returnToNormal s).supply.state = .normal := by simp [returnToNormal, enterSupply]
  constructor <;> simp [h1, h2, hr, h.timer]

theorem warmReset_scan {s : State} (h : s.scanLaw) : (warmReset s).scanLaw := by
  have h1 : ∃ u : State, u.scan = s.scan ∧ u.supply = s.supply
      ∧ (warmReset s).scan = (resetScan u).scan ∧ (resetScan u).supply = s.supply :=
    ⟨clearHeader (dropStroke (abandonStroke (abandonCommand s))), by simp [clearHeader, dropStroke],
      by simp [clearHeader, dropStroke], by simp [warmReset, resetMonitors],
      by simp [clearHeader, dropStroke]⟩
  obtain ⟨u, hu, hv, h1, h2⟩ := h1
  have h3 : (warmReset s).supply = s.supply := by simp [warmReset, dropStroke]
  refine scanLaw_congr (s := resetScan u) ?_ h1 (by rw [h3, h2])
  have h4 : (abandonScan u.restScan u).scanLaw := by
    refine abandonScan_scan ?_ ?_ (by rw [hu]; exact h.timer) <;> unfold State.restScan <;> split <;> simp_all
  unfold resetScan restartInterval; split
  · next hi => exact ⟨h4.rest, h4.flight, h4.suspended, by simp [hi]⟩
  · exact h4

theorem coldStart_scan (b : Bool) (s : State) : (coldStart b s).scanLaw := by
  have h1 : (startState s.supply.image).scanLaw := by
    unfold startState; split
    · exact ⟨by decide, by decide, by decide, by decide⟩
    · next i _ =>
      unfold Image.raiseClosed
      refine fold_keeps (P := State.scanLaw) (fun s a h => scanLaw_congr h) _ _ ?_
      constructor <;> simp [Image.state, State.reset]
  exact scanLaw_congr h1 (by simp [coldStart]) (by simp [coldStart])

theorem setScan_scan {s : State} (h : s.scanLaw) (source : TriggerSource) (interval : Nat) :
    ({ s with scan := { s.scan with
      source := source
      interval := interval
      timer := if source = .interval then some (s.after interval) else none } } : State).scanLaw where
  rest := h.rest
  flight := h.flight
  suspended := h.suspended
  timer := by dsimp only; split <;> simp_all

theorem intervalExpiry_scan {s : State} (h : s.scanLaw) : (intervalExpiry s).scanLaw :=
  trigger_scan ⟨h.rest, h.flight, h.suspended, by simpa using h.timer⟩

theorem conversionEnd_scan {s : State} {code : BitVec 16} (h : s.scanLaw) :
    (conversionEnd code s).scanLaw := by
  unfold conversionEnd; dsimp only; split
  · next i hs hi =>
    have h1 : (takeCode i code (reach s.scan.conversionEnd s)).scanLaw := scanLaw_congr (s := s) h
    have hs1 : (takeCode i code (reach s.scan.conversionEnd s)).scan = s.scan := by simp
    generalize takeCode i code (reach s.scan.conversionEnd s) = t at h1 hs1
    have hf := h1.flight (by rw [hs1]; exact hs)
    split
    · refine completeScan_scan ?_ h1.timer
      exact fun hl => absurd (hs1 ▸ hs) (by rw [h1.suspended.mpr hl]; decide)
    · next hd =>
      refine { rest := fun hr => absurd (by rw [hs1]; exact hs) hr, flight := fun _ => ⟨hf.1, ?_⟩,
               suspended := h1.suspended, timer := h1.timer }
      dsimp only at hd ⊢; omega
  · exact h

/-! ### What the three units do not take part in -/

/-- What the laws of the three units depend on is the same in both states. -/
structure SameUnits (s t : State) : Prop where
  monitors : t.monitors = s.monitors := by simp
  port : t.port = s.port := by simp
  scan : t.scan = s.scan := by simp
  supply : t.supply.state = s.supply.state := by simp

theorem SameUnits.refl (s : State) : SameUnits s s := {}

theorem SameUnits.trans {s t u : State} (h : SameUnits s t) (k : SameUnits t u) : SameUnits s u :=
  ⟨k.monitors.trans h.monitors, k.port.trans h.port, k.scan.trans h.scan, k.supply.trans h.supply⟩

theorem SameUnits.monitorLaw {s t : State} (e : SameUnits s t) (h : s.monitorLaw) : t.monitorLaw :=
  monitorLaw_congr h e.monitors

theorem SameUnits.portLaw {s t : State} (e : SameUnits s t) (h : s.portLaw) : t.portLaw :=
  portLaw_congr h e.port

theorem SameUnits.scanLaw {s t : State} (e : SameUnits s t) (h : s.scanLaw) : t.scanLaw :=
  scanLaw_congr h e.scan e.supply

theorem fold_units {α : Type} {f : State → α → State} (hf : ∀ s a, SameUnits s (f s a)) (l : List α)
    (s : State) : SameUnits s (l.foldl f s) := by
  induction l generalizing s with
  | nil => exact .refl s
  | cons a as ih => exact (hf s a).trans (ih _)

theorem startSave_units (s : State) : SameUnits s (startSave s) where
  supply := startSave_supply s

theorem setTime_units (time) (s : State) : SameUnits s (setTime time s) := by
  have e : SameUnits s (rollIfOtherDay time s) := by
    unfold rollIfOtherDay; split
    · constructor <;> simp [rollover, startSave_supply]
    · exact .refl s
  exact e.trans (t := rollIfOtherDay time s) ⟨rfl, rfl, rfl, rfl⟩

theorem setQualification_units (q) (s : State) : SameUnits s (setQualification q s) :=
  ⟨rfl, rfl, rfl, rfl⟩

theorem pulseAt_units (r b) (s : State) : SameUnits s (pulseAt r b s) := by
  unfold pulseAt; split
  · exact {}
  · exact .refl s

theorem attachRun_units (i r) (s : State) : SameUnits s (attachRun i r s) := by
  constructor <;> simp [attachRun]

theorem amendAccount_units (i m) (s : State) : SameUnits s (amendAccount i m s) := by
  constructor <;> simp [amendAccount]

theorem closeAccount_units (i) (s : State) : SameUnits s (closeAccount i s) := by
  have e : SameUnits s (detachAll i s) := fold_units (fun s r => {}) _ s
  refine e.trans ?_
  constructor <;> simp [closeAccount]

theorem removeFromService_units (r) (s : State) : SameUnits s (removeFromService r s) := by
  constructor <;> simp [removeFromService]

theorem configurePoint_units (q st limit) (s : State) : SameUnits s (configurePoint q st limit s) := by
  have e1 : ∀ t, SameUnits t (afterLimit q s.points[q] t) := fun t => by
    unfold afterLimit; split
    · exact fold_units (fun s i => {}) _ _
    · exact .refl _
  have e2 : ∀ t, SameUnits t (afterState q s.points[q] t) := fun t => by
    unfold afterState; split
    · exact {}
    · exact .refl _
  refine SameUnits.trans (t := writePoint q st limit s) {} ((e1 _).trans ((e2 _).trans ?_))
  constructor <;> simp [configurePoint]

theorem mapTerminal_units (t f) (s : State) : SameUnits s (mapTerminal t f s) := by
  have e : SameUnits s (dropFlows s { s with terminals := setAt s.terminals t f }) :=
    .trans (t := { s with terminals := setAt s.terminals t f }) {}
      (fold_units (fun s q => {}) _ _)
  refine e.trans ?_
  constructor <;> simp [mapTerminal]

theorem deviceSecond_units (s : State) : SameUnits s (deviceSecond s) := by
  have e : ∀ t, SameUnits t (countDownAll t) := fun t =>
    .trans (t := { t with quality := mapAll Quality.countDown t.quality }) {}
      (fold_units (fun s q => {}) _ _)
  refine SameUnits.trans (t := advanceTime (reach s.clock.nextSecond s)) {} ((e _).trans ?_)
  have r : ∀ t, (rollAtBoundary t).supply.state = t.supply.state := fun t => by
    unfold rollAtBoundary; split
    · simp [rollover, startSave_supply]
    · rfl
  constructor <;> simp [deviceSecond, r]

theorem proofOf_units (p) (s : State) : SameUnits s (proofOf p s) := by
  unfold proofOf; repeat' split
  all_goals exact {}

theorem settleExpiry_units (s : State) : SameUnits s (settleExpiry s) := by
  unfold settleExpiry; split
  · exact {}
  · exact .refl s

theorem onTimeExpiry_units (s : State) : SameUnits s (onTimeExpiry s) := by
  unfold onTimeExpiry; dsimp only; repeat' split
  all_goals exact {}

theorem proofWindowExpiry_units (s : State) : SameUnits s (proofWindowExpiry s) := by
  unfold proofWindowExpiry; dsimp only; repeat' split
  all_goals exact {}

theorem spacingExpiry_units (s : State) : SameUnits s (spacingExpiry s) := by
  unfold spacingExpiry; dsimp only; repeat' split
  all_goals exact {}

theorem pauseExpiry_units (s : State) : SameUnits s (pauseExpiry s) := by
  unfold pauseExpiry; dsimp only; split
  all_goals exact {}

/-- A conversion end keeps what the scanner does not hold (R89, R91). -/
theorem conversionEnd_units (code : BitVec 16) (s : State) :
    (conversionEnd code s).monitors = s.monitors ∧ (conversionEnd code s).port = s.port := by
  unfold conversionEnd; dsimp only; repeat' split
  all_goals simp

/-- An evaluation and a delay expiry keep the Command Port and the scanner. -/
theorem delayExpiry_units (m : Fin 16) (s : State) :
    (delayExpiry m s).port = s.port ∧ (delayExpiry m s).scan = s.scan
      ∧ (delayExpiry m s).supply.state = s.supply.state := by
  unfold delayExpiry; dsimp only; repeat' split
  all_goals simp

end Sys2Proof.Machine
end

