-- ==== Sys2Proof/WellFormed.lean ====
section
/-! DEFINITION. Which commands are well formed: the checks that the operand types do not make. -/

namespace Sys2Proof

/-- A whole request transaction holds at least one complete byte (R194). -/
def Instr.hasByte : Instr → Bool
  | .requestFrame bytes _ => bytes != .whole []
  | _ => true

/-- The first byte of a request transaction is not 0x00, which would make it a FETCH (R194). -/
def Instr.opensRequest : Instr → Bool
  | .requestFrame bytes _ => bytes.content.head? != some 0#8 || !bytes.begins
  | _ => true

/-- A command that the table's rows admit. A command that is not well formed still has the meaning R194 gives its bytes. -/
def Instr.wellFormed (i : Instr) : Bool := i.hasByte && i.opensRequest

end Sys2Proof
end

