-- ==== Sys2Proof/Tests/Slice0.lean ====
section
/-! SUPPORT. Tests: the checks of WellFormed, the manual's worked numbers, and a witness for the hypotheses of every statement of
Certificates/Slice0/Obligations.lean. A variable that a hypothesis defines by an equation (`u = …`) takes that value and is not
repeated here. That a request is in execution is one witness for all of them, `test_served`: it changes only the port, which no
other hypothesis reads. -/

namespace Sys2Proof.Tests

-- One kernel evaluation after the other: each waits for the ones before it, and every waiting thread holds a stack.
set_option Elab.async false

open Sys2Proof.Machine

/-! ### Ill-formed commands -/

theorem test_wellFormed_frame :
    (Instr.requestFrame (.whole [0x64, 0x00, 0xA1]) 5).wellFormed = true := by decide +kernel
theorem test_wellFormed_part :
    (Instr.requestFrame (.next [0x00]) 5).wellFormed = true
      ∧ (Instr.requestFrame (.last []) 5).wellFormed = true := by decide +kernel
theorem test_illFormed_empty_transaction :
    (Instr.requestFrame (.whole []) 5).hasByte = false := by decide +kernel
theorem test_illFormed_empty_is_refused :
    (Instr.requestFrame (.whole []) 5).wellFormed = false := by decide +kernel
theorem test_illFormed_fetch_byte :
    (Instr.requestFrame (.whole [0x00, 0x64]) 5).opensRequest = false
      ∧ (Instr.requestFrame (.first [0x00]) 5).opensRequest = false := by decide +kernel
theorem test_illFormed_fetch_is_refused :
    (Instr.requestFrame (.whole [0x00, 0x64]) 5).wellFormed = false := by decide +kernel
theorem test_table_words_spell_nothing : decodeTableWord 8 0x64 = none := by decide +kernel

/-! ### Frames (R195, R200) -/

theorem test_crc_save : crc8 [0x64, 0x00] = 0xA1 := by decide +kernel
theorem test_crc_badFrame : crc8 [0x02, 0x00] = 0x2A := by decide +kernel
theorem test_crc_busy : crc8 [0x01, 0x00] = 0x15 := by decide +kernel
theorem test_crc_discarded : crc8 [0x80, 0x00] = 0xB6 := by decide +kernel
theorem test_frame_of_save :
    requestOf [0x64, 0x00, 0xA1] = some { number := 0x64, payload := [] } := by decide +kernel
theorem test_frame_with_wrong_crc : requestOf [0x64, 0x00, 0xA2] = none := by decide +kernel
theorem test_frame_with_wrong_length : requestOf [0x64, 0x01, 0xA1] = none := by decide +kernel

/-! ### Worked numbers of the manual -/

/-- The inputs of the worked case at winter flow (02, 2.9). -/
def winter : UpdateInputs :=
  { pulses := 25, frequency := 25000, cutoff := 1000, weight := 10000000
    bands :=
      [⟨5000, 1004500⟩, ⟨20000, 1003000⟩, ⟨60000, 1002000⟩, ⟨200000, 1001000⟩]
    actualCarry := 0, baseCarry := 0
    held := { p := 4500000, t := 283150, pSubstituted := false, tSubstituted := false }
    slopeA := 18000, slopeB := 170, basePressure := 101325, baseTemperature := 288150
    interval := 1000 }

theorem test_winter_stages : stages winter =
    { cutPulses := 0, actual := 250500000, base := 12348344394, actualCarry := 0,
      baseCarry := 0, rate := 44454039, clamped := false } := by decide +kernel
theorem test_winter_factor : conversion 4500000 283150 915175000 101325 288150 998176150
    = 49294788 := by decide +kernel
theorem test_clamped_stages : stages
    { winter with
      pulses := 10, weight := 1000000, cutoff := 0, bands := [⟨10000000, 1000000⟩]
      held := { p := 20000000, t := 208150, pSubstituted := false, tSubstituted := false }
      slopeA := 50000, slopeB := 1000 } =
    { cutPulses := 0, actual := 10000000, base := 1500000000, actualCarry := 0, baseCarry := 0,
      rate := 5400000, clamped := true } := by decide +kernel
theorem test_cutoff_stages : stages { winter with frequency := 999, actualCarry := 7 } =
    { cutPulses := 25, actual := 0, base := 0, actualCarry := 7, baseCarry := 0, rate := 0,
      clamped := false } := by decide +kernel
theorem test_carries : (stages
    { winter with
      pulses := 1, weight := 3333, cutoff := 0, bands := [⟨10000000, 999750⟩]
      actualCarry := 833750 }).actualCarry = 500 := by decide +kernel
theorem test_rounding_of_slope : slopeExact 18000 1 288650 288150 = 17999
    ∧ slopeExact 18000 1 287650 288150 = 18001 := by decide +kernel
theorem test_total_wraps : Total.add ⟨999999999999, 999000000⟩ 1000000000 12348344394
    = ⟨12, 347344394⟩ := by decide +kernel
theorem test_odourant : ({ Account.free with point := some 0, dose := 1800 } : Account).owedIncrement
    12348344394 = 222270 := by decide +kernel
theorem test_gas_day_before_first : ({ State.reset.clock with hour := 6 } : Clock).gasDay 21599
    = -1 := by decide +kernel
theorem test_gas_day_boundary : ({ State.reset.clock with hour := 6 } : Clock).boundary 21600
    = true := by decide +kernel

theorem test_boundary_at_the_wrap :
    ({ State.reset.clock with deviceTime := 4294967295, hour := 0 } : Clock).toBoundary = 1
      ∧ ({ State.reset.clock with deviceTime := 4294967295, hour := 6 } : Clock).toBoundary = 21601
      ∧ ({ State.reset.clock with deviceTime := 4294944000, hour := 7 } : Clock).toBoundary = 48496
      ∧ ({ State.reset.clock with deviceTime := 21600, hour := 6 } : Clock).toBoundary = 86400 := by
  decide +kernel

/-! ### A state in service -/

/-- A tag of one letter. -/
def tagOf (b : Byte) : List Byte := List.replicate 8 b

/-- An OPEN account with run 0 and point 0. -/
def account0 : Account :=
  { Account.free with
    state := .opened, tag := tagOf 0x41, runs := [0], point := some 0, dose := 1800,
    priority := 1, owed := 50000 }

/-- A run's configuration. -/
def runConfig : RunConfig :=
  { weight := 10000000, pChannel := 0, tChannel := 1, edge := .rising, noFlow := 10,
    overspeed := 50000, cutoff := 0, bands := [⟨10000000, 1000000⟩] }

/-- A CURRENT quality slot. -/
def slot0 : Quality := .posting (tagOf 0x53) 38500 18000 170 1 0

/-- A LIVE pressure channel. -/
def pressure : Channel :=
  { config :=
      { enabled := true, kind := .pressure, lo := 100000, hi := 7100000, fallback := 100000 }
    state := .live, code := 38385, value := 4499954, liveSeen := true }

theorem test_convert : convert pressure.config 38385 = 4499954 := by decide +kernel

/-- A LIVE temperature channel. -/
def temperature : Channel :=
  { config :=
      { enabled := true, kind := .temperature, lo := 250000, hi := 350000, fallback := 288150 }
    state := .live, code := 20000, value := 283150, liveSeen := true }

/-- A monitor of channel 0 with its action and delay. -/
def monitorOf (state : MonitorState) (delay : Nat) (action : Action) (timer : Option Nat) :
    Monitor :=
  { state := state, last := some 6000001, timer := timer
    config :=
      { enabled := true, source := .channel 0, sense := .high, threshold := 6000000,
        clearLevel := 5000000, delay := delay, action := action } }

/-- A station in service: OPEN accounts 0 and 3, CLOSED account 1, CLOSING account 2; run 0 IN_SERVICE, run 1 OUT_OF_SERVICE, run 2
UNCONFIGURED; points 0 and 1 ENABLED; pump 0 DUTY, pump 1 STANDBY; the header IDLE; monitors in each state. -/
def demo : State :=
  { State.reset with
    accounts := #v[account0,
      { account0 with
        state := .closed, tag := tagOf 0x42, runs := [], closeTime := some 0, waived := 50000 },
      { account0 with state := .closing, tag := tagOf 0x43, runs := [] },
      { account0 with tag := tagOf 0x44, runs := [], point := none, waived := 50000 }, .free, .free, .free, .free, .free, .free, .free, .free]
    runs := #v[{ Run.unconfigured with state := .inService, config := runConfig },
      { Run.unconfigured with state := .outOfService, config := runConfig }, .unconfigured,
      .unconfigured, .unconfigured, .unconfigured]
    quality := #v[slot0, { slot0 with remaining := 1 }, .none, { slot0 with state := .stale },
      .none, .none, .none, .none]
    channels := setAt (setAt State.reset.channels 0 pressure) 1 temperature
    points := #v[{ Point.default with state := .enabled }, { Point.default with state := .enabled },
      .default, .default]
    pumps := #v[{ Pump.default with state := .duty }, { Pump.default with state := .standby }]
    monitors := setAt (setAt (setAt (setAt State.reset.monitors
      0 (monitorOf .watching 0 .headerTrip none)) 1 (monitorOf .timing 100 .headerTrip (some 9)))
      2 (monitorOf .tripped 100 .tripOutput none)) 3 (monitorOf .tripped 0 .attentionOnly none)
    terminals := #v[.pulse 0, .drive 0, .drive 1, .proof 0, .valve 0, .valve 1, .flowsw 0, .sync,
      .stopIn, .trip, .pulse 1, .flowsw 1, .none, .none, .none, .none]
    levels := setAt (setAt State.reset.levels 6 true) 8 true }

/-- A grant to account 0, and one to MANUAL. -/
def grantOf (b : Beneficiary) : Grant :=
  { beneficiary := b, point := 0, strokes := 1, endRequested := false, burstLimit := 8,
    settle := 500, pause := 500 }

/-- A stroke of pump 0 in flight for account 0. -/
def strokeOf (b : Beneficiary) : Stroke :=
  { pump := 0, point := 0, beneficiary := b, mass := 10000, onTime := 100, window := 500,
    spacing := 1000, mode := .closedLoop, start := 0, phase := .drive, resolution := .unresolved,
    driveCut := false, spacingPassed := false }

/-- The header in a state with a grant, a timer and a stroke. -/
def granted (state : HeaderState) (b : Beneficiary) (timer : Option Nat) (k : Option Stroke) :
    State :=
  { demo with
    stroke := k
    header := { demo.header with state := state, grant := some (grantOf b), timer := timer } }

/-- The station with a request in execution. -/
def served (number : Byte) (payload : List Byte) (s : State) : State :=
  { s with
    port :=
      { s.port with
        state := .executing, request := some { number := number, payload := payload } } }

/-- Every state that is powered has a request in execution once its port has accepted it; nothing but the port differs. -/
theorem test_served (number : Byte) (payload : List Byte) (s : State) (h : s.powered = true) :
    (served number payload s).serving number payload
      ∧ { served number payload s with port := s.port } = s := ⟨⟨h, rfl, rfl⟩, rfl⟩

theorem test_demo_powered : demo.powered = true := by decide +kernel

/-! ### Witnesses: the queue and the Command Port -/

theorem test_witness_StepTakesFrontCommand :
    ({ demo with pending := [.save, .deviceSecond] } : State).pending = .save :: [.deviceSecond]
      ∧ demo.pending = [] := by decide +kernel

theorem test_witness_EveryCommandAnswersAndKeepsQueue :
    ({ demo with powered := false } : State).powered = false
      ∧ ∀ running, Instr.save ≠ .coldStart running := by decide +kernel

/-- The station with CS_N low, as the link stands. -/
def linked (l : Link) (s : State) : State := { s with port := { s.port with link := l } }

theorem test_witness_RequestTransactionsAreChecked :
    demo.powered = true ∧ demo.port.link = .high ∧ demo.port.state ≠ .executing ∧ (0x64 : Byte) ≠ 0
      ∧ (List.replicate 60 (0 : Byte)).length ≤ 60 ∧ ([1] : List Byte) ≠ []
      ∧ ([1] : List Byte).head? ≠ some 0 ∧ (served 0x64 [] demo).port.state = .executing
      ∧ ([] : List Byte).head? ≠ some 0 ∧ (linked (.receiving []) demo).port.link = .receiving []
      ∧ (transaction (.first [0x64]) demo).port.link = .receiving [0x64]
      ∧ (transaction (.first [0x64]) demo).port.miso = [0] := by
  decide +kernel

/-- A request in three parts is the whole one. -/
theorem test_request_in_parts :
    transaction (.last [0xA1]) (transaction (.next [0x00]) (transaction (.first [0x64]) demo))
      = transaction (.whole [0x64, 0x00, 0xA1]) demo := by decide +kernel

theorem test_witness_frame_too_short (number : Byte) (payload head : List Byte)
    (h : head = number :: BitVec.ofNat 8 payload.length :: payload) :
    ([1] : List Byte) ≠ head ++ [crc8 head] := by
  subst h
  intro h
  have := congrArg List.length h
  simp at this

theorem test_witness_FetchShiftsOutFrameOfPortState :
    ((complete .busy [] (served 0x64 [] demo)).port.state = .responseReady
        ∧ (complete .busy [] (served 0x64 [] demo)).port.response
          = some { status := .busy, discarded := false, payload := [] })
      ∧ (served 0x64 [] demo).port.state = .executing ∧ demo.port.state = .idle
      ∧ (transaction (fetchBytes (.first 0)) demo).port.link = .fetching none
      ∧ (transaction (fetchBytes (.first 2)) demo).port.link = .fetching (some [crc8 [8, 0]])
      ∧ (warmReset (transaction (fetchBytes (.first 2)) demo)).port.link = .ended := by
  decide +kernel

/-- A FETCH that a warm reset cuts shifts out 0x00 for the rest of its bytes, and the next fall of CS_N begins afresh (R199). -/
theorem test_fetch_cut_by_a_warm_reset :
    (transaction (fetchBytes (.last 2)) (warmReset (transaction (fetchBytes (.first 1))
        (served 0x64 [] demo)))).port
      = { Port.start with request := some ⟨0x64, []⟩, miso := [1, 0, 0] } := by decide +kernel

/-- A request that a warm reset cuts is never taken up (R199). -/
theorem test_request_cut_by_a_warm_reset :
    (transaction (.last [0x00, 0xA1]) (warmReset (transaction (.first [0x64]) demo))).port
      = { Port.start with miso := [0, 0, 0] } := by decide +kernel

theorem test_witness_PayloadLengthMismatchIsRefused :
    requestNumber .openAccount = some 0x10 ∧ payloadLength .openAccount = some 13
      ∧ (List.replicate 12 (0 : Byte)).length ≠ 13
      ∧ (List.replicate 9 (0 : Byte)).length ≠ 8 * (1 : Byte).toNat
      ∧ ([] : List Byte).length ≠ (1 : Byte).toNat ∧ ([0, 1] : List Byte).length ≠ (1 : Byte).toNat
      ∧ ([0] : List Byte).length < 2 := by decide +kernel

theorem test_witness_RequestsAnswerOnlyInExecution :
    (∀ number payload, ¬ demo.serving number payload) ∧ (∀ c, requestNumber c ≠ some 0x05)
      ∧ requestNumber .save = some 0x64 :=
  ⟨fun _ _ h => by simpa using h.2.1.symm.trans (show demo.port.state = .idle by decide +kernel),
    fun c => by cases c <;> simp [requestNumber], rfl⟩

/-! ### Witnesses: reads -/

theorem test_witness_BareReadsReturnTheirFields :
    (23 ≤ 23 ∧ 4294967295 < 4294967296 ∧ 4294880895 + 86400 < 4294967296)
      ∧ (demo.terminals[(1 : Fin 16)] = .drive 0 ∧ demo.terminals[(4 : Fin 16)] = .valve 0
        ∧ demo.terminals[(9 : Fin 16)] = .trip
        ∧ ∀ p, demo.terminals[(0 : Fin 16)] ≠ .drive p) ∧ demo.header.grant = none ∧ demo.stroke = none
      ∧ (granted .stroking .manual none (some (strokeOf .manual))).header.grant
        = some (grantOf .manual)
      ∧ (granted .stroking .manual none (some (strokeOf .manual))).stroke
        = some (strokeOf .manual) := by decide +kernel

theorem test_witness_ReadChannelPointAndPumpReturnTheirFields :
    16 ≤ (16 : Byte).toNat ∧ 4 ≤ (4 : Byte).toNat ∧ 2 ≤ (2 : Byte).toNat
      ∧ demo.holder (.flowsw 0) = some 6 ∧ demo.holder (.flowsw 2) = none
      ∧ (granted .opening (.account 0) (some 5) none).valveActive 0 = true
      ∧ (granted .stroking .manual none (some (strokeOf .manual))).driveActive 0 = true := by
  decide +kernel

theorem test_witness_FindListAndReadAccount :
    (demo.accounts[(0 : Fin 12)].state ≠ .free
        ∧ printable demo.accounts[(0 : Fin 12)].tag = true
        ∧ ∀ j : Fin 12, demo.accounts[j].state ≠ .free →
          demo.accounts[j].tag = demo.accounts[(0 : Fin 12)].tag → j = 0)
      ∧ (printable (tagOf 0x7E) = true ∧ ∀ j : Fin 12, demo.accounts[j].state ≠ .free →
          demo.accounts[j].tag ≠ tagOf 0x7E)
      ∧ (∃ b ∈ tagOf 0x7F, b.toNat < 0x20 ∨ 0x7E < b.toNat)
      ∧ demo.accounts[(11 : Fin 12)].state = .free ∧ 11 < (12 : Byte).toNat
      ∧ 3 < (4 : Byte).toNat := by decide +kernel

/-- Pending causes whose entries do not all fit in one response. -/
def noisy : State :=
  { demo with
    causes := setAt (setAt (setAt (setAt demo.causes
      4 ⟨2, List.range 12⟩) 5 ⟨2, List.range 16⟩) 6 ⟨2, List.range 16⟩) 13 ⟨2, List.range 12⟩ }

theorem test_witness_ReadRunCompositionMonitorAndAttention :
    (5 < (6 : Byte).toNat ∧ 7 < (8 : Byte).toNat ∧ 15 < (16 : Byte).toNat)
      ∧ (noisy.reportOrder = [0, 4, 5, 6, 13] ∧ demo.reportOrder = [0])
      ∧ ((demo.reportOrder.map demo.causeEntry).take 1).flatten.length ≤ 58
      ∧ ((noisy.reportOrder.map noisy.causeEntry).take 4).flatten.length ≤ 58
      ∧ 58 < ((noisy.reportOrder.map noisy.causeEntry).take 5).flatten.length := by
  decide +kernel

/-! ### Witnesses: accounts -/

theorem test_witness_OpenAccountTakesLowestFreeSlot :
    demo.openable (tagOf 0x7E) 0 (some 0) 100 0 ∧ demo.openable (tagOf 0x20) 3 none 10000 3
      ∧ demo.openable (tagOf 0x41) 0 none 100 0
      ∧ (∀ j : Fin 12, demo.accounts[j].state ≠ .free → demo.accounts[j].tag ≠ tagOf 0x7E)
      ∧ demo.accounts[(4 : Fin 12)].state = .free
      ∧ (∀ j : Fin 12, j.1 < (4 : Fin 12).1 → demo.accounts[j].state ≠ .free)
      ∧ (∃ j : Fin 12, demo.accounts[j].state ≠ .free ∧ demo.accounts[j].tag = tagOf 0x41)
      ∧ (∀ j : Fin 12, ({ demo with accounts := allEqual 12 account0 } : State).accounts[j].state
          ≠ .free)
      ∧ demo.quality[(2 : Fin 8)].state = .empty ∧ demo.points[(2 : Fin 4)].state ≠ .enabled := by
  unfold State.openable
  decide +kernel

theorem test_witness_AmendAccountChangesNamedFields :
    demo.accounts[(0 : Fin 12)].state = .opened ∧ (15 : Nat) < 16
      ∧ demo.quality[(3 : Fin 8)].state ≠ .empty ∧ (15 : Nat).testBit 0 = true
      ∧ [(255 : Byte)] = numberOrNone (none : Option (Fin 4))
      ∧ [(1 : Byte)] = numberOrNone (some 1 : Option (Fin 4))
      ∧ demo.points[(1 : Fin 4)].state = .enabled ∧ demo.points[(2 : Fin 4)].state ≠ .enabled
      ∧ demo.accounts[(3 : Fin 12)].point = none ∧ demo.accounts[(1 : Fin 12)].state ≠ .opened
      ∧ demo.quality[(2 : Fin 8)].state = .empty := by decide +kernel

theorem test_witness_AttachAndDetachSettleTheRun :
    demo.accounts[(0 : Fin 12)].state = .opened
      ∧ (∀ j : Fin 12, (1 : Fin 6) ∉ demo.accounts[j].runs)
      ∧ demo.accounts[(0 : Fin 12)].runs.length < 4 ∧ (0 : Fin 6) ∈ demo.accounts[(0 : Fin 12)].runs
      ∧ (1 : Fin 6) ∉ demo.accounts[(0 : Fin 12)].runs
      ∧ (∃ j : Fin 12, (0 : Fin 6) ∈ demo.accounts[j].runs)
      ∧ demo.accounts[(1 : Fin 12)].state ≠ .opened
      ∧ 4 ≤ ({ account0 with runs := [0, 2, 3, 4] } : Account).runs.length
      ∧ demo.runs[(0 : Fin 6)].state = .inService ∧ demo.runs[(1 : Fin 6)].state ≠ .inService := by
  decide +kernel

theorem test_witness_CloseAndReleaseAccount :
    demo.accounts[(0 : Fin 12)].state = .opened ∧ demo.accounts[(1 : Fin 12)].state = .closed
      ∧ demo.stroke = none
      ∧ (granted .stroking (.account 0) none (some (strokeOf (.account 0)))).stroke
        = some (strokeOf (.account 0))
      ∧ (strokeOf (.account 0)).beneficiary = .account 0
      ∧ (strokeOf (.account 0)).resolution = .unresolved
      ∧ (∀ j : Fin 12, j ≠ 1 → demo.accounts[j].state ≠ .free →
          demo.accounts[j].tag ≠ demo.accounts[(1 : Fin 12)].tag) := by decide +kernel

/-! ### Witnesses: runs and metering -/

theorem test_witness_ConfigureRunSetsConfiguration :
    demo.runs[(0 : Fin 6)].state = .inService ∧ demo.runs[(1 : Fin 6)].state ≠ .inService
      ∧ demo.runs[(2 : Fin 6)].state = .unconfigured
      ∧ demo.channels[(0 : Fin 16)].config.enabled = true
      ∧ demo.channels[(0 : Fin 16)].config.kind = .pressure
      ∧ demo.channels[(1 : Fin 16)].config.enabled = true
      ∧ demo.channels[(1 : Fin 16)].config.kind = .temperature
      ∧ ¬ (demo.channels[(2 : Fin 16)].config.enabled = true
        ∧ demo.channels[(2 : Fin 16)].config.kind = .pressure)
      ∧ 100000000 < 2 ^ 32 ∧ 10000001 < 2 ^ 32 ∧ 10001 < 65536 ∧ 61 < 256 := by decide +kernel

theorem test_witness_BandsAreReplacedAndTotalsCleared :
    demo.runs[(2 : Fin 6)].state = .unconfigured ∧ demo.runs[(1 : Fin 6)].state ≠ .unconfigured
      ∧ (([⟨1, 900000⟩, ⟨10000000, 1100000⟩] : List Band).Pairwise
        (fun b c => b.limit < c.limit))
      ∧ ¬ (([⟨5, 900000⟩, ⟨5, 1100000⟩] : List Band).Pairwise (fun b c => b.limit < c.limit))
      ∧ (∃ b ∈ ([⟨1, 899999⟩] : List Band), b.factor < 900000)
      ∧ 6 < (List.replicate 7 (⟨1, 900000⟩ : Band)).length := by decide +kernel

theorem test_witness_PlaceAndRemoveRun :
    demo.runs[(1 : Fin 6)].state = .outOfService ∧ (∃ x : Fin 16, demo.terminals[x] = .pulse 1)
      ∧ demo.channels[demo.runs[(1 : Fin 6)].config.pChannel].config.kind = .pressure
      ∧ demo.channels[demo.runs[(1 : Fin 6)].config.tChannel].config.kind = .temperature
      ∧ demo.runs[(0 : Fin 6)].state = .inService
      ∧ (∀ x : Fin 16, demo.terminals[x] ≠ .pulse 2) := by decide +kernel

/-- The station with run 0 at the boundaries of its pulse timing. -/
def timed (edges : Nat) (last : Option Nat) (pulses : Nat) : State :=
  { demo with
    runs := setAt demo.runs 0
      { demo.runs[(0 : Fin 6)] with
        edgeCount := edges, lastEdge := last, pendingPulses := pulses } }

theorem test_witness_PulseEdgeCountsAndTimes :
    demo.terminals[(0 : Fin 16)] = .pulse 0 ∧ demo.levels[(0 : Fin 16)] = !true
      ∧ (setLevel 0 true demo).levels[(0 : Fin 16)] = true ∧ demo.levels[(10 : Fin 16)] = !true
      ∧ demo.levels[(12 : Fin 16)] = !true ∧ demo.runs[(0 : Fin 6)].state = .inService
      ∧ demo.runs[(0 : Fin 6)].config.edge = .rising
      ∧ (timed 0 none 65535).runs[(0 : Fin 6)].edgeCount = 0
      ∧ 10 * 1000000 < (timed 1 (some 0) 0).now + 10000001 - 0
      ∧ (timed 1 (some 0) 0).now + 10000000 - 0 ≤ 10 * 1000000
      ∧ demo.runs[(1 : Fin 6)].state ≠ .inService ∧ demo.terminals[(10 : Fin 16)] = .pulse 1
      ∧ demo.terminals[(12 : Fin 16)] = .none ∧ demo.terminals[(8 : Fin 16)] = .stopIn := by
  decide +kernel

/-- The station with an update of run 0 released. -/
def released : State :=
  { demo with released := [⟨1, .zero⟩, ⟨0, demo.lineConditions 0⟩] }

theorem test_witness_MeteringUpdateTakesOldestRelease :
    released.released = [⟨1, .zero⟩] ++ ⟨0, demo.lineConditions 0⟩ :: []
      ∧ (∀ x ∈ ([⟨1, .zero⟩] : List Released), x.run ≠ 0)
      ∧ released.runs[(0 : Fin 6)].state = .inService
      ∧ released.runs[(1 : Fin 6)].state ≠ .inService
      ∧ (∀ x ∈ demo.released, x.run ≠ 0)
      ∧ released.powered = true ∧ released.supply.state = .normal ∧ demo.supply.state = .normal
      ∧ (enterLow released).powered = true ∧ (enterLow released).supply.state = .low
      ∧ (enterLow released).released = released.released := by decide +kernel

/-- An update released before the entry to LOW is made after the return to NORMAL, not before (R49, log 8). -/
theorem test_release_waits_in_low :
    takeReleased 0 (enterLow released) = enterLow released
      ∧ (takeReleased 0 (returnToNormal (enterLow released))).released = [⟨1, .zero⟩] := by
  decide +kernel

theorem test_witness_UpdateReadsAndWritesItsRecords :
    (timed 0 none 0).runs[(0 : Fin 6)].edgeCount = 0
      ∧ (0 < (timed 1 (some 0) 0).runs[(0 : Fin 6)].edgeCount
        ∧ 10 * 1000000 < min (20000000 - 0) 67108863)
      ∧ (2 ≤ (timed 2 (some 0) 0).runs[(0 : Fin 6)].edgeCount ∧ max 0 0 = 0)
      ∧ demo.runs[(0 : Fin 6)].lastUpdate = none
      ∧ (0 : Fin 6) ∈ demo.accounts[(0 : Fin 12)].runs
      ∧ (∀ j : Fin 12, (0 : Fin 6) ∈ demo.accounts[j].runs → j = 0)
      ∧ demo.quality[demo.accounts[(0 : Fin 12)].quality].state ≠ .empty
      ∧ demo.accounts[(0 : Fin 12)].point ≠ none
      ∧ (∀ j : Fin 12, (1 : Fin 6) ∉ demo.accounts[j].runs) := by decide +kernel

theorem test_witness_StagesComputeVolumesAndRate :
    (winter.bands = [⟨5000, 1004500⟩, ⟨20000, 1003000⟩] ++ ⟨60000, 1002000⟩
        :: [⟨200000, 1001000⟩] ∧ 25000 ≤ 60000)
      ∧ winter.cutoff ≤ winter.frequency
      ∧ (1000 * (-850) - (winter.slopeB : Int) * (-5000)).natAbs ≤ 500
      ∧ (2000 * 84825000 ≤ 2 * (winter.held.p * 18850) + 1000
        ∧ 2 * (winter.held.p * 18850) + 1000 < 2000 * (84825000 + 1))
      ∧ (2000 * 1823850 ≤ 2 * (winter.basePressure * winter.slopeA) + 1000
        ∧ 2 * (winter.basePressure * winter.slopeA) + 1000 < 2000 * (1823850 + 1))
      ∧ 0 < winter.basePressure * winter.held.t
      ∧ (2 * 49294788 * (winter.basePressure * winter.held.t * 915175000)
          ≤ 2 * (1000000 * winter.held.p * winter.baseTemperature * 998176150)
            + winter.basePressure * winter.held.t * 915175000
        ∧ 2 * (1000000 * winter.held.p * winter.baseTemperature * 998176150)
            + winter.basePressure * winter.held.t * 915175000
          < 2 * (49294788 + 1) * (winter.basePressure * winter.held.t * 915175000)) := by
  decide +kernel

theorem test_witness_ActualVolumeLosesNothing :
    (if winter.frequency < winter.cutoff then 0 else winter.pulses) = 25
      ∧ ({ winter with pulses := 0, actualCarry := 999999 } : UpdateInputs).actualCarry < 1000000
      ∧ [winter, winter].head? = some winter ∧ [winter, winter].getLast? = some winter
      ∧ (∀ k < 2, k + 1 < 2 → winter.actualCarry = (stages winter).actualCarry) := by
  decide +kernel

theorem test_witness_TotalsCarryAndBacklogIsCapped :
    (0 < 1000000000 ∧ (999999999 : Nat) < 1000000000 ∧ (999999999999 : Nat) < 10 ^ 12)
      ∧ demo.accounts[(3 : Fin 12)].point = none ∧ demo.accounts[(0 : Fin 12)].point = some 0
      ∧ demo.accounts[(0 : Fin 12)].owed - 0 - 0 ≤ demo.points[(0 : Fin 4)].limit
      ∧ demo.points[(0 : Fin 4)].limit
        < ({ account0 with owed := 1000001 } : Account).owed - account0.credited - account0.waived := by
  decide +kernel

/-! ### Witnesses: gas quality and the scanner -/

theorem test_witness_QualitySlotsArePostedAndRetired :
    (tagOf 0x20).length = 8 ∧ (∀ c ∈ tagOf 0x7E, 0x20 ≤ c.toNat ∧ c.toNat ≤ 0x7E)
      ∧ 50001 < 65536 ∧ demo.quality[(1 : Fin 8)].state ≠ .empty
      ∧ (∀ i : Fin 12, demo.accounts[i].state = .opened ∨ demo.accounts[i].state = .closing →
          demo.accounts[i].quality ≠ 1)
      ∧ (demo.accounts[(2 : Fin 12)].state = .closing ∧ demo.accounts[(2 : Fin 12)].quality = 0)
      ∧ demo.quality[(2 : Fin 8)].state = .empty := by decide +kernel

theorem test_witness_DeviceSecondCountsDown :
    (demo.quality[(1 : Fin 8)].state = .current ∧ demo.quality[(1 : Fin 8)].remaining ≤ 1)
      ∧ (demo.quality[(0 : Fin 8)].state = .current ∧ 1 < demo.quality[(0 : Fin 8)].remaining)
      ∧ (21599 + 1) % 86400 = demo.clock.hour * 3600 ∧ demo.clock.timeSet = false
      ∧ ({ slot0 with remaining := 0 } : Quality).remaining = 0 := by decide +kernel

theorem test_witness_ConfigureChannelWritesFiveFields :
    (pressure.config.kind = .pressure ∧ 10000 ≤ pressure.config.lo
        ∧ pressure.config.lo < pressure.config.hi ∧ pressure.config.hi ≤ 20000000
        ∧ pressure.config.lo ≤ pressure.config.fallback)
      ∧ (∀ r : Fin 6, demo.runs[r].state = .inService →
        demo.runs[r].config.pChannel ≠ 2 ∧ demo.runs[r].config.tChannel ≠ 2)
      ∧ (ChannelKind.level ≠ demo.channels[(0 : Fin 16)].config.kind
        ∧ ∃ r : Fin 6, demo.runs[r].state = .inService ∧ demo.runs[r].config.pChannel = 0)
      ∧ ({ pressure.config with lo := 9999 } : ChannelConfig).lo < 10000 := by decide +kernel

theorem test_witness_ScanTriggersStartOrAreDropped :
    (∃ x : Fin 16, demo.terminals[x] = .sync) ∧ (∀ x : Fin 16, State.reset.terminals[x] ≠ .sync)
      ∧ demo.scan.state = .idle
      ∧ ({ demo with scan := { demo.scan with state := .scanning } } : State).scan.state = .scanning
      ∧ (abandonScan .suspended demo).scan.state = .suspended
      ∧ (List.finRange 16).filter (fun c => demo.channels[c].config.enabled) = [0, 1]
      ∧ (List.finRange 16).filter (fun c => State.reset.channels[c].config.enabled) = []
      ∧ demo.terminals[(7 : Fin 16)] = .sync ∧ demo.scan.source ≠ .sync
      ∧ demo.levels[(7 : Fin 16)] = false ∧ (setLevel 7 true demo).levels[(7 : Fin 16)] = true
      ∧ demo.terminals[(0 : Fin 16)] ≠ .sync
      ∧ demo.scan.timer = some 1000000 := by decide +kernel

/-- The station in a scan. -/
def scanning : State := startScan demo

theorem test_witness_ConversionEndTakesTheCode :
    scanning.scan.state = .scanning ∧ scanning.scan.list[scanning.scan.done]? = some 0
      ∧ (43690 * 4399954 - ((38385 : Int) - 10923) * (7100000 - 100000)).natAbs ≤ 21845
      ∧ (0 ≤ (4399954 : Int) ∧ (100000 : Int) + 4399954 ≤ 7100000)
      ∧ scanning.channels[(0 : Fin 16)].config.enabled = true
      ∧ (9830 ≤ (9830#16).toNat ∧ (9829#16).toNat < 9830 ∧ 57343 < (57344#16).toNat)
      ∧ (43690 * (-175120) - ((9830 : Int) - 10923) * (7100000 - 100000)).natAbs ≤ 21845
      ∧ demo.scan.state ≠ .scanning := by decide +kernel

/-! ### Witnesses: the header, flow, trips and strokes -/

theorem test_witness_ConfigurePointActsOnItsNeighbours :
    (∀ p : Fin 2, demo.pumps[p].state = .isolated ∨ demo.pumps[p].config.mass ≤ 10000)
      ∧ (∃ x : Fin 16, demo.terminals[x] = .valve 0) ∧ (∀ x : Fin 16, demo.terminals[x] ≠ .valve 2)
      ∧ (0 : Fin 4) ∉ demo.header.mask
      ∧ (∃ p : Fin 2, demo.pumps[p].state ≠ .isolated ∧ 9999 < demo.pumps[p].config.mass)
      ∧ ((0 : Fin 4) ∈ [(0 : Fin 4), 1] ∧ ∃ r ∈ [(0 : Fin 4), 1], r ≠ 0)
      ∧ (∀ r ∈ [(0 : Fin 4)], r = 0)
      ∧ demo.points[(0 : Fin 4)].state = .enabled ∧ 999999 < demo.points[(0 : Fin 4)].limit := by
  decide +kernel

theorem test_witness_HeaderAndManualTimerAreConfigured :
    (1 ≤ 64 ∧ 100 ≤ 10000) ∧ (1 < (2 : Byte).toNat ∧ (0 : Byte).toNat < 1 ∧ 64 < (65 : Byte).toNat)
      ∧ (1 ≤ 3600 ∧ 3600 < 3601 ∧ 3601 < 65536) := by decide +kernel

theorem test_witness_ManualDoseReplacesTheMask :
    [(0 : Fin 4), 1].Pairwise (· < ·) ∧ demo.header.state ≠ .tripped ∧ demo.supply.state ≠ .low
      ∧ (∀ q ∈ [(0 : Fin 4), 1], demo.points[q].state = .enabled)
      ∧ (∃ q ∈ [(0 : Fin 4), 2], demo.points[q].state ≠ .enabled)
      ∧ demo.header.mask = []
      ∧ (headerTrip demo).header.state = .tripped
      ∧ (∃ b ∈ ([4] : List Byte), 3 < b.toNat)
      ∧ ¬ ([1, 1] : List Byte).Pairwise (fun a b => a.toNat < b.toNat)
      ∧ (manualDose [0] demo).header.manualTimer = some 300000000
      ∧ (manualDose [0] demo).header.mask ≠ [] ∧ demo.header.manualTimer = none := by
  decide +kernel

theorem test_witness_GrantDecisionChoosesBeneficiary :
    (demo.header.state = .idle ∧ demo.trips.stop = false ∧ demo.trips.supply = false
        ∧ (∀ m : Fin 16, demo.trips.monitors[m] = false) ∧ demo.stroke = none)
      ∧ (demo.pumps[(0 : Fin 2)].state = .duty
        ∧ ∀ r : Fin 2, demo.pumps[r].state = .duty → r = 0)
      ∧ (demo.candidate 0 = true ∧ demo.accounts[(0 : Fin 12)].point = some 0
        ∧ demo.header.config.mode = .fixed
        ∧ ∀ j : Fin 12, demo.candidate j = true →
          demo.accounts[j].priority < demo.accounts[(0 : Fin 12)].priority
            ∨ (demo.accounts[j].priority = demo.accounts[(0 : Fin 12)].priority ∧ 0 ≤ j.1))
      ∧ (0 = (demo.header.rotation.1 + 1 + 0) % 12 ∧ 0 = (demo.header.manualPointer.1 + 1 + 0) % 4)
      ∧ demo.header.mask = []
      ∧ (∀ i : Fin 12, State.reset.candidate i = false) := by decide +kernel

theorem test_witness_SettleAndPauseExpiriesMoveTheHeader :
    (granted .opening (.account 0) (some 5) none).header.timer = some 5
      ∧ (granted .opening (.account 0) (some 5) none).header.grant = some (grantOf (.account 0))
      ∧ (granted .opening (.account 0) (some 5) none).strokeTest (grantOf (.account 0)) = true
      ∧ (granted .opening (.account 0) (some 5) none).strokeTest
        { grantOf (.account 0) with strokes := 8 } = false
      ∧ (granted .closing (.account 0) (some 5) none).header.state = .closing
      ∧ demo.header.timer = none := by decide +kernel

theorem test_witness_FlowAndStopInputsAct :
    demo.terminals[(6 : Fin 16)] = .flowsw 0 ∧ demo.levels[(6 : Fin 16)] = true
      ∧ demo.terminals[(11 : Fin 16)] = .flowsw 1 ∧ demo.levels[(11 : Fin 16)] = false
      ∧ demo.terminals[(8 : Fin 16)] = .stopIn ∧ demo.levels[(8 : Fin 16)] = true
      ∧ (setLevel 8 false demo).levels[(8 : Fin 16)] = false
      ∧ (∀ q, demo.terminals[(0 : Fin 16)] ≠ .flowsw q) := by decide +kernel

theorem test_witness_TripSetMovesTheHeader :
    (granted .opening .manual (some 5) none).header.grant = some (grantOf .manual)
      ∧ demo.header.grant = none
      ∧ ((demo.trips.withStop true).stop = true ∧ demo.trips.stop = false)
      ∧ (granted .stroking .manual none (some (strokeOf .manual))).header.state = .stroking
      ∧ (strokeOf .manual).phase = .drive ∧ demo.header.state ≠ .tripped
      ∧ demo.header.mask = [] ∧ (manualDose [0] demo).header.mask ≠ [] := by decide +kernel

theorem test_witness_StrokeStartFillsTheRecord :
    demo.pumps[(0 : Fin 2)].state = .duty ∧ (∀ r : Fin 2, demo.pumps[r].state = .duty → r = 0)
      ∧ (grantOf .manual).beneficiary = .manual
      ∧ (grantOf (.account 0)).beneficiary = .account 0 := by decide +kernel

theorem test_witness_ResolutionReachesBeneficiaryThenPump :
    (granted .stroking (.account 2) none (some (strokeOf (.account 2)))).stroke
        = some (strokeOf (.account 2))
      ∧ Resolution.proven ≠ .unresolved
      ∧ (strokeOf (.account 2)).beneficiary = .account 2
      ∧ demo.accounts[(2 : Fin 12)].state = .closing
      ∧ (demo.accounts[(3 : Fin 12)].state = .opened ∧ demo.accounts[(3 : Fin 12)].point = none)
      ∧ (demo.accounts[(0 : Fin 12)].state ≠ .closing ∧ demo.accounts[(0 : Fin 12)].point ≠ none)
      ∧ (0 + 1 < demo.pumps[(0 : Fin 2)].config.failureLimit
        ∧ demo.pumps[(0 : Fin 2)].config.failureLimit ≤ 2 + 1)
      ∧ (1 : Fin 2) ≠ (strokeOf (.account 2)).pump := by decide +kernel

/-- A stroke whose record is to be cleared. -/
def finished : Stroke :=
  { strokeOf (.account 0) with phase := .recover, resolution := .proven, spacingPassed := true }

theorem test_witness_FinishedStrokeIsCleared :
    demo.pendingDuty = none
      ∧ ({ demo with pendingDuty := some 1 } : State).pumps[(1 : Fin 2)].state = .standby
      ∧ ({ demo with pendingDuty := some 0 } : State).pumps[(0 : Fin 2)].state ≠ .standby
      ∧ (0 : Fin 2) ≠ 1 ∧ demo.header.state ≠ .stroking
      ∧ (granted .stroking (.account 0) none (some finished)).header.grant
        = some (grantOf (.account 0))
      ∧ (granted .stroking (.account 0) none none).strokeTest (grantOf (.account 0)) = true
      ∧ (granted .stroking (.account 0) none none).strokeTest
        { grantOf (.account 0) with endRequested := true } = false
      ∧ finished.phase ≠ .drive ∧ (strokeOf .manual).phase = .drive := by decide +kernel

theorem test_witness_ProofActivationProvesTheStroke :
    demo.terminals[(3 : Fin 16)] = .proof 0 ∧ demo.levels[(3 : Fin 16)] = false
      ∧ (setLevel 3 true demo).levels[(3 : Fin 16)] = true ∧ (strokeOf .manual).pump = 0
      ∧ (strokeOf .manual).mode = .closedLoop ∧ (strokeOf .manual).resolution = .unresolved
      ∧ demo.stroke = none ∧ finished.resolution ≠ .unresolved
      ∧ (∀ p, demo.terminals[(0 : Fin 16)] ≠ .proof p) := by decide +kernel

theorem test_witness_StrokeTimersActOnTheRecord :
    (granted .stroking .manual none (some (strokeOf .manual))).stroke = some (strokeOf .manual)
      ∧ (strokeOf .manual).phase = .drive ∧ (strokeOf .manual).resolution = .unresolved
      ∧ (strokeOf .manual).mode = .closedLoop ∧ (strokeOf .manual).driveCut = false
      ∧ (strokeOf .manual).cut.driveCut = true ∧ (strokeOf .manual).spacingPassed = false
      ∧ ({ strokeOf .manual with mode := .openLoop } : Stroke).mode = .openLoop
      ∧ finished.phase ≠ .drive ∧ finished.spacingPassed = true ∧ demo.stroke = none := by
  decide +kernel

/-! ### Witnesses: pumps and monitors -/

theorem test_witness_ConfigurePumpSetsItsConfiguration :
    demo.pumps[(1 : Fin 2)].state = .standby ∧ demo.pumps[(0 : Fin 2)].state = .duty
      ∧ (∀ q : Fin 4, 500000 ≤ demo.points[q].limit)
      ∧ (∃ q : Fin 4, (writePoint 3 .disabled 499999 demo).points[q].limit < 500000)
      ∧ 500001 < 2 ^ 32 ∧ 2001 < 65536 ∧ 16 < 256 := by decide +kernel

theorem test_witness_PumpStateCommandsMoveOnePump :
    (State.reset.pumps[(0 : Fin 2)].state = .isolated
        ∧ ∀ x : Fin 16, State.reset.terminals[x] ≠ .drive 0)
      ∧ (∃ x : Fin 16, demo.terminals[x] = .drive 1)
      ∧ (∀ q : Fin 4, demo.pumps[(1 : Fin 2)].config.mass ≤ demo.points[q].limit)
      ∧ demo.pumps[(1 : Fin 2)].state = .standby ∧ demo.stroke = none
      ∧ (strokeOf .manual).pump = 0
      ∧ (failPump 0 demo).pumps[(0 : Fin 2)].state = .failed
      ∧ (failPump 0 demo).pumps[(1 : Fin 2)].state = .duty := by decide +kernel

theorem test_witness_SelectDutyAppliesOrDefers :
    demo.pumps[(1 : Fin 2)].state = .standby ∧ (0 : Fin 2) ≠ 1 ∧ demo.stroke = none
      ∧ (granted .stroking .manual none (some (strokeOf .manual))).stroke ≠ none
      ∧ demo.pumps[(0 : Fin 2)].state ≠ .standby := by decide +kernel

theorem test_witness_MonitorConfigurationStartsAnew :
    (60000 ≤ 60000 ∧ 60000 < 60001 ∧ 60001 < 65536)
      ∧ (demo.monitors[(0 : Fin 16)].config.sense = .high
        ∧ demo.monitors[(0 : Fin 16)].config.clearLevel
          ≤ demo.monitors[(0 : Fin 16)].config.threshold)
      ∧ (∃ x : Fin 16, demo.terminals[x] = .trip) ∧ (∀ x : Fin 16, State.reset.terminals[x] ≠ .trip)
      ∧ (demo.monitors[(2 : Fin 16)].state = .tripped
        ∧ demo.monitors[(2 : Fin 16)].config.action = .tripOutput)
      ∧ (¬ ∃ m : Fin 16, State.reset.monitors[m].state = .tripped)
      ∧ (15 < (16 : Byte).toNat ∧ (List.replicate 10 (0 : Byte)).length = 10) := by
  decide +kernel

theorem test_witness_AckAndDelayExpiryMoveTheMonitor :
    (demo.monitors[(2 : Fin 16)].state = .tripped
        ∧ 0 < demo.monitors[(2 : Fin 16)].config.delay
        ∧ demo.monitors[(2 : Fin 16)].condition = true)
      ∧ ({ monitorOf .tripped 100 .tripOutput none with last := some 6000000 } : Monitor).condition
        = false
      ∧ (demo.monitors[(3 : Fin 16)].state = .tripped
        ∧ demo.monitors[(3 : Fin 16)].config.delay = 0)
      ∧ (demo.monitors[(1 : Fin 16)].state = .timing
        ∧ demo.monitors[(1 : Fin 16)].timer = some 9)
      ∧ demo.monitors[(0 : Fin 16)].state ≠ .timing := by decide +kernel

theorem test_witness_MonitorEvaluationActsByState :
    ({ demo with dueValues := [⟨1, 7⟩, ⟨0, 6000001⟩] } : State).dueValues
        = [⟨1, 7⟩] ++ ⟨0, 6000001⟩ :: []
      ∧ (∀ x ∈ ([⟨1, 7⟩] : List DueValue), x.monitor ≠ 0)
      ∧ (demo.monitors[(0 : Fin 16)].state = .watching
        ∧ demo.monitors[(0 : Fin 16)].config.threshold < 6000001
        ∧ demo.monitors[(0 : Fin 16)].config.delay = 0
        ∧ demo.monitors[(0 : Fin 16)].config.action = .headerTrip)
      ∧ (demo.monitors[(1 : Fin 16)].state = .timing
        ∧ 5000000 ≤ demo.monitors[(1 : Fin 16)].config.clearLevel)
      ∧ (demo.monitors[(3 : Fin 16)].state = .tripped
        ∧ demo.monitors[(3 : Fin 16)].config.delay = 0)
      ∧ ((enterTripped 0 demo).monitors[(0 : Fin 16)].state = .tripped
        ∧ (enterTripped 0 demo).monitors[(0 : Fin 16)].config.delay = 0
        ∧ (enterTripped 0 demo).monitors[(0 : Fin 16)].config.action = .headerTrip
        ∧ 5000000 ≤ (enterTripped 0 demo).monitors[(0 : Fin 16)].config.clearLevel)
      ∧ demo.monitors[(9 : Fin 16)].state = .disabled
      ∧ (∀ x ∈ demo.dueValues, x.monitor ≠ 0) := by decide +kernel

/-! ### Witnesses: the station, terminals and attention -/

theorem test_witness_TimeAndBaseConditionsAreSet :
    (∀ n < 2, 86400 * demo.clock.gasDay n ≤ (n : Int) - demo.clock.hour * 3600
        ∧ (n : Int) - demo.clock.hour * 3600 < 86400 * (demo.clock.gasDay n + 1))
      ∧ demo.clock.gasDay 21600 ≠ demo.clock.gasDay 21599
      ∧ (writeTime 5 demo).clock.timeSet = true ∧ demo.clock.timeSet = false
      ∧ 23 < (24 : Byte).toNat ∧ 110001 < 2 ^ 32 ∧ 298151 < 2 ^ 32 := by decide +kernel

theorem test_witness_CrystalEventsChangeTheSource :
    demo.clock.source = .fallback ∧ demo.clock.qualification = some 2000000
      ∧ (crystalQualified true demo).clock.source = .crystal
      ∧ (crystalQualified false demo).clock.source = .fallback
      ∧ (crystalQualified false demo).clock.qualification = none := by decide +kernel

theorem test_witness_SupplyQualifiesItsChanges :
    demo.supply.state = .normal ∧ demo.supply.qualification = none
      ∧ (enterLow demo).supply.state = .low ∧ (enterLow demo).supply.qualification = none
      ∧ (setQualification (some 5000) demo).supply.qualification = some 5000
      ∧ (setQualification (some 5000) (enterLow demo)).supply.state = .low := by decide +kernel

theorem test_witness_SavesWriteTheSnapshotOfTheirStart :
    demo.supply.save = none ∧ (startSave demo).supply.save ≠ none := by decide +kernel

theorem test_witness_WarmResetTakesItsNineSteps :
    (0xC2 : Byte) ≠ 0xC3
      ∧ (granted .stroking (.account 2) none (some (strokeOf (.account 2)))).stroke
        = some (strokeOf (.account 2))
      ∧ (strokeOf (.account 2)).resolution = .unresolved
      ∧ demo.accounts[(2 : Fin 12)].state = .closing ∧ demo.stroke = none
      ∧ demo.port.link = .high ∧ (linked (.receiving []) demo).port.link = .receiving [] := by
  decide +kernel

theorem test_witness_ColdStartRestoresOrDefaults :
    demo.supply.image = none
      ∧ (saveCompletion (startSave demo)).supply.image = some demo.snapshot := by decide +kernel

theorem test_witness_MapTerminalMovesAFunction :
    TerminalFunction.none = demo.terminals[(12 : Fin 16)]
      ∧ (TerminalFunction.none ≠ demo.terminals[(10 : Fin 16)]
        ∧ demo.runs[(1 : Fin 6)].state ≠ .inService)
      ∧ (TerminalFunction.none ≠ demo.terminals[(0 : Fin 16)]
        ∧ demo.runs[(0 : Fin 6)].state = .inService)
      ∧ (TerminalFunction.trip ≠ .none ∧ ∃ y : Fin 16, y ≠ 12 ∧ demo.terminals[y] = .trip)
      ∧ demo.holder .stopIn = some 8 ∧ State.reset.holder .stopIn = none
      ∧ function? 1 6 = none ∧ function? 0 1 = none ∧ function? 9 0 = none := by decide +kernel

theorem test_witness_no_function_codes (g : TerminalFunction) : g.bytes ≠ [9, 0] := by
  cases g <;> simp [TerminalFunction.bytes, byte, toBytes]

theorem test_witness_AttentionIsRaisedAndAcknowledged :
    (demo.causes[CauseKind.restart.code].level ≠ 0
        ∧ demo.causes[CauseKind.restart.code].subjects.Pairwise (· < ·))
      ∧ (setAttentionLevel 0 0 demo).causes[CauseKind.restart.code].level = 0
      ∧ ((3 : Nat) = ([3, 0, 0, 2, 12, 16, 16, 8, 6, 6, 0, 0, 0, 12, 0, 2] : List Nat).getD 0 0)
      ∧ (∀ n ∈ [2, 255], n < 3 ∨ n = 255)
      ∧ (∃ b ∈ ([3] : List Byte), b ≠ 255 ∧ 3 ≤ b.toNat)
      ∧ 15 < (16 : Byte).toNat ∧ 3 < (4 : Byte).toNat := by decide +kernel

/-- The state in service satisfies the laws, which the statements about every step assume. -/
theorem test_witness_law : demo.law where
  account := ⟨⟨by decide +kernel, by decide +kernel, by decide +kernel, by decide +kernel,
    by decide +kernel, by decide +kernel⟩, fun m h => by cases h⟩
  obligation := ⟨⟨by decide +kernel, by decide +kernel, by decide +kernel, by decide +kernel,
    by decide +kernel⟩, fun m h => (by cases h), fun k h => (by cases h), by decide +kernel⟩
  duty := ⟨by unfold OneDuty; decide +kernel, fun m h => by cases h⟩
  header := ⟨⟨rfl, rfl⟩, by unfold State.maskLaw; decide +kernel⟩
  trip := by unfold State.tripLaw; decide +kernel
  terminal := ⟨⟨by decide +kernel, by decide +kernel, by decide +kernel,
    by show ∀ r : Fin 6, demo.runs[r].state = .inService → ∃ t : Fin 16, demo.terminals[t] = .pulse r
       decide +kernel⟩, fun m h => by cases h⟩
  attention := ⟨by unfold CauseKind.owns; decide +kernel, fun m h => by cases h⟩
  monitor := fun m => ⟨by revert m; decide +kernel, by revert m; decide +kernel,
    by revert m; decide +kernel⟩
  port := ⟨by decide +kernel, by decide +kernel, by decide +kernel⟩
  scan := ⟨by decide +kernel, by decide +kernel, by decide +kernel, by decide +kernel⟩

/-- The station at work: a stroke in flight for account 0, the header STROKING with its grant, a manual set waiting, a scan in
flight, a request in execution. -/
def working : State :=
  startScan
    { granted .stroking (.account 0) none (some (strokeOf (.account 0))) with
      accounts := setAt demo.accounts 0 { account0 with reserved := 10000 }
      header :=
        { (granted .stroking (.account 0) none none).header with
          mask := [0, 1], manualTimer := some 300000000 }
      port := (served 0x64 [] demo).port }

/-- The same with a save in flight. -/
def saving : State := startSave working

/-- The station tripped by monitor 0 over its stroke, which the trip cuts, with the save completed into a VALID image. -/
def tripped : State := evaluate 0 6000001 (saveCompletion saving)

theorem test_saving_is_at_work :
    saving.header.state = .stroking ∧ saving.header.grant.isSome ∧ saving.stroke.isSome
      ∧ saving.supply.save.isSome ∧ saving.scan.state = .scanning
      ∧ saving.port.state = .executing ∧ saving.header.mask ≠ []
      ∧ saving.accounts[(0 : Fin 12)].reserved = 10000 := by decide +kernel

theorem test_tripped_is_tripped :
    tripped.header.state = .tripped ∧ tripped.trips.isEmpty = false
      ∧ tripped.supply.image.isSome ∧ tripped.stroke = some (strokeOf (.account 0)).cut
      ∧ (strokeOf (.account 0)).cut.resolution = .unresolved
      ∧ tripped.header.mask = [] := by decide +kernel

/-- The save in flight, and later the image, hold the snapshot of the state at work. -/
theorem test_snapshots_of_working :
    saving.snapshots = [working.snapshot] ∧ tripped.snapshots = [working.snapshot] := by
  decide +kernel

theorem test_working_accounts : AccountLaw working.accounts working.quality :=
  ⟨by decide +kernel, by decide +kernel, by decide +kernel, by decide +kernel,
    by decide +kernel, by decide +kernel⟩

theorem test_working_masses : ObligationLaw working.accounts working.points working.pumps :=
  ⟨by decide +kernel, by decide +kernel, by decide +kernel, by decide +kernel, by decide +kernel⟩

theorem test_working_duty : OneDuty working.pumps := by unfold OneDuty; decide +kernel

theorem test_working_terminals : TerminalLaw working.terminals working.points working.pumps
    (fun r => working.runs[r].state = .inService) :=
  ⟨by decide +kernel, by decide +kernel, by decide +kernel, by
    show ∀ r : Fin 6, working.runs[r].state = .inService → ∃ t : Fin 16, working.terminals[t] = .pulse r
    decide +kernel⟩

/-- The state at work with a save in flight satisfies the laws. -/
theorem test_witness_law_at_work : saving.law where
  account := ⟨test_working_accounts, by
    rw [test_snapshots_of_working.1]; rintro _ (_ | ⟨_, ⟨⟩⟩); exact test_working_accounts⟩
  obligation := ⟨test_working_masses, by
      rw [test_snapshots_of_working.1]; rintro _ (_ | ⟨_, ⟨⟩⟩); exact test_working_masses,
    fun k h => by
      obtain rfl : k = strokeOf (.account 0) := (Option.some.inj h).symm
      unfold State.strokeLaw; decide +kernel,
    by decide +kernel⟩
  duty := ⟨test_working_duty, by
    rw [test_snapshots_of_working.1]; rintro _ (_ | ⟨_, ⟨⟩⟩); exact test_working_duty⟩
  header := ⟨by show _ ∧ _ ∧ _; decide +kernel, by unfold State.maskLaw; decide +kernel⟩
  trip := by unfold State.tripLaw; decide +kernel
  terminal := ⟨test_working_terminals, by
    rw [test_snapshots_of_working.1]; rintro _ (_ | ⟨_, ⟨⟩⟩)
    exact ⟨test_working_terminals.single, test_working_terminals.valve, test_working_terminals.drive, by
      show ∀ r : Fin 6, working.snapshot.runs[r].state = .inService →
        ∃ t : Fin 16, working.terminals[t] = .pulse r
      decide +kernel⟩⟩
  attention := ⟨by unfold CauseKind.owns; decide +kernel, by
    rw [test_snapshots_of_working.1]; rintro _ (_ | ⟨_, ⟨⟩⟩); decide +kernel⟩
  monitor := fun m => ⟨by revert m; decide +kernel, by revert m; decide +kernel,
    by revert m; decide +kernel⟩
  port := ⟨by decide +kernel, by decide +kernel, by decide +kernel⟩
  scan := ⟨by decide +kernel, by decide +kernel, by decide +kernel, by decide +kernel⟩

/-- The tripped state satisfies the laws. -/
theorem test_witness_law_tripped : tripped.law where
  account := ⟨test_working_accounts, by
    rw [test_snapshots_of_working.2]; rintro _ (_ | ⟨_, ⟨⟩⟩); exact test_working_accounts⟩
  obligation := ⟨test_working_masses, by
      rw [test_snapshots_of_working.2]; rintro _ (_ | ⟨_, ⟨⟩⟩); exact test_working_masses,
    fun k h => by
      obtain rfl : k = (strokeOf (.account 0)).cut :=
        (Option.some.inj (test_tripped_is_tripped.2.2.2.1.symm.trans h)).symm
      unfold State.strokeLaw; decide +kernel,
    by decide +kernel⟩
  duty := ⟨test_working_duty, by
    rw [test_snapshots_of_working.2]; rintro _ (_ | ⟨_, ⟨⟩⟩); exact test_working_duty⟩
  header := ⟨by show _ ∧ _; decide +kernel, by unfold State.maskLaw; decide +kernel⟩
  trip := by unfold State.tripLaw; decide +kernel
  terminal := ⟨test_working_terminals, by
    rw [test_snapshots_of_working.2]; rintro _ (_ | ⟨_, ⟨⟩⟩)
    exact test_witness_law_at_work.terminal.2 _ (by rw [test_snapshots_of_working.1]; exact .head _)⟩
  attention := ⟨by unfold CauseKind.owns; decide +kernel, by
    rw [test_snapshots_of_working.2]; rintro _ (_ | ⟨_, ⟨⟩⟩); decide +kernel⟩
  monitor := fun m => ⟨by revert m; decide +kernel, by revert m; decide +kernel,
    by revert m; decide +kernel⟩
  port := ⟨by decide +kernel, by decide +kernel, by decide +kernel⟩
  scan := ⟨by decide +kernel, by decide +kernel, by decide +kernel, by decide +kernel⟩

theorem test_witness_law_step : step { demo with pending := [.save] } = .next demo := rfl

end Sys2Proof.Tests
end

/-! The laws of the state after reset, and the proof of O55. -/

namespace Sys2Proof.Machine
-- One proof after the other: a proof that waits for an earlier one holds a thread and its stack.
set_option Elab.async false

/-- The part holds no snapshot after reset: the image is INVALID and no save is in flight (R192). -/
theorem reset_snapshots : State.reset.snapshots = [] := rfl

theorem reset_accountLaw : State.reset.accountLaw :=
  ⟨⟨by decide +kernel, by decide +kernel, by decide +kernel, by decide +kernel, by decide +kernel,
    by decide +kernel⟩, by simp [reset_snapshots]⟩

theorem reset_obligationLaw : State.reset.obligationLaw :=
  ⟨⟨by decide +kernel, by decide +kernel, by decide +kernel, by decide +kernel, by decide +kernel⟩,
    by simp [reset_snapshots], fun _ hk => (by cases hk), by decide +kernel⟩

theorem reset_dutyLaw : State.reset.dutyLaw :=
  ⟨by unfold OneDuty; decide +kernel, by simp [reset_snapshots]⟩

theorem reset_terminalLaw : State.reset.terminalLaw :=
  ⟨⟨by decide +kernel, by decide +kernel, by decide +kernel,
    by show ∀ r : Fin 6, State.reset.runs[r].state = .inService →
        ∃ t : Fin 16, State.reset.terminals[t] = .pulse r
       decide +kernel⟩, by simp [reset_snapshots]⟩

theorem reset_monitorLaw : State.reset.monitorLaw := fun m =>
  ⟨by revert m; decide +kernel, by revert m; decide +kernel, by revert m; decide +kernel⟩

/-- The laws hold of the state after reset, unit by unit. -/
theorem reset_law : State.reset.law where
  account := reset_accountLaw
  obligation := reset_obligationLaw
  duty := reset_dutyLaw
  header := ⟨⟨rfl, rfl⟩, by unfold State.maskLaw; decide +kernel⟩
  trip := by unfold State.tripLaw; decide +kernel
  terminal := reset_terminalLaw
  attention := ⟨by unfold CauseKind.owns; decide +kernel, by simp [reset_snapshots]⟩
  monitor := reset_monitorLaw
  port := ⟨by decide +kernel, by decide +kernel, by decide +kernel⟩
  scan := ⟨by decide +kernel, by decide +kernel, by decide +kernel, by decide +kernel⟩

/-- Settles O55. -/
theorem resetSatisfiesTheLaws : Obligations.ResetSatisfiesTheLaws := reset_law

end Sys2Proof.Machine

/-! SUPPORT. The laws of accounts, masses and pumps taken together, and the operations that do not touch what they read. -/

namespace Sys2Proof.Machine
-- One proof after the other: a proof that waits for an earlier one holds a thread and its stack.
set_option Elab.async false

/-- The laws of the Account Table, of the duty pump and of the odourant masses, which the snapshots hold too. -/
structure State.recordLaw (s : State) : Prop where
  account : s.accountLaw
  duty : s.dutyLaw
  obligation : s.obligationLaw

theorem State.law.records {s : State} (h : s.law) : s.recordLaw := ⟨h.account, h.duty, h.obligation⟩

theorem State.law.mass {s : State} (h : s.law) : s.massLaw := obligation_mass h.obligation

/-- Nothing that the laws of the records read differs in the second state, and it holds no other snapshot. -/
structure Apart (s t : State) : Prop where
  accounts : t.accounts = s.accounts := by simp
  quality : t.quality = s.quality := by simp
  points : t.points = s.points := by simp
  pumps : t.pumps = s.pumps := by simp
  stroke : t.stroke.map Stroke.weight = s.stroke.map Stroke.weight := by simp
  snapshots : ∀ m ∈ t.snapshots, m ∈ s.snapshots := by simp [State.snapshots]

/-- The records that the laws of accounts, masses and pumps do not read may change in any way. -/
theorem apart_other (s : State) {powered now port runs released channels scan header pendingDuty
    trips monitors dueValues tripTest causes terminals levels clock pending} : Apart s
    { s with
      powered := powered, now := now, port := port, runs := runs, released := released
      channels := channels, scan := scan, header := header, pendingDuty := pendingDuty
      trips := trips, monitors := monitors, dueValues := dueValues, tripTest := tripTest
      causes := causes, terminals := terminals, levels := levels, clock := clock
      pending := pending } :=
  ⟨rfl, rfl, rfl, rfl, rfl, fun _ h => h⟩

theorem Apart.refl (s : State) : Apart s s := apart_other s

theorem Apart.trans {s t u : State} (h : Apart s t) (k : Apart t u) : Apart s u :=
  ⟨k.accounts.trans h.accounts, k.quality.trans h.quality, k.points.trans h.points,
    k.pumps.trans h.pumps, k.stroke.trans h.stroke, fun m hm => h.snapshots m (k.snapshots m hm)⟩

theorem Apart.massLaw {s t : State} (e : Apart s t) (h : s.massLaw) : t.massLaw := by
  have same : SameObligation s { t with supply := s.supply } :=
    { account := fun i => by rw [e.accounts]; exact .refl _
      limit := by simp [e.points], pump := by simp [e.pumps], mass := by simp [e.pumps]
      stroke := e.stroke, supply := rfl }
  have hm := same.massLaw h
  exact ⟨hm.account, hm.strokeMass, hm.stroke, hm.reserve⟩

/-- The laws of the records from those of the part, where the snapshots are among those of a lawful state. -/
theorem recordLaw_of {s t : State} (h : s.recordLaw) (ha : AccountLaw t.accounts t.quality)
    (hd : OneDuty t.pumps) (hm : t.massLaw)
    (hs : ∀ m ∈ t.snapshots, m ∈ s.snapshots := by simp [State.snapshots]) : t.recordLaw :=
  ⟨⟨ha, fun m hm => h.account.2 m (hs m hm)⟩, ⟨hd, fun m hm => h.duty.2 m (hs m hm)⟩,
    obligation_iff.mpr ⟨hm, fun m hm => h.obligation.2.1 m (hs m hm)⟩⟩

theorem Apart.law {s t : State} (e : Apart s t) (h : s.recordLaw) : t.recordLaw :=
  recordLaw_of h (by rw [e.accounts, e.quality]; exact h.account.1) (by rw [e.pumps]; exact h.duty.1)
    (e.massLaw (obligation_mass h.obligation)) e.snapshots

theorem State.recordLaw.other {s : State} {powered now port runs released channels scan header
    pendingDuty trips monitors dueValues tripTest causes terminals levels clock pending}
    (h : s.recordLaw) : ({ s with
      powered := powered, now := now, port := port, runs := runs, released := released
      channels := channels, scan := scan, header := header, pendingDuty := pendingDuty
      trips := trips, monitors := monitors, dueValues := dueValues, tripTest := tripTest
      causes := causes, terminals := terminals, levels := levels, clock := clock
      pending := pending } : State).recordLaw :=
  (apart_other s).law h

/-- The laws of the records where the pumps stand as they did. -/
theorem recordLaw_table {s t : State} (h : s.recordLaw) (ha : AccountLaw t.accounts t.quality)
    (hm : t.massLaw) (hp : t.pumps = s.pumps := by simp) (hs : t.supply = s.supply := by simp) :
    t.recordLaw :=
  recordLaw_of h ha (hp ▸ h.duty.1) hm (by simp [State.snapshots, hs])

/-- The laws of the records where what the Account Table's laws read stands as it did. -/
theorem SameAccounts.recordLaw {s t : State} (e : SameAccounts s t) (h : s.recordLaw)
    (hd : OneDuty t.pumps) (hm : t.massLaw) : t.recordLaw :=
  recordLaw_of h (e.law h.account).1 hd hm (by simp [State.snapshots, e.supply])

/-- The laws of the records where neither accounts, nor masses, nor pumps are touched. -/
theorem SameAccounts.lawful {s t : State} (e : SameAccounts s t) (k : SameObligation s t)
    (h : s.recordLaw) (hp : t.pumps = s.pumps := by simp) : t.recordLaw :=
  ⟨e.law h.account, dutyLaw_congr h.duty hp e.supply, k.law h.obligation⟩

/-! ### The operations that are apart from the records -/

theorem grantIfDue_apart (s : State) : Apart s (grantIfDue s) := {}

theorem requestEnd_apart (f : Grant → Bool) (s : State) : Apart s (requestEnd f s) := {}

theorem changeTrips_apart (f : TripSet → TripSet) (s : State) : Apart s (changeTrips f s) where
  stroke := changeTrips_weight f s

theorem releaseAction_apart (m : Fin 16) (a : Action) (s : State) :
    Apart s (releaseAction m a s) where
  stroke := (releaseAction_obligation m a s).stroke

theorem releaseIfTripped_apart (m : Fin 16) (s : State) : Apart s (releaseIfTripped m s) := by
  unfold releaseIfTripped; split
  · exact releaseAction_apart _ _ s
  · exact .refl s

theorem configureMonitor_apart (m : Fin 16) (c : MonitorConfig) (s : State) :
    Apart s (configureMonitor m c s) :=
  (apart_other s).trans <| (releaseIfTripped_apart m (dropDue m s)).trans <|
    (apart_other (releaseIfTripped m (dropDue m s))).trans <| grantIfDue_apart _

theorem ackMonitor_apart (m : Fin 16) (s : State) : Apart s (ackMonitor m s) := by
  unfold ackMonitor; dsimp only; split
  · exact .refl s
  · exact (apart_other s).trans <|
      (releaseAction_apart m s.monitors[m].config.action (editMonitor m _ s)).trans <|
        grantIfDue_apart _

theorem evaluate_apart (m : Fin 16) (v : Nat) (s : State) : Apart s (evaluate m v s) where
  stroke := (evaluate_obligation m v s).stroke

theorem enterTripped_apart (m : Fin 16) (s : State) : Apart s (enterTripped m s) where
  stroke := (enterTripped_obligation m s).stroke

theorem delayExpiry_apart (m : Fin 16) (s : State) : Apart s (delayExpiry m s) := by
  unfold delayExpiry; dsimp only; split
  · next t _ _ =>
    split
    · exact (apart_other s).trans (enterTripped_apart m (reach t s))
    · exact apart_other _
  · exact .refl s

theorem raiseIf_apart (b : Bool) (k : CauseKind) (n : Nat) (s : State) :
    Apart s (raiseIf b k n s) := {}

theorem pulseAt_apart (r : Fin 6) (rising : Bool) (s : State) : Apart s (pulseAt r rising s) := by
  unfold pulseAt; split
  · exact (apart_other s).trans (raiseIf_apart _ _ _ (editRun r _ s))
  · exact .refl s

theorem trigger_apart (s : State) : Apart s (trigger s) := {}

theorem completeScan_apart (s : State) : Apart s (completeScan s) := {}

theorem takeCode_apart (i : Fin 16) (code : BitVec 16) (s : State) : Apart s (takeCode i code s) := {}

theorem conversionEnd_apart (code : BitVec 16) (s : State) : Apart s (conversionEnd code s) := by
  unfold conversionEnd; dsimp only; split
  · next i _ _ =>
    have h := (apart_other s).trans (takeCode_apart i code (reach s.scan.conversionEnd s))
    split
    · exact (h.trans (apart_other _)).trans (completeScan_apart _)
    · exact h.trans (apart_other _)
  · exact .refl s

theorem dropFlows_apart (before s : State) : Apart s (dropFlows before s) :=
  fold_keeps (P := Apart s) (fun _ _ h => h.trans (requestEnd_apart _ _)) _ _ (.refl s)

theorem remapStop_apart (before s : State) : Apart s (remapStop before s) := by
  unfold remapStop; split
  · exact .refl s
  · exact changeTrips_apart _ s

theorem mapTerminal_apart (t : Fin 16) (f : TerminalFunction) (s : State) :
    Apart s (mapTerminal t f s) :=
  (apart_other s).trans <| (dropFlows_apart s _).trans <| (remapStop_apart s _).trans <|
    grantIfDue_apart _

theorem endManual_apart (s : State) : Apart s (endManual s) where
  stroke := (endManual_obligation s).stroke

theorem pauseExpiry_apart (s : State) : Apart s (pauseExpiry s) := by
  unfold pauseExpiry; split
  · exact (apart_other s).trans (grantIfDue_apart _)
  · exact .refl s

/-- The entry to a supply state keeps the snapshots (R187). -/
theorem enterSupply_apart (st : SupplyState) (s : State) : Apart s (enterSupply st s) :=
  ⟨rfl, rfl, rfl, rfl, rfl, fun _ h => h⟩

theorem setQualification_apart (q : Option Nat) (s : State) : Apart s (setQualification q s) :=
  ⟨rfl, rfl, rfl, rfl, rfl, fun _ h => h⟩

/-- A part that stops loses the snapshot of a save in flight (R186). -/
theorem powerDown_apart (s : State) : Apart s (powerDown s) :=
  ⟨rfl, rfl, rfl, rfl, rfl, fun m hm => by
    simp only [powerDown, State.snapshots, Option.map_none, Option.toList_none, List.append_nil] at hm
    exact List.mem_append_left _ hm⟩

/-- The completion of a save moves its snapshot to the image (R188). -/
theorem saveDone_apart {v : Save} {s : State} (h : s.supply.save = some v) :
    Apart s (raise .portEvent 1
      { s with supply := { s.supply with image := some v.snapshot, save := none } }) where
  snapshots m hm := by simp_all [State.snapshots]

theorem returnToNormal_apart (s : State) : Apart s (returnToNormal s) :=
  (enterSupply_apart .normal s).trans <| (changeTrips_apart _ _).trans <|
    (apart_other (changeTrips _ _)).trans <| grantIfDue_apart _

end Sys2Proof.Machine

/-! SUPPORT and proofs of O56 and O57. What every operation does to the laws of accounts, masses and pumps together. -/

namespace Sys2Proof.Machine
-- One proof after the other: a proof that waits for an earlier one holds a thread and its stack.
set_option Elab.async false

/-! ### The operations that act on the records -/

theorem State.recordLaw.mass {s : State} (h : s.recordLaw) : s.massLaw := obligation_mass h.obligation

theorem State.recordLaw.grant {s : State} (h : s.recordLaw) : (grantIfDue s).recordLaw :=
  (grantIfDue_apart s).law h

/-- After a change of pumps alone. -/
theorem recordLaw_pumps {s t : State} (h : s.recordLaw) (hd : t.dutyLaw) (hm : t.massLaw)
    (e : SameAccounts s t := by exact {}) : t.recordLaw :=
  e.recordLaw h hd.1 hm

theorem openAccount_records {s : State} {i tag q pt d pr} (h : s.recordLaw)
    (hs : s.accounts[(i : Fin 12)].state = .free) (ht : s.slotOfTag tag = none)
    (hq : s.quality[(q : Fin 8)].state ≠ .empty) :
    ({ s with accounts := setAt s.accounts i (.fresh tag q pt d pr s.clock.deviceTime) }
      : State).recordLaw :=
  recordLaw_table h (openAccount_accountLaw h.account ht hq) (openAccount_mass h.mass hs) rfl rfl

theorem releaseAccount_records {s : State} {i : Fin 12} (h : s.recordLaw)
    (hs : s.accounts[i].state = .closed) :
    ({ s with accounts := setAt s.accounts i .free } : State).recordLaw :=
  recordLaw_table h
    (h.account.1.shut rfl (by simp [Account.free]) (by simp [Account.free])
      (by simp [Account.naming, Account.free]))
    (releaseAccount_mass h.mass hs) rfl rfl

theorem amendAccount_records {s : State} {i : Fin 12} {m : Amendment} (h : s.recordLaw)
    (hs : s.accounts[i].state = .opened)
    (hq : s.quality[m.quality].state ≠ .empty ∨ m.quality = s.accounts[i].quality) :
    (amendAccount i m s).recordLaw :=
  (recordLaw_table h
    ((pointChanged_accounts i s.accounts[i].point _).law (amended_accountLaw h.account hq)).1
    (amend_mass h.mass hs)).grant

theorem attachRun_records {s : State} {i : Fin 12} {r : Fin 6} (h : s.recordLaw)
    (hs : s.accounts[i].state = .opened) (ho : s.ownerOf r = none)
    (hl : s.accounts[i].runs.length < 4) : (attachRun i r s).recordLaw :=
  recordLaw_table h (attachRun_accountLaw h.account hs ho hl).1
    (attachRun_mass h.mass fun j hj => by rw [ho] at hj; cases hj)
    (by simp [attachRun]) (by simp [attachRun])

theorem State.recordLaw.ownersOpen {s : State} (h : s.recordLaw) : ownersOpen s := h.account.1.owner

theorem detachRun_records {s : State} (i : Fin 12) (r : Fin 6) (h : s.recordLaw) :
    (detachRun i r s).recordLaw :=
  recordLaw_table h (detachRun_accountLaw h.account).1
    (detachRun_mass h.mass fun _ ho => ownersOpen_owner h.ownersOpen ho)

theorem closeAccount_records {s : State} {i : Fin 12} (h : s.recordLaw)
    (hs : s.accounts[i].state = .opened) : (closeAccount i s).recordLaw := by
  have hd : (detachAll i s).recordLaw := fold_keeps (fun _ r h => detachRun_records i r h) _ s h
  have hr := detachAll_runs i s
  have hk := (requestEnd_apart (·.forAccount i) (detachAll i s))
  have h1 := hk.law hd
  exact recordLaw_table h1
    (leaveOpen_accountLaw h1.account (by rw [hk.accounts, hr.1]) (by rw [hk.accounts, hr.2, hs])).1
    (leaveOpen_mass h1.mass) (by simp [closeAccount]) (by simp [closeAccount])

theorem update_records {s : State} (r : Fin 6) (held : Held) (h : s.recordLaw) :
    (update r held s).recordLaw :=
  (update_accounts r held s).recordLaw h (by simpa using h.duty.1)
    (update_mass h.mass fun _ ho => ownersOpen_owner h.ownersOpen ho)

theorem removeFromService_records {s : State} (r : Fin 6) (h : s.recordLaw) :
    (removeFromService r s).recordLaw := by
  have h1 := update_records r s.runs[r].held h
  unfold removeFromService
  generalize update r s.runs[r].held s = u at h1
  exact h1.other

/-- A gas-quality slot is written: it is not EMPTY afterwards, or no account names it. -/
theorem setQuality_records {s : State} {q : Fin 8} {c : Quality} (h : s.recordLaw)
    (hq : c.state ≠ .empty ∨ s.namingCount q = 0) :
    ({ s with quality := setAt s.quality q c } : State).recordLaw :=
  recordLaw_table h (setQuality_accountLaw h.account hq).1
    ⟨h.mass.account, h.mass.strokeMass, h.mass.stroke, h.mass.reserve⟩ rfl rfl

theorem expireSlot_records {s : State} (q : Fin 8) (h : s.recordLaw) : (expireSlot q s).recordLaw :=
  (expireSlot_accounts q s).lawful {} h

theorem afterLimit_accounts (q : Fin 4) (before : Point) (s : State) :
    SameAccounts s (afterLimit q before s) := by
  unfold afterLimit; split
  · exact fold_accounts (fun s i => waive_accounts i s) _ s
  · exact .refl s

theorem afterLimit_pumps (q : Fin 4) (before : Point) (s : State) :
    (afterLimit q before s).pumps = s.pumps := by
  unfold afterLimit; split
  · exact fold_keeps (P := fun t => t.pumps = s.pumps) (fun t i h => by simpa using h) _ s rfl
  · rfl

theorem leaveMask_apart (q : Fin 4) (s : State) : Apart s (leaveMask q s) := by
  unfold leaveMask; repeat' split
  · exact endManual_apart s
  · exact apart_other s
  · exact .refl s

theorem afterState_apart (q : Fin 4) (before : Point) (s : State) :
    Apart s (afterState q before s) := by
  unfold afterState; split
  · exact (leaveMask_apart q s).trans (requestEnd_apart _ _)
  · exact .refl s

theorem configurePoint_records {s : State} {q : Fin 4} {st : PointState} {limit : Nat}
    (h : s.recordLaw) (hl : s.limitBelowPump limit = false) :
    (configurePoint q st limit s).recordLaw := by
  have hw : SameAccounts s (writePoint q st limit s) := {}
  have hp := afterLimit_pumps q s.points[q] (writePoint q st limit s)
  have h1 : (afterLimit q s.points[q] (writePoint q st limit s)).recordLaw :=
    (hw.trans (afterLimit_accounts q s.points[q] _)).recordLaw h (by rw [hp]; exact h.duty.1)
      (afterLimit_mass h.mass hl)
  exact ((afterState_apart q s.points[q] _).law h1).grant

/-- A pump that is not DUTY is changed into one that is not DUTY. -/
theorem editPump_records {s : State} {u : Fin 2} {f : Pump → Pump} (h : s.recordLaw)
    (hs : s.pumps[u].state ≠ .duty) (hd : (f s.pumps[u]).state ≠ .duty)
    (hm : (f s.pumps[u]).state ≠ .isolated →
      ∀ q : Fin 4, (f s.pumps[u]).config.mass ≤ s.points[q].limit) :
    (editPump u f s).recordLaw :=
  recordLaw_pumps h (editPump_duty (fun hh => absurd hh hd) h.duty) (editPump_idle h.mass hs hm)

/-- A pump's counts are changed. -/
theorem countPump_records {s : State} {u : Fin 2} {f : Pump → Pump} (h : s.recordLaw)
    (hs : (f s.pumps[u]).state = s.pumps[u].state) (hc : (f s.pumps[u]).config = s.pumps[u].config) :
    (editPump u f s).recordLaw :=
  recordLaw_pumps h (editPump_duty (fun hh => hs ▸ hh) h.duty) ((editPump_same hs hc).massLaw h.mass)

theorem selectDuty_records {s : State} {u : Fin 2} (h : s.recordLaw)
    (hs : s.pumps[u].state = .standby) (hk : s.stroke = none) :
    (grantIfDue { makeDuty u s with pendingDuty := none }).recordLaw :=
  (recordLaw_pumps h (makeDuty_duty h.duty)
    (makeDuty_mass h.mass hk (by rw [hs]; decide))).other.grant

theorem startSave_records {s : State} (h : s.recordLaw) : (startSave s).recordLaw :=
  ⟨startSave_accountLaw h.account, startSave_duty h.duty, startSave_obligation h.obligation⟩

theorem rollover_records {s : State} (h : s.recordLaw) : (rollover s).recordLaw :=
  ⟨rollover_accountLaw h.account, rollover_duty h.duty, rollover_obligation h.obligation⟩

theorem setTime_records {s : State} (time : Nat) (h : s.recordLaw) : (setTime time s).recordLaw := by
  have h1 : (rollIfOtherDay time s).recordLaw := by
    unfold rollIfOtherDay; split
    · exact rollover_records h
    · exact h
  exact h1.other

theorem countDownAll_records {s : State} (h : s.recordLaw) : (countDownAll s).recordLaw := by
  have e : SameAccounts s { s with quality := mapAll Quality.countDown s.quality } :=
    { posted := fun p hp => by simp only [mapAll_get, Quality.countDown]; split <;> exact hp }
  exact fold_keeps (fun _ q h => expireSlot_records q h) _ _ (e.lawful {} h)

theorem deviceSecond_records {s : State} (h : s.recordLaw) : (deviceSecond s).recordLaw := by
  have h1 : (countDownAll (advanceTime (reach s.clock.nextSecond s))).recordLaw :=
    countDownAll_records h.other
  unfold deviceSecond rollAtBoundary; split
  · exact rollover_records h1
  · exact h1

theorem enterLow_records {s : State} (h : s.recordLaw) : (enterLow s).recordLaw :=
  startSave_records ((changeTrips_apart _ _).law ((enterSupply_apart .low s).law h)).other

/-! ### The stroke record -/

/-- The header starts a stroke, or goes on to CLOSING. -/
theorem continueBurst_records {s : State} (h : s.recordLaw) (hk : s.stroke = none) :
    (continueBurst s).recordLaw :=
  (continueBurst_accounts s).recordLaw h (continueBurst_duty h.duty).1
    (continueBurst_mass h.mass hk)

/-- The clearing of the record and the grant decision that may follow it. -/
theorem finish_records {s : State} (h : s.recordLaw) : (grantIfDue (clearIfFinished s)).recordLaw :=
  ((clearIfFinished_accounts s).recordLaw h (clearIfFinished_duty h.duty).1
    (clearIfFinished_mass h.mass)).grant

/-- A stroke in flight is resolved. -/
theorem resolve_records {s : State} {k : Stroke} {r : Resolution} (h : s.recordLaw)
    (hk : s.stroke = some k) (hu : k.resolution = .unresolved) (hr : r ≠ .unresolved) :
    (resolve r s).recordLaw :=
  recordLaw_of h (resolve_accountLaw h.account).1 (resolve_duty h.duty).1
    (resolve_mass h.mass hk hu hr).1

theorem proofOf_records {s : State} (p : Fin 2) (h : s.recordLaw) : (proofOf p s).recordLaw := by
  have hs : (strayProof p s).recordLaw := countPump_records h rfl rfl
  unfold proofOf; split
  · exact hs
  · next k hk =>
    split
    · next hp =>
      have hu : k.resolution = .unresolved := by simp [Stroke.provenBy] at hp; exact hp.2
      exact finish_records (resolve_records h hk hu (by decide))
    · exact hs

/-- The record changed in its phase, its flags and its times alone. -/
theorem stroke_apart {s : State} {k k' : Stroke} {now : Nat} (hk : s.stroke = some k)
    (hw : k'.weight = k.weight) : Apart s { s with now := now, stroke := some k' } :=
  ⟨rfl, rfl, rfl, rfl, by simp [hk, hw], fun _ h => h⟩

theorem onTimeExpiry_records {s : State} (h : s.recordLaw) : (onTimeExpiry s).recordLaw := by
  unfold onTimeExpiry; dsimp only; split
  · exact h
  · next k hk =>
    split
    · exact h
    · have h1 : ({ reach (k.due k.onTime) s with stroke := some k.driven } : State).recordLaw :=
        (stroke_apart (k' := k.driven) hk rfl).law h
      split
      · next hr => exact finish_records (resolve_records h1 rfl hr.1 (by decide))
      · exact finish_records h1

theorem proofWindowExpiry_records {s : State} (h : s.recordLaw) :
    (proofWindowExpiry s).recordLaw := by
  unfold proofWindowExpiry; dsimp only; split
  · exact h
  · next k hk =>
    split
    · next hw =>
      have hu : k.resolution = .unresolved := by simp [Stroke.windowResolves] at hw; exact hw.1
      have h1 : (reach (k.due k.window) s).recordLaw := h.other
      exact finish_records (resolve_records h1 hk hu (by split <;> decide))
    · exact h

theorem spacingExpiry_records {s : State} (h : s.recordLaw) : (spacingExpiry s).recordLaw := by
  unfold spacingExpiry; split
  · exact h
  · next k hk =>
    split
    · exact h
    · exact finish_records ((stroke_apart (k' := { k with spacingPassed := true }) hk rfl).law h)

/-- At the settle expiry there is no stroke record (R128). -/
theorem settleExpiry_records {s : State} (h : s.law) : (settleExpiry s).recordLaw := by
  unfold settleExpiry; split
  · next t ho _ =>
    have hshape := h.header.1
    simp only [State.headerShape, ho] at hshape
    obtain ⟨_, _, hk⟩ := hshape
    exact continueBurst_records (h.records.other) hk
  · exact h.records

theorem warmReset_records {s : State} (h : s.recordLaw) : (warmReset s).recordLaw :=
  ⟨warmReset_accountLaw h.account, warmReset_duty h.duty, warmReset_obligation h.obligation⟩

theorem coldStart_records {s : State} (b : Bool) (h : s.recordLaw) : (coldStart b s).recordLaw :=
  ⟨coldStart_accountLaw reset_accountLaw h.account, coldStart_duty reset_dutyLaw h.duty,
    coldStart_obligation reset_obligationLaw h.obligation⟩

/-- What every effect brings about for the records (R2 to R8, R76, R100, R102, R108, R147). -/
theorem recordEffects : Effects State.law State.recordLaw where
  self _ h := h.records
  complete st out s h := Apart.law {} h
  elapse _ _ h := law_now h
  reach _ _ h := law_now h
  link _ _ _ h := law_link h
  accept _ _ h := h.records.other
  discard _ h := h.records.other
  refuse _ h := h.records.other
  openAccount _ _ _ _ _ _ _ h hs ht _ hq := openAccount_records h.records hs ht hq
  amendAccount _ _ _ h hs hq := amendAccount_records h.records hs hq
  attachRun _ _ _ h hs ho hl := attachRun_records h.records hs ho hl
  detachRun i r _ h _ := (detachRun_records i r h.records).grant
  closeAccount _ _ h hs := closeAccount_records h.records hs
  releaseAccount _ _ h hs := releaseAccount_records h.records hs
  configureRun _ _ _ h _ := h.records.other
  setBands _ _ _ h _ := h.records.other
  placeInService _ _ h _ := h.records.other
  removeFromService r _ h := (removeFromService_records r h.records).grant
  clearRunTotals _ _ h := h.records.other
  postComposition _ _ _ h hc := setQuality_records h.records (.inl (by rw [hc]; decide))
  retireComposition _ _ h hn := setQuality_records h.records (.inr hn)
  channels _ _ _ h := h.records.other
  setScan _ _ _ h := h.records.other
  startScan _ h _ := Apart.law {} h.records
  configurePoint _ _ _ _ h hl _ := configurePoint_records h.records hl
  headerConfig _ _ h := h.records.other
  manualDuration _ _ h := h.records.other
  manualDose _ _ h _ _ := (h.records.other).grant
  configurePump _ _ _ h hs hm :=
    editPump_records h.records hs hs fun _ q => massAboveLimit_le hm q
  restorePump _ _ h hs _ hm :=
    editPump_records h.records (by rw [hs]; decide) PumpState.noConfusion fun _ q => massAboveLimit_le hm q
  isolatePump _ _ _ h hs :=
    (editPump_records h.records hs PumpState.noConfusion fun hi => absurd rfl hi).other
  resetPump u s h hs :=
    editPump_records h.records (by rw [hs]; decide) PumpState.noConfusion fun _ q =>
      h.mass.strokeMass u q (by rw [hs]; decide)
  selectDuty _ _ h hs hk := selectDuty_records h.records hs hk
  deferDuty _ _ h := h.records.other
  configureMonitor m c s h := (configureMonitor_apart m c s).law h.records
  ackMonitor m s h _ := (ackMonitor_apart m s).law h.records
  tripTest _ _ h := h.records.other
  setTime time _ h := setTime_records time h.records
  clock _ _ h := h.records.other
  startSave _ h := startSave_records h.records
  mapTerminal t f s h _ _ := (mapTerminal_apart t f s).law h.records
  ackAttention _ _ _ h := h.records.other
  setAttentionLevel _ _ _ h _ := h.records.other
  stoppedLevel _ _ _ h _ := h.records.other
  quietLevel _ _ _ h _ := h.records.other
  pulse t b r s h _ := (pulseAt_apart r b _).law h.records.other
  proof t p s h _ := proofOf_records p (h.records.other)
  flowDrop t q s h _ := (requestEnd_apart _ _).law (h.records.other)
  flowRise t q s h _ := (h.records.other).grant
  syncLevel _ _ h _ := h.records.other
  sync _ _ h _ := (trigger_apart _).law (h.records.other)
  stopIn _ _ h _ := (changeTrips_apart _ _).law (h.records.other)
  stopOut _ _ h _ := ((changeTrips_apart _ _).law (h.records.other)).grant
  warmReset _ h := warmReset_records h.records
  coldStart b _ h := coldStart_records b h.records
  qualification q s h := (setQualification_apart q s).law h.records
  enterLow _ h := enterLow_records h.records
  returnToNormal s h _ := (returnToNormal_apart s).law h.records
  powerDown s h := (powerDown_apart s).law h.records
  saveDone _ _ h hv := (saveDone_apart hv).law h.records
  clockChange b c s h := (raiseIf_apart b _ _ _).law h.records.other
  deviceSecond _ h := deviceSecond_records h.records
  expireSlot q _ h := expireSlot_records q h.records
  intervalExpiry _ h := (trigger_apart _).law (h.records.other)
  conversionEnd code s h := (conversionEnd_apart code s).law h.records
  dropUpdate _ _ h := h.records.other
  meteringUpdate r held _ _ h := (update_records r held (h.records.other)).grant
  evaluate m v l s h := ((evaluate_apart m v _).law (h.records.other)).grant
  delayExpiry m s h := (delayExpiry_apart m s).law h.records
  settleExpiry _ h := settleExpiry_records h
  onTimeExpiry _ h := onTimeExpiry_records h.records
  proofWindowExpiry _ h := proofWindowExpiry_records h.records
  spacingExpiry _ h := spacingExpiry_records h.records
  pauseExpiry s h := (pauseExpiry_apart s).law h.records
  endManual s h := (endManual_apart s).law h.records

theorem step_keeps_records {s t : State} (h : s.law) (hs : step s = .next t) : t.recordLaw :=
  step_brings recordEffects (fun _ _ h => law_pending h) h hs

/-- Settles O56, by what every effect does to the records. -/
theorem stepKeepsAccountAndDutyLaws : Obligations.StepKeepsAccountAndDutyLaws := by
  intro s t h hs
  have ht := step_keeps_records h hs
  exact ⟨ht.account, ht.duty⟩

/-- Settles O57, by what every effect does to the records. -/
theorem stepKeepsObligationLaw : Obligations.StepKeepsObligationLaw := by
  intro s t h hs
  exact (step_keeps_records h hs).obligation

end Sys2Proof.Machine

/-! SUPPORT and the proof of O9. FIND ACCOUNT, LIST ACCOUNTS and READ ACCOUNT. -/

namespace Sys2Proof.Machine

-- One proof after the other: a proof that waits for an earlier one holds a thread and its stack.
set_option Elab.async false

/-! ### Fields of requests -/

/-- A record number, sent as one byte and read. -/
theorem fin?_be_byte {n : Nat} (hn : n ≤ 256) (i : Fin n) : fin? n (be (byte i.1)) = some i := by
  rw [be_byte (by omega), fin?_val]

/-- A byte outside the record numbers. -/
theorem fin?_be_none {n : Nat} {b : Byte} (h : n ≤ b.toNat) : fin? n (be [b]) = none := by
  rw [be_single, fin?_none h]

/-- One field of one byte. -/
theorem fields_number (a : Nat) : fields [1] (byte a) = some [byte a] := rfl

theorem fields_one (a : Byte) : fields [1] [a] = some [[a]] := rfl

/-! ### FIND ACCOUNT (R14) -/

/-- The one slot outside FREE that holds the tag (R6). -/
theorem slotOfTag_some {s : State} {i : Fin 12} (hi : s.accounts[i].state ≠ .free)
    (hu : ∀ j : Fin 12, s.accounts[j].state ≠ .free →
      s.accounts[j].tag = s.accounts[i].tag → j = i) : s.slotOfTag s.accounts[i].tag = some i := by
  cases hf : s.slotOfTag s.accounts[i].tag with
  | none => exact absurd rfl (slotOfTag_none.mp hf i hi)
  | some j =>
    have hj := List.find?_some hf
    simp only [Bool.and_eq_true, bne_iff_ne, beq_iff_eq] at hj
    rw [hu j hj.1 hj.2]

theorem findAccount_found {s : State} {tag : List Byte} {i : Fin 12} (hp : printable tag = true)
    (hf : s.slotOfTag tag = some i) :
    s.accepts .findAccount 0x11 tag (byte i.1 ++ byte s.accounts[i].state.code) s :=
  accepts_of (rule := ruleFindAccount) rfl (by simp only [ruleFindAccount, hp, hf]; rfl)

theorem findAccount_notFound {s : State} {tag : List Byte} (hp : printable tag = true)
    (hf : s.slotOfTag tag = none) : s.refuses .findAccount 0x11 tag .notFound :=
  refuses_of (rule := ruleFindAccount) rfl (by simp only [ruleFindAccount, hp, hf]; rfl)

theorem findAccount_notPrintable {s : State} {tag : List Byte} (hp : printable tag = false) :
    s.refuses .findAccount 0x11 tag .badArgument :=
  refuses_of (rule := ruleFindAccount) rfl (by simp only [ruleFindAccount, hp]; rfl)

/-- A byte outside 0x20 to 0x7E makes a tag unprintable (R6). -/
theorem printable_false {tag : List Byte} (h : ∃ b ∈ tag, b.toNat < 0x20 ∨ 0x7E < b.toNat) :
    printable tag = false := by
  obtain ⟨b, hb, hr⟩ := h
  rw [← Bool.not_eq_true, printable_iff]
  rintro ⟨_, ha⟩
  have := ha b hb
  omega

/-! ### LIST ACCOUNTS (R15) -/

theorem usedFrom_eq (s : State) (start : Nat) : s.usedFrom start = (List.finRange 12).filter
    (fun i => decide (start ≤ i.1 ∧ s.accounts[i].state ≠ .free)) := by
  rw [State.usedFrom, slots_eq]
  congr 1; funext i
  rw [Bool.decide_and, decide_not, bne, Bool.beq_eq_decide_eq]

theorem listAccounts_lists {s : State} {start : Nat} (h : start ≤ 11) :
    s.accepts .listAccounts 0x12 (byte start)
      (byte (min 5 (s.usedFrom start).length) ++ ((s.usedFrom start).take 5).flatMap s.listEntry
        ++ numberOrNone (s.usedFrom start)[5]?) s := by
  refine accepts_of (rule := ruleListAccounts) rfl ?_
  have hb : be (byte start) = start := be_byte (by omega)
  simp only [ruleListAccounts, fields_number, hb, if_neg (show ¬ 11 < start by omega), reading,
    List.length_take]

theorem listAccounts_outOfRange {s : State} {start : Byte} (h : 11 < start.toNat) :
    s.refuses .listAccounts 0x12 [start] .badArgument :=
  refuses_of (rule := ruleListAccounts) rfl (by
    simp only [ruleListAccounts, fields_one, be_single, if_pos h])

/-! ### READ ACCOUNT (R16) -/

/-- The bytes of the four parts of an account record: CONFIG, VOLUME, ENERGY, ODOURANT (R16, R201). -/
def Account.partBytes (a : Account) : Fin 4 → List Byte
  | 0 => a.configBytes
  | 1 => a.volumeSection
  | 2 => a.energySection
  | 3 => a.odourantSection

/-- READ ACCOUNT of a part that exists. -/
theorem ruleReadAccount_part (s : State) (i : Fin 12) (n : Fin 4) :
    ruleReadAccount (byte i.1 ++ byte n.1) s
      = if s.accounts[i].state = .free then .refuse .wrongState
        else reading (s.accounts[i].partBytes n) s := by
  have hn : be (byte n.1) = n.1 := be_byte (by omega)
  simp only [ruleReadAccount, fields_numbers, fin?_be_byte (by decide : 12 ≤ 256), hn]
  match n with
  | ⟨0, _⟩ | ⟨1, _⟩ | ⟨2, _⟩ | ⟨3, _⟩ => rfl

/-- There is no fifth part (R16). -/
theorem ruleReadAccount_outOfRange (s : State) {slot sect : Byte}
    (h : 11 < slot.toNat ∨ 3 < sect.toNat) :
    ruleReadAccount [slot, sect] s = .refuse .badArgument := by
  simp only [ruleReadAccount, fields_two]
  split
  · rfl
  · next i hi =>
    have hslot : ¬ 11 < slot.toNat := fun hs => by rw [fin?_be_none hs] at hi; cases hi
    obtain ⟨n, hn⟩ := Nat.exists_eq_add_of_le' (h.resolve_left hslot)
    rw [be_single, hn]
    rfl

theorem readAccount_part {s : State} {i : Fin 12} (hi : s.accounts[i].state ≠ .free) (n : Fin 4) :
    s.accepts .readAccount 0x13 (byte i.1 ++ byte n.1) (s.accounts[i].partBytes n) s :=
  accepts_of (rule := ruleReadAccount) rfl (by rw [ruleReadAccount_part, if_neg hi]; rfl)

theorem readAccount_free {s : State} {i : Fin 12} {sect : Nat} (hi : s.accounts[i].state = .free)
    (hs : sect < 4) : s.refuses .readAccount 0x13 (byte i.1 ++ byte sect) .wrongState :=
  refuses_of (rule := ruleReadAccount) rfl (by
    rw [ruleReadAccount_part s i ⟨sect, hs⟩, if_pos hi])

theorem readAccount_outOfRange {s : State} {slot sect : Byte}
    (h : 11 < slot.toNat ∨ 3 < sect.toNat) :
    s.refuses .readAccount 0x13 [slot, sect] .badArgument :=
  refuses_of (rule := ruleReadAccount) rfl (ruleReadAccount_outOfRange s h)

/-- CONFIG with the count of the runs and their numbers written out (R16). -/
theorem configBytes_eq (a : Account) : a.configBytes = a.tag ++ byte a.state.code
    ++ byte a.runs.length ++ a.runs.flatMap (fun r => byte r.1) ++ byte a.quality.1
    ++ numberOrNone a.point ++ toBytes 2 a.dose ++ byte a.priority ++ toBytes 4 a.openTime
    ++ presentBytes 4 a.closeTime := by
  simp only [Account.configBytes, listBytes, List.length_map, List.flatMap_map, List.append_assoc]

/-- ENERGY with the previous day's presence and figures written out (R16). -/
theorem energySection_eq (a : Account) : a.energySection = energyBytes a.energy
    ++ volumeBytes a.dayBase ++ energyBytes a.dayEnergy ++ flagByte a.previousDay.isSome
    ++ volumeBytes (a.previousDay.elim .zero PreviousDay.base)
    ++ energyBytes (a.previousDay.elim .zero PreviousDay.energy) := by
  unfold Account.energySection
  cases a.previousDay <;> simp [previousDayBytes]

/-- Settles O9, request by request. -/
theorem findListAndReadAccount : Obligations.FindListAndReadAccount := by
  intro s
  refine ⟨fun i hi hp hu => findAccount_found hp (slotOfTag_some hi hu),
    fun tag hp hn => findAccount_notFound hp (slotOfTag_none.mpr hn),
    fun tag hb => findAccount_notPrintable (printable_false hb), ?list,
    fun start h => listAccounts_outOfRange h, ?read,
    fun i sect hi hs => readAccount_free hi hs, fun slot sect h => readAccount_outOfRange h⟩
  case list =>
    rintro start used hs rfl
    rw [← usedFrom_eq]
    exact listAccounts_lists hs
  case read =>
    rintro i a rfl hi
    rw [← configBytes_eq, ← energySection_eq]
    exact ⟨readAccount_part hi 0, readAccount_part hi 1, readAccount_part hi 2,
      readAccount_part hi 3⟩

end Sys2Proof.Machine

/-! SUPPORT and the proof of O11. OPEN ACCOUNT (R7). -/

namespace Sys2Proof.Machine

-- One proof after the other: a proof that waits for an earlier one holds a thread and its stack.
set_option Elab.async false

/-- The request fields of OPEN ACCOUNT, read back from a payload. -/
theorem ruleOpenAccount_fields {tag quality point dose priority : List Byte} (s : State)
    (ht : tag.length = 8) (hq : quality.length = 1) (hp : point.length = 1) (hd : dose.length = 2)
    (hr : priority.length = 1) :
    ruleOpenAccount (tag ++ quality ++ point ++ dose ++ priority) s
      = openAccount tag (be quality) (be point) (be dose) (be priority) s := by
  simp only [ruleOpenAccount, List.append_assoc, fields_append ht, fields_append hq,
    fields_append hp, fields_append hd, fields_last hr, Option.map_some]

theorem doseInRange_iff {d : Nat} : doseInRange d = true ↔ 100 ≤ d ∧ d ≤ 10000 := by
  simp [doseInRange]

theorem priorityInRange_iff {p : Nat} : priorityInRange p = true ↔ p ≤ 3 := by
  simp [priorityInRange]

/-- An OPEN ACCOUNT whose arguments pass their checks, with its arguments read back (R7). -/
theorem ruleOpenAccount_openable {s : State} {tag : List Byte} {q : Fin 8} {p : Option (Fin 4)}
    {d pr : Nat} (h : s.openable tag q p d pr) :
    ruleOpenAccount (tag ++ byte q.1 ++ numberOrNone p ++ toBytes 2 d ++ byte pr) s
        = openAccount tag q.1 (be (numberOrNone p)) d pr s
      ∧ (!printable tag || !doseInRange d || !priorityInRange pr) = false
      ∧ s.qualityArg q.1 = some q ∧ s.pointArg (be (numberOrNone p)) = some p := by
  obtain ⟨htag, hq, hp, hd, hd', hpr⟩ := h
  refine ⟨?_, ?_, qualityArg_eq hq, pointArg_eq hp⟩
  · rw [ruleOpenAccount_fields s htag.1 rfl (length_numberOrNone p) (length_toBytes 2 d) rfl,
      be_byte (show q.1 < 256 by omega), be_toBytes (show d < 256 ^ 2 by omega),
      be_byte (show pr < 256 by omega)]
  · simp [printable_iff.mpr htag, doseInRange_iff.mpr ⟨hd, hd'⟩, priorityInRange_iff.mpr hpr]

section Openable
variable {s : State} {tag : List Byte} {q : Fin 8} {p : Option (Fin 4)} {d pr : Nat}

/-- The lowest FREE slot takes the fresh record. -/
theorem openAccount_accepts {i : Fin 12} (h : s.openable tag q p d pr)
    (ht : s.slotOfTag tag = none) (hi : s.lowestFree = some i) :
    s.accepts .openAccount 0x10 (tag ++ byte q.1 ++ numberOrNone p ++ toBytes 2 d ++ byte pr)
      (byte i.1)
      { s with accounts := setAt s.accounts i (.fresh tag q p d pr s.clock.deviceTime) } := by
  obtain ⟨hr, hc, hq, hp⟩ := ruleOpenAccount_openable h
  exact accepts_of (rule := ruleOpenAccount) rfl
    (hr.trans (by simp [openAccount, hc, hq, hp, ht, hi]))

theorem openAccount_full (h : s.openable tag q p d pr) (ht : s.slotOfTag tag = none)
    (hi : s.lowestFree = none) :
    s.refuses .openAccount 0x10 (tag ++ byte q.1 ++ numberOrNone p ++ toBytes 2 d ++ byte pr)
      .tableFull := by
  obtain ⟨hr, hc, hq, hp⟩ := ruleOpenAccount_openable h
  exact refuses_of (rule := ruleOpenAccount) rfl
    (hr.trans (by simp [openAccount, hc, hq, hp, ht, hi]))

theorem openAccount_exists (h : s.openable tag q p d pr) (ht : s.slotOfTag tag ≠ none) :
    s.refuses .openAccount 0x10 (tag ++ byte q.1 ++ numberOrNone p ++ toBytes 2 d ++ byte pr)
      .exists := by
  obtain ⟨hr, hc, hq, hp⟩ := ruleOpenAccount_openable h
  exact refuses_of (rule := ruleOpenAccount) rfl
    (hr.trans (by simp [openAccount, hc, hq, hp, Option.isSome_iff_ne_none.mpr ht]))

end Openable

/-- An argument that fails its check (R7). -/
theorem openAccount_badArgument {tag : List Byte} {quality point dose priority : Nat} {s : State}
    (h : printable tag = false ∨ doseInRange dose = false ∨ priorityInRange priority = false
      ∨ s.qualityArg quality = none ∨ s.pointArg point = none) :
    openAccount tag quality point dose priority s = .refuse .badArgument := by
  unfold openAccount
  rcases h with h | h | h | h | h
  · simp [h]
  · simp [h]
  · simp [h]
  · split
    · rfl
    · simp [h]
  · split
    · rfl
    · simp [h]

/-- A quality argument out of range or EMPTY fails its check (R7). -/
theorem qualityArg_byte_none {s : State} {q : Byte}
    (h : 7 < q.toNat ∨ ∃ i : Fin 8, q.toNat = i.1 ∧ s.quality[i].state = .empty) :
    s.qualityArg (be [q]) = none := by
  refine qualityArg_none fun j hj => ?_
  rw [be_single] at hj
  rcases h with h | ⟨i, hi, he⟩
  · omega
  · rw [show j = i from Fin.ext (hj.symm.trans hi)]; exact he

/-- A point argument out of range or not ENABLED fails its check (R7). -/
theorem pointArg_byte_none {s : State} {p : Byte}
    (h : (3 < p.toNat ∧ p ≠ 255) ∨ ∃ i : Fin 4, p.toNat = i.1 ∧ s.points[i].state ≠ .enabled) :
    s.pointArg (be [p]) = none := by
  rw [be_single]
  refine pointArg_none (fun hp => ?_) fun j hj => ?_
  · rcases h with ⟨_, h⟩ | ⟨i, hi, _⟩
    · exact h (BitVec.eq_of_toNat_eq hp)
    · omega
  · rcases h with ⟨h, _⟩ | ⟨i, hi, he⟩
    · omega
    · rw [show j = i from Fin.ext (hj.symm.trans hi)]; exact he

/-- Settles O11: the checks in their order, then the search for the slot. -/
theorem openAccountTakesLowestFreeSlot : Obligations.OpenAccountTakesLowestFreeSlot := by
  refine ⟨?_, ?_⟩
  · rintro s tag q p d pr _ h rfl
    refine ⟨fun hfresh => ⟨fun i hi hl => ?_, fun hfull => ?_⟩, fun ⟨j, hj, he⟩ => ?_⟩
    · exact openAccount_accepts h (slotOfTag_none.mpr hfresh) (lowestFree_eq hi hl)
    · exact openAccount_full h (slotOfTag_none.mpr hfresh) (lowestFree_none.mpr hfull)
    · exact openAccount_exists h fun hn => slotOfTag_none.mp hn j hj he
  · intro s tag q p pr d ht hd h
    have hb := ruleOpenAccount_fields (quality := [q]) (point := [p]) (priority := [pr]) s ht rfl
      rfl (length_toBytes 2 d) rfl
    refine refuses_of (rule := ruleOpenAccount) rfl ?_
    rw [List.append_assoc tag [q] [p]] at hb
    rw [show [q, p] = [q] ++ [p] from rfl, hb, be_toBytes (show d < 256 ^ 2 by omega)]
    refine openAccount_badArgument ?_
    have hdose : d < 100 ∨ 10000 < d → doseInRange d = false := fun hd => by
      rw [← Bool.not_eq_true, doseInRange_iff]; omega
    rcases h with h | h | h | h | h | h | h | h
    · exact .inl (printable_false h)
    · exact .inr (.inr (.inr (.inl (qualityArg_byte_none (.inl h)))))
    · exact .inr (.inr (.inr (.inr (pointArg_byte_none (.inl h)))))
    · exact .inr (.inl (hdose (.inl h)))
    · exact .inr (.inl (hdose (.inr h)))
    · refine .inr (.inr (.inl ?_))
      rw [be_single, ← Bool.not_eq_true, priorityInRange_iff]; omega
    · exact .inr (.inr (.inr (.inl (qualityArg_byte_none (.inr h)))))
    · exact .inr (.inr (.inr (.inr (pointArg_byte_none (.inr h)))))

end Sys2Proof.Machine

/-! SUPPORT and the proof of O12. AMEND ACCOUNT (R18, R20, R21). -/

namespace Sys2Proof.Machine

-- One proof after the other: a proof that waits for an earlier one holds a thread and its stack.
set_option Elab.async false

/-! ### The checks of an amendment (R18) -/

/-- What holds in one case of two may be weakened there. -/
theorem ite_mono {c p p' r : Prop} [Decidable c] (h : p → p') (hc : if c then p else r) :
    if c then p' else r := by
  split at hc
  · next hh => rw [if_pos hh]; exact h hc
  · next hh => rw [if_neg hh]; exact hc

section AmendedFields
variable {s : State} {a : Account} {set quality point dose priority : Nat}

/-- The amendment where each field named passes its check and each other keeps its value. -/
theorem amendment?_some {q : Fin 8} {p : Option (Fin 4)} {d pr : Nat}
    (hq : if set.testBit 0 then s.qualityArg quality = some q else q = a.quality)
    (hp : if set.testBit 1 then s.pointArg point = some p else p = a.point)
    (hd : if set.testBit 2 then d = dose ∧ doseInRange dose = true else d = a.dose)
    (hr : if set.testBit 3 then pr = priority ∧ priorityInRange priority = true
      else pr = a.priority) :
    s.amendment? a set quality point dose priority
      = some { quality := q, point := p, dose := d, priority := pr } := by
  have h0 : (if set.testBit 0 then s.qualityArg quality else some a.quality) = some q := by
    split at hq
    · next h => rw [if_pos h, hq]
    · next h => rw [if_neg h, hq]
  have h1 : (if set.testBit 1 then s.pointArg point else some a.point) = some p := by
    split at hp
    · next h => rw [if_pos h, hp]
    · next h => rw [if_neg h, hp]
  have h2 : (!set.testBit 2 || doseInRange dose) = true
      ∧ (if set.testBit 2 then dose else a.dose) = d := by
    split at hd
    · next h => simp [h, hd]
    · next h => simp [h, hd]
  have h3 : (!set.testBit 3 || priorityInRange priority) = true
      ∧ (if set.testBit 3 then priority else a.priority) = pr := by
    split at hr
    · next h => simp [h, hr]
    · next h => simp [h, hr]
  simp only [State.amendment?, h0, h1, h2, h3, Bool.and_self, if_true]

/-- A field named that fails its check. -/
theorem amendment?_none
    (h : (set.testBit 0 = true ∧ s.qualityArg quality = none)
      ∨ (set.testBit 1 = true ∧ s.pointArg point = none)
      ∨ (set.testBit 2 = true ∧ doseInRange dose = false)
      ∨ (set.testBit 3 = true ∧ priorityInRange priority = false)) :
    s.amendment? a set quality point dose priority = none := by
  unfold State.amendment?
  rcases h with ⟨hb, h⟩ | ⟨hb, h⟩ | ⟨hb, h⟩ | ⟨hb, h⟩
  · simp [hb, h]
  · simp [hb, h]
  · split
    · simp [hb, h]
    · rfl
  · split
    · simp [hb, h]
    · rfl

end AmendedFields

/-! ### What a changed point brings (R20, R21) -/

/-- The ending of a grant is requested at the header, whatever becomes of an account. -/
theorem editAccount_requestEnd (i : Fin 12) (f : Account → Account) (g : Grant → Bool)
    (s : State) : editAccount i f (requestEnd g s) = requestEnd g (editAccount i f s) := by
  unfold requestEnd
  simp only [editAccount_keeps]
  split
  · rfl
  · split <;> rfl

/-- An account record edited twice. -/
theorem editAccount_set (i : Fin 12) (f : Account → Account) (b : Account) (s : State) :
    editAccount i f { s with accounts := setAt s.accounts i b }
      = { s with accounts := setAt s.accounts i (f b) } := by
  simp only [editAccount, editAt, setAt_get, if_true, setAt_setAt]

section PointChange
variable {s u : State} {i : Fin 12} {b : Account} {before : Option (Fin 4)}

theorem pointChanged_same (h : u.accounts[i].point = before) : pointChanged i before u = u := by
  rw [pointChanged, if_pos h]

/-- Without a point from now on: the free backlog is waived (R21). -/
theorem pointChanged_removed (hu : u = { s with accounts := setAt s.accounts i b })
    (hb : b.point = none) (hp : before ≠ none) : pointChanged i before u
      = requestEnd (·.forAccount i)
        { s with
          accounts := setAt s.accounts i
            { b with waived := addMass b.waived b.freeBacklog } } := by
  have hn : u.accounts[i].point = none := by rw [hu]; simp only [setAt_get, if_true, hb]
  obtain ⟨q, rfl⟩ := Option.ne_none_iff_exists'.mp hp
  have hk : (requestEnd (·.forAccount i) u).accounts = u.accounts := by simp
  simp only [pointChanged, hn, hk, reduceCtorEq, if_false]
  rw [editAccount_requestEnd, hu, editAccount_set]

/-- A point for the first time: the ending of the grant alone. -/
theorem pointChanged_given (h : u.accounts[i].point ≠ none) :
    pointChanged i none u = requestEnd (·.forAccount i) u := by
  rw [pointChanged, if_neg h]

/-- Another point: its limit applies at once (R20). -/
theorem pointChanged_moved {q q' : Fin 4} (h : u.accounts[i].point = some q') (hq : q' ≠ q) :
    pointChanged i (some q) u = waive i (requestEnd (·.forAccount i) u) := by
  have hk : (requestEnd (·.forAccount i) u).accounts = u.accounts := by simp
  have hne : ¬ some q' = some q := fun hh => hq (Option.some.inj hh)
  simp only [pointChanged, h, hk, if_neg hne]

end PointChange

/-- The record of the account after its fields were amended and a changed point has acted (R18, R20, R21). -/
theorem pointChanged_amended {s u : State} {i : Fin 12} {a b : Account}
    (hu : u = { s with accounts := setAt s.accounts i b }) (hw : b.waived = a.waived)
    (hf : b.freeBacklog = a.owed - a.credited - a.waived - a.reserved) :
    pointChanged i a.point u
      = if b.point = a.point then u
        else if b.point = none
        then requestEnd (fun g => g.beneficiary = .account i)
          { s with
            accounts := setAt s.accounts i
              { b with
                waived := addMass a.waived (a.owed - a.credited - a.waived - a.reserved) } }
        else if a.point = none then requestEnd (fun g => g.beneficiary = .account i) u
        else waive i (requestEnd (fun g => g.beneficiary = .account i) u) := by
  have hp : u.accounts[i].point = b.point := by rw [hu]; simp only [setAt_get, if_true]
  rw [forAccount_eq]
  split
  · next h => exact pointChanged_same (hp.trans h)
  · next h =>
    split
    · next hn =>
      rw [pointChanged_removed hu hn fun ha => h (hn.trans ha.symm), hf, hw]
    · next hn =>
      split
      · next hb => rw [hb]; exact pointChanged_given (by rw [hp]; exact hn)
      · next hb =>
        obtain ⟨q, hq⟩ := Option.ne_none_iff_exists'.mp hb
        obtain ⟨q', hq'⟩ := Option.ne_none_iff_exists'.mp hn
        rw [hq]
        exact pointChanged_moved (hp.trans hq') fun he => h (by rw [hq, hq', he])

/-! ### The request -/

/-- The payload of AMEND ACCOUNT: slot, change set, quality, point, D, priority (R201). -/
def amendPayload (slot set q p : Byte) (d : Nat) (pr : Byte) : List Byte :=
  [slot, set, q, p] ++ toBytes 2 d ++ [pr]

theorem fields_amendPayload (slot set q p pr : Byte) (d : Nat) :
    fields [1, 1, 1, 1, 2, 1] (amendPayload slot set q p d pr)
      = some [[slot], [set], [q], [p], toBytes 2 d, [pr]] := rfl

/-- A change set with any of bits 4 to 7, or a slot outside the table (R18, R201). -/
theorem ruleAmendAccount_outOfRange {s : State} {slot set q p pr : Byte} {d : Nat}
    (h : 16 ≤ set.toNat ∨ 12 ≤ slot.toNat) :
    ruleAmendAccount (amendPayload slot set q p d pr) s = .refuse .badArgument := by
  simp only [ruleAmendAccount, fields_amendPayload, be_single]
  split
  · rfl
  · next hs => rw [fin?_none (h.resolve_left hs)]

section AmendRefusals
variable {s : State} {i : Fin 12} {slot set q p pr : Byte} {d : Nat}

theorem ruleAmendAccount_notOpen (hi : slot.toNat = i.1) (hs : set.toNat < 16)
    (ho : s.accounts[i].state ≠ .opened) :
    ruleAmendAccount (amendPayload slot set q p d pr) s = .refuse .wrongState := by
  simp only [ruleAmendAccount, fields_amendPayload, be_single, if_neg (Nat.not_le.mpr hs), hi,
    fin?_val, if_pos ho]

/-- The last check of AMEND ACCOUNT is that of the fields named. -/
theorem ruleAmendAccount_named (hi : slot.toNat = i.1) (hs : set.toNat < 16) (hd : d < 65536)
    (ho : s.accounts[i].state = .opened) :
    (∀ m, s.amendment? s.accounts[i] set.toNat q.toNat p.toNat d pr.toNat = some m →
      ruleAmendAccount (amendPayload slot set q p d pr) s = .ok (amendAccount i m s) [])
    ∧ (s.amendment? s.accounts[i] set.toNat q.toNat p.toNat d pr.toNat = none →
      ruleAmendAccount (amendPayload slot set q p d pr) s = .refuse .badArgument) := by
  have hb : be (toBytes 2 d) = d := be_toBytes hd
  have hn : ¬ s.accounts[i].state ≠ .opened := fun h => h ho
  constructor
  · intro m hm
    simp only [ruleAmendAccount, fields_amendPayload, be_single, if_neg (Nat.not_le.mpr hs), hi,
      fin?_val, if_neg hn, hb, hm]
  · intro hm
    simp only [ruleAmendAccount, fields_amendPayload, be_single, if_neg (Nat.not_le.mpr hs), hi,
      fin?_val, if_neg hn, hb, hm]

end AmendRefusals

/-- A number as one byte. -/
theorem byte_eq_single (n : Nat) : byte n = [BitVec.ofNat 8 n] := by
  simp [byte, toBytes]

theorem toNat_ofNat_lt {n : Nat} (h : n < 256) : (BitVec.ofNat 8 n).toNat = n := by
  rw [BitVec.toNat_ofNat, Nat.mod_eq_of_lt h]

/-- Settles O12: the checks in their order, then the fields, then what a changed point brings. -/
theorem amendAccountChangesNamedFields : Obligations.AmendAccountChangesNamedFields := by
  rintro s i set d q p pr _ hd rfl
  have hpay : byte i.1 ++ byte set ++ [q, p] ++ toBytes 2 d ++ [pr]
      = amendPayload (BitVec.ofNat 8 i.1) (BitVec.ofNat 8 set) q p d pr := by
    simp only [amendPayload, byte_eq_single, List.cons_append, List.nil_append]
  have hi : (BitVec.ofNat 8 i.1).toNat = i.1 := toNat_ofNat_lt (by omega)
  have hset : set < 256 → (BitVec.ofNat 8 set).toNat = set := toNat_ofNat_lt
  rw [hpay]
  refine ⟨?accept, fun h h' => ?bits, fun h ho => ?state, fun h ho hbad => ?fields,
    fun slot hslot => ?slot⟩
  case accept =>
    rintro _ b q' p' d' pr' u rfl ho h16 hq hp hd' hr hb hu
    have hs : (BitVec.ofNat 8 set).toNat = set := hset (by omega)
    have hm : s.amendment? s.accounts[i] set q.toNat p.toNat d pr.toNat
        = some { quality := q', point := p', dose := d', priority := pr' } := by
      refine amendment?_some ?_ ?_ ?_ ?_
      · exact ite_mono (fun ⟨h, he⟩ => h ▸ qualityArg_eq he) hq
      · refine ite_mono (fun ⟨h, he⟩ => ?_) hp
        rw [← be_single, h]; exact pointArg_eq he
      · exact ite_mono (fun ⟨h, hr⟩ => ⟨h, doseInRange_iff.mpr hr⟩) hd'
      · exact ite_mono (fun ⟨h, hr⟩ => ⟨h, priorityInRange_iff.mpr hr⟩) hr
    rw [← hs] at hm h16
    have hok := (ruleAmendAccount_named hi h16 hd ho).1 _ hm
    have hpt := pointChanged_amended (a := s.accounts[i]) hu (by rw [hb]) (by rw [hb]; rfl)
    have he : amendAccount i { quality := q', point := p', dose := d', priority := pr' } s
        = grantIfDue (pointChanged i s.accounts[i].point u) := by
      rw [hu, hb]; rfl
    rw [he, hpt] at hok
    subst hb
    exact accepts_of (rule := ruleAmendAccount) rfl hok
  case bits =>
    exact refuses_of (rule := ruleAmendAccount) rfl
      (ruleAmendAccount_outOfRange (.inl (by rw [hset h']; exact h)))
  case state =>
    exact refuses_of (rule := ruleAmendAccount) rfl
      (ruleAmendAccount_notOpen hi (by rw [hset (by omega)]; exact h) ho)
  case fields =>
    have hs : (BitVec.ofNat 8 set).toNat = set := hset (by omega)
    refine refuses_of (rule := ruleAmendAccount) rfl
      ((ruleAmendAccount_named hi (by rw [hs]; exact h) hd ho).2 (amendment?_none ?_))
    rw [hs]
    rcases hbad with ⟨hb, h⟩ | ⟨hb, h1, h2⟩ | ⟨hb, h⟩ | ⟨hb, h⟩
    · exact .inl ⟨hb, qualityArg_none h⟩
    · exact .inr (.inl ⟨hb, pointArg_none (fun he => h1 (BitVec.eq_of_toNat_eq he)) h2⟩)
    · refine .inr (.inr (.inl ⟨hb, ?_⟩))
      rw [← Bool.not_eq_true, doseInRange_iff]; omega
    · refine .inr (.inr (.inr ⟨hb, ?_⟩))
      rw [← Bool.not_eq_true, priorityInRange_iff]; omega
  case slot =>
    exact refuses_of (rule := ruleAmendAccount) rfl (ruleAmendAccount_outOfRange
      (slot := slot) (set := BitVec.ofNat 8 set) (q := q) (p := p) (pr := pr) (d := d) (.inr hslot))

end Sys2Proof.Machine

/-! SUPPORT and the proof of O13. ATTACH RUN and DETACH RUN (R22, R23, R24). -/

namespace Sys2Proof.Machine

-- One proof after the other: a proof that waits for an earlier one holds a thread and its stack.
set_option Elab.async false

/-! ### The effects -/

/-- The settlement keeps every run list, so the list that the run joins is the one before it (R22). -/
theorem attachRun_eq (i : Fin 12) (r : Fin 6) (s : State) : attachRun i r s
    = { settle r s with
        accounts := setAt (settle r s).accounts i
          { (settle r s).accounts[i] with runs := s.accounts[i].runs ++ [r] } } := by
  rw [← (settle_owner r s i).2]; rfl

/-- The same for the list that the run leaves (R23). -/
theorem detachRun_eq (i : Fin 12) (r : Fin 6) (s : State) : detachRun i r s
    = { settle r s with
        accounts := setAt (settle r s).accounts i
          { (settle r s).accounts[i] with runs := s.accounts[i].runs.filter (· ≠ r) } } := by
  have hf : (fun x : Fin 6 => x != r) = fun x => decide (x ≠ r) := by
    funext x; rw [bne, Bool.beq_eq_decide_eq, decide_not]
  rw [← (settle_owner r s i).2, ← hf]; rfl

/-! ### The checks -/

section RunRequests
variable {s : State} {i : Fin 12} {r : Fin 6}

theorem slot_number (i : Fin 12) : fin? 12 (be (byte i.1)) = some i := fin?_be_byte (by decide) i

theorem run_number (r : Fin 6) : fin? 6 (be (byte r.1)) = some r := fin?_be_byte (by decide) r

theorem attachRun_accepts (ho : s.accounts[i].state = .opened) (hr : s.ownerOf r = none)
    (hl : s.accounts[i].runs.length < 4) :
    s.accepts .attachRun 0x15 (byte i.1 ++ byte r.1) [] (attachRun i r s) :=
  accepts_of (rule := ruleAttachRun) rfl (by
    simp only [ruleAttachRun, fields_numbers, slot_number, run_number, if_neg (not_not_intro ho), hr,
      Option.isSome_none, Bool.false_eq_true, if_false, if_neg (Nat.not_le.mpr hl)])

theorem attachRun_notOpen (ho : s.accounts[i].state ≠ .opened) :
    s.refuses .attachRun 0x15 (byte i.1 ++ byte r.1) .wrongState :=
  refuses_of (rule := ruleAttachRun) rfl (by
    simp only [ruleAttachRun, fields_numbers, slot_number, run_number, if_pos ho])

theorem attachRun_owned (ho : s.accounts[i].state = .opened) (hr : s.ownerOf r ≠ none) :
    s.refuses .attachRun 0x15 (byte i.1 ++ byte r.1) .inUse :=
  refuses_of (rule := ruleAttachRun) rfl (by
    simp only [ruleAttachRun, fields_numbers, slot_number, run_number,
      if_neg (not_not_intro ho), if_pos (Option.isSome_iff_ne_none.mpr hr)])

theorem attachRun_full (ho : s.accounts[i].state = .opened) (hr : s.ownerOf r = none)
    (hl : 4 ≤ s.accounts[i].runs.length) :
    s.refuses .attachRun 0x15 (byte i.1 ++ byte r.1) .tableFull :=
  refuses_of (rule := ruleAttachRun) rfl (by
    simp only [ruleAttachRun, fields_numbers, slot_number, run_number, if_neg (not_not_intro ho), hr,
      Option.isSome_none, Bool.false_eq_true, if_false, if_pos hl])

theorem detachRun_accepts (ho : s.accounts[i].state = .opened) (hr : r ∈ s.accounts[i].runs) :
    s.accepts .detachRun 0x16 (byte i.1 ++ byte r.1) [] (grantIfDue (detachRun i r s)) :=
  accepts_of (rule := ruleDetachRun) rfl (by
    have hc : (!s.accounts[i].runs.contains r) = false := by simpa using hr
    simp only [ruleDetachRun, fields_numbers, slot_number, run_number, if_neg (not_not_intro ho), hc,
      Bool.false_eq_true, if_false])

theorem detachRun_notOpen (ho : s.accounts[i].state ≠ .opened) :
    s.refuses .detachRun 0x16 (byte i.1 ++ byte r.1) .wrongState :=
  refuses_of (rule := ruleDetachRun) rfl (by
    simp only [ruleDetachRun, fields_numbers, slot_number, run_number, if_pos ho])

theorem detachRun_notFound (ho : s.accounts[i].state = .opened) (hr : r ∉ s.accounts[i].runs) :
    s.refuses .detachRun 0x16 (byte i.1 ++ byte r.1) .notFound :=
  refuses_of (rule := ruleDetachRun) rfl (by
    have hc : (!s.accounts[i].runs.contains r) = true := by simpa using hr
    simp only [ruleDetachRun, fields_numbers, slot_number, run_number, if_neg (not_not_intro ho), hc,
      if_true])

/-- A slot or a run outside its numbers. -/
theorem runPair_none {slot run : Byte} (h : 11 < slot.toNat ∨ 5 < run.toNat) :
    fin? 12 (be [slot]) = none ∨ fin? 6 (be [run]) = none :=
  h.imp fin?_be_none fin?_be_none

theorem attachRun_outOfRange {slot run : Byte} (h : 11 < slot.toNat ∨ 5 < run.toNat) :
    s.refuses .attachRun 0x15 [slot, run] .badArgument := by
  refine refuses_of (rule := ruleAttachRun) rfl ?_
  rcases runPair_none h with hn | hn
  · simp only [ruleAttachRun, fields_two, hn]
  · simp only [ruleAttachRun, fields_two, hn]
    cases fin? 12 (be [slot]) <;> rfl

theorem detachRun_outOfRange {slot run : Byte} (h : 11 < slot.toNat ∨ 5 < run.toNat) :
    s.refuses .detachRun 0x16 [slot, run] .badArgument := by
  refine refuses_of (rule := ruleDetachRun) rfl ?_
  rcases runPair_none h with hn | hn
  · simp only [ruleDetachRun, fields_two, hn]
  · simp only [ruleDetachRun, fields_two, hn]
    cases fin? 12 (be [slot]) <;> rfl

end RunRequests

/-- Settles O13: the settlement of the run, then the change of the list. -/
theorem attachAndDetachSettleTheRun : Obligations.AttachAndDetachSettleTheRun := by
  intro s i r
  refine ⟨?settled, fun ho => ⟨attachRun_notOpen ho, detachRun_notOpen ho⟩,
    fun ho => ⟨fun ⟨j, hj⟩ => attachRun_owned ho fun hn => ownerOf_none.mp hn j hj,
      fun hn hl => attachRun_full ho (ownerOf_none.mpr hn) hl, fun hn => detachRun_notFound ho hn⟩,
    fun slot run h => ⟨attachRun_outOfRange h, detachRun_outOfRange h⟩⟩
  rintro _ u rfl hu ho
  have hs : u = settle r s := hu
  subst hs
  rw [← attachRun_eq, ← detachRun_eq]
  exact ⟨fun hn hl => attachRun_accepts ho (ownerOf_none.mpr hn) hl,
    fun hr => detachRun_accepts ho hr⟩

end Sys2Proof.Machine

/-! SUPPORT and the proof of O14. CLOSE ACCOUNT and RELEASE ACCOUNT (R9, R11, R12). -/

namespace Sys2Proof.Machine

-- One proof after the other: a proof that waits for an earlier one holds a thread and its stack.
set_option Elab.async false

/-! ### The effects -/

/-- No effect on the runs of an account before its closing touches the stroke record. -/
theorem detachAll_stroke (i : Fin 12) (s : State) : (detachAll i s).stroke = s.stroke :=
  fold_keeps (P := fun t => t.stroke = s.stroke) (fun t r h => by simpa using h) _ s rfl

theorem detachAll_clock (i : Fin 12) (s : State) : (detachAll i s).clock = s.clock :=
  fold_keeps (P := fun t => t.clock = s.clock) (fun t r h => by simpa using h) _ s rfl

/-- The state in which the account leaves OPEN: its runs detached, the ending of its grant requested (R9). -/
theorem closeAccount_before {s u : State} {i : Fin 12}
    (hu : u = requestEnd (fun g => g.beneficiary = .account i)
      (s.accounts[i].runs.foldl (fun s r => detachRun i r s) s)) :
    closeAccount i s = leaveOpen i u ∧ u.stroke = s.stroke ∧ u.clock = s.clock := by
  have hd : u = requestEnd (·.forAccount i) (detachAll i s) := by rw [hu, forAccount_eq]; rfl
  refine ⟨by rw [hd]; rfl, ?_, ?_⟩
  · rw [hd]; simp [detachAll_stroke]
  · rw [hd]; simp [detachAll_clock]

theorem leaveOpen_inFlight {u : State} {i : Fin 12} (h : u.inFlight i = true) : leaveOpen i u
    = { u with accounts := setAt u.accounts i { u.accounts[i] with state := .closing } } := by
  rw [leaveOpen, if_pos h]; rfl

theorem leaveOpen_idle {u : State} {i : Fin 12} (h : u.inFlight i = false) :
    leaveOpen i u = enterClosed i u := by
  rw [leaveOpen, h]; rfl

/-- Entry to CLOSED, spelled out (R11). -/
theorem enterClosed_eq (i : Fin 12) (u : State) : enterClosed i u = raise .accountClosed i.1
    { u with
      accounts := setAt u.accounts i
        { u.accounts[i] with
          state := .closed
          waived := addMass u.accounts[i].waived
            (u.accounts[i].owed - u.accounts[i].credited - u.accounts[i].waived)
          closeTime := some u.clock.deviceTime } } := rfl

theorem leaveOpen_state_inFlight {u : State} {i : Fin 12} (h : u.inFlight i = true) :
    (leaveOpen i u).accounts[i].state = .closing := by
  rw [leaveOpen_inFlight h]; simp only [setAt_get, if_true]

theorem leaveOpen_state_idle {u : State} {i : Fin 12} (h : u.inFlight i = false) :
    (leaveOpen i u).accounts[i].state = .closed := by
  rw [leaveOpen_idle h, enterClosed_eq]; simp only [raise_keeps, setAt_get, if_true]

theorem inFlight_false {s : State} {i : Fin 12} (h : ∀ k, s.stroke = some k →
    k.beneficiary = .account i → k.resolution ≠ .unresolved) : s.inFlight i = false := by
  rw [← Bool.not_eq_true, inFlight_iff]
  rintro ⟨k, hk, hb, hr⟩
  exact h k hk hb hr

/-! ### The requests -/

section CloseRequests
variable {s : State} {i : Fin 12}

theorem closeAccount_accepts (ho : s.accounts[i].state = .opened) :
    s.accepts .closeAccount 0x17 (byte i.1) (byte (closeAccount i s).accounts[i].state.code)
      (closeAccount i s) :=
  accepts_of (rule := ruleCloseAccount) rfl (by
    simp only [ruleCloseAccount, fields_number, slot_number, if_neg (not_not_intro ho)])

theorem closeAccount_notOpen (ho : s.accounts[i].state ≠ .opened) :
    s.refuses .closeAccount 0x17 (byte i.1) .wrongState :=
  refuses_of (rule := ruleCloseAccount) rfl (by
    simp only [ruleCloseAccount, fields_number, slot_number, if_pos ho])

theorem closeAccount_outOfRange {slot : Byte} (h : 11 < slot.toNat) :
    s.refuses .closeAccount 0x17 [slot] .badArgument :=
  refuses_of (rule := ruleCloseAccount) rfl (by
    simp only [ruleCloseAccount, fields_one, fin?_be_none (n := 12) h])

theorem releaseAccount_accepts (hc : s.accounts[i].state = .closed) :
    s.accepts .releaseAccount 0x18 (byte i.1) []
      { s with accounts := setAt s.accounts i .free } :=
  accepts_of (rule := ruleReleaseAccount) rfl (by
    simp only [ruleReleaseAccount, fields_number, slot_number, if_neg (not_not_intro hc)])

theorem releaseAccount_notClosed (hc : s.accounts[i].state ≠ .closed) :
    s.refuses .releaseAccount 0x18 (byte i.1) .wrongState :=
  refuses_of (rule := ruleReleaseAccount) rfl (by
    simp only [ruleReleaseAccount, fields_number, slot_number, if_pos hc])

theorem releaseAccount_outOfRange {slot : Byte} (h : 11 < slot.toNat) :
    s.refuses .releaseAccount 0x18 [slot] .badArgument :=
  refuses_of (rule := ruleReleaseAccount) rfl (by
    simp only [ruleReleaseAccount, fields_one, fin?_be_none (n := 12) h])

/-- The tag of a released account is free, where no other slot outside FREE carried it (R6, R12). -/
theorem releaseAccount_tag (h : ∀ j : Fin 12, j ≠ i → s.accounts[j].state ≠ .free →
      s.accounts[j].tag ≠ s.accounts[i].tag) (j : Fin 12)
    (hj : (setAt s.accounts i .free)[j].state ≠ .free) :
    (setAt s.accounts i .free)[j].tag ≠ s.accounts[i].tag := by
  rw [setAt_get] at hj ⊢
  split at hj
  · exact absurd rfl hj
  · next hij => rw [if_neg hij]; exact h j (Ne.symm hij) hj

end CloseRequests

/-- Settles O14: the two ways out of OPEN, and the release. -/
theorem closeAndReleaseAccount : Obligations.CloseAndReleaseAccount := by
  intro s i
  refine ⟨fun u ho hu => ?close, fun ho => closeAccount_notOpen ho, ?release,
    fun hc => releaseAccount_notClosed hc,
    fun slot h => ⟨closeAccount_outOfRange h, releaseAccount_outOfRange h⟩⟩
  case close =>
    obtain ⟨he, hk, hclock⟩ := closeAccount_before hu
    have hacc := closeAccount_accepts ho
    rw [he] at hacc
    constructor
    · intro hf
      have hfl : u.inFlight i = true := inFlight_iff.mpr (hk ▸ hf)
      rw [leaveOpen_state_inFlight hfl, leaveOpen_inFlight hfl] at hacc
      exact hacc
    · intro hn
      have hfl : u.inFlight i = false := inFlight_false (hk ▸ hn)
      rw [leaveOpen_state_idle hfl, leaveOpen_idle hfl, enterClosed_eq] at hacc
      rw [← hclock]
      exact hacc
  case release =>
    rintro _ hc rfl
    exact ⟨releaseAccount_accepts hc, fun h j => releaseAccount_tag h j⟩

end Sys2Proof.Machine

/-! SUPPORT and the proof of O23. Totals (R3, R42) and the waiver rule (R102). -/

namespace Sys2Proof.Machine

-- One proof after the other: a proof that waits for an earlier one holds a thread and its stack.
set_option Elab.async false

/-- An addition loses nothing but whole wraps of the whole part (R3, R42). -/
theorem total_add_exact (t : Total) (unit increment : Nat) :
    (t.add unit increment).whole * unit + (t.add unit increment).fraction
        + (t.whole + (t.fraction + increment) / unit) / Config.wholeWrap * Config.wholeWrap * unit
      = t.whole * unit + t.fraction + increment := by
  have hsplit := Nat.div_add_mod (t.whole + (t.fraction + increment) / unit) Config.wholeWrap
  have hcarry := Nat.div_add_mod (t.fraction + increment) unit
  simp only [Total.add]
  generalize Config.wholeWrap = w at *
  calc _ = (w * ((t.whole + (t.fraction + increment) / unit) / w)
          + (t.whole + (t.fraction + increment) / unit) % w) * unit
        + (t.fraction + increment) % unit := by rw [Nat.add_mul, Nat.mul_comm w]; ac_rfl
    _ = (t.whole + (t.fraction + increment) / unit) * unit
        + (t.fraction + increment) % unit := by rw [hsplit]
    _ = t.whole * unit
        + (unit * ((t.fraction + increment) / unit) + (t.fraction + increment) % unit) := by
      rw [Nat.add_mul, Nat.mul_comm (_ / unit), Nat.add_assoc]
    _ = t.whole * unit + t.fraction + increment := by rw [hcarry, Nat.add_assoc]

section Waiving
variable {s : State} {i : Fin 12} {q : Fin 4}

/-- Without a point there is no limit to keep (R102). -/
theorem waive_without_point (h : s.accounts[i].point = none) : waive i s = s := by
  simp only [waive, h]

/-- A backlog within the limit stays (R102). -/
theorem waive_within (h : s.accounts[i].point = some q)
    (hl : s.accounts[i].backlog ≤ s.points[q].limit) : waive i s = s := by
  simp only [waive, h, Nat.sub_eq_zero_of_le hl, if_true]

/-- A backlog above the limit is waived down to it, with UNDERDOSE (R102). -/
theorem waive_above (h : s.accounts[i].point = some q)
    (hl : s.points[q].limit < s.accounts[i].backlog) : waive i s = raise .underdose i.1
      { s with
        accounts := setAt s.accounts i
          { s.accounts[i] with
            waived := addMass s.accounts[i].waived
              (s.accounts[i].backlog - s.points[q].limit) } } := by
  unfold waive
  split
  · next hn => rw [hn] at h; cases h
  · next q' hq =>
    obtain rfl : q' = q := Option.some.inj (hq.symm.trans h)
    dsimp only
    rw [if_neg (Nat.sub_ne_zero_of_lt hl)]
    rfl

end Waiving

/-- What is waived of a mass within its range never reaches the top of the range (R4). -/
theorem addMass_excess {a : Account} {limit : Nat} (h : limit < a.backlog)
    (ho : a.owed < 2 ^ 64) :
    addMass a.waived (a.backlog - limit) = a.waived + (a.backlog - limit) := by
  have hb : a.backlog = a.owed - a.credited - a.waived := rfl
  exact Nat.min_eq_left (by rw [Config.maxMass]; omega)

/-- Settles O23: the carry of the totals, and the three cases of the waiver rule. -/
theorem totalsCarryAndBacklogIsCapped : Obligations.TotalsCarryAndBacklogIsCapped := by
  refine ⟨fun t unit increment hu _ _ => ?_, ?_⟩
  · exact ⟨Nat.mod_lt _ hu, Nat.mod_lt _ (by decide), _, total_add_exact t unit increment⟩
  · rintro s i _ rfl
    refine ⟨waive_without_point, fun q hq => ⟨waive_within hq, fun hl ho => ?_⟩⟩
    rw [waive_above hq hl, addMass_excess hl ho]
    rfl

end Sys2Proof.Machine

/-! SUPPORT and the proof of O37. The resolution of a stroke (R11, R21, R117, R118, R119, R154). -/

namespace Sys2Proof.Machine

-- One proof after the other: a proof that waits for an earlier one holds a thread and its stack.
set_option Elab.async false

/-! ### The beneficiary (R117, R118) -/

theorem resolveBeneficiary_manual {k : Stroke} {b : Bool} (s : State)
    (h : k.beneficiary = .manual) : resolveBeneficiary k b s = resolveManual k.point b k.mass s := by
  rw [resolveBeneficiary, h]

theorem resolveBeneficiary_account {k : Stroke} {b : Bool} {i : Fin 12} (s : State)
    (h : k.beneficiary = .account i) :
    resolveBeneficiary k b s = resolveAccount i b k.mass s := by
  rw [resolveBeneficiary, h]

/-- An account that is not CLOSING takes its new masses (R117). -/
theorem resolveAccount_stays {i : Fin 12} {b : Bool} {mass : Nat} {s : State}
    (h : s.accounts[i].state ≠ .closing) : resolveAccount i b mass s
      = { s with accounts := setAt s.accounts i (s.accounts[i].resolved b mass) } := by
  have hs : (editAccount i (·.resolved b mass) s).accounts[i].state ≠ .closing := by
    simp only [editAccount, editAt_get, if_true, (resolved_owner b mass s.accounts[i]).state]
    exact h
  unfold resolveAccount
  dsimp only
  rw [if_neg hs]
  rfl

/-- A CLOSING account takes its new masses and enters CLOSED (R11, R117). -/
theorem resolveAccount_closes {i : Fin 12} {b : Bool} {mass : Nat} {s : State} {a : Account}
    (h : s.accounts[i].state = .closing) (ha : s.accounts[i].resolved b mass = a) :
    resolveAccount i b mass s = raise .accountClosed i.1
      { s with
        accounts := setAt s.accounts i
          { a with
            state := .closed
            waived := addMass a.waived (a.owed - a.credited - a.waived)
            closeTime := some s.clock.deviceTime } } := by
  have hg : (editAccount i (·.resolved b mass) s).accounts[i] = a := by
    simp only [editAccount, editAt_get, if_true, ha]
  have hs : (editAccount i (·.resolved b mass) s).accounts[i].state = .closing := by
    rw [hg, ← ha, (resolved_owner b mass s.accounts[i]).state, h]
  unfold resolveAccount
  dsimp only
  rw [if_pos hs, enterClosed_eq, hg]
  simp only [editAccount, editAt, setAt_setAt]

/-! ### The pump (R119, R154) -/

/-- The failure of a pump, with the failover to the other one (R154). -/
theorem failPump_eq {p other : Fin 2} (h : other ≠ p) (s : State) :
    failPump p s = requestEnd (fun _ => true) (raise .pumpFailed p.1
      { s with
        pendingDuty := none
        pumps := if s.pumps[other].state = .standby
          then setAt (setAt s.pumps p { s.pumps[p] with state := .failed }) other
            { s.pumps[other] with state := .duty }
          else setAt s.pumps p { s.pumps[p] with state := .failed } }) := by
  have ho : other = 1 - p := by revert h; revert p other; decide
  have hg : (setAt s.pumps p { s.pumps[p] with state := .failed })[other] = s.pumps[other] := by
    rw [setAt_get, if_neg (Ne.symm h)]
  subst ho
  unfold failPump
  simp only [raise_keeps, editPump, editAt, hg]
  split
  · rfl
  · rfl

section PumpResolution
variable {s : State} {p : Fin 2} {u : Pump}

theorem resolvePump_proven (hu : s.pumps[p] = u) : resolvePump p .proven s
    = { s with pumps := setAt s.pumps p { u with unproven := 0 } } := by
  subst hu; rfl

/-- Below its failure limit the pump counts the unproven stroke (R119). -/
theorem resolvePump_counts (hu : s.pumps[p] = u) (h : u.unproven + 1 < u.config.failureLimit) :
    resolvePump p .unproven s
      = { s with pumps := setAt s.pumps p { u with unproven := u.unproven + 1 } } := by
  subst hu
  simp only [resolvePump, editPump, editAt_get, if_true, if_neg (Nat.not_le.mpr h)]
  rfl

/-- At its failure limit the pump fails (R154). -/
theorem resolvePump_fails {other : Fin 2} (hu : s.pumps[p] = u) (ho : other ≠ p)
    (h : u.config.failureLimit ≤ u.unproven + 1) : resolvePump p .unproven s
      = requestEnd (fun _ => true) (raise .pumpFailed p.1
        { s with
          pendingDuty := none
          pumps := if s.pumps[other].state = .standby
            then setAt (setAt s.pumps p { u with unproven := u.unproven + 1, state := .failed })
              other { s.pumps[other] with state := .duty }
            else setAt s.pumps p { u with unproven := u.unproven + 1, state := .failed } }) := by
  subst hu
  simp only [resolvePump, editPump, editAt, setAt_get, if_true, if_pos h, failPump_eq ho,
    if_neg (Ne.symm ho), setAt_setAt]

end PumpResolution

/-! ### The resolution -/

/-- The stroke once it is resolved: one in PROOF_WAIT passes to RECOVER (R119). -/
def Stroke.resolvedBy (r : Resolution) (k : Stroke) : Stroke :=
  { k with resolution := r, phase := if k.phase = .proofWait then .recover else k.phase }

theorem resolve_eq {s : State} {k : Stroke} (r : Resolution) (hk : s.stroke = some k) :
    resolve r s = resolvePump k.pump r
      (resolveBeneficiary k (r == .proven) { s with stroke := some (k.resolvedBy r) }) := by
  rw [resolve, hk]; rfl

/-- The state after the resolution at a manual beneficiary (R118). -/
theorem resolveManual_cases {r : Resolution} {q : Fin 4} {mass : Nat} {u v : State}
    (hp : r = .proven → v = { u with
      points := setAt u.points q { u.points[q] with
        manualTotal := min (u.points[q].manualTotal + mass) (2 ^ 64 - 1) } })
    (hn : r ≠ .proven → v = u) : resolveManual q (r == .proven) mass u = v := by
  by_cases hr : r = .proven
  · rw [hp hr, hr]; rfl
  · rw [hn hr, beq_false_of_ne hr]; rfl

/-- The record that an account's resolution leaves is one of those of R117. -/
theorem resolved_spelled (r : Resolution) (mass : Nat) (a : Account) :
    (r = .proven ∧ a.resolved (r == .proven) mass = { a with
        credited := min (a.credited + mass) (2 ^ 64 - 1), reserved := 0 })
      ∨ (r ≠ .proven ∧ a.state = .opened ∧ a.point = none
          ∧ a.resolved (r == .proven) mass = { a with
            waived := min (a.waived + mass) (2 ^ 64 - 1), reserved := 0 })
      ∨ (r ≠ .proven ∧ (a.state ≠ .opened ∨ a.point ≠ none)
          ∧ a.resolved (r == .proven) mass = { a with reserved := 0 }) := by
  by_cases hr : r = .proven
  · exact .inl ⟨hr, by rw [hr]; rfl⟩
  · have hb : (r == .proven) = false := beq_false_of_ne hr
    by_cases ho : a.state = .opened ∧ a.point = none
    · refine .inr (.inl ⟨hr, ho.1, ho.2, ?_⟩)
      rw [hb, Account.resolved, if_neg Bool.false_ne_true, Account.releaseStroke, if_pos ho]
      rfl
    · refine .inr (.inr ⟨hr, Classical.not_and_iff_not_or_not.mp ho, ?_⟩)
      rw [hb, Account.resolved, if_neg Bool.false_ne_true, Account.releaseStroke, if_neg ho]

/-- Settles O37: the record, then the beneficiary, then the pump. -/
theorem resolutionReachesBeneficiaryThenPump : Obligations.ResolutionReachesBeneficiaryThenPump := by
  intro s k r v hk _ hv u hu
  obtain ⟨hmanual, haccount⟩ := hv _ rfl
  have hb : resolveBeneficiary k (r == .proven) { s with stroke := some (k.resolvedBy r) } = v := by
    cases hkb : k.beneficiary with
    | manual =>
      rw [resolveBeneficiary_manual _ hkb]
      obtain ⟨hp, hn⟩ := hmanual hkb
      exact resolveManual_cases hp hn
    | account i =>
      rw [resolveBeneficiary_account _ hkb]
      obtain ⟨hstays, hcloses⟩ := haccount i s.accounts[i] _ hkb rfl
        (resolved_spelled r k.mass s.accounts[i])
      by_cases hc : s.accounts[i].state = .closing
      · rw [hcloses hc]
        exact resolveAccount_closes hc rfl
      · rw [hstays hc]
        exact resolveAccount_stays hc
  have hp : v.pumps = s.pumps := by rw [← hb]; simp
  have hu' : v.pumps[k.pump] = u := by rw [hp]; exact hu
  have he : resolve r s = resolvePump k.pump r v := by rw [resolve_eq r hk, hb]
  rw [he, ← hp]
  refine ⟨?proven, ?noPenalty, ?counts, ?fails⟩
  case proven => rintro rfl; exact resolvePump_proven hu'
  case noPenalty => rintro rfl; rfl
  case counts => rintro rfl hl; exact resolvePump_counts hu' hl
  case fails =>
    rintro rfl hl other _ ho rfl
    exact resolvePump_fails hu' ho hl

end Sys2Proof.Machine

/-! SUPPORT and the proof of O51. The warm reset in its nine steps (R193). -/

namespace Sys2Proof.Machine

-- One proof after the other: a proof that waits for an earlier one holds a thread and its stack.
set_option Elab.async false

/-! ### Steps 1 and 2: the command and the stroke (R121, R199) -/

/-- A transaction in progress is ended; one without a complete byte leaves no record (R199, log 22). -/
theorem cutLink_eq (p : Port) : p.cutLink = { p with
    link := if p.link = .high then .high else .ended
    miso := if p.link = .receiving [] then [] else p.miso } := by
  obtain ⟨_, _, _, _, link, _⟩ := p
  cases link with
  | high => simp [Port.cutLink]
  | receiving bytes =>
    cases bytes with
    | nil => simp [Port.cutLink]
    | cons b bs => simp [Port.cutLink]
  | fetching rest => simp [Port.cutLink]
  | ended => simp [Port.cutLink]

theorem abandonCommand_eq (s : State) : abandonCommand s = { s with port := { s.port with
    state := .idle, response := none, discard := false
    link := if s.port.link = .high then .high else .ended
    miso := if s.port.link = .receiving [] then [] else s.port.miso } } := by
  rw [abandonCommand, cutLink_eq]

theorem abandonStroke_inFlight {s : State} {k : Stroke} (hk : s.stroke = some k)
    (hr : k.resolution = .unresolved) : abandonStroke s = resolve .unprovenNoPenalty s := by
  simp only [abandonStroke, hk, if_pos hr]

theorem abandonStroke_none {s : State} (h : ∀ k, s.stroke = some k → k.resolution ≠ .unresolved) :
    abandonStroke s = s := by
  unfold abandonStroke
  split
  · rfl
  · next k hk => rw [if_neg (h k hk)]

/-- The account that the reset closes (R27). -/
theorem closedByReset_some {s : State} {k : Stroke} {i : Fin 12} (hk : s.stroke = some k)
    (hr : k.resolution = .unresolved) (hb : k.beneficiary = .account i)
    (hc : s.accounts[i].state = .closing) : s.closedByReset = some i := by
  simp only [State.closedByReset, hk, hb, if_pos (And.intro hr hc)]

theorem closedByReset_none {s : State} (h : ∀ (k : Stroke) (i : Fin 12), s.stroke = some k →
    k.resolution = .unresolved → k.beneficiary = .account i → s.accounts[i].state ≠ .closing) :
    s.closedByReset = none := by
  unfold State.closedByReset
  split
  · rfl
  · next k hk =>
    split
    · rfl
    · next i hb => exact if_neg fun ⟨hr, hc⟩ => h k i hk hr hb hc

/-! ### Steps 3 to 9: the other records -/

/-- A cause kind with no subject pending (R206). -/
def Cause.cleared (c : Cause) : Cause := { c with subjects := [] }

/-- A raise leaves nothing once pending causes are cleared (R206). -/
theorem cleared_raise (k : CauseKind) (n : Nat) (s : State) :
    mapAll Cause.cleared (raise k n s).causes = mapAll Cause.cleared s.causes := by
  refine table_ext _ _ fun j => ?_
  have hc : ∀ c : Cause, (c.raised n).cleared = c.cleared := fun c => by
    unfold Cause.raised; split <;> rfl
  simp only [mapAll_get, raise, editAt_get]
  split
  · next h => rw [hc, h]
  · rfl

theorem cleared_resolveBeneficiary (k : Stroke) (b : Bool) (s : State) :
    mapAll Cause.cleared (resolveBeneficiary k b s).causes = mapAll Cause.cleared s.causes := by
  unfold resolveBeneficiary
  split
  · unfold resolveAccount
    dsimp only
    split
    · exact cleared_raise _ _ _
    · rfl
  · unfold resolveManual
    split <;> rfl

/-- The resolution without penalty leaves no cause pending that the reset does not clear. -/
theorem cleared_abandonStroke (s : State) :
    mapAll Cause.cleared (abandonStroke s).causes = mapAll Cause.cleared s.causes := by
  unfold abandonStroke
  split
  · rfl
  · next k hk =>
    split
    · rw [resolve_eq _ hk]; exact cleared_resolveBeneficiary _ _ _
    · rfl

theorem resetScan_eq (s : State) : resetScan s = { s with scan := { s.scan with
    state := if s.supply.state = .low then .suspended else .idle
    list := [], done := 0, conversionEnd := 0
    timer := if s.scan.source = .interval then some (s.now + s.scan.interval * 1000)
      else s.scan.timer } } := by
  unfold resetScan restartInterval
  by_cases h : s.scan.source = .interval
  · rw [if_pos (show (abandonScan s.restScan s).scan.source = .interval from h), if_pos h]; rfl
  · rw [if_neg (show ¬ (abandonScan s.restScan s).scan.source = .interval from h), if_neg h]; rfl

/-- A monitor is DISABLED or WATCHING after the reset (R175). -/
theorem rested_eq (u : Monitor) : u.rested = { u with
    state := if u.state = .disabled then .disabled else .watching, timer := none } := by
  obtain ⟨state, _, _, _⟩ := u
  cases state <;> rfl

/-- The trip set without monitors (R162). -/
theorem isEmpty_withoutMonitors (t : TripSet) :
    ({ t with monitors := allEqual 16 false } : TripSet).isEmpty = (!t.stop && !t.supply) := by
  rw [TripSet.isEmpty]
  simp

/-- The header is IDLE or TRIPPED by what is left in the trip set (R146). -/
theorem restState_eq (t : TripSet) : (if (!t.stop && !t.supply) = true then HeaderState.idle
      else .tripped) = if t.stop = true ∨ t.supply = true then .tripped else .idle := by
  cases t.stop <;> cases t.supply <;> rfl

/-- Steps 3 to 7 and 9 on a record whose stroke is dropped, spelled out (R67, R99, R146, R162, R175, R206). -/
theorem restRecords_eq (s : State) :
    settleHeader (clearCauses (resetRuns (resetMonitors (resetScan (clearHeader s))))) =
      { s with
        header := { s.header with
          state := if s.trips.stop = true ∨ s.trips.supply = true then .tripped else .idle
          grant := none, timer := none, mask := [], manualTimer := none }
        scan := { s.scan with
          state := if s.supply.state = .low then .suspended else .idle
          list := [], done := 0, conversionEnd := 0
          timer := if s.scan.source = .interval then some (s.now + s.scan.interval * 1000)
            else s.scan.timer }
        monitors := mapAll (fun u : Monitor => { u with
          state := if u.state = .disabled then .disabled else .watching, timer := none }) s.monitors
        tripTest := false
        trips := { s.trips with monitors := allEqual 16 false }
        runs := mapAll (fun r : Run => { r with
          edgeCount := 0, lastPeriod := 0, lastEdge := none }) s.runs
        released := []
        causes := mapAll Cause.cleared s.causes } := by
  have hm : Monitor.rested = fun u : Monitor => { u with
      state := if u.state = .disabled then .disabled else .watching, timer := none } :=
    funext rested_eq
  rw [resetScan_eq]
  simp only [settleHeader, clearCauses, resetRuns, resetMonitors, clearHeader, hm,
    isEmpty_withoutMonitors, restState_eq]
  rfl

/-- Step 9 and the raises of step 8 act on different records. -/
theorem settleHeader_raiseAfterReset (closed : Option (Fin 12)) (s : State) :
    settleHeader (raiseAfterReset closed s)
      = closed.toList.foldl (fun s i => raise .accountClosed i.1 s)
        (raise .restart 2 (settleHeader s)) := by
  cases closed <;> rfl

/-- The records that the stroke's ending does not touch (R121, R162). -/
theorem strokeEnd_keeps {s a c : State} (ha : abandonCommand s = a)
    (hc : c = applyPendingDuty { abandonStroke a with stroke := none }) :
    c.now = s.now ∧ c.scan = s.scan ∧ c.supply = s.supply ∧ c.trips = s.trips
      ∧ c.monitors = s.monitors ∧ c.runs = s.runs
      ∧ mapAll Cause.cleared c.causes = mapAll Cause.cleared s.causes := by
  subst hc ha
  refine ⟨by simp, by simp, by simp, by simp, by simp, by simp, ?_⟩
  have hk : (applyPendingDuty { abandonStroke (abandonCommand s) with stroke := none }).causes
      = (abandonStroke (abandonCommand s)).causes := by simp
  rw [hk, cleared_abandonStroke]
  rfl

/-! ### RESET and RST_N -/

theorem reset_serving {s : State} {key : Byte} (h : s.serving 0x66 [key]) :
    exec .reset s = .next (if key = 0xC3 then warmReset s else complete .badArgument [] s) := by
  have he : exec .reset s = execReset s := rfl
  simp only [he, execReset, executing_of_serving h, if_true, List.cons.injEq, and_true,
    Config.resetKey]
  rfl

/-- Settles O51: the nine steps in their order. -/
theorem warmResetTakesItsNineSteps : Obligations.WarmResetTakesItsNineSteps := by
  refine ⟨fun s us hp => eventAfter_powered hp, fun s h => ?key, fun s key hk h => ?otherKey, ?steps⟩
  case key => rw [reset_serving h, if_pos rfl]
  case otherKey => rw [reset_serving h, if_neg hk]
  case steps =>
    intro s a b c closed ha hb hclosed hc
    have ha' : abandonCommand s = a := by rw [ha, abandonCommand_eq]
    have hstroke : a.stroke = s.stroke := by rw [ha]
    have hb' : abandonStroke a = b := by
      rcases hb with ⟨⟨k, hk, hr⟩, rfl⟩ | ⟨hn, rfl⟩
      · exact abandonStroke_inFlight (hstroke.trans hk) hr
      · exact abandonStroke_none (hstroke ▸ hn)
    have hcl : closed = s.closedByReset.toList := by
      rcases hclosed with ⟨k, i, hk, hr, hben, hst, rfl⟩ | ⟨hn, rfl⟩
      · rw [closedByReset_some hk hr hben hst]; rfl
      · rw [closedByReset_none hn]; rfl
    have hdrop : dropStroke b = { c with pendingDuty := none } := by rw [hc]; rfl
    obtain ⟨hnow, hscan, hsupply, htrips, hmonitors, hruns, hcauses⟩ :=
      strokeEnd_keeps ha' (hb'.symm ▸ hc)
    rw [warmReset, settleHeader_raiseAfterReset, ha', hb', hdrop, restRecords_eq, ← hcl]
    simp only [hnow, hscan, hsupply, htrips, hmonitors, hruns, hcauses]
    rfl

end Sys2Proof.Machine

/-! SUPPORT and the proof of O22. The actual volume of one update and of a run of updates (R34). -/

namespace Sys2Proof.Machine

-- One proof after the other: a proof that waits for an earlier one holds a thread and its stack.
set_option Elab.async false

/-- n × W × MF of one update, with n as stage 0 leaves it (R32, R34). -/
def UpdateInputs.measured (u : UpdateInputs) : Nat :=
  (if u.frequency < u.cutoff then 0 else u.pulses) * u.weight * meterFactor u.frequency u.bands

/-- Stage 2 divides the measured volume and the carry by a million (R34). -/
theorem stages_actual (u : UpdateInputs) :
    (stages u).actual = (u.measured + u.actualCarry) / 1000000
      ∧ (stages u).actualCarry = (u.measured + u.actualCarry) % 1000000 := by
  simp only [stages, decide_eq_true_eq, UpdateInputs.measured, and_self]

/-- One update loses nothing: what it does not store as volume it leaves as the carry (R34). -/
theorem stages_actual_exact (u : UpdateInputs) :
    (stages u).actual * 1000000 + (stages u).actualCarry = u.measured + u.actualCarry := by
  rw [(stages_actual u).1, (stages_actual u).2, Nat.mul_comm]
  exact Nat.div_add_mod _ _

/-- Each update starts with the actual carry that the one before left (R34, R48). -/
def Chained (updates : List UpdateInputs) : Prop :=
  ∀ (k : Nat) (u v : UpdateInputs), updates[k]? = some u → updates[k + 1]? = some v →
    v.actualCarry = (stages u).actualCarry

theorem Chained.tail {u : UpdateInputs} {us : List UpdateInputs} (h : Chained (u :: us)) :
    Chained us :=
  fun k v w hv hw => h (k + 1) v w hv hw

theorem Chained.next {u v : UpdateInputs} {us : List UpdateInputs} (h : Chained (u :: v :: us)) :
    v.actualCarry = (stages u).actualCarry :=
  h 0 u v rfl rfl

/-- Along a chain the carries cancel but for the first and the last (R34). -/
theorem chained_actual_exact (us : List UpdateInputs) : ∀ u : UpdateInputs, Chained (u :: us) →
    ((u :: us).map fun v => (stages v).actual).sum * 1000000
        + (stages ((u :: us).getLast (by simp))).actualCarry
      = ((u :: us).map UpdateInputs.measured).sum + u.actualCarry := by
  induction us with
  | nil =>
    intro u _
    simpa using stages_actual_exact u
  | cons v vs ih =>
    intro u h
    have hrest := ih v h.tail
    have hone := stages_actual_exact u
    have hcarry := h.next
    rw [List.getLast_cons (by simp)]
    simp only [List.map_cons (l := v :: vs), List.sum_cons (l := List.map _ (v :: vs))]
    rw [Nat.add_mul, Nat.add_assoc, hrest, hcarry, Nat.add_comm (List.sum _), ← Nat.add_assoc, hone,
      Nat.add_right_comm]

/-- Settles O22: one update by its division, a run of updates by induction along the carries. -/
theorem actualVolumeLosesNothing : Obligations.ActualVolumeLosesNothing := by
  refine ⟨?one, ?run⟩
  case one =>
    rintro u n mf hn rfl
    have hm : u.measured = n * u.weight * meterFactor u.frequency u.bands := by rw [hn]; rfl
    obtain ⟨hvolume, hcarry⟩ := stages_actual u
    rw [hm] at hvolume hcarry
    refine ⟨hvolume, hcarry, fun h0 hc => ?_⟩
    rw [hvolume, hcarry, h0, Nat.zero_mul, Nat.zero_mul, Nat.zero_add]
    exact ⟨Nat.div_eq_of_lt hc, Nat.mod_eq_of_lt hc⟩
  case run =>
    intro updates first last hfirst hlast hchain
    cases updates with
    | nil => cases hfirst
    | cons u us =>
      obtain rfl : u = first := Option.some.inj hfirst
      have hl : (u :: us).getLast (by simp) = last :=
        Option.some.inj ((List.getLast?_eq_some_getLast _).symm.trans hlast)
      have hexact := chained_actual_exact us u hchain
      rw [hl] at hexact
      exact hexact

end Sys2Proof.Machine

/-! SUPPORT and the proof of O19. METERING_UPDATE (R28, R49). -/

namespace Sys2Proof.Machine

-- One proof after the other: a proof that waits for an earlier one holds a thread and its stack.
set_option Elab.async false

theorem meteringUpdate_powered {s : State} {r : Fin 6} (h : s.powered = true) :
    exec (.meteringUpdate r) s = .next (takeReleased r s) :=
  event_powered h

theorem takeReleased_nothing {s : State} {r : Fin 6} (h : ∀ x ∈ s.released, x.run ≠ r) :
    takeReleased r s = s := by
  have hf : s.released.find? (fun e => e.run == r) = none :=
    List.find?_eq_none.mpr fun x hx => by simpa using h x hx
  simp only [takeReleased, hf, ite_self]

section OldestRelease
variable {s : State} {r : Fin 6} {before after : List Released} {e : Released}

theorem find_oldest (he : e.run = r) (hb : ∀ x ∈ before, x.run ≠ r) :
    (before ++ e :: after).find? (fun x => x.run == r) = some e := by
  have hn : before.find? (fun x => x.run == r) = none :=
    List.find?_eq_none.mpr fun x hx => by simpa using hb x hx
  rw [List.find?_append, hn, Option.none_or, List.find?_cons_of_pos (by simpa using he)]

theorem erase_oldest (he : e.run = r) (hb : ∀ x ∈ before, x.run ≠ r) :
    (before ++ e :: after).eraseP (fun x => x.run == r) = before ++ after := by
  rw [List.eraseP_append_right _ fun x hx => by simpa using hb x hx,
    List.eraseP_cons_of_pos (by simpa using he)]

/-- In supply NORMAL the oldest release of the run is taken, and made while the run is IN_SERVICE (R28). -/
theorem takeReleased_oldest (hn : s.supply.state = .normal) (hs : s.released = before ++ e :: after)
    (he : e.run = r) (hb : ∀ x ∈ before, x.run ≠ r) :
    takeReleased r s = if s.runs[r].state = .inService
      then grantIfDue (update r e.held { s with released := before ++ after })
      else { s with released := before ++ after } := by
  rw [takeReleased, if_neg (by rw [hn]; decide), hs, find_oldest he hb, erase_oldest he hb]

end OldestRelease

/-- Settles O19: supply NORMAL with and without a release of the run, and supply LOW. -/
theorem meteringUpdateTakesOldestRelease : Obligations.MeteringUpdateTakesOldestRelease := by
  intro s r hp
  rw [meteringUpdate_powered hp]
  refine ⟨fun hn => ⟨fun before after e hs he hb => ?_, fun h => ?_⟩, fun hl => ?_⟩
  · rw [takeReleased_oldest hn hs he hb]
    exact ⟨fun hr => by rw [if_pos hr], fun hr => by rw [if_neg hr]⟩
  · rw [takeReleased_nothing h]
  · rw [takeReleased_low hl]

end Sys2Proof.Machine

/-! SUPPORT and the proof of O21. Stages 0 to 5 and 8 of an update (R32 to R38, R41, R44). -/

namespace Sys2Proof.Machine

-- One proof after the other: a proof that waits for an earlier one holds a thread and its stack.
set_option Elab.async false

/-! ### Stage 3: s (R35) -/

/-- s before its clamp, from the nearest thousandth of B × t (R35). -/
theorem slopeExact_eq {a b t tb : Nat} {m : Int}
    (h1 : (1000 * m - b * ((t : Int) - tb)).natAbs ≤ 500)
    (h2 : (1000 * m - b * ((t : Int) - tb)).natAbs = 500 →
      (b * ((t : Int) - tb)).natAbs < (1000 * m).natAbs) :
    slopeExact a b t tb = a - m := by
  rw [slopeExact, roundHalfAway_thousand h1 h2]

/-- A number clamped to `lo` to `hi` is the bound that it lies beyond, or itself. -/
theorem clamp_eq {lo hi x y : Int}
    (h : (x < lo ∧ y = lo) ∨ (lo ≤ x ∧ hi < x ∧ y = hi) ∨ (lo ≤ x ∧ x ≤ hi ∧ y = x)) :
    clamp lo hi x = y := by
  unfold clamp
  rcases h with ⟨hl, rfl⟩ | ⟨hl, hh, rfl⟩ | ⟨hl, hh, rfl⟩
  · rw [if_pos hl]
  · rw [if_neg (Int.not_lt.mpr hl), if_pos hh]
  · rw [if_neg (Int.not_lt.mpr hl), if_neg (Int.not_lt.mpr hh)]

/-- s within 0 to 100,000 (R35). -/
theorem clamp_slope {s' : Int} {s : Nat}
    (h : (s' < 0 ∧ s = 0) ∨ (100000 < s' ∧ s = 100000) ∨ (0 ≤ s' ∧ s' ≤ 100000 ∧ (s : Int) = s')) :
    clamp 0 100000 s' = s :=
  clamp_eq (by omega)

section Slope
variable {a b t tb s : Nat} {s' : Int}

theorem slope_eq (he : slopeExact a b t tb = s') (hc : clamp 0 100000 s' = s) :
    slope a b t tb = s := by
  rw [slope, he, hc, Int.toNat_natCast]

/-- The mark of a clamped s (R44). -/
theorem slopeClamped_eq (he : slopeExact a b t tb = s') (hc : clamp 0 100000 s' = s) :
    slopeClamped a b t tb = decide (s' ≠ s) := by
  rw [slopeClamped, he, hc, bne, Bool.beq_eq_decide_eq, ← decide_not]
  exact decide_eq_decide.mpr ne_comm

end Slope

/-! ### Stages 3 and 4: d and F (R35, R36, R37) -/

/-- d before its clamp: the nearest thousandth, halves up (R35, R36). -/
theorem compressionExact_eq {p s d : Nat} (h1 : 2000 * d ≤ 2 * (p * s) + 1000)
    (h2 : 2 * (p * s) + 1000 < 2000 * (d + 1)) : compressionExact p s = d :=
  roundHalfUp_eq (by decide) (by omega) (by omega)

/-- Z is positive: d is clamped below 1,000,000,000 (R35, R37). -/
theorem compressibility_pos (p s : Nat) : 0 < compressibility p s := by
  unfold compressibility
  omega

/-- F from the nearest quotient, clamped to 1 to 150,000,000 (R37). -/
theorem conversion_eq {p t z pb tb zb f : Nat} (he : conversionExact p t z pb tb zb = f) :
    conversion p t z pb tb zb = max 1 (min f 150000000) := by
  have hc : clamp 1 150000000 f = (max 1 (min f 150000000) : Nat) := clamp_eq (by omega)
  rw [conversion, he, hc, Int.toNat_natCast]

/-! ### The stages together -/

/-- n as stage 0 leaves it (R32). -/
theorem counted_eq {f fc pulses n : Nat} (h : (f < fc ∧ n = 0) ∨ (fc ≤ f ∧ n = pulses)) :
    (if f < fc then 0 else pulses) = n := by
  rcases h with ⟨hlt, rfl⟩ | ⟨hge, rfl⟩
  · exact if_pos hlt
  · exact if_neg (Nat.not_lt.mpr hge)

/-- The mark of an update by its three clamps (R44). -/
theorem clamped_eq {p q : Prop} [Decidable p] [Decidable q] (f f' : Nat) :
    (decide p || decide q || f != f') = decide (p ∨ q ∨ f ≠ f') := by
  simp only [bne, Bool.beq_eq_decide_eq, decide_not, Bool.decide_or, ne_eq, Bool.or_assoc]

/-- Settles O21: each stage by its own equation, the results by putting them together. -/
theorem stagesComputeVolumesAndRate : Obligations.StagesComputeVolumesAndRate := by
  rintro u n mf x _ s d z db zb f f' y _ _ m _ hband hn hx rfl rfl hm hmHalf rfl hs hd hd' hz hdb
    hdb' hzb hpos hf' hf'' hf hy rfl
  have hcount := counted_eq hn
  have hfactor := meterFactor_eq hband
  have hexact : slopeExact u.slopeA u.slopeB u.held.t u.baseTemperature = u.slopeA - m :=
    slopeExact_eq hm hmHalf
  have hslope := slope_eq hexact (clamp_slope hs)
  have hmark := slopeClamped_eq hexact (clamp_slope hs)
  have hline : compressionExact u.held.p s = d := compressionExact_eq hd hd'
  have hbase : compressionExact u.basePressure u.slopeA = db := compressionExact_eq hdb hdb'
  have hZ : compressibility u.held.p s = z := by rw [compressibility, hline, hz]
  have hZb : compressibility u.basePressure u.slopeA = zb := by rw [compressibility, hbase, hzb]
  have hF : conversionExact u.held.p u.held.t z u.basePressure u.baseTemperature zb = f' :=
    roundHalfUp_eq (Nat.mul_pos hpos (hZ ▸ compressibility_pos _ _)) hf' hf''
  have hconv : conversion u.held.p u.held.t z u.basePressure u.baseTemperature zb = f := by
    rw [conversion_eq hF, hf]
  simp only [stages, decide_eq_true_eq, hcount, hfactor, hslope, hmark, hline, hZ, hZb, hF, hconv,
    ← hx, ← hy, clamped_eq]
  rfl

end Sys2Proof.Machine

/-! SUPPORT and the proof of O28. CONVERSION_END (R88 to R91) and the values that it makes due (R165). -/

namespace Sys2Proof.Machine

-- One proof after the other: a proof that waits for an earlier one holds a thread and its stack.
set_option Elab.async false

/-! ### The code (R89, R90) -/

theorem inRange_iff {lo hi n : Nat} : inRange lo hi n = true ↔ lo ≤ n ∧ n ≤ hi := by
  rw [inRange, Bool.and_eq_true, decide_eq_true_eq, decide_eq_true_eq]

/-- The valid window of codes (R89). -/
theorem codeValid_iff {code : BitVec 16} :
    codeValid code = true ↔ 9830 ≤ code.toNat ∧ code.toNat ≤ 57343 :=
  inRange_iff

/-- The value of a code: the nearest step above lo, clamped to lo to hi (R90). -/
theorem convert_eq {c : ChannelConfig} {code : Nat} {m : Int} {v : Nat}
    (h1 : (43690 * m - ((code : Int) - 10923) * ((c.hi : Int) - c.lo)).natAbs ≤ 21845)
    (h2 : (43690 * m - ((code : Int) - 10923) * ((c.hi : Int) - c.lo)).natAbs = 21845 →
      (((code : Int) - 10923) * ((c.hi : Int) - c.lo)).natAbs < (43690 * m).natAbs)
    (hv : (m < 0 ∧ v = c.lo) ∨ (0 ≤ m ∧ c.hi < c.lo + m ∧ v = c.hi)
      ∨ (0 ≤ m ∧ c.lo + m ≤ c.hi ∧ (v : Int) = c.lo + m)) : convert c code = v := by
  have hc : clamp c.lo c.hi (c.lo + m) = v := clamp_eq (by omega)
  rw [convert, roundHalfAway_span h1 h2, hc, Int.toNat_natCast]

section Taking
variable {ch new : Channel} {code : BitVec 16}

/-- A code in the window makes the channel LIVE with the converted value (R89). -/
theorem taking_valid (h1 : 9830 ≤ code.toNat) (h2 : code.toNat ≤ 57343) : ch.taking code
    = { ch with
        code := code, state := .live, liveSeen := true, value := convert ch.config code.toNat } := by
  rw [Channel.taking, if_pos (codeValid_iff.mpr ⟨h1, h2⟩)]

/-- A code outside the window holds the channel (R89). -/
theorem taking_invalid (h : code.toNat < 9830 ∨ 57343 < code.toNat) : ch.taking code
    = { ch with
        code := code, state := .held
        value := if ch.liveSeen then ch.value else ch.config.fallback } := by
  rw [Channel.taking, if_neg fun hc => ?_]
  obtain ⟨h1, h2⟩ := codeValid_iff.mp hc
  omega

end Taking

/-! ### The values due (R165) -/

/-- The monitors that watch the source and are not DISABLED each have the value due (R165). -/
theorem newValue_eq (source : Source) (value : Nat) (s : State) : newValue source value s
    = { s with
        dueValues := s.dueValues ++ ((List.finRange 16).filter (fun m =>
          decide (s.monitors[m].state ≠ .disabled ∧ s.monitors[m].config.source = source))).map
            (fun m => { monitor := m, value := value }) } := by
  simp only [newValue, sixteen_eq, bne, Bool.beq_eq_decide_eq, ne_eq, Bool.decide_and, decide_not]

/-! ### The conversion (R88, R89, R93) -/

/-- What the channel makes of its code: nothing while disabled, and otherwise its new record, SENSOR_HOLD on the change into HELD,
and a value due (R89, R93). -/
theorem takeCode_eq {i : Fin 16} {code : BitVec 16} {s : State} {ch new : Channel} {due : Bool}
    (hch : s.channels[i] = ch)
    (h : (ch.config.enabled = false ∧ due = false ∧ new = ch)
      ∨ (ch.config.enabled = true ∧ due = true ∧ new = ch.taking code)) :
    takeCode i code s
      = raiseIf (decide (new.state = .held ∧ ch.state ≠ .held ∧ due = true)) .sensorHold i.1
        { s with
          channels := setAt s.channels i new
          dueValues := s.dueValues ++ ((List.finRange 16).filter (fun m => decide (due = true
            ∧ s.monitors[m].state ≠ .disabled ∧ s.monitors[m].config.source = .channel i))).map
              (fun m => { monitor := m, value := new.value }) } := by
  subst hch
  rcases h with ⟨he, rfl, rfl⟩ | ⟨he, rfl, rfl⟩
  · have hnone : (List.finRange 16).filter (fun _ => false) = [] :=
      List.filter_eq_nil_iff.mpr fun _ _ => Bool.false_ne_true
    rw [takeCode, if_neg (by rw [he]; decide), setAt_self]
    simp only [Bool.false_eq_true, false_and, and_false, decide_false, hnone, List.map_nil,
      List.append_nil]
    rfl
  · rw [takeCode, if_pos he]
    simp only [editAt, setAt_get, if_true, raiseIf_keeps, newValue_eq, true_and, and_true,
      bne, Bool.beq_eq_decide_eq, ne_eq, Bool.decide_and, decide_not]
    unfold raiseIf
    split <;> rfl

theorem raiseIf_scan (b : Bool) (k : CauseKind) (n : Nat) (c : Scan) (s : State) :
    { raiseIf b k n s with scan := c } = raiseIf b k n { s with scan := c } := by
  cases b <;> rfl

/-- The end of a conversion: its channel's code, the next conversion, and after the last the completion (R88, R91). -/
theorem conversionEnd_scanning {s t : State} {i : Fin 16} {code : BitVec 16}
    (hs : s.scan.state = .scanning) (hi : s.scan.list[s.scan.done]? = some i)
    (ht : t = { takeCode i code (reach s.scan.conversionEnd s) with
      scan := { s.scan with
        done := s.scan.done + 1, conversionEnd := s.scan.conversionEnd + 2000 } }) :
    conversionEnd code s
      = if s.scan.done + 1 = s.scan.list.length then completeScan t else t := by
  subst ht
  simp only [conversionEnd, hs, hi, takeCode_keeps, reach_keeps]
  rfl

/-- Without a conversion in progress there is none to end (log 3). -/
theorem conversionEnd_none {s : State} {code : BitVec 16}
    (h : s.scan.state ≠ .scanning ∨ s.scan.list.length ≤ s.scan.done) : conversionEnd code s = s := by
  unfold conversionEnd
  split
  · next i hs hi =>
    have hlt := (List.getElem?_eq_some_iff.mp hi).1
    rcases h with h | h
    · exact absurd hs h
    · exact absurd hlt (Nat.not_lt.mpr h)
  · rfl

/-! ### The completion (R30, R91) -/

theorem completeScan_eq (s : State) : completeScan s =
    { s with
      scan := { s.scan with
        state := .idle, list := [], done := 0, conversionEnd := 0
        count := (s.scan.count + 1) % 2 ^ 32
        result := mapAll (fun ch => { value := ch.value, state := ch.state }) s.channels }
      released := s.released ++
        ((List.finRange 6).filter (fun r => decide (s.runs[r].state = .inService))).map
          (fun r => { run := r, held :=
            { p := s.channels[s.runs[r].config.pChannel].value
              t := s.channels[s.runs[r].config.tChannel].value
              pSubstituted := decide (s.channels[s.runs[r].config.pChannel].state ≠ .live)
              tSubstituted := decide (s.channels[s.runs[r].config.tChannel].state ≠ .live) } }) } := by
  simp only [completeScan, State.lineConditions, runNumbers_eq, bne, Bool.beq_eq_decide_eq, ne_eq,
    decide_not]
  rfl

/-- Settles O28: the code at its channel, then the scan; the absence of a scan; the completion. -/
theorem conversionEndTakesTheCode : Obligations.ConversionEndTakesTheCode := by
  intro s hp
  have hexec : ∀ code : BitVec 16, exec (.conversionEnd code) s = .next (conversionEnd code s) :=
    fun _ => event_powered hp
  refine ⟨?takes, fun code h => by rw [hexec, conversionEnd_none h], completeScan_eq s⟩
  intro code i ch new n m v due t u hs hi hch hn hm hmHalf hv hnew ht hu
  subst hn
  have htaken : (ch.config.enabled = false ∧ due = false ∧ new = ch)
      ∨ (ch.config.enabled = true ∧ due = true ∧ new = ch.taking code) := by
    rcases hnew with h | ⟨he, hd, h1, h2, rfl⟩ | ⟨he, hd, hout, rfl⟩
    · exact .inl h
    · exact .inr ⟨he, hd, by rw [taking_valid h1 h2, convert_eq hm hmHalf hv]⟩
    · exact .inr ⟨he, hd, (taking_invalid hout).symm⟩
  have hcode := takeCode_eq (s := reach s.scan.conversionEnd s) hch htaken
  have hend : conversionEnd code s
      = if s.scan.done + 1 = s.scan.list.length then completeScan t else t := by
    refine conversionEnd_scanning hs hi ?_
    rw [hcode, raiseIf_scan, ht]
    rfl
  rw [hexec, hend, hu]

end Sys2Proof.Machine

/-! SUPPORT and the proof of O20. One metering update (R29 to R32, R39 to R47, R60, R61). -/

namespace Sys2Proof.Machine

-- One proof after the other: a proof that waits for an earlier one holds a thread and its stack.
set_option Elab.async false

/-! ### What the update reads of the run (R31, R60) -/

section Reading
variable {u : Run} {now f : Nat}

/-- The run with the edges, the last period and f that its evaluation stores (R60). -/
def Run.estimating (u : Run) (edges period f : Nat) : Run :=
  { u with edgeCount := edges, lastPeriod := period, frequency := f }

theorem gap_eq (u : Run) (now : Nat) :
    u.gap now = u.lastEdge.elim 0 (fun t => min (now - t) 67108863) := by
  unfold Run.gap
  cases u.lastEdge <;> rfl

/-- A run without an edge for longer than its no-flow timeout starts its edges anew (R60). -/
theorem evaluate_noFlow (he : 0 < u.edgeCount) (hg : u.config.noFlow * 1000000 < u.gap now) :
    u.evaluate now = u.estimating 0 0 0 := by
  unfold Run.evaluate
  exact if_pos ⟨he, hg⟩

/-- Otherwise f comes from the longer of the last period and the gap, once there are two edges (R60). -/
theorem evaluate_flow (hg : u.edgeCount = 0 ∨ u.gap now ≤ u.config.noFlow * 1000000)
    (hf : (u.edgeCount < 2 ∧ f = 0)
      ∨ (2 ≤ u.edgeCount ∧ max u.lastPeriod (u.gap now) = 0 ∧ f = 10000000)
      ∨ (2 ≤ u.edgeCount ∧ 0 < max u.lastPeriod (u.gap now)
        ∧ f = min (1000000000 / max u.lastPeriod (u.gap now)) 10000000)) :
    u.evaluate now = u.estimating u.edgeCount u.lastPeriod f := by
  have hflow : ¬(0 < u.edgeCount ∧ u.config.noFlowUs < u.gap now) := by
    rintro ⟨he, hl⟩
    have hl' : u.config.noFlow * 1000000 < u.gap now := hl
    omega
  unfold Run.evaluate
  dsimp only
  rw [if_neg hflow]
  rcases hf with ⟨he, rfl⟩ | ⟨he, hp, rfl⟩ | ⟨he, hp, rfl⟩
  · rw [if_pos he]
    rfl
  · rw [if_neg (Nat.not_lt.mpr he), if_pos hp]
    rfl
  · rw [if_neg (Nat.not_lt.mpr he), if_neg (Nat.ne_of_gt hp)]
    rfl

theorem interval_eq {ms scan dt : Nat} (h : (u.lastUpdate = none ∧ dt = scan)
      ∨ ∃ t, u.lastUpdate = some t ∧ dt = min (max (ms - t) 1) 4294967295) :
    u.interval ms scan = dt := by
  unfold Run.interval
  rcases h with ⟨hu, rfl⟩ | ⟨t, hu, rfl⟩
  · rw [hu]
  · rw [hu]
    rfl

end Reading

/-! ### What the update reads of the gas quality (R29, R44, R47) -/

/-- The slopes of a quality record and its mark on the update: an EMPTY record has none to give (R44, R47). -/
def Quality.slopes (q : Quality) : Nat × Nat × Bool :=
  (if q.state = .empty then 0 else q.slopeA, if q.state = .empty then 0 else q.slopeB,
    decide (q.state ≠ .current))

theorem slopesFor_owner {s : State} {i : Fin 12}
    (h : s.quality[s.accounts[i].quality].state ≠ .empty) :
    s.slopesFor (some i) = s.quality[s.accounts[i].quality].slopes := by
  simp only [State.slopesFor, Quality.slopes, if_neg h]
  cases hq : s.quality[s.accounts[i].quality].state with
  | empty => exact absurd hq h
  | current => rfl
  | stale => rfl

theorem slopesFor_orphan (s : State) : s.slopesFor none = s.quality[(0 : Fin 8)].slopes := by
  simp only [State.slopesFor, Quality.slopes]
  cases s.quality[(0 : Fin 8)].state <;> rfl

/-- The conditions of R44. -/
theorem estimated_eq {s : State} {owner : Option (Fin 12)} {q : Quality}
    (h : s.slopesFor owner = q.slopes) (held : Held) (c : Bool) : s.estimated held owner c
      = decide (held.pSubstituted = true ∨ held.tSubstituted = true ∨ q.state ≠ .current
        ∨ s.clock.source = .fallback ∨ c = true) := by
  simp only [State.estimated, h, Quality.slopes, Bool.beq_eq_decide_eq, Bool.decide_or,
    Bool.decide_eq_true, Bool.or_assoc]

/-! ### Where the update writes (R39, R40, R42, R45, R46) -/

theorem raiseIf_editAccount (b : Bool) (k : CauseKind) (n : Nat) (i : Fin 12)
    (f : Account → Account) (s : State) :
    editAccount i f (raiseIf b k n s) = raiseIf b k n (editAccount i f s) := by
  cases b <;> rfl

theorem raiseIf_editRun (b : Bool) (k : CauseKind) (n : Nat) (r : Fin 6) (f : Run → Run)
    (s : State) : editRun r f (raiseIf b k n s) = raiseIf b k n (editRun r f s) := by
  cases b <;> rfl

/-- Δowed and the new odourant carry: stage 7 is skipped without a point (R40). -/
theorem owed_and_carry {a : Account} {dvb dosed owed carry : Nat} (hd : dosed = dvb * a.dose + a.carry)
    (h : (a.point = none ∧ owed = 0 ∧ carry = a.carry)
      ∨ (a.point ≠ none ∧ owed = dosed / 100000000 ∧ carry = dosed % 100000000)) :
    a.owedIncrement dvb = owed
      ∧ (if a.point.isSome then a.dosed dvb % 100000000 else a.carry) = carry := by
  subst hd
  unfold Account.owedIncrement
  rcases h with ⟨hp, rfl, rfl⟩ | ⟨hp, rfl, rfl⟩
  · rw [hp]
    exact ⟨rfl, rfl⟩
  · have hs : a.point.isSome = true := Option.isSome_iff_ne_none.mpr hp
    rw [if_pos hs, if_pos hs]
    exact ⟨rfl, rfl⟩

/-- The owner's record after an update, spelled out (R39, R40, R42, R45). -/
theorem addUpdate_eq {a : Account} {dvb owed carry : Nat} (howed : a.owedIncrement dvb = owed)
    (hcarry : (if a.point.isSome then a.dosed dvb % 100000000 else a.carry) = carry)
    (heating dva : Nat) (est : Bool) : a.addUpdate heating dva dvb est
      = { a with
          actual := a.actual.add 1000000000 dva
          base := a.base.add 1000000000 dvb
          dayBase := a.dayBase.add 1000000000 dvb
          estimated := if est then a.estimated.add 1000000000 dvb else a.estimated
          energy := a.energy.add 1000000000000 (dvb * heating)
          dayEnergy := a.dayEnergy.add 1000000000000 (dvb * heating)
          owed := min (a.owed + owed) (2 ^ 64 - 1)
          carry := carry
          estimatedNow := est } := by
  rw [← hcarry, ← howed]
  rfl

/-- The owner takes the totals, and the waiver rule follows where odourant fell due (R42, R102). -/
theorem writeTotals_owner {s v : State} {i : Fin 12} {w : UpdateResults} {owed : Nat}
    (howed : s.accounts[i].owedIncrement w.base = owed) (r : Fin 6) (b est : Bool)
    (hv : v = raiseIf b .overspeed r.1 { s with
      accounts := setAt s.accounts i
        (s.accounts[i].addUpdate s.quality[s.accounts[i].quality].heating w.actual w.base est) }) :
    writeTotals r (some i) w est (raiseIf b .overspeed r.1 s)
      = if 0 < owed then waive i v else v := by
  subst hv howed
  simp only [writeTotals, raiseIf_keeps, raiseIf_editAccount]
  rfl

/-- The run's orphan totals take the volumes, and ORPHAN_FLOW is raised for a volume above zero (R46). -/
theorem writeTotals_orphan (r : Fin 6) (b est : Bool) (w : UpdateResults) (s : State) :
    writeTotals r none w est (raiseIf b .overspeed r.1 s)
      = raiseIf (0 < w.base) .orphanFlow r.1 (raiseIf b .overspeed r.1
          { s with runs := setAt s.runs r (s.runs[r].addOrphan w.actual w.base est) }) := by
  simp only [writeTotals, raiseIf_editRun]
  rfl

/-! ### The update -/

/-- What the stages of an update read (R29). -/
theorem updateInputs_eq {s : State} {owner : Option (Fin 12)} {run : Run} {q : Quality} {dt : Nat}
    (hq : s.slopesFor owner = q.slopes) (hdt : run.interval s.ms s.scan.interval = dt)
    (held : Held) : s.updateInputs run held owner
      = { pulses := run.pendingPulses, frequency := run.frequency, cutoff := run.config.cutoff,
          weight := run.config.weight, bands := run.config.bands, actualCarry := run.actualCarry,
          baseCarry := run.baseCarry, held := held
          slopeA := if q.state = .empty then 0 else q.slopeA
          slopeB := if q.state = .empty then 0 else q.slopeB
          basePressure := s.clock.basePressure, baseTemperature := s.clock.baseTemperature,
          interval := dt } := by
  rw [State.updateInputs, hq, hdt]
  rfl

/-- An update of a run whose f is evaluated: the run, OVERSPEED, the totals, the new value (R29, R61). -/
theorem update_of {s : State} {r : Fin 6} {held : Held} {run : Run} {owner : Option (Fin 12)}
    {w : UpdateResults} {est : Bool} (howner : s.ownerOf r = owner)
    (hrun : s.runs[r].evaluate s.now = run) (hw : stages (s.updateInputs run held owner) = w)
    (hest : s.estimated held owner w.clamped = est) :
    update r held s = newValue (.rate r) w.rate (writeTotals r owner w est
      (raiseIf (decide (run.config.overspeed < run.frequency) && !run.aboveOverspeed) .overspeed r.1
        { s with runs := setAt s.runs r (run.afterStages held s.ms w) })) := by
  subst howner hrun hw hest
  rfl

/-- Settles O20: the run as it is evaluated, then the update of an owned and of an orphan run. -/
theorem updateReadsAndWritesItsRecords : Obligations.UpdateReadsAndWritesItsRecords := by
  intro s r held u u' g f edges period dt q w est hu hg hflow hdt hw hest hu'
  have hgap : u.gap s.now = g := by rw [gap_eq, hg]
  have hrun : s.runs[r].evaluate s.now = u.estimating edges period f := by
    rw [hu]
    rcases hflow with ⟨he, hl, rfl, rfl, rfl⟩ | ⟨hl, rfl, rfl, hf⟩
    · exact evaluate_noFlow he (hgap ▸ hl)
    · exact evaluate_flow (hgap ▸ hl) (hgap ▸ hf)
  have hinterval : (u.estimating edges period f).interval s.ms s.scan.interval = dt :=
    interval_eq hdt
  have hupdate : ∀ owner, s.ownerOf r = owner → s.slopesFor owner = q.slopes →
      update r held s = newValue (.rate r) w.rate (writeTotals r owner w est
        (raiseIf (decide (u.config.overspeed < f) && !u.aboveOverspeed) .overspeed r.1
          { s with runs := setAt s.runs r u' })) := by
    intro owner ho hq
    have hinputs : stages (s.updateInputs (u.estimating edges period f) held owner) = w := by
      rw [updateInputs_eq hq hinterval, hw]
      rfl
    rw [update_of ho hrun hinputs ((estimated_eq hq held _).trans hest.symm), hu']
    rfl
  refine ⟨?owned, ?orphan⟩
  case owned =>
    rintro i a dosed owed carry v rfl hmem hone rfl hne hd hcases rfl
    obtain ⟨howed, hcarry⟩ := owed_and_carry hd hcases
    have hwrite := writeTotals_owner (s := { s with runs := setAt s.runs r u' }) howed r
      (decide (u.config.overspeed < f) && !u.aboveOverspeed) est rfl
    rw [hupdate _ (ownerOf_some hmem hone) (slopesFor_owner hne), hwrite,
      addUpdate_eq howed hcarry]
  case orphan =>
    rintro hnone rfl
    rw [hupdate _ (ownerOf_none.mpr hnone) (slopesFor_orphan s), writeTotals_orphan, setAt_setAt,
      setAt_get, if_pos rfl, hu']
    rfl

end Sys2Proof.Machine

/-! SUPPORT and the proof of O10. READ RUN, READ COMPOSITION, READ MONITOR and READ ATTENTION (R64, R78, R173, R207). -/

namespace Sys2Proof.Machine

-- One proof after the other: a proof that waits for an earlier one holds a thread and its stack.
set_option Elab.async false

/-! ### The run that a request names -/

theorem withRun_number (r : Fin 6) (f : Fin 6 → Answer) : withRun (byte r.1) f = f r := by
  rw [withRun, run_number]

theorem withRun_outOfRange {run : Byte} (h : 5 < run.toNat) (f : Fin 6 → Answer) :
    withRun [run] f = .refuse .badArgument := by
  rw [withRun, fin?_be_none (n := 6) h]

/-! ### READ RUN (R64) -/

/-- The bytes of the four sections of a run record: CONFIG, BANDS, TIMING, TOTALS (R64, R201). -/
def State.runBytes (s : State) (r : Fin 6) : Fin 4 → List Byte
  | 0 => s.runs[r].configSection (s.ownerOf r)
  | 1 => s.runs[r].bandSection
  | 2 => s.runs[r].timingSection s.now
  | 3 => s.runs[r].totalsSection

theorem runSection?_number (s : State) (r : Fin 6) (n : Fin 4) :
    s.runSection? r n.1 = some (s.runBytes r n) := by
  match n with
  | ⟨0, _⟩ | ⟨1, _⟩ | ⟨2, _⟩ | ⟨3, _⟩ => rfl

/-- There is no fifth section (R64). -/
theorem runSection?_none (s : State) (r : Fin 6) {n : Nat} (h : 3 < n) :
    s.runSection? r n = none := by
  obtain ⟨m, rfl⟩ := Nat.exists_eq_add_of_le' h
  rfl

theorem readRun_section (s : State) (r : Fin 6) (n : Fin 4) :
    s.accepts .readRun 0x25 (byte r.1 ++ byte n.1) (s.runBytes r n) s := by
  refine accepts_of (rule := ruleReadRun) rfl ?_
  have hn : be (byte n.1) = n.1 := be_byte (by omega)
  simp only [ruleReadRun, fields_numbers, withRun_number, hn, runSection?_number, reading]

theorem readRun_outOfRange {s : State} {run sect : Byte} (h : 5 < run.toNat ∨ 3 < sect.toNat) :
    s.refuses .readRun 0x25 [run, sect] .badArgument := by
  refine refuses_of (rule := ruleReadRun) rfl ?_
  simp only [ruleReadRun, fields_two, be_single]
  rcases h with h | h
  · exact withRun_outOfRange h _
  · simp only [runSection?_none s _ h, withRun]
    split <;> rfl

/-- TIMING with the time since the last edge written out (R60, R64). -/
theorem timingSection_eq (u : Run) (now : Nat) : u.timingSection now
    = toBytes 2 u.pendingPulses ++ toBytes 4 u.overflow ++ byte u.edgeCount
      ++ toBytes 4 u.lastPeriod
      ++ toBytes 4 (if u.edgeCount = 0 then 0
          else u.lastEdge.elim 0 (fun t => min (now - t) 67108863))
      ++ toBytes 4 u.frequency ++ toBytes 4 u.rate ++ flagByte u.aboveOverspeed
      ++ toBytes 4 u.cutoffPulses ++ toBytes 4 u.held.p ++ toBytes 4 u.held.t
      ++ flagByte u.held.pSubstituted ++ flagByte u.held.tSubstituted := by
  rw [Run.timingSection, gap_eq]

/-! ### READ COMPOSITION (R78) and READ MONITOR (R173) -/

/-- The accounts that name a quality slot (R76, R78). -/
theorem namingCount_eq (s : State) (q : Fin 8) : s.namingCount q
    = (List.finRange 12).countP (fun i => decide
      ((s.accounts[i].state = .opened ∨ s.accounts[i].state = .closing)
        ∧ s.accounts[i].quality = q)) := by
  simp only [State.namingCount, slots_eq, Account.names, Bool.beq_eq_decide_eq, Bool.decide_and,
    Bool.decide_or]

theorem readComposition_slot (s : State) (q : Fin 8) :
    s.accepts .readComposition 0x2A (byte q.1) (s.compositionBytes q) s :=
  accepts_of (rule := ruleReadComposition) rfl (by
    simp only [ruleReadComposition, fields_number, fin?_be_byte (by decide : 8 ≤ 256), reading])

theorem readComposition_outOfRange {s : State} {q : Byte} (h : 7 < q.toNat) :
    s.refuses .readComposition 0x2A [q] .badArgument :=
  refuses_of (rule := ruleReadComposition) rfl (by
    simp only [ruleReadComposition, fields_one, fin?_be_none (n := 8) h])

/-- The action of a monitor is applied exactly in TRIPPED (R168). -/
theorem applied_eq (u : Monitor) : u.applied = decide (u.state = .tripped) :=
  Bool.beq_eq_decide_eq _ _

theorem readMonitor_monitor (s : State) (m : Fin 16) :
    s.accepts .readMonitor 0x53 (byte m.1) (s.monitorBytes m) s :=
  accepts_of (rule := ruleReadMonitor) rfl (by
    simp only [ruleReadMonitor, fields_number, fin?_be_byte (by decide : 16 ≤ 256), reading])

theorem readMonitor_outOfRange {s : State} {m : Byte} (h : 15 < m.toNat) :
    s.refuses .readMonitor 0x53 [m] .badArgument :=
  refuses_of (rule := ruleReadMonitor) rfl (by
    simp only [ruleReadMonitor, fields_one, fin?_be_none (n := 16) h])

/-! ### READ ATTENTION (R207) -/

theorem pending_eq (c : Cause) : c.pending = decide (c.subjects ≠ []) := by
  unfold Cause.pending
  cases c.subjects <;> rfl

/-- The report order: the pending kinds of each level, from the highest level down (R207). -/
theorem reportOrder_eq (s : State) : s.reportOrder
    = [3, 2, 1, 0].flatMap (fun level => (List.finRange 16).filter
      (fun k => decide (s.causes[k].subjects ≠ [] ∧ s.causes[k].level = level))) := by
  simp only [State.reportOrder, sixteen_eq, pending_eq, Bool.beq_eq_decide_eq, Bool.decide_and]

/-- An entry with the count of its subjects written out (R207; log 11). -/
theorem causeEntry_eq (s : State) (k : Fin 16) : s.causeEntry k
    = byte k.1 ++ byte s.causes[k].level ++ byte s.causes[k].subjects.length
      ++ s.causes[k].subjects.flatMap byte := by
  simp only [State.causeEntry, listBytes, List.append_assoc]

/-- The entries that fit are the first ones, as many as 58 bytes hold (R207). -/
theorem attentionBytes_eq {s : State} {start fit : Nat} {entries : List (List Byte)}
    (he : entries = (s.reportOrder.drop start).map s.causeEntry) (hf : fit ≤ entries.length)
    (h1 : (entries.take fit).flatten.length ≤ 58)
    (h2 : fit = entries.length ∨ 58 < (entries.take (fit + 1)).flatten.length) :
    s.attentionBytes start
      = byte ((List.finRange 16).countP (fun k => decide (s.causes[k].subjects ≠ []))) ++ byte fit
        ++ (entries.take fit).flatten := by
  have hfit : fitting (Config.maxPayload - 2) entries = entries.take fit := fitting_eq hf h1 h2
  simp only [State.attentionBytes, ← he, hfit, List.length_take_of_le hf, sixteen_eq, pending_eq]

theorem readAttention_start {s : State} {start : Nat} (h : start ≤ 15) :
    s.accepts .readAttention 0x72 (byte start) (s.attentionBytes start) s := by
  refine accepts_of (rule := ruleReadAttention) rfl ?_
  have hb : be (byte start) = start := be_byte (by omega)
  simp only [ruleReadAttention, fields_number, hb, if_neg (Nat.not_lt.mpr h), reading]

theorem readAttention_outOfRange {s : State} {start : Byte} (h : 15 < start.toNat) :
    s.refuses .readAttention 0x72 [start] .badArgument :=
  refuses_of (rule := ruleReadAttention) rfl (by
    simp only [ruleReadAttention, fields_one, be_single, if_pos h])

/-- Settles O10, request by request. -/
theorem readRunCompositionMonitorAndAttention :
    Obligations.ReadRunCompositionMonitorAndAttention := by
  intro s
  refine ⟨?run, fun run sect h => readRun_outOfRange h, ?composition,
    fun q h => readComposition_outOfRange h, ?monitor, fun m h => readMonitor_outOfRange h,
    ?attention, fun start h => readAttention_outOfRange h⟩
  case run =>
    rintro r u rfl
    rw [← timingSection_eq]
    exact ⟨readRun_section s r 0, readRun_section s r 1, readRun_section s r 2,
      readRun_section s r 3⟩
  case composition =>
    rintro q c rfl
    rw [← namingCount_eq]
    exact readComposition_slot s q
  case monitor =>
    rintro m u rfl
    rw [← applied_eq]
    exact readMonitor_monitor s m
  case attention =>
    intro start fit order entries hs ho he hf h1 h2
    rw [← reportOrder_eq] at ho
    simp only [← causeEntry_eq, ho] at he
    rw [← attentionBytes_eq he hf h1 h2]
    exact readAttention_start hs

end Sys2Proof.Machine

/-! SUPPORT and the proof of O15. CONFIGURE RUN (R54). -/

namespace Sys2Proof.Machine

-- One proof after the other: a proof that waits for an earlier one holds a thread and its stack.
set_option Elab.async false

/-! ### The request fields (R201) -/

theorem edge?_code (e : PulseEdge) : edge? (be (byte e.code)) = some e := by
  cases e <;> rfl

/-- There is no fourth pulse edge (R51). -/
theorem edge?_none {n : Nat} (h : 2 < n) : edge? n = none := by
  obtain ⟨m, rfl⟩ := Nat.exists_eq_add_of_le' h
  rfl

theorem fields_configureRun {run edge : List Byte} (hr : run.length = 1) (he : edge.length = 1)
    (w noFlow speed fc : Nat) (p t : Byte) :
    fields [1, 4, 1, 1, 1, 1, 4, 2] (run ++ (toBytes 4 w ++ [p, t]) ++ edge
        ++ (byte noFlow ++ toBytes 4 speed ++ toBytes 2 fc))
      = some [run, toBytes 4 w, [p], [t], edge, byte noFlow, toBytes 4 speed, toBytes 2 fc] := by
  have hpt : [p, t] = [p] ++ [t] := rfl
  have h1 (b : Byte) : [b].length = 1 := rfl
  simp only [hpt, List.append_assoc, fields_append hr, fields_append (length_toBytes 4 w),
    fields_append (h1 p), fields_append (h1 t), fields_append he, fields_append (length_byte noFlow),
    fields_append (length_toBytes 4 speed), fields_last (length_toBytes 2 fc), Option.map_some]

/-- The configuration that a request spells, if both channel numbers name channels (R54); the bands are the run's own. -/
def runConfig? (w noFlow speed fc p t : Nat) (e : PulseEdge) (bands : List Band) :
    Option RunConfig :=
  (fin? 16 p).bind fun pc => (fin? 16 t).map fun tc =>
    { weight := w, pChannel := pc, tChannel := tc, edge := e, noFlow := noFlow,
      overspeed := speed, cutoff := fc, bands := bands }

/-- A configuration that is spelled holds the numbers sent. -/
theorem runConfig?_some {w noFlow speed fc p t : Nat} {e : PulseEdge} {bands : List Band}
    {c : RunConfig} (h : runConfig? w noFlow speed fc p t e bands = some c) :
    c.weight = w ∧ c.noFlow = noFlow ∧ c.overspeed = speed ∧ c.cutoff = fc
      ∧ p = c.pChannel.1 ∧ t = c.tChannel.1 := by
  obtain ⟨pc, hp, h⟩ := Option.bind_eq_some_iff.mp h
  obtain ⟨tc, ht, rfl⟩ := Option.map_eq_some_iff.mp h
  exact ⟨rfl, rfl, rfl, rfl, fin?_eq_some.mp hp, fin?_eq_some.mp ht⟩

section Fields
variable {w noFlow speed fc : Nat} {p t : Byte}

theorem ruleConfigureRun_fields (hw : w < 2 ^ 32) (hn : noFlow < 256) (hs : speed < 2 ^ 32)
    (hf : fc < 65536) (s : State) (r : Fin 6) (e : PulseEdge) :
    ruleConfigureRun (byte r.1 ++ (toBytes 4 w ++ [p, t]) ++ byte e.code
        ++ (byte noFlow ++ toBytes 4 speed ++ toBytes 2 fc)) s
      = configureRun r (runConfig? w noFlow speed fc p.toNat t.toNat e s.runs[r].config.bands) s := by
  simp only [ruleConfigureRun, fields_configureRun (length_byte _) (length_byte _), edge?_code,
    withRun_number, be_single, be_toBytes (width := 4) hw, be_byte hn, be_toBytes (width := 4) hs,
    be_toBytes (width := 2) hf, runConfig?]
  cases fin? 16 p.toNat <;> cases fin? 16 t.toNat <;> rfl

/-- An edge code outside its list, or a run outside its numbers (R196, R54). -/
theorem ruleConfigureRun_outOfRange {run edge : Byte} (h : 5 < run.toNat ∨ 2 < edge.toNat)
    (s : State) :
    ruleConfigureRun ([run] ++ (toBytes 4 w ++ [p, t]) ++ [edge]
        ++ (byte noFlow ++ toBytes 4 speed ++ toBytes 2 fc)) s = .refuse .badArgument := by
  simp only [ruleConfigureRun, fields_configureRun (run := [run]) (edge := [edge]) rfl rfl]
  split
  · rfl
  · next e he =>
    have hedge : ¬ 2 < edge.toNat := fun hl => by rw [be_single, edge?_none hl] at he; cases he
    exact withRun_outOfRange (h.resolve_right hedge) _

end Fields

/-! ### The checks (R54) -/

theorem runConfig_inRange_iff {c : RunConfig} : c.inRange = true
    ↔ (1000 ≤ c.weight ∧ c.weight ≤ 100000000) ∧ (1 ≤ c.noFlow ∧ c.noFlow ≤ 60)
      ∧ (1 ≤ c.overspeed ∧ c.overspeed ≤ 10000000) ∧ c.cutoff ≤ 10000 := by
  simp only [RunConfig.inRange, Bool.and_eq_true, inRange_iff, and_assoc, Nat.zero_le, true_and]

theorem channelIs_iff {s : State} {c : Fin 16} {kind : ChannelKind} : s.channelIs c kind = true
    ↔ s.channels[c].config.enabled = true ∧ s.channels[c].config.kind = kind := by
  rw [State.channelIs, Bool.and_eq_true, beq_iff_eq]

section Checks
variable {s : State} {r : Fin 6}

theorem configureRun_inService (h : s.runs[r].state = .inService) (c : Option RunConfig) :
    configureRun r c s = .refuse .wrongState := by
  unfold configureRun
  exact if_pos h

/-- A run out of service takes a configuration that passes every check. -/
theorem configureRun_passed {c : RunConfig} (h : s.runs[r].state ≠ .inService)
    (hr : c.inRange = true) (hp : s.channelIs c.pChannel .pressure = true)
    (ht : s.channelIs c.tChannel .temperature = true) :
    configureRun r (some c) s = .ok (editRun r (·.configured c) s) [] := by
  simp only [configureRun, if_neg h, hr, hp, ht, Bool.not_true, Bool.or_self, Bool.false_eq_true,
    if_false]

/-- No configuration that fails a check is taken, nor one whose channels do not exist. -/
theorem configureRun_failed {c : Option RunConfig} (h : s.runs[r].state ≠ .inService)
    (hc : ∀ d, c = some d → ¬ (d.inRange = true ∧ s.channelIs d.pChannel .pressure = true
      ∧ s.channelIs d.tChannel .temperature = true)) :
    configureRun r c s = .refuse .badArgument := by
  unfold configureRun
  rw [if_neg h]
  cases c with
  | none => rfl
  | some d =>
    have hd := hc d rfl
    dsimp only
    split
    · rfl
    · next hr =>
      refine if_pos ?_
      simp only [Bool.not_eq_true', Bool.not_eq_false] at hr
      rw [← Bool.not_and, Bool.not_eq_true', ← Bool.not_eq_true, Bool.and_eq_true]
      exact fun hch => hd ⟨hr, hch⟩

end Checks

/-- A run that is configured is OUT_OF_SERVICE, with the default band if it was UNCONFIGURED (R54). -/
theorem configured_eq {u : Run} (h : u.state ≠ .inService) (c : RunConfig) : u.configured c
    = { u with
        state := .outOfService
        config := { c with
          bands := if u.state = .unconfigured then [{ limit := 10000000, factor := 1000000 }]
            else c.bands } } := by
  cases hs : u.state with
  | unconfigured => rw [Run.configured, if_pos hs]; rfl
  | outOfService =>
    have hn : u.state ≠ .unconfigured := by rw [hs]; decide
    rw [Run.configured, if_neg hn, ← hs, if_neg hn]
  | inService => exact absurd hs h

/-- Settles O15: the fields read back, then the checks in their order. -/
theorem configureRunSetsConfiguration : Obligations.ConfigureRunSetsConfiguration := by
  rintro s r _ w noFlow speed fc p t e _ _ rfl hw hn hs hf rfl rfl
  have hrule := ruleConfigureRun_fields (p := p) (t := t) hw hn hs hf s r e
  refine ⟨fun hin => ?service, fun hout => ⟨?accept, fun hbad => ?check⟩, fun run edge h => ?field⟩
  case service =>
    exact refuses_of (rule := ruleConfigureRun) rfl (hrule.trans (configureRun_inService hin _))
  case accept =>
    intro pc tc hp ht hw1 hw2 hn1 hn2 hs1 hs2 hf2 hpe hpk hte htk
    rw [hp, ht, runConfig?, fin?_val, fin?_val] at hrule
    have hok := hrule.trans (configureRun_passed hout
      (runConfig_inRange_iff.mpr ⟨⟨hw1, hw2⟩, ⟨hn1, hn2⟩, ⟨hs1, hs2⟩, hf2⟩)
      (channelIs_iff.mpr ⟨hpe, hpk⟩) (channelIs_iff.mpr ⟨hte, htk⟩))
    rw [editRun, editAt, configured_eq hout] at hok
    exact accepts_of (rule := ruleConfigureRun) rfl hok
  case check =>
    refine refuses_of (rule := ruleConfigureRun) rfl (hrule.trans (configureRun_failed hout ?_))
    rintro c hc ⟨hr, hpc, htc⟩
    obtain ⟨rfl, rfl, rfl, rfl, hp, ht⟩ := runConfig?_some hc
    obtain ⟨hr1, hr2, hr3, hr4⟩ := runConfig_inRange_iff.mp hr
    have hpok : ¬ ∃ i : Fin 16, p.toNat = i.1 ∧ ¬ (s.channels[i].config.enabled = true
        ∧ s.channels[i].config.kind = .pressure) := fun ⟨i, hi, hne⟩ =>
      hne ((Fin.ext (hi ▸ hp) : i = c.pChannel) ▸ channelIs_iff.mp hpc)
    have htok : ¬ ∃ i : Fin 16, t.toNat = i.1 ∧ ¬ (s.channels[i].config.enabled = true
        ∧ s.channels[i].config.kind = .temperature) := fun ⟨i, hi, hne⟩ =>
      hne ((Fin.ext (hi ▸ ht) : i = c.tChannel) ▸ channelIs_iff.mp htc)
    simp only [hpok, htok, or_false] at hbad
    omega
  case field =>
    exact refuses_of (rule := ruleConfigureRun) rfl (ruleConfigureRun_outOfRange h s)

end Sys2Proof.Machine

/-! SUPPORT and the proof of O16. SET BANDS (R55) and CLEAR RUN TOTALS (R63). -/

namespace Sys2Proof.Machine

-- One proof after the other: a proof that waits for an earlier one holds a thread and its stack.
set_option Elab.async false

/-! ### The band list of a request (R201) -/

/-- The bytes of one band: limit and factor (R201). -/
def Band.bytes (b : Band) : List Byte := toBytes 4 b.limit ++ toBytes 4 b.factor

theorem entries_bands (bands : List Band) :
    entries [4, 4] bands.length (bands.flatMap Band.bytes)
      = some (bands.map fun b => [toBytes 4 b.limit, toBytes 4 b.factor]) := by
  induction bands with
  | nil => rfl
  | cons b bs ih =>
    rw [List.length_cons, List.flatMap_cons, entries_cons (entry := [toBytes 4 b.limit, toBytes 4 b.factor]),
      ih]
    · rfl
    · simp [Band.bytes]
    · simp only [Band.bytes, fields_append (length_toBytes 4 b.limit),
        fields_last (length_toBytes 4 b.factor), Option.map_some]

/-- A band list, sent and read. -/
theorem bandList?_eq {bands : List Band} (hl : bands.length < 256)
    (hb : ∀ b ∈ bands, b.limit < 2 ^ 32 ∧ b.factor < 2 ^ 32) :
    bandList? (byte bands.length ++ bands.flatMap Band.bytes) = some bands := by
  rw [byte_eq_single, List.singleton_append]
  simp only [bandList?, toNat_ofNat_lt hl, entries_bands, Option.map_some, List.map_map]
  congr 1
  refine (List.map_congr_left fun b h => ?_).trans (List.map_id bands)
  obtain ⟨hlimit, hfactor⟩ := hb b h
  simp only [Function.comp_apply, be_toBytes (width := 4) hlimit, be_toBytes (width := 4) hfactor, id]

theorem ruleSetBands_list {bands : List Band} (hl : bands.length < 256)
    (hb : ∀ b ∈ bands, b.limit < 2 ^ 32 ∧ b.factor < 2 ^ 32) (run : Byte) (s : State) :
    ruleSetBands ([run] ++ (byte bands.length ++ bands.flatMap Band.bytes)) s
      = withRun [run] (fun r => setBands r bands s) := by
  rw [List.singleton_append]
  simp only [ruleSetBands, bandList?_eq hl hb]

/-! ### The checks (R55) -/

theorem bandsAccepted_iff {bands : List Band} : bandsAccepted bands = true
    ↔ (1 ≤ bands.length ∧ bands.length ≤ 6)
      ∧ (∀ b ∈ bands, (1 ≤ b.limit ∧ b.limit ≤ 10000000)
        ∧ 900000 ≤ b.factor ∧ b.factor ≤ 1100000)
      ∧ bands.Pairwise (fun b c => b.limit < c.limit) := by
  simp only [bandsAccepted, Bool.and_eq_true, inRange_iff, List.all_eq_true, ascending_iff, and_assoc]

section Bands
variable {s : State} {r : Fin 6} {bands : List Band}

theorem setBands_unconfigured (h : s.runs[r].state = .unconfigured) :
    setBands r bands s = .refuse .wrongState := by
  rw [setBands, if_pos h]

theorem setBands_failed (h : s.runs[r].state ≠ .unconfigured) (hb : ¬ bandsAccepted bands = true) :
    setBands r bands s = .refuse .badArgument := by
  rw [setBands, if_neg h, if_pos (by simpa using hb)]

/-- An accepted list replaces the old one whole (R55). -/
theorem setBands_passed (h : s.runs[r].state ≠ .unconfigured) (hb : bandsAccepted bands = true) :
    setBands r bands s = .ok { s with
      runs := setAt s.runs r
        { s.runs[r] with config := { s.runs[r].config with bands := bands } } } [] := by
  rw [setBands, if_neg h, if_neg (by simp [hb])]
  rfl

end Bands

/-! ### CLEAR RUN TOTALS (R63) -/

theorem clearRunTotals_accepts (s : State) (r : Fin 6) : s.accepts .clearRunTotals 0x24 (byte r.1) []
    { s with runs := setAt s.runs r s.runs[r].cleared } :=
  accepts_of (rule := ruleClearRunTotals) rfl (by
    simp only [ruleClearRunTotals, fields_number, withRun_number]
    rfl)

theorem clearRunTotals_outOfRange {s : State} {run : Byte} (h : 5 < run.toNat) :
    s.refuses .clearRunTotals 0x24 [run] .badArgument :=
  refuses_of (rule := ruleClearRunTotals) rfl (by
    simp only [ruleClearRunTotals, fields_one, withRun_outOfRange h])

/-- Settles O16: the list read back and checked, and the totals cleared. -/
theorem bandsAreReplacedAndTotalsCleared : Obligations.BandsAreReplacedAndTotalsCleared := by
  refine ⟨?bands, fun s => ⟨clearRunTotals_accepts s, fun run h => clearRunTotals_outOfRange h⟩⟩
  rintro s r _ bands _ rfl hl hb rfl
  have hlist := ruleSetBands_list hl hb
  have hrule : ruleSetBands (byte r.1 ++ (byte bands.length ++ bands.flatMap Band.bytes)) s
      = setBands r bands s := by
    rw [byte_eq_single r.1, hlist, ← byte_eq_single, withRun_number]
  refine ⟨fun hs => ?state, fun hs => ⟨fun ⟨h1, h6, hr, ha⟩ => ?accept, fun hbad => ?check⟩,
    fun run h => ?field⟩
  case state =>
    exact refuses_of (rule := ruleSetBands) rfl (hrule.trans (setBands_unconfigured hs))
  case accept =>
    have hok : bandsAccepted bands = true :=
      bandsAccepted_iff.mpr ⟨⟨h1, h6⟩, fun b hm => by have := hr b hm; omega, ha⟩
    exact accepts_of (rule := ruleSetBands) rfl (hrule.trans (setBands_passed hs hok))
  case check =>
    refine refuses_of (rule := ruleSetBands) rfl (hrule.trans (setBands_failed hs fun hok => ?_))
    obtain ⟨⟨h1, h6⟩, hr, ha⟩ := bandsAccepted_iff.mp hok
    rcases hbad with h | h | ⟨b, hm, h⟩ | h
    · omega
    · omega
    · have := hr b hm
      omega
    · exact h ha
  case field =>
    exact refuses_of (rule := ruleSetBands) rfl ((hlist run s).trans (withRun_outOfRange h _))

end Sys2Proof.Machine

/-! SUPPORT and the proof of O17. PLACE IN SERVICE (R56) and REMOVE FROM SERVICE (R57). -/

namespace Sys2Proof.Machine

-- One proof after the other: a proof that waits for an earlier one holds a thread and its stack.
set_option Elab.async false

/-! ### PLACE IN SERVICE (R56) -/

/-- The line conditions of the two channels, substituted where a channel is not LIVE (R30). -/
theorem lineConditions_eq {s : State} {r : Fin 6} {p t : Channel}
    (hp : s.channels[s.runs[r].config.pChannel] = p)
    (ht : s.channels[s.runs[r].config.tChannel] = t) : s.lineConditions r
      = { p := p.value, t := t.value, pSubstituted := decide (p.state ≠ .live),
          tSubstituted := decide (t.state ≠ .live) } := by
  subst hp ht
  simp only [State.lineConditions, bne, Bool.beq_eq_decide_eq, ne_eq, decide_not]

section Placing
variable {s : State} {r : Fin 6} {p t : Channel}

/-- The request of a run acts by `placeInService`. -/
theorem rulePlaceInService_run (s : State) (r : Fin 6) :
    rulePlaceInService (byte r.1) s = placeInService r s := by
  simp only [rulePlaceInService, fields_number, withRun_number]

theorem placeInService_passed (ho : s.runs[r].state = .outOfService)
    (hx : ∃ x : Fin 16, s.terminals[x] = .pulse r)
    (hp : s.channels[s.runs[r].config.pChannel].config.kind = .pressure)
    (ht : s.channels[s.runs[r].config.tChannel].config.kind = .temperature) :
    placeInService r s = .ok (editRun r (·.placed (s.lineConditions r)) s) [] := by
  have hh : ¬ (s.holder (.pulse r)).isNone = true := fun hn => by
    obtain ⟨x, hx⟩ := hx
    exact holder_none.mp (Option.isNone_iff_eq_none.mp hn) x hx
  simp only [placeInService, if_neg (not_not_intro ho), if_neg hh, hp, ht, ne_eq, not_true_eq_false,
    or_self, if_false]

theorem placeInService_state (h : s.runs[r].state ≠ .outOfService) :
    placeInService r s = .refuse .wrongState := by
  simp only [placeInService, if_pos h]

/-- No PULSE terminal, or a channel of another kind (R56). -/
theorem placeInService_conflict (ho : s.runs[r].state = .outOfService)
    (h : (∀ x : Fin 16, s.terminals[x] ≠ .pulse r)
      ∨ s.channels[s.runs[r].config.pChannel].config.kind ≠ .pressure
      ∨ s.channels[s.runs[r].config.tChannel].config.kind ≠ .temperature) :
    placeInService r s = .refuse .conflict := by
  simp only [placeInService, if_neg (not_not_intro ho)]
  rcases h with hx | hk
  · rw [if_pos (Option.isNone_iff_eq_none.mpr (holder_none.mpr hx))]
  · rw [if_pos hk, ite_self]

theorem placeInService_outOfRange {run : Byte} (h : 5 < run.toNat) :
    s.refuses .placeInService 0x22 [run] .badArgument :=
  refuses_of (rule := rulePlaceInService) rfl (by
    simp only [rulePlaceInService, fields_one, withRun_outOfRange h])

end Placing

/-! ### REMOVE FROM SERVICE (R57) -/

/-- The settlement, then the run out of service, its rate 0 as a new value, and its released updates dropped (R57). -/
theorem removeFromService_eq {s v : State} {r : Fin 6} (hv : v = update r s.runs[r].held s) :
    removeFromService r s
      = { v with
          runs := setAt v.runs r v.runs[r].removed
          dueValues := v.dueValues ++
            ((List.finRange 16).filter (fun m => decide (v.monitors[m].state ≠ .disabled
              ∧ v.monitors[m].config.source = .rate r))).map
              (fun m => { monitor := m, value := 0 })
          released := v.released.filter (fun e => e.run ≠ r) } := by
  have hf : (fun e : Released => e.run != r) = fun e => decide (e.run ≠ r) := by
    funext e; rw [bne, Bool.beq_eq_decide_eq, decide_not]
  simp only [removeFromService, ← hv, newValue_eq, hf]
  rfl

section Removing
variable {s : State} {r : Fin 6}

theorem removeFromService_accepts (h : s.runs[r].state = .inService) :
    s.accepts .removeFromService 0x23 (byte r.1) [] (grantIfDue (removeFromService r s)) :=
  accepts_of (rule := ruleRemoveFromService) rfl (by
    simp only [ruleRemoveFromService, fields_number, withRun_number, if_neg (not_not_intro h)])

theorem removeFromService_state (h : s.runs[r].state ≠ .inService) :
    s.refuses .removeFromService 0x23 (byte r.1) .wrongState :=
  refuses_of (rule := ruleRemoveFromService) rfl (by
    simp only [ruleRemoveFromService, fields_number, withRun_number, if_pos h])

theorem removeFromService_outOfRange {run : Byte} (h : 5 < run.toNat) :
    s.refuses .removeFromService 0x23 [run] .badArgument :=
  refuses_of (rule := ruleRemoveFromService) rfl (by
    simp only [ruleRemoveFromService, fields_one, withRun_outOfRange h])

end Removing

/-- Settles O17: the way into service and the way out of it. -/
theorem placeAndRemoveRun : Obligations.PlaceAndRemoveRun := by
  rintro s r _ p t rfl hp ht
  refine ⟨fun ho hx hpk htk => ?placed, fun h => ?state, fun ho h => ?conflict,
    fun v hin hv => ?removed, fun h => removeFromService_state h,
    fun run h => ⟨placeInService_outOfRange h, removeFromService_outOfRange h⟩⟩
  case placed =>
    rw [← lineConditions_eq hp ht]
    rw [← hp] at hpk
    rw [← ht] at htk
    exact accepts_of (rule := rulePlaceInService) rfl
      ((rulePlaceInService_run s r).trans (placeInService_passed ho hx hpk htk))
  case state =>
    exact refuses_of (rule := rulePlaceInService) rfl
      ((rulePlaceInService_run s r).trans (placeInService_state h))
  case conflict =>
    rw [← hp, ← ht] at h
    exact refuses_of (rule := rulePlaceInService) rfl
      ((rulePlaceInService_run s r).trans (placeInService_conflict ho h))
  case removed =>
    have hacc := removeFromService_accepts hin
    rw [removeFromService_eq hv] at hacc
    exact hacc

end Sys2Proof.Machine

/-! SUPPORT and the proof of O18. PULSE_EDGE (R51, R58, R59, R202). -/

namespace Sys2Proof.Machine

-- One proof after the other: a proof that waits for an earlier one holds a thread and its stack.
set_option Elab.async false

/-! ### The counted edge at a run (R51, R58, R59) -/

/-- The transitions that a run's pulse edge names (R51). -/
theorem counts_iff {e : PulseEdge} {rising : Bool} : e.counts rising = true
    ↔ e = .both ∨ (e = .rising ∧ rising = true) ∨ (e = .falling ∧ rising = false) := by
  cases e <;> simp [PulseEdge.counts]

/-- The transitions that a run's pulse edge does not name (R51). -/
theorem counts_false {e : PulseEdge} {rising : Bool}
    (h : (e = .rising ∧ rising = false) ∨ (e = .falling ∧ rising = true)) :
    e.counts rising = false := by
  rcases h with ⟨rfl, rfl⟩ | ⟨rfl, rfl⟩
  all_goals rfl

/-- A pending pulse more, or an overflow once the pending pulses are saturated (R58). -/
theorem counted_pulses (u : Run) : u.counted
    = { u with
        pendingPulses := if u.pendingPulses < 65535 then u.pendingPulses + 1 else u.pendingPulses
        overflow := if u.pendingPulses < 65535 then u.overflow
          else (u.overflow + 1) % 2 ^ 32 } := by
  unfold Run.counted
  by_cases h : u.pendingPulses < 65535
  · rw [if_pos h, if_pos h]
    exact if_pos h
  · rw [if_neg h, if_neg h]
    exact if_neg h

section Timing
variable {u : Run} {now : Nat}

/-- The first edge, or the first after the no-flow timeout, starts the timing anew (R59). -/
theorem timed_first (h : u.edgeCount = 0 ∨ u.lastEdge = none
      ∨ ∃ t, u.lastEdge = some t ∧ u.config.noFlow * 1000000 < now - t) :
    u.timed now = { u with edgeCount := 1, lastPeriod := 0, lastEdge := some now } := by
  unfold Run.timed
  cases hl : u.lastEdge with
  | none => rfl
  | some t =>
    refine if_neg ?_
    rintro ⟨hedges, hperiod : now - t ≤ u.config.noFlow * 1000000⟩
    rcases h with h | h | ⟨t', ht', h⟩
    · omega
    · rw [h] at hl; cases hl
    · rw [ht'] at hl; cases hl; omega

/-- An edge within the no-flow timeout gives a period, saturating (R59). -/
theorem timed_next {t : Nat} (he : 0 < u.edgeCount) (hl : u.lastEdge = some t)
    (h : now - t ≤ u.config.noFlow * 1000000) : u.timed now
    = { u with edgeCount := 2, lastPeriod := min (now - t) 67108863, lastEdge := some now } := by
  unfold Run.timed
  rw [hl]
  exact if_pos ⟨he, h⟩

/-- The run after a counted edge: its pulses and its timing (R58, R59). -/
theorem counted_timed {edges period : Nat}
    (h : (edges = 1 ∧ period = 0 ∧ (u.edgeCount = 0 ∨ u.lastEdge = none
        ∨ ∃ t, u.lastEdge = some t ∧ u.config.noFlow * 1000000 < now - t))
      ∨ ∃ t, edges = 2 ∧ period = min (now - t) 67108863 ∧ 0 < u.edgeCount
        ∧ u.lastEdge = some t ∧ now - t ≤ u.config.noFlow * 1000000) :
    u.counted.timed now
      = { u with
          pendingPulses := if u.pendingPulses < 65535 then u.pendingPulses + 1 else u.pendingPulses
          overflow := if u.pendingPulses < 65535 then u.overflow else (u.overflow + 1) % 2 ^ 32
          edgeCount := edges, lastPeriod := period, lastEdge := some now } := by
  rw [counted_pulses]
  rcases h with ⟨rfl, rfl, h⟩ | ⟨t, rfl, rfl, hedges, ht, h⟩
  · exact timed_first h
  · exact timed_next hedges ht h

end Timing

section AtTheRun
variable {s : State} {r : Fin 6} {rising : Bool}

/-- An edge counts at a run IN_SERVICE (R58). -/
theorem pulseAt_counted {u : Run} (hs : s.runs[r].state = .inService)
    (hc : s.runs[r].config.edge.counts rising = true) (hu : s.runs[r].counted.timed s.now = u) :
    pulseAt r rising s
      = raiseIf (decide (65535 ≤ s.runs[r].pendingPulses)) .overspeed r.1
        { s with runs := setAt s.runs r u } := by
  rw [pulseAt, if_pos ⟨hs, hc⟩, ← hu]
  rfl

theorem pulseAt_uncounted
    (h : ¬ (s.runs[r].state = .inService ∧ s.runs[r].config.edge.counts rising = true)) :
    pulseAt r rising s = s := by
  rw [pulseAt, if_neg h]

end AtTheRun

/-! ### The change of level at a terminal (R202; log 6) -/

section AtTheTerminal
variable {s : State} {x : Fin 16} {rising : Bool}

/-- Under power the time passes before the edge is taken (log 4). -/
theorem pulseEdge_powered (h : s.powered = true) (us : Nat) :
    exec (.pulseEdge x rising us) s = .next (pulseEdge x rising (elapse us s)) := by
  show Host.Outcome.next _ = _
  rw [if_pos h]

/-- The level as it was, or the event of another row (log 3, log 6). -/
theorem pulseEdge_none (h : s.terminals[x].quiet rising = false ∨ s.levels[x] = rising) :
    pulseEdge x rising s = s := by
  refine if_neg ?_
  rintro ⟨hq, hl⟩
  rcases h with h | h
  · rw [h] at hq; cases hq
  · exact hl h

theorem level_changes (h : s.levels[x] = !rising) : s.levels[x] ≠ rising := by
  rw [h]
  cases rising <;> decide

/-- A change of level at the PULSE terminal of a run (R58). -/
theorem pulseEdge_pulse {r : Fin 6} (hx : s.terminals[x] = .pulse r) (hl : s.levels[x] = !rising) :
    pulseEdge x rising s = pulseAt r rising (setLevel x rising s) := by
  have hq : s.terminals[x].quiet rising = true := by rw [hx]; rfl
  rw [pulseEdge, if_pos ⟨hq, level_changes hl⟩]
  simp only [setLevel, hx]

/-- A change of level at a terminal that feeds no run (R58). -/
theorem pulseEdge_noRun (hq : s.terminals[x].quiet rising = true) (hl : s.levels[x] = !rising)
    (hx : ∀ r, s.terminals[x] ≠ .pulse r) : pulseEdge x rising s = setLevel x rising s := by
  rw [pulseEdge, if_pos ⟨hq, level_changes hl⟩]
  dsimp only
  split
  · next r hr => exact absurd hr (hx r)
  · rfl

end AtTheTerminal

/-- The functions at which a change of level is neither a pulse nor the event of another row (R202; log 6). -/
theorem quiet_noRun {f : TerminalFunction} {rising : Bool}
    (h : f = .none ∨ f = .trip ∨ (∃ p, f = .drive p) ∨ (∃ q, f = .valve q)
      ∨ (rising = false ∧ (f = .sync ∨ ∃ p, f = .proof p))) :
    f.quiet rising = true ∧ ∀ r, f ≠ .pulse r := by
  rcases h with rfl | rfl | ⟨p, rfl⟩ | ⟨q, rfl⟩ | ⟨rfl, rfl | ⟨p, rfl⟩⟩
  all_goals exact ⟨rfl, nofun⟩

/-- The functions at which the change of level is the event of another row (R202; log 6). -/
theorem quiet_false {f : TerminalFunction} {rising : Bool}
    (h : f = .stopIn ∨ (∃ q, f = .flowsw q) ∨ (rising = true ∧ (f = .sync ∨ ∃ p, f = .proof p))) :
    f.quiet rising = false := by
  rcases h with rfl | ⟨q, rfl⟩ | ⟨rfl, rfl | ⟨p, rfl⟩⟩
  all_goals rfl

/-- Settles O18: the edge at a run, counted or not, and the edge at any other terminal. -/
theorem pulseEdgeCountsAndTimes : Obligations.PulseEdgeCountsAndTimes := by
  intro s x rising us hp
  rw [pulseEdge_powered hp]
  refine ⟨?counted, ?uncounted, fun hl h => ?quiet, fun h => ?event, fun hl => ?level⟩
  case counted =>
    rintro r _ edges period hx hl rfl hs he htime
    rw [pulseEdge_pulse (s := elapse us s) hx hl,
      pulseAt_counted (s := setLevel x rising (elapse us s)) hs (counts_iff.mpr he)
        (counted_timed htime)]
    rfl
  case uncounted =>
    intro r hx hl h
    have hc : s.runs[r].state = .inService → s.runs[r].config.edge.counts rising = false :=
      fun hs => counts_false (h.resolve_left (not_not_intro hs))
    rw [pulseEdge_pulse (s := elapse us s) hx hl,
      pulseAt_uncounted (s := setLevel x rising (elapse us s))
        fun ⟨hs, ht⟩ => Bool.false_ne_true ((hc hs).symm.trans ht)]
    rfl
  case quiet =>
    obtain ⟨hq, hx⟩ := quiet_noRun h
    rw [pulseEdge_noRun (s := elapse us s) hq hl hx]
    rfl
  case event =>
    rw [pulseEdge_none (s := elapse us s) (.inl (quiet_false h))]
    rfl
  case level =>
    rw [pulseEdge_none (s := elapse us s) (.inr hl)]
    rfl

end Sys2Proof.Machine

/-! SUPPORT and the proof of O25. DEVICE_SECOND (R72, R73, R176, R179) and VALIDITY_EXPIRY (R73). -/

namespace Sys2Proof.Machine

-- One proof after the other: a proof that waits for an earlier one holds a thread and its stack.
set_option Elab.async false

/-! ### One expiry (R73) -/

/-- A CURRENT slot whose remaining validity has run out: the condition of an expiry (R73). -/
def Quality.runOut (c : Quality) : Bool := decide (c.state = .current ∧ c.remaining = 0)

/-- What an expiry leaves of a slot: STALE if its validity has run out (R73). -/
def Quality.expired (c : Quality) : Quality := if c.runOut then { c with state := .stale } else c

theorem runOut_iff {c : Quality} : c.runOut = true ↔ c.state = .current ∧ c.remaining = 0 :=
  decide_eq_true_iff

theorem runOut_false {c : Quality} (h : c.state ≠ .current ∨ 0 < c.remaining) :
    c.runOut = false := by
  rw [← Bool.not_eq_true, runOut_iff]
  rintro ⟨hs, hr⟩
  exact h.elim (absurd hs) (Nat.not_lt.mpr (Nat.le_of_eq hr))

theorem expired_runOut {c : Quality} (h : c.runOut = true) :
    c.expired = { c with state := .stale } := if_pos h

theorem expired_of_not_runOut {c : Quality} (h : c.runOut = false) : c.expired = c :=
  if_neg (Bool.eq_false_iff.mp h)

/-- A STALE slot is not changed by a further expiry (R73). -/
theorem expired_expired (c : Quality) : c.expired.expired = c.expired := by
  cases h : c.runOut
  · rw [expired_of_not_runOut h, expired_of_not_runOut h]
  · rw [expired_runOut h]
    exact expired_of_not_runOut (runOut_false (.inl nofun))

section Expiry
variable {q : Fin 8} {s : State}

theorem expireSlot_runOut (h : s.quality[q].runOut = true) : expireSlot q s
    = raise .compositionStale q.1
        { s with quality := setAt s.quality q { s.quality[q] with state := .stale } } :=
  if_pos (runOut_iff.mp h)

theorem expireSlot_of_not_runOut (h : s.quality[q].runOut = false) : expireSlot q s = s :=
  if_neg fun hc => Bool.false_ne_true (h.symm.trans (runOut_iff.mpr hc))

end Expiry

theorem expireSlot_quality (q : Fin 8) (s : State) :
    (expireSlot q s).quality = editAt s.quality q Quality.expired := by
  cases h : s.quality[q].runOut
  · rw [expireSlot_of_not_runOut h, editAt, expired_of_not_runOut h, setAt_self]
  · rw [expireSlot_runOut h, editAt, expired_runOut h]
    rfl

/-! ### The expiries of a device second, in slot order -/

/-- COMPOSITION_STALE raised for each slot of a list in turn (R73). -/
def raiseStale (l : List (Fin 8)) (s : State) : State :=
  l.foldl (fun s q => raise .compositionStale q.1 s) s

/-- The Quality Table after an expiry at each slot of a list in turn. -/
def expireAt (l : List (Fin 8)) (t : Table Quality 8) : Table Quality 8 :=
  l.foldl (fun t q => editAt t q Quality.expired) t

theorem expireAt_get (l : List (Fin 8)) (t : Table Quality 8) (q : Fin 8) :
    (expireAt l t)[q] = if q ∈ l then t[q].expired else t[q] := by
  induction l generalizing t with
  | nil => rfl
  | cons a l ih =>
    rw [expireAt, List.foldl_cons, ← expireAt, ih, editAt_get]
    by_cases ha : a = q
    · subst ha
      simp only [if_true, List.mem_cons, true_or, expired_expired, ite_self]
    · simp only [if_neg ha, List.mem_cons, Ne.symm ha, false_or]

theorem expireAt_all (t : Table Quality 8) :
    expireAt (List.finRange 8) t = mapAll Quality.expired t :=
  table_ext _ _ fun q => by rw [expireAt_get, mapAll_get, if_pos (List.mem_finRange q)]

/-- Expiries at distinct slots do not meet: all can be read off the table as it stood before them. -/
theorem expireSlots_eq {l : List (Fin 8)} (hl : l.Nodup) (s : State) :
    l.foldl (fun s q => expireSlot q s) s
      = raiseStale (l.filter fun q => s.quality[q].runOut)
          { s with quality := expireAt l s.quality } := by
  induction l generalizing s with
  | nil => rfl
  | cons a l ih =>
    obtain ⟨ha, hl⟩ := List.nodup_cons.mp hl
    have hrest : (l.filter fun q => (expireSlot a s).quality[q].runOut)
        = l.filter fun q => s.quality[q].runOut :=
      List.filter_congr fun q hq => by
        rw [expireSlot_quality, editAt_get, if_neg fun h : a = q => ha (h ▸ hq)]
    rw [List.foldl_cons, ih hl, hrest, expireSlot_quality]
    cases h : s.quality[a].runOut
    · rw [expireSlot_of_not_runOut h, List.filter_cons, if_neg (Bool.eq_false_iff.mp h)]
      rfl
    · rw [expireSlot_runOut h, List.filter_cons, if_pos h]
      rfl

/-! ### The device second (R72, R176, R179) -/

theorem qualitySlots_eq : qualitySlots = List.finRange 8 := by decide

/-- The slots that a device second takes to STALE are the CURRENT ones in their last second (R73). -/
theorem runOut_countDown (c : Quality) :
    c.countDown.runOut = decide (c.state = .current ∧ c.remaining ≤ 1) := by
  unfold Quality.countDown
  split
  · exact decide_eq_decide.mpr (and_congr_right' Nat.sub_eq_zero_iff_le)
  · next h => rw [runOut_false (.inl h), decide_eq_false fun hc => h hc.1]

/-- A slot before and after a device second (R72, R73). -/
theorem expired_countDown (c : Quality) : c.countDown.expired
    = if c.state ≠ .current then c
      else if c.remaining ≤ 1 then { c with remaining := 0, state := .stale }
      else { c with remaining := c.remaining - 1 } := by
  have hrun := runOut_countDown c
  by_cases hs : c.state = .current
  · have hdown : c.countDown = { c with remaining := c.remaining - 1 } := if_pos hs
    rw [if_neg (not_not_intro hs)]
    by_cases hr : c.remaining ≤ 1
    · rw [expired_runOut (hrun.trans (decide_eq_true ⟨hs, hr⟩)), hdown, if_pos hr,
        Nat.sub_eq_zero_of_le hr]
    · rw [expired_of_not_runOut (hrun.trans (decide_eq_false fun h => hr h.2)), hdown, if_neg hr]
  · rw [expired_of_not_runOut (hrun.trans (decide_eq_false fun h => hs h.1)), if_pos hs]
    exact if_neg hs

/-- The countdown of all slots (R72, R73): each slot by itself, then COMPOSITION_STALE for those that expire, in slot order. -/
theorem countDownAll_eq (s : State) : countDownAll s
    = raiseStale ((List.finRange 8).filter fun q =>
        decide (s.quality[q].state = .current ∧ s.quality[q].remaining ≤ 1))
        { s with quality := mapAll (fun c => c.countDown.expired) s.quality } := by
  have htable : mapAll Quality.expired (mapAll Quality.countDown s.quality)
      = mapAll (fun c => c.countDown.expired) s.quality :=
    table_ext _ _ fun q => by simp only [mapAll_get]
  rw [countDownAll, qualitySlots_eq, expireSlots_eq (List.nodup_finRange 8)]
  simp only [expireAt_all, htable, mapAll_get, runOut_countDown]

theorem countDownAll_clock (s : State) : (countDownAll s).clock = s.clock :=
  fold_keeps (P := fun t => t.clock = s.clock)
    (fun t q h => h ▸ (by simp only [expireSlot_keeps])) _ _ rfl

/-- A device second that reaches a boundary of gas days ends with a rollover (R179). -/
theorem rollAtBoundary_boundary {s : State} (hset : s.clock.timeSet = true)
    (h : s.clock.deviceTime % 86400 = s.clock.hour * 3600) : rollAtBoundary s = rollover s :=
  if_pos (Bool.and_eq_true_iff.mpr ⟨hset, beq_iff_eq.mpr h⟩)

theorem rollAtBoundary_within {s : State} (h : s.clock.timeSet = false
    ∨ s.clock.deviceTime % 86400 ≠ s.clock.hour * 3600) : rollAtBoundary s = s :=
  if_neg fun hc => by
    obtain ⟨hset, hb⟩ := Bool.and_eq_true_iff.mp hc
    exact h.elim (fun hs => Bool.false_ne_true (hs.symm.trans hset)) fun hn => hn (beq_iff_eq.mp hb)

/-- Settles O25: the countdown read slot by slot, then the boundary; and one expiry by itself. -/
theorem deviceSecondCountsDown : Obligations.DeviceSecondCountsDown := by
  rintro s t u time hp htime rfl hu
  have hcount : countDownAll (advanceTime (reach s.clock.nextSecond s)) = u := by
    rw [countDownAll_eq, hu, htime]
    simp only [expired_countDown]
    rfl
  have hclock : u.clock = (advanceTime (reach s.clock.nextSecond s)).clock :=
    hcount ▸ countDownAll_clock _
  have hset : u.clock.timeSet = s.clock.timeSet := by rw [hclock]; rfl
  have hhour : u.clock.hour = s.clock.hour := by rw [hclock]; rfl
  have hdevice : u.clock.deviceTime = time := by rw [hclock, htime]; rfl
  have hexec : exec .deviceSecond s = .next (rollAtBoundary u) :=
    hcount ▸ event_powered (f := deviceSecond) hp
  have hexpiry (q : Fin 8) : exec (.validityExpiry q) s = .next (expireSlot q s) :=
    event_powered hp
  rw [hexec]
  refine ⟨⟨fun ⟨hs, hb⟩ => ?boundary, fun h => ?within⟩,
    fun q => ⟨fun hs hr => ?expires, fun h => ?waits⟩⟩
  case boundary =>
    rw [rollAtBoundary_boundary (hset.trans hs) (by rw [hdevice, hhour]; exact hb)]
  case within =>
    rw [rollAtBoundary_within (by rw [hset, hdevice, hhour]; exact h)]
  case expires =>
    rw [hexpiry, expireSlot_runOut (runOut_iff.mpr ⟨hs, hr⟩)]
  case waits =>
    rw [hexpiry, expireSlot_of_not_runOut (runOut_false h)]

end Sys2Proof.Machine

/-! SUPPORT and the proof of O24. POST COMPOSITION (R70) and RETIRE COMPOSITION (R77). -/

namespace Sys2Proof.Machine

-- One proof after the other: a proof that waits for an earlier one holds a thread and its stack.
set_option Elab.async false

/-! ### POST COMPOSITION (R70) -/

/-- The request fields of POST COMPOSITION, read back from a payload. -/
theorem rulePostComposition_fields {tag : List Byte} {heating a b validity : Nat}
    (ht : tag.length = 8) (hh : heating < 65536) (ha : a < 65536) (hb : b < 65536)
    (hv : validity < 65536) (slot : Byte) (s : State) :
    rulePostComposition
        ([slot] ++ tag ++ toBytes 2 heating ++ toBytes 2 a ++ toBytes 2 b ++ toBytes 2 validity) s
      = (fin? 8 slot.toNat).elim (.refuse .badArgument)
          fun q => postComposition q tag heating a b validity s := by
  have hslot : [slot].length = 1 := rfl
  simp only [rulePostComposition, List.append_assoc, fields_append hslot, fields_append ht,
    fields_append (length_toBytes 2 heating), fields_append (length_toBytes 2 a),
    fields_append (length_toBytes 2 b), fields_last (length_toBytes 2 validity), Option.map_some,
    be_single, be_toBytes (width := 2) hh, be_toBytes (width := 2) ha,
    be_toBytes (width := 2) hb, be_toBytes (width := 2) hv]
  cases fin? 8 slot.toNat
  all_goals rfl

section Post
variable {q : Fin 8} {tag : List Byte} {heating a b validity : Nat} {s : State}

/-- Arguments in range fill the slot, whatever it held (R70). -/
theorem postComposition_passed (ht : printable tag = true)
    (hh : 30000 ≤ heating ∧ heating ≤ 50000) (ha : a ≤ 50000) (hb : b ≤ 1000)
    (hv : 1 ≤ validity ∧ validity ≤ 1440) : postComposition q tag heating a b validity s
      = .ok { s with
          quality := setAt s.quality q (.posting tag heating a b validity s.clock.deviceTime) } [] :=
  if_pos (by simp only [ht, inRange_iff.mpr hh, inRange_iff.mpr ⟨Nat.zero_le a, ha⟩,
    inRange_iff.mpr ⟨Nat.zero_le b, hb⟩, inRange_iff.mpr hv, Bool.and_self])

/-- An argument out of range (R70). -/
theorem postComposition_failed (h : (∃ c ∈ tag, c.toNat < 0x20 ∨ 0x7E < c.toNat) ∨ heating < 30000
      ∨ 50000 < heating ∨ 50000 < a ∨ 1000 < b ∨ validity < 1 ∨ 1440 < validity) :
    postComposition q tag heating a b validity s = .refuse .badArgument := by
  refine if_neg ?_
  simp only [Bool.and_eq_true, inRange_iff]
  rintro ⟨⟨⟨⟨ht, hh⟩, ha⟩, hb⟩, hv⟩
  rcases h with h | h
  · exact Bool.false_ne_true ((printable_false h).symm.trans ht)
  · omega

end Post

/-! ### RETIRE COMPOSITION (R77) -/

/-- A slot is named exactly when some OPEN or CLOSING account holds its number (R76). -/
theorem namingCount_pos_iff {s : State} {q : Fin 8} : 0 < s.namingCount q
    ↔ ∃ i : Fin 12, (s.accounts[i].state = .opened ∨ s.accounts[i].state = .closing)
        ∧ s.accounts[i].quality = q := by
  simp only [namingCount_eq, List.countP_pos_iff, List.mem_finRange, true_and, decide_eq_true_eq]

section Retire
variable {s : State} {q : Fin 8}

theorem ruleRetireComposition_empty (h : s.quality[q].state = .empty) :
    ruleRetireComposition (byte q.1) s = .refuse .wrongState := by
  simp only [ruleRetireComposition, fields_number, fin?_be_byte (by decide : 8 ≤ 256), if_pos h]

theorem ruleRetireComposition_named (h : s.quality[q].state ≠ .empty)
    (hn : 0 < s.namingCount q) : ruleRetireComposition (byte q.1) s = .refuse .inUse := by
  simp only [ruleRetireComposition, fields_number, fin?_be_byte (by decide : 8 ≤ 256), if_neg h,
    if_pos hn]

theorem ruleRetireComposition_unnamed (h : s.quality[q].state ≠ .empty)
    (hn : ¬ 0 < s.namingCount q) : ruleRetireComposition (byte q.1) s
      = .ok { s with quality := setAt s.quality q .none } [] := by
  simp only [ruleRetireComposition, fields_number, fin?_be_byte (by decide : 8 ≤ 256), if_neg h,
    if_neg hn]

end Retire

theorem ruleRetireComposition_outOfRange {s : State} {slot : Byte} (h : 7 < slot.toNat) :
    ruleRetireComposition [slot] s = .refuse .badArgument := by
  simp only [ruleRetireComposition, fields_one, fin?_be_none (n := 8) h]

/-- Settles O24: the fields read back, then the checks of each command in their order. -/
theorem qualitySlotsArePostedAndRetired : Obligations.QualitySlotsArePostedAndRetired := by
  refine ⟨fun s tag heating a b validity ht hh ha hb hv => ?post, fun s => ?retire⟩
  case post =>
    have hrule := fun slot => rulePostComposition_fields ht hh ha hb hv slot s
    refine ⟨fun q hc h1 h2 h3 h4 h5 h6 => ?_, fun slot h => ?_⟩
    · refine accepts_of (rule := rulePostComposition) rfl ?_
      rw [byte_eq_single, hrule, toNat_ofNat_lt (by omega), fin?_val]
      exact postComposition_passed (printable_iff.mpr ⟨ht, hc⟩) ⟨h1, h2⟩ h3 h4 ⟨h5, h6⟩
    · refine refuses_of (rule := rulePostComposition) rfl ((hrule slot).trans ?_)
      by_cases hslot : 7 < slot.toNat
      · rw [fin?_none hslot]
        rfl
      · rw [fin?_val (⟨slot.toNat, by omega⟩ : Fin 8)]
        exact postComposition_failed (h.resolve_left hslot)
  case retire =>
    refine ⟨fun q hq => ⟨fun hfree => ?_, fun hnamed => ?_⟩, fun q hq => ?_, fun slot h => ?_⟩
    · have hn : ¬ 0 < s.namingCount q := fun hn => by
        obtain ⟨i, hi, hiq⟩ := namingCount_pos_iff.mp hn
        exact hfree i hi hiq
      exact accepts_of (rule := ruleRetireComposition) rfl (ruleRetireComposition_unnamed hq hn)
    · exact refuses_of (rule := ruleRetireComposition) rfl
        (ruleRetireComposition_named hq (namingCount_pos_iff.mpr hnamed))
    · exact refuses_of (rule := ruleRetireComposition) rfl (ruleRetireComposition_empty hq)
    · exact refuses_of (rule := ruleRetireComposition) rfl (ruleRetireComposition_outOfRange h)

end Sys2Proof.Machine

/-! SUPPORT and the proof of O60. What every operation does to the laws of terminals, attention, port and scanner together. -/

namespace Sys2Proof.Machine

-- One proof after the other: a proof that waits for an earlier one holds a thread and its stack.
set_option Elab.async false

/-- The laws of the Terminal Map, the Attention Unit, the Command Port and the Analog Scanner. -/
structure State.peripheralLaw (s : State) : Prop where
  terminal : s.terminalLaw
  attention : s.attentionLaw
  port : s.portLaw
  scan : s.scanLaw

theorem State.law.peripherals {s : State} (h : s.law) : s.peripheralLaw :=
  ⟨h.terminal, h.attention, h.port, h.scan⟩

/-- The records that none of the four laws reads may change in any way. -/
theorem State.peripheralLaw.other {s : State} {powered now accounts released quality channels stroke
    header pendingDuty trips monitors dueValues tripTest levels clock pending}
    (h : s.peripheralLaw) : ({ s with
      powered := powered, now := now, accounts := accounts, released := released
      quality := quality, channels := channels, stroke := stroke, header := header
      pendingDuty := pendingDuty, trips := trips, monitors := monitors, dueValues := dueValues
      tripTest := tripTest, levels := levels, clock := clock
      pending := pending } : State).peripheralLaw :=
  ⟨h.terminal, h.attention, h.port, h.scan⟩

/-- The laws where the port, the scanner and the supply state stand as they did. -/
theorem peripheralLaw_of {s t : State} (h : s.peripheralLaw) (ht : t.terminalLaw)
    (ha : t.attentionLaw) (hp : t.port = s.port := by simp) (hs : t.scan = s.scan := by simp)
    (hu : t.supply.state = s.supply.state := by simp) : t.peripheralLaw :=
  ⟨ht, ha, portLaw_congr h.port hp, scanLaw_congr h.scan hs hu⟩

/-- The laws where only what the law of the Attention Unit reads has changed. -/
theorem peripheralLaw_raised {s t : State} (h : s.peripheralLaw) (ha : t.attentionLaw)
    (ht : t.terminals = s.terminals := by simp) (hq : t.points = s.points := by simp)
    (hn : t.pumps = s.pumps := by simp) (hr : t.runs = s.runs := by simp)
    (hu : t.supply = s.supply := by simp) (hp : t.port = s.port := by simp)
    (hs : t.scan = s.scan := by simp) : t.peripheralLaw :=
  peripheralLaw_of h (terminalLaw_congr h.terminal ht hq hn hr hu) ha hp hs (by rw [hu])

theorem SameUnits.peripherals {s t : State} (e : SameUnits s t) (h : s.peripheralLaw)
    (ht : t.terminalLaw) (ha : t.attentionLaw) : t.peripheralLaw :=
  peripheralLaw_of h ht ha e.port e.scan e.supply

/-- The laws of the part and its snapshots, where no new snapshot is held (R187). -/
theorem peripheralLaw_snapshots {s t : State} (h : s.peripheralLaw)
    (hm : ∀ m ∈ t.snapshots, m ∈ s.snapshots) (ht : t.terminals = s.terminals := by simp)
    (hq : t.points = s.points := by simp) (hn : t.pumps = s.pumps := by simp)
    (hr : t.runs = s.runs := by simp) (hc : t.causes = s.causes := by simp)
    (hp : t.port = s.port := by simp) (hs : t.scan = s.scan := by simp)
    (hu : t.supply.state = s.supply.state := by simp) : t.peripheralLaw := by
  refine peripheralLaw_of h ⟨?_, fun m k => h.terminal.2 m (hm m k)⟩
    ⟨?_, fun m k => h.attention.2 m (hm m k)⟩ hp hs hu
  · rw [ht, hq, hn, hr]; exact h.terminal.1
  · rw [hc]; exact h.attention.1

/-! ### The shared operations -/

section Operations
variable {s : State}

theorem State.peripheralLaw.grant (h : s.peripheralLaw) : (grantIfDue s).peripheralLaw :=
  peripheralLaw_raised h (grantIfDue_attention h.attention)

theorem requestEnd_peripheral (f : Grant → Bool) (h : s.peripheralLaw) :
    (requestEnd f s).peripheralLaw :=
  peripheralLaw_raised h (requestEnd_attention h.attention)

theorem changeTrips_peripheral (f : TripSet → TripSet) (h : s.peripheralLaw) :
    (changeTrips f s).peripheralLaw :=
  peripheralLaw_raised h (changeTrips_attention h.attention)

theorem releaseAction_peripheral (m : Fin 16) (a : Action) (h : s.peripheralLaw) :
    (releaseAction m a s).peripheralLaw :=
  peripheralLaw_raised h (releaseAction_attention h.attention)

theorem enterTripped_peripheral (m : Fin 16) (h : s.peripheralLaw) :
    (enterTripped m s).peripheralLaw :=
  peripheralLaw_raised h (enterTripped_attention h.attention)

theorem raiseIf_peripheral {b : Bool} {k : CauseKind} {n : Nat} (hn : CauseKind.owns k.code n)
    (h : s.peripheralLaw) : (raiseIf b k n s).peripheralLaw :=
  peripheralLaw_raised h (raiseIf_attention hn h.attention)

theorem trigger_peripheral (h : s.peripheralLaw) : (trigger s).peripheralLaw :=
  ⟨terminalLaw_congr h.terminal, trigger_attention h.attention, portLaw_congr h.port,
    trigger_scan h.scan⟩

theorem startSave_peripheral (h : s.peripheralLaw) : (startSave s).peripheralLaw :=
  (startSave_units s).peripherals h (startSave_terminal h.terminal) (startSave_attention h.attention)

/-! ### Accounts and runs -/

theorem amendAccount_peripheral (i : Fin 12) (m : Amendment) (h : s.peripheralLaw) :
    (amendAccount i m s).peripheralLaw :=
  .grant (peripheralLaw_raised h (pointChanged_attention (attentionLaw_congr h.attention)))

theorem attachRun_peripheral (i : Fin 12) (r : Fin 6) (h : s.peripheralLaw) :
    (attachRun i r s).peripheralLaw :=
  (peripheralLaw_of h (settle_terminal h.terminal) (settle_attention h.attention)).other

theorem detachRun_peripheral (i : Fin 12) (r : Fin 6) (h : s.peripheralLaw) :
    (detachRun i r s).peripheralLaw :=
  peripheralLaw_of h (detachRun_terminal h.terminal) (detachRun_attention h.attention)

theorem closeAccount_peripheral (i : Fin 12) (h : s.peripheralLaw) :
    (closeAccount i s).peripheralLaw := by
  have hd : (detachAll i s).peripheralLaw :=
    fold_keeps (fun _ r h => detachRun_peripheral i r h) _ s h
  exact (closeAccount_units i s).peripherals h
    (terminalLaw_congr (t := leaveOpen i (requestEnd (·.forAccount i) (detachAll i s))) hd.terminal)
    (closeAccount_attention h.attention)

/-- A run is written that does not enter service by it. -/
theorem editRun_peripheral {r : Fin 6} {f : Run → Run} (h : s.peripheralLaw)
    (hf : (f s.runs[r]).state = .inService → s.runs[r].state = .inService) :
    (editRun r f s).peripheralLaw :=
  peripheralLaw_of h (editRun_terminal h.terminal hf) (attentionLaw_congr h.attention)

/-- CONFIGURE RUN leaves no run IN_SERVICE (R54). -/
theorem configured_state {u : Run} (c : RunConfig) (h : u.state ≠ .inService) :
    (u.configured c).state ≠ .inService := by
  unfold Run.configured
  split
  · exact RunState.noConfusion
  · exact h

/-- A run enters service only with a PULSE terminal (R56). -/
theorem placeInService_peripheral {r : Fin 6} {held : Held} (h : s.peripheralLaw)
    (hr : (s.holder (.pulse r)).isSome) : (editRun r (·.placed held) s).peripheralLaw := by
  have hl := h.terminal.1
  refine peripheralLaw_of h ⟨⟨hl.single, hl.valve, hl.drive, fun j hj => ?_⟩, h.terminal.2⟩
    (attentionLaw_congr h.attention)
  simp only [editRun, editAt_get] at hj
  split at hj
  · next e => subst e; exact holder_isSome hr
  · exact hl.pulse j hj

theorem update_peripheral (r : Fin 6) (held : Held) (h : s.peripheralLaw) :
    (update r held s).peripheralLaw :=
  peripheralLaw_of h (update_terminal h.terminal) (update_attention h.attention)

theorem removeFromService_peripheral (r : Fin 6) (h : s.peripheralLaw) :
    (removeFromService r s).peripheralLaw := by
  have hu := update_peripheral r s.runs[r].held h
  unfold removeFromService
  generalize update r s.runs[r].held s = u at hu
  exact (editRun_peripheral (f := Run.removed) hu RunState.noConfusion).other

theorem pulseAt_peripheral (r : Fin 6) (rising : Bool) (h : s.peripheralLaw) :
    (pulseAt r rising s).peripheralLaw := by
  have hs (u : Run) : (u.counted.timed s.now).state = u.state := by
    unfold Run.timed Run.counted
    repeat' split
    all_goals rfl
  unfold pulseAt
  split
  · exact raiseIf_peripheral (owns_lt r.2) (editRun_peripheral h fun he => by rwa [hs] at he)
  · exact h

/-! ### The scanner -/

theorem startScan_peripheral (h : s.peripheralLaw) (hs : s.scan.state = .idle) :
    (startScan s).peripheralLaw :=
  ⟨terminalLaw_congr h.terminal, attentionLaw_congr h.attention, portLaw_congr h.port,
    startScan_scan h.scan (by rw [hs]; decide)⟩

theorem intervalExpiry_peripheral (h : s.peripheralLaw) : (intervalExpiry s).peripheralLaw :=
  ⟨terminalLaw_congr (t := trigger _) h.terminal, trigger_attention h.attention,
    portLaw_congr (t := trigger _) h.port, intervalExpiry_scan h.scan⟩

theorem takeCode_peripheral (i : Fin 16) (code : BitVec 16) (h : s.peripheralLaw) :
    (takeCode i code s).peripheralLaw := by
  unfold takeCode
  split
  · exact (raiseIf_peripheral (owns_lt i.2) h.other).other
  · exact h

theorem conversionEnd_peripheral (code : BitVec 16) (h : s.peripheralLaw) :
    (conversionEnd code s).peripheralLaw := by
  suffices hu : (conversionEnd code s).terminalLaw ∧ (conversionEnd code s).attentionLaw from
    ⟨hu.1, hu.2, portLaw_congr h.port (conversionEnd_units code s).2, conversionEnd_scan h.scan⟩
  unfold conversionEnd
  dsimp only
  split
  · next i _ _ =>
    have ht := takeCode_peripheral (s := reach s.scan.conversionEnd s) i code h.other
    split
    · exact ⟨terminalLaw_congr ht.terminal, attentionLaw_congr ht.attention⟩
    · exact ⟨ht.terminal, ht.attention⟩
  · exact ⟨h.terminal, h.attention⟩

/-! ### The header's points and the pumps -/

/-- An ENABLED point has a VALVE terminal (R125). -/
theorem configurePoint_peripheral {q : Fin 4} {st : PointState} {limit : Nat} (h : s.peripheralLaw)
    (hv : st = .enabled → (s.holder (.valve q)).isSome) :
    (configurePoint q st limit s).peripheralLaw := by
  have hw := writePoint_terminal (l := limit) h.terminal hv
  have hl : (afterLimit q s.points[q] (writePoint q st limit s)).terminalLaw := by
    unfold afterLimit
    split
    · exact fold_keeps (fun _ _ h => terminalLaw_congr h) _ _ hw
    · exact hw
  refine (configurePoint_units q st limit s).peripherals h (grantIfDue_terminal ?_)
    (configurePoint_attention h.attention)
  unfold afterState
  split
  · exact terminalLaw_congr hl
  · exact hl

/-- A pump is written that does not leave ISOLATED by it. -/
theorem editPump_peripheral {p : Fin 2} {f : Pump → Pump} (h : s.peripheralLaw)
    (hf : (f s.pumps[p]).state ≠ .isolated → s.pumps[p].state ≠ .isolated) :
    (editPump p f s).peripheralLaw :=
  peripheralLaw_of h (editPump_terminal h.terminal hf) (attentionLaw_congr h.attention)

/-- A pump leaves ISOLATED only with a DRIVE terminal (R150). -/
theorem restorePump_peripheral {p : Fin 2} {f : Pump → Pump} (h : s.peripheralLaw)
    (hp : (s.holder (.drive p)).isSome) : (editPump p f s).peripheralLaw := by
  have hl := h.terminal.1
  refine peripheralLaw_of h ⟨⟨hl.single, hl.valve, fun j hj => ?_, hl.pulse⟩, h.terminal.2⟩
    (attentionLaw_congr h.attention)
  simp only [editPump, editAt_get] at hj
  split at hj
  · next e => subst e; exact holder_isSome hp
  · exact hl.drive j hj

theorem selectDuty_peripheral {p : Fin 2} (h : s.peripheralLaw)
    (hp : s.pumps[p].state = .standby) :
    (grantIfDue { makeDuty p s with pendingDuty := none }).peripheralLaw :=
  .grant (.other (peripheralLaw_of h (makeDuty_terminal h.terminal (by rw [hp]; decide))
    (attentionLaw_congr h.attention)))

/-! ### The stroke record -/

theorem continueBurst_peripheral (h : s.peripheralLaw) : (continueBurst s).peripheralLaw :=
  peripheralLaw_of h (continueBurst_terminal h.terminal) (continueBurst_attention h.attention)

/-- The clearing of the record and the grant decision that may follow it. -/
theorem finish_peripheral (h : s.peripheralLaw) :
    (grantIfDue (clearIfFinished s)).peripheralLaw :=
  .grant (peripheralLaw_of h (clearIfFinished_terminal h.terminal)
    (clearIfFinished_attention h.attention))

/-- A stroke in flight is resolved, whose pump is in service (R154). -/
theorem resolve_peripheral {k : Stroke} (r : Resolution) (h : s.peripheralLaw)
    (hk : s.stroke = some k) (hp : s.pumps[k.pump].state ≠ .isolated) :
    (resolve r s).peripheralLaw :=
  peripheralLaw_of h
    (resolve_terminal h.terminal fun k' hk' => by rwa [Option.some.inj (hk'.symm.trans hk)])
    (resolve_attention h.attention)

theorem proofOf_peripheral (p : Fin 2) (h : s.peripheralLaw) (hs : strokeServed s) :
    (proofOf p s).peripheralLaw := by
  have hstray : (strayProof p s).peripheralLaw := editPump_peripheral h id
  unfold proofOf
  split
  · exact hstray
  · next k hk =>
    split
    · next hp =>
      simp only [Stroke.provenBy, Bool.and_eq_true, beq_iff_eq] at hp
      exact finish_peripheral (resolve_peripheral _ h hk (hs k hk hp.2))
    · exact hstray

theorem onTimeExpiry_peripheral (h : s.peripheralLaw) (hs : strokeServed s) :
    (onTimeExpiry s).peripheralLaw := by
  unfold onTimeExpiry
  dsimp only
  split
  · exact h
  · next k hk =>
    have hd : ({ reach (k.due k.onTime) s with stroke := some k.driven } : State).peripheralLaw :=
      h.other
    split
    · exact h
    · split
      · next hr => exact finish_peripheral (resolve_peripheral _ hd rfl (hs k hk hr.1))
      · exact finish_peripheral hd

theorem proofWindowExpiry_peripheral (h : s.peripheralLaw) (hs : strokeServed s) :
    (proofWindowExpiry s).peripheralLaw := by
  unfold proofWindowExpiry
  dsimp only
  split
  · exact h
  · next k hk =>
    split
    · next hw =>
      simp only [Stroke.windowResolves, Bool.and_eq_true, beq_iff_eq] at hw
      exact finish_peripheral (resolve_peripheral (s := reach (k.due k.window) s) _ h.other hk
        (hs k hk hw.1))
    · exact h

theorem spacingExpiry_peripheral (h : s.peripheralLaw) : (spacingExpiry s).peripheralLaw := by
  unfold spacingExpiry
  split
  · exact h
  · split
    · exact h
    · exact finish_peripheral h.other

theorem settleExpiry_peripheral (h : s.peripheralLaw) : (settleExpiry s).peripheralLaw := by
  unfold settleExpiry
  split
  · exact continueBurst_peripheral h.other
  · exact h

theorem pauseExpiry_peripheral (h : s.peripheralLaw) : (pauseExpiry s).peripheralLaw := by
  unfold pauseExpiry
  split
  · exact .grant h.other
  · exact h

/-! ### Monitors -/

theorem configureMonitor_peripheral (m : Fin 16) (c : MonitorConfig) (h : s.peripheralLaw) :
    (configureMonitor m c s).peripheralLaw :=
  .grant (.other (peripheralLaw_raised (s := dropDue m s) h.other
    (releaseIfTripped_attention h.other.attention)))

theorem ackMonitor_peripheral (m : Fin 16) (h : s.peripheralLaw) :
    (ackMonitor m s).peripheralLaw := by
  unfold ackMonitor
  dsimp only
  split
  · exact h
  · exact .grant (releaseAction_peripheral m _ h.other)

theorem evaluate_peripheral (m : Fin 16) (v : Nat) (h : s.peripheralLaw) :
    (evaluate m v s).peripheralLaw :=
  peripheralLaw_raised h (evaluate_attention h.attention)

theorem delayExpiry_peripheral (m : Fin 16) (h : s.peripheralLaw) :
    (delayExpiry m s).peripheralLaw := by
  unfold delayExpiry
  dsimp only
  split
  · split
    · exact enterTripped_peripheral m h.other
    · exact h.other
  · exact h

/-! ### Terminals and attention -/

theorem mapTerminal_peripheral {t : Fin 16} {f : TerminalFunction} (h : s.peripheralLaw)
    (hu : s.functionInUse s.terminals[t] = false) (he : s.heldElsewhere t f = false) :
    (mapTerminal t f s).peripheralLaw := by
  have hmap : ({ s with terminals := setAt s.terminals t f } : State).peripheralLaw :=
    ⟨remapped_terminal h.terminal hu he, h.attention, h.port, h.scan⟩
  have hflow : (dropFlows s { s with terminals := setAt s.terminals t f }).peripheralLaw :=
    fold_keeps (fun _ _ h => requestEnd_peripheral _ h) _ _ hmap
  refine State.peripheralLaw.grant ?_
  unfold remapStop
  split
  · exact hflow
  · exact changeTrips_peripheral _ hflow

/-- One cause record is written as the law asks (R205). -/
theorem editCause_peripheral {k : Fin 16} {f : Cause → Cause} (h : s.peripheralLaw)
    (hl : (f s.causes[k]).level ≤ 3) (hs : (f s.causes[k]).subjects.Sublist s.causes[k].subjects)
    (h0 : (f s.causes[k]).level = 0 → (f s.causes[k]).subjects = []) :
    ({ s with causes := editAt s.causes k f } : State).peripheralLaw := by
  refine peripheralLaw_raised h (causes_attention h.attention fun j => ?_)
  rw [editAt_get]
  split
  · next e =>
    obtain ⟨_, hasc, hown, _⟩ := h.attention.1 k
    subst e
    exact ⟨hl, hasc.sublist hs, fun n hn => hown n (hs.subset hn), h0⟩
  · exact h.attention.1 j

/-- An acknowledgement only takes subjects away (R208). -/
theorem ackAttention_peripheral (k : Fin 16) (named : List Nat) (h : s.peripheralLaw) :
    (ackAttention k named s).peripheralLaw := by
  obtain ⟨hl, _, _, h0⟩ := h.attention.1 k
  have hs : (s.causes[k].acknowledged named).subjects.Sublist s.causes[k].subjects := by
    unfold Cause.acknowledged
    split
    · exact List.nil_sublist _
    · exact List.filter_sublist
  exact editCause_peripheral h hl hs fun hz => List.sublist_nil.mp (h0 hz ▸ hs)

/-- Level 0 empties the subject set (R209). -/
theorem setAttentionLevel_peripheral (k : Fin 16) {level : Nat} (h : s.peripheralLaw)
    (hl : level ≤ 3) : (setAttentionLevel k level s).peripheralLaw := by
  refine editCause_peripheral h hl ?_ fun h0 => if_pos h0
  unfold Cause.leveled
  dsimp only
  split
  · exact List.nil_sublist _
  · exact .refl _

/-! ### Time, the supply and the image -/

theorem rollover_peripheral (h : s.peripheralLaw) : (rollover s).peripheralLaw :=
  startSave_peripheral (peripheralLaw_raised h
    (raise_attention (owns_all (by decide)) h.other.attention))

theorem setTime_peripheral (time : Nat) (h : s.peripheralLaw) :
    (setTime time s).peripheralLaw := by
  suffices hr : (rollIfOtherDay time s).peripheralLaw from hr.other
  unfold rollIfOtherDay
  split
  · exact rollover_peripheral h
  · exact h

theorem expireSlot_peripheral (q : Fin 8) (h : s.peripheralLaw) :
    (expireSlot q s).peripheralLaw :=
  peripheralLaw_raised h (expireSlot_attention h.attention)

theorem deviceSecond_peripheral (h : s.peripheralLaw) : (deviceSecond s).peripheralLaw := by
  have hc : (countDownAll (advanceTime (reach s.clock.nextSecond s))).peripheralLaw :=
    fold_keeps (fun _ q h => expireSlot_peripheral q h) _ _ h.other
  unfold deviceSecond rollAtBoundary
  split
  · exact rollover_peripheral hc
  · exact hc

theorem enterLow_peripheral (h : s.peripheralLaw) : (enterLow s).peripheralLaw := by
  have ht : (changeTrips (.withSupply true) (enterSupply .low s)).terminalLaw :=
    terminalLaw_congr (s := enterSupply .low s) h.terminal
  have ha : (changeTrips (.withSupply true) (enterSupply .low s)).attentionLaw :=
    changeTrips_attention (s := enterSupply .low s) h.attention
  exact ⟨startSave_terminal (terminalLaw_congr ht),
    startSave_attention (raise_attention (owns_all (by decide)) (attentionLaw_congr ha)),
    portLaw_congr h.port (by simp [enterLow]), enterLow_scan h.scan⟩

theorem returnToNormal_peripheral (h : s.peripheralLaw) (hs : s.supply.state = .low) :
    (returnToNormal s).peripheralLaw := by
  have ht : (changeTrips (.withSupply false) (enterSupply .normal s)).terminalLaw :=
    terminalLaw_congr (s := enterSupply .normal s) h.terminal
  have ha : (changeTrips (.withSupply false) (enterSupply .normal s)).attentionLaw :=
    changeTrips_attention (s := enterSupply .normal s) h.attention
  exact ⟨grantIfDue_terminal (terminalLaw_congr ht),
    grantIfDue_attention (raise_attention (owns_all (by decide)) ha),
    portLaw_congr h.port (by simp [returnToNormal]), returnToNormal_scan h.scan hs⟩

theorem saveDone_peripheral {v : Save} (h : s.peripheralLaw) (hv : s.supply.save = some v) :
    (raise .portEvent 1
      { s with supply := { s.supply with image := some v.snapshot, save := none } }).peripheralLaw := by
  have hm : ({ s with supply := { s.supply with image := some v.snapshot, save := none } }
      : State).peripheralLaw := peripheralLaw_snapshots h (saveDone_apart hv).snapshots
  exact peripheralLaw_raised hm (raise_attention (owns_lt (by decide)) hm.attention)

end Operations

theorem warmReset_peripheral {s : State} (h : s.law) : (warmReset s).peripheralLaw :=
  ⟨warmReset_terminal h.terminal (law_served h), warmReset_attention h.attention, warmReset_port s,
    warmReset_scan h.scan⟩

theorem coldStart_peripheral {s : State} (b : Bool) (h : s.peripheralLaw) :
    (coldStart b s).peripheralLaw :=
  ⟨coldStart_terminal reset_terminalLaw h.terminal, coldStart_attention reset_law.attention h.attention,
    coldStart_port b s, coldStart_scan b s⟩

/-- What every effect brings about for the Terminal Map, the Attention Unit, the Command Port and the Analog Scanner (R86 to R95,
R195, R202 to R209). -/
theorem peripheralEffects : Effects State.law State.peripheralLaw where
  self _ h := h.peripherals
  complete st out s h :=
    ⟨terminalLaw_congr h.terminal, complete_attention st out s h.attention, complete_port st out s,
      scanLaw_congr h.scan⟩
  elapse _ _ h := law_now h
  reach _ _ h := law_now h
  link _ _ _ h := law_link h
  accept q s h := ⟨h.terminal, h.attention, acceptRequest_port q s, h.scan⟩
  discard _ h := ⟨h.terminal, h.attention, discardRequest_port h.port, h.scan⟩
  refuse s h :=
    ⟨h.terminal, raise_attention (owns_lt (by decide)) h.attention, refuseFrame_port s, h.scan⟩
  openAccount _ _ _ _ _ _ _ h _ _ _ _ := h.peripherals.other
  amendAccount i m _ h _ _ := amendAccount_peripheral i m h.peripherals
  attachRun i r _ h _ _ _ := attachRun_peripheral i r h.peripherals
  detachRun i r _ h _ := (detachRun_peripheral i r h.peripherals).grant
  closeAccount i _ h _ := closeAccount_peripheral i h.peripherals
  releaseAccount _ _ h _ := h.peripherals.other
  configureRun _ c _ h hr :=
    editRun_peripheral h.peripherals fun hs => absurd hs (configured_state c hr)
  setBands _ _ _ h _ := editRun_peripheral h.peripherals id
  placeInService _ _ h hr := placeInService_peripheral h.peripherals hr
  removeFromService r _ h := (removeFromService_peripheral r h.peripherals).grant
  clearRunTotals _ _ h := editRun_peripheral h.peripherals id
  postComposition _ _ _ h _ := h.peripherals.other
  retireComposition _ _ h _ := h.peripherals.other
  channels _ _ _ h := h.peripherals.other
  setScan source interval _ h := ⟨h.terminal, h.attention, h.port, setScan_scan h.scan source interval⟩
  startScan _ h hs := startScan_peripheral h.peripherals hs
  configurePoint _ _ _ _ h _ hv := configurePoint_peripheral h.peripherals hv
  headerConfig _ _ h := h.peripherals.other
  manualDuration _ _ h := h.peripherals.other
  manualDose _ _ h _ _ := h.peripherals.other.grant
  configurePump _ _ _ h _ _ := editPump_peripheral h.peripherals id
  restorePump _ _ h _ hp _ := restorePump_peripheral h.peripherals hp
  isolatePump _ _ _ h _ := (editPump_peripheral h.peripherals fun hi => absurd rfl hi).other
  resetPump _ _ h hs := editPump_peripheral h.peripherals fun _ => by rw [hs]; decide
  selectDuty _ _ h hs _ := selectDuty_peripheral h.peripherals hs
  deferDuty _ _ h := h.peripherals.other
  configureMonitor m c _ h := configureMonitor_peripheral m c h.peripherals
  ackMonitor m _ h _ := ackMonitor_peripheral m h.peripherals
  tripTest _ _ h := h.peripherals.other
  setTime time _ h := setTime_peripheral time h.peripherals
  clock _ _ h := h.peripherals.other
  startSave _ h := startSave_peripheral h.peripherals
  mapTerminal _ _ _ h hu he := mapTerminal_peripheral h.peripherals hu he
  ackAttention k named _ h := ackAttention_peripheral k named h.peripherals
  setAttentionLevel k _ _ h hl := setAttentionLevel_peripheral k h.peripherals hl
  stoppedLevel _ _ _ h _ := h.peripherals.other
  quietLevel _ _ _ h _ := h.peripherals.other
  pulse _ b r _ h _ := pulseAt_peripheral r b h.peripherals.other
  proof _ p s h _ := proofOf_peripheral p h.peripherals.other (law_served (s := s) h)
  flowDrop _ _ _ h _ := requestEnd_peripheral _ h.peripherals.other
  flowRise _ _ _ h _ := h.peripherals.other.grant
  syncLevel _ _ h _ := h.peripherals.other
  sync _ _ h _ := trigger_peripheral h.peripherals.other
  stopIn _ _ h _ := changeTrips_peripheral _ h.peripherals.other
  stopOut _ _ h _ := (changeTrips_peripheral _ h.peripherals.other).grant
  warmReset _ h := warmReset_peripheral h
  coldStart b _ h := coldStart_peripheral b h.peripherals
  qualification q s h :=
    peripheralLaw_snapshots h.peripherals (setQualification_apart q s).snapshots rfl rfl rfl rfl rfl
      rfl rfl rfl
  enterLow _ h := enterLow_peripheral h.peripherals
  returnToNormal _ h hs := returnToNormal_peripheral h.peripherals hs
  powerDown s h :=
    peripheralLaw_snapshots h.peripherals (powerDown_apart s).snapshots rfl rfl rfl rfl rfl rfl rfl
      rfl
  saveDone _ _ h hv := saveDone_peripheral h.peripherals hv
  clockChange _ _ _ h := raiseIf_peripheral (owns_all (by decide)) h.peripherals.other
  deviceSecond _ h := deviceSecond_peripheral h.peripherals
  expireSlot q _ h := expireSlot_peripheral q h.peripherals
  intervalExpiry _ h := intervalExpiry_peripheral h.peripherals
  conversionEnd code _ h := conversionEnd_peripheral code h.peripherals
  dropUpdate _ _ h := h.peripherals.other
  meteringUpdate r held _ _ h := (update_peripheral r held h.peripherals.other).grant
  evaluate m v _ _ h := (evaluate_peripheral m v h.peripherals.other).grant
  delayExpiry m _ h := delayExpiry_peripheral m h.peripherals
  settleExpiry _ h := settleExpiry_peripheral h.peripherals
  onTimeExpiry _ h := onTimeExpiry_peripheral h.peripherals (law_served h)
  proofWindowExpiry _ h := proofWindowExpiry_peripheral h.peripherals (law_served h)
  spacingExpiry _ h := spacingExpiry_peripheral h.peripherals
  pauseExpiry _ h := pauseExpiry_peripheral h.peripherals
  endManual _ h := peripheralLaw_raised h.peripherals (endManual_attention h.attention)

/-- Settles O60, by what every effect does to the four laws. -/
theorem stepKeepsTerminalAttentionPortAndScanLaws :
    Obligations.StepKeepsTerminalAttentionPortAndScanLaws := by
  intro s t h hs
  obtain ⟨hterminal, hattention, hport, hscan⟩ : t.peripheralLaw :=
    step_brings peripheralEffects (fun _ _ h => law_pending h) h hs
  exact ⟨hterminal, hattention, hport, hscan⟩

end Sys2Proof.Machine

/-! SUPPORT and the proof of O7. The reads without operands (R97, R144, R173, R183, R190, R204, R209) and what they derive. -/

namespace Sys2Proof.Machine

-- One proof after the other: a proof that waits for an earlier one holds a thread and its stack.
set_option Elab.async false

/-! ### READ SUPPLY (R190) -/

/-- The codes of the save state: SAVING is 1 (R188; log 11). -/
theorem flagByte_eq : ∀ b : Bool, flagByte b = byte (if b then 1 else 0) := by decide

/-- The codes of the image state: INVALID is 1 (R187; log 11). -/
theorem flagByte_not : ∀ b : Bool, flagByte (!b) = byte (if b then 0 else 1) := by decide

/-- READ SUPPLY with the codes of the image and save states and the two derived times written out (R190; log 11). -/
theorem supplyBytes_eq (s : State) : s.supplyBytes
    = byte s.supply.state.code ++ flagByte s.supply.qualification.isSome
      ++ byte (if s.supply.image.isSome then 0 else 1)
      ++ byte (if s.supply.save.isSome then 1 else 0)
      ++ toBytes 4 (s.supply.save.elim 0 (fun v => (s.now - v.start) / 1000))
      ++ toBytes 4 (s.supply.image.elim 0 Image.deviceTime) := by
  rw [State.supplyBytes, ← Option.not_isSome, flagByte_not, flagByte_eq s.supply.save.isSome]
  congr 2
  · cases s.supply.save <;> rfl
  · cases s.supply.image <;> rfl

/-! ### READ HEADER (R122, R144) -/

section Header
variable {s : State} {grant stroke : List Byte}

/-- The grant in READ HEADER (R144). -/
theorem grantBytes_eq {held : Option Grant}
    (h : (held = none ∧ grant = [255, 255, 0, 0, 0])
      ∨ ∃ g, held = some g ∧ grant = byte g.beneficiary.code ++ byte g.point.1
        ++ byte g.strokes ++ flagByte g.endRequested ++ byte g.burstLimit) :
    grantBytes held = grant := by
  rcases h with ⟨rfl, rfl⟩ | ⟨g, rfl, rfl⟩
  · rfl
  · rfl

/-- The stroke record in READ HEADER (R122). -/
theorem strokeBytes_eq
    (h : (s.stroke = none ∧ stroke = List.replicate 15 0)
      ∨ ∃ k, s.stroke = some k ∧ stroke = flagByte true ++ byte k.pump.1 ++ byte k.point.1
        ++ byte k.beneficiary.code ++ toBytes 4 k.mass ++ byte k.phase.code
        ++ byte k.resolution.code ++ flagByte k.driveCut
        ++ toBytes 4 (s.now / 1000 - k.start / 1000)) : s.strokeBytes = stroke := by
  unfold State.strokeBytes
  rcases h with ⟨hk, rfl⟩ | ⟨k, hk, rfl⟩
  · rw [hk]; rfl
  · rw [hk]; rfl

/-- READ HEADER with the lists written out as counts and members (R144, R158; log 11). -/
theorem headerBytes_eq (hg : grantBytes s.header.grant = grant) (hk : s.strokeBytes = stroke) :
    s.headerBytes = byte s.header.state.code ++ byte s.header.config.mode.code
      ++ byte s.header.config.burstLimit ++ toBytes 2 s.header.config.settle
      ++ toBytes 2 s.header.config.pause ++ grant ++ toBytes 2 (s.msTo s.header.timer)
      ++ byte s.header.rotation.1 ++ byte s.header.manualPointer.1
      ++ byte s.header.mask.length ++ s.header.mask.flatMap (fun q => byte q.1)
      ++ toBytes 2 s.header.manualDuration ++ toBytes 2 (s.secondsTo s.header.manualTimer)
      ++ stroke ++ flagByte s.trips.stop ++ flagByte s.trips.supply
      ++ byte (sixteen.countP (fun m => s.trips.monitors[m]))
      ++ (sixteen.filter (fun m => s.trips.monitors[m])).flatMap (fun m => byte m.1) := by
  simp only [State.headerBytes, TripSet.bytes, hg, hk, listBytes, List.length_map, List.flatMap_map,
    List.countP_eq_length_filter, List.append_assoc]

end Header

/-! ### Times to expiry (R144; log 12) -/

/-- A time to expiry in ms is rounded up. -/
theorem msTo_le_iff (s : State) (time n : Nat) :
    s.msTo (some time) ≤ n ↔ time ≤ s.now + n * 1000 := by
  have hms : s.msTo (some time) = (time - s.now + 999) / 1000 := rfl
  omega

/-- A time to expiry in s is rounded up. -/
theorem secondsTo_le_iff (s : State) (time n : Nat) :
    s.secondsTo (some time) ≤ n ↔ time ≤ s.now + n * 1000000 := by
  have hs : s.secondsTo (some time) = (time - s.now + 999999) / 1000000 := rfl
  omega

/-! ### The gas day and its end (R179, R183) -/

section GasDay
variable (c : Clock)

/-- The gas day of a time counts the boundaries up to it (R179). -/
theorem gasDay_bounds (time : Nat) :
    c.gasDay time * 86400 ≤ (time : Int) - c.hour * 3600
      ∧ (time : Int) - c.hour * 3600 < (c.gasDay time + 1) * 86400 := by
  have hday : c.gasDay time = ((time : Int) - (c.hour * 3600 : Nat)) / 86400 := rfl
  omega

/-- The end of the gas day comes within a day, and is a boundary if device time does not wrap before it. -/
theorem toDayEnd_spec (hh : c.hour ≤ 23) : 1 ≤ c.toDayEnd ∧ c.toDayEnd ≤ 86400
    ∧ (c.deviceTime + c.toDayEnd) % 86400 = c.hour * 3600 := by
  have hend : c.toDayEnd
      = 86400 - (((c.deviceTime : Int) - (c.hour * 3600 : Nat)) % 86400).toNat := rfl
  omega

/-- No time before the end of the gas day is a boundary. -/
theorem toDayEnd_first (hh : c.hour ≤ 23) {d : Nat} (h1 : 1 ≤ d) (hd : d < c.toDayEnd) :
    (c.deviceTime + d) % 86400 ≠ c.hour * 3600 := by
  obtain ⟨_, hmax, hend⟩ := toDayEnd_spec c hh
  omega

/-- The next boundary is the first second, counted through the wrap of device time, that is a boundary (R183; log 13). -/
theorem toBoundary_spec (hh : c.hour ≤ 23) (ht : c.deviceTime < 4294967296) :
    1 ≤ c.toBoundary
    ∧ (c.deviceTime + c.toBoundary) % 4294967296 % 86400 = c.hour * 3600
    ∧ (∀ d, 1 ≤ d → d < c.toBoundary →
      (c.deviceTime + d) % 4294967296 % 86400 ≠ c.hour * 3600)
    ∧ (c.deviceTime + 86400 < 4294967296 → c.toBoundary ≤ 86400) := by
  obtain ⟨hmin, hmax, hend⟩ := toDayEnd_spec c hh
  have hfirst := fun d => toDayEnd_first c hh (d := d)
  by_cases hw : c.deviceTime + c.toDayEnd < 4294967296
  · have hb : c.toBoundary = c.toDayEnd := if_pos hw
    rw [hb]
    refine ⟨hmin, by rwa [Nat.mod_eq_of_lt hw], fun d h1 hd => ?_, fun _ => hmax⟩
    have hd' : c.deviceTime + d < 4294967296 := by omega
    rw [Nat.mod_eq_of_lt hd']
    exact hfirst d h1 hd
  · have hb : c.toBoundary = 4294967296 - c.deviceTime + c.hour * 3600 := if_neg hw
    have hsum : c.deviceTime + (4294967296 - c.deviceTime + c.hour * 3600)
        = 4294967296 + c.hour * 3600 := by omega
    have hlt : c.hour * 3600 < 4294967296 := by omega
    rw [hb, hsum, Nat.add_mod_left, Nat.mod_eq_of_lt hlt]
    refine ⟨by omega, Nat.mod_eq_of_lt (by omega), fun d h1 hd => ?_, fun hn => by omega⟩
    by_cases hd' : c.deviceTime + d < 4294967296
    · rw [Nat.mod_eq_of_lt hd']
      exact hfirst d h1 (by omega)
    · omega

end GasDay

/-! ### Levels (R171, R202) -/

/-- The level at a terminal: an output function drives it, and the outside gives it otherwise (R202, R204). -/
theorem terminalLevel_spec (s : State) (t : Fin 16) :
    (∀ p, s.terminals[t] = .drive p → s.terminalLevel t = s.driveActive p)
    ∧ (∀ q, s.terminals[t] = .valve q → s.terminalLevel t = s.valveActive q)
    ∧ (s.terminals[t] = .trip → s.terminalLevel t = !s.tripOutput)
    ∧ ((∀ p, s.terminals[t] ≠ .drive p) → (∀ q, s.terminals[t] ≠ .valve q) →
      s.terminals[t] ≠ .trip → s.terminalLevel t = s.levels[t]) := by
  unfold State.terminalLevel
  refine ⟨fun p h => by rw [h], fun q h => by rw [h], fun h => by rw [h], fun hd hv ht => ?_⟩
  split
  · next p h => exact absurd h (hd p)
  · next q h => exact absurd h (hv q)
  · next h => exact absurd h ht
  · rfl

/-- The TRIP output is active by the test flag or a TRIPPED monitor whose action it is (R171). -/
theorem tripOutput_iff (s : State) : s.tripOutput = true ↔ s.powered = true
    ∧ (s.tripTest = true
      ∨ ∃ m : Fin 16, s.monitors[m].state = .tripped ∧ s.monitors[m].config.action = .tripOutput) := by
  simp only [State.tripOutput, Monitor.applied, Bool.and_eq_true, Bool.or_eq_true,
    List.any_eq_true, beq_iff_eq, mem_sixteen, true_and]

/-- Settles O7: the fields read by read, then what they derive. -/
theorem bareReadsReturnTheirFields : Obligations.BareReadsReturnTheirFields := by
  refine ⟨fun s => ⟨accepts_bare (rule := ruleReadScan) rfl rfl,
      accepts_bare (rule := ruleReadMonitorSummary) rfl rfl,
      accepts_bare (rule := ruleReadTime) rfl rfl, ?supply,
      accepts_bare (rule := ruleReadTerminals) rfl rfl,
      accepts_bare (rule := ruleReadLevels) rfl rfl⟩,
    fun s grant stroke hg hk => ?header,
    fun s => ⟨rfl, rfl, fun time n => ⟨msTo_le_iff s time n, secondsTo_le_iff s time n⟩⟩,
    gasDay_bounds, fun c hh ht => toBoundary_spec c hh ht, terminalLevel_spec, tripOutput_iff⟩
  case supply =>
    rw [← supplyBytes_eq]
    exact accepts_bare (rule := ruleReadSupply) rfl rfl
  case header =>
    rw [← headerBytes_eq (grantBytes_eq hg) (strokeBytes_eq hk)]
    exact accepts_bare (rule := ruleReadHeader) rfl rfl

end Sys2Proof.Machine

/-! SUPPORT and the proof of O8. READ CHANNEL, READ POINT and READ PUMP (R96, R127, R157) and what they derive. -/

namespace Sys2Proof.Machine

-- One proof after the other: a proof that waits for an earlier one holds a thread and its stack.
set_option Elab.async false

/-! ### The requests -/

theorem readChannel_channel (s : State) (c : Fin 16) :
    s.accepts .readChannel 0x33 (byte c.1) s.channels[c].bytes s :=
  accepts_of (rule := ruleReadChannel) rfl (by
    simp only [ruleReadChannel, fields_number, fin?_be_byte (by decide : 16 ≤ 256), reading])

theorem readChannel_outOfRange {s : State} {c : Byte} (h : 16 ≤ c.toNat) :
    s.refuses .readChannel 0x33 [c] .badArgument :=
  refuses_of (rule := ruleReadChannel) rfl (by
    simp only [ruleReadChannel, fields_one, fin?_be_none h])

theorem readPoint_point (s : State) (q : Fin 4) :
    s.accepts .readPoint 0x41 (byte q.1) (s.pointBytes q) s :=
  accepts_of (rule := ruleReadPoint) rfl (by
    simp only [ruleReadPoint, fields_number, fin?_be_byte (by decide : 4 ≤ 256), reading])

theorem readPoint_outOfRange {s : State} {q : Byte} (h : 4 ≤ q.toNat) :
    s.refuses .readPoint 0x41 [q] .badArgument :=
  refuses_of (rule := ruleReadPoint) rfl (by
    simp only [ruleReadPoint, fields_one, fin?_be_none h])

theorem onPump_number (p : Fin 2) (f : Fin 2 → State → Answer) (s : State) :
    onPump f (byte p.1) s = f p s := by
  simp only [onPump, fields_number, fin?_be_byte (by decide : 2 ≤ 256)]

theorem onPump_outOfRange {p : Byte} (h : 2 ≤ p.toNat) (f : Fin 2 → State → Answer) (s : State) :
    onPump f [p] s = .refuse .badArgument := by
  simp only [onPump, fields_one, fin?_be_none h]

theorem readPump_pump (s : State) (p : Fin 2) :
    s.accepts .readPump 0x4D (byte p.1) (s.pumpBytes p) s :=
  accepts_of (rule := onPump readPump) rfl (onPump_number p readPump s)

theorem readPump_outOfRange {s : State} {p : Byte} (h : 2 ≤ p.toNat) :
    s.refuses .readPump 0x4D [p] .badArgument :=
  refuses_of (rule := onPump readPump) rfl (onPump_outOfRange h readPump s)

/-! ### What the reads derive -/

/-- The terminal that holds a function is the lowest that does (R202). -/
theorem holder_eq_some_iff {s : State} {f : TerminalFunction} {t : Fin 16} :
    s.holder f = some t ↔ s.terminals[t] = f ∧ ∀ u : Fin 16, u.1 < t.1 → s.terminals[u] ≠ f := by
  rw [State.holder, sixteen_eq, List.find?_eq_some_iff_getElem]
  simp only [beq_iff_eq, List.length_finRange, List.getElem_finRange, Fin.cast_mk, Fin.ext_iff,
    Bool.not_eq_true', beq_eq_false_iff_ne]
  refine and_congr_right' ⟨?_, fun h => ⟨t.1, t.2, rfl, fun j hj => h ⟨j, by omega⟩ hj⟩⟩
  rintro ⟨n, _, rfl, h⟩ u hu
  exact h u.1 hu

section Outputs
variable {s : State}

theorem flowing_none {q : Fin 4} (h : s.holder (.flowsw q) = none) : s.flowing q = true := by
  rw [State.flowing, h]

theorem flowing_some {q : Fin 4} {t : Fin 16} (h : s.holder (.flowsw q) = some t) :
    s.flowing q = s.levels[t] := by
  rw [State.flowing, h]

/-- The valve output of the granted point is active in OPENING and STROKING (R124, R127; log 26). -/
theorem valveActive_iff {q : Fin 4} : s.valveActive q = true ↔ s.powered = true
    ∧ (s.header.state = .opening ∨ s.header.state = .stroking)
    ∧ ∃ g, s.header.grant = some g ∧ g.point = q := by
  unfold State.valveActive Header.granting
  cases s.header.grant with
  | none => simp only [Bool.and_false, Bool.false_eq_true, reduceCtorEq, false_and, exists_false,
      and_false]
  | some g => simp only [Bool.and_eq_true, Bool.or_eq_true, beq_iff_eq, Option.some.injEq,
      exists_eq_left', and_assoc]

/-- The drive output of a pump is active in STROKING while its stroke is in DRIVE (R110). -/
theorem driveActive_iff {p : Fin 2} : s.driveActive p = true ↔ s.powered = true
    ∧ s.header.state = .stroking ∧ ∃ k, s.stroke = some k ∧ k.pump = p ∧ k.phase = .drive := by
  unfold State.driveActive
  cases s.stroke with
  | none => simp only [Bool.and_false, Bool.false_eq_true, reduceCtorEq, false_and, exists_false,
      and_false]
  | some k => simp only [Bool.and_eq_true, beq_iff_eq, Option.some.injEq, exists_eq_left',
      and_assoc]

/-- At most one valve output is active (R108). -/
theorem valveActive_unique {q r : Fin 4} (hq : s.valveActive q = true)
    (hr : s.valveActive r = true) : q = r := by
  obtain ⟨_, _, g, hg, rfl⟩ := valveActive_iff.mp hq
  obtain ⟨_, _, g', hg', rfl⟩ := valveActive_iff.mp hr
  rw [Option.some.inj (hg.symm.trans hg')]

/-- At most one drive output is active (R108). -/
theorem driveActive_unique {p r : Fin 2} (hp : s.driveActive p = true)
    (hr : s.driveActive r = true) : p = r := by
  obtain ⟨_, _, k, hk, rfl, _⟩ := driveActive_iff.mp hp
  obtain ⟨_, _, k', hk', rfl, _⟩ := driveActive_iff.mp hr
  rw [Option.some.inj (hk.symm.trans hk')]

end Outputs

/-- READ POINT with membership in the manual mask written out (R127). -/
theorem pointBytes_eq (s : State) (q : Fin 4) : s.pointBytes q
    = byte s.points[q].state.code ++ toBytes 4 s.points[q].limit
      ++ numberOrNone (s.holder (.valve q)) ++ numberOrNone (s.holder (.flowsw q))
      ++ flagByte (s.flowing q) ++ flagByte (s.valveActive q)
      ++ flagByte (decide (q ∈ s.header.mask)) ++ toBytes 8 s.points[q].manualTotal := by
  rw [State.pointBytes, List.contains_eq_mem]

/-- READ PUMP with the pending duty flag written out (R157). -/
theorem pumpBytes_eq (s : State) (p : Fin 2) : s.pumpBytes p
    = byte s.pumps[p].state.code ++ toBytes 4 s.pumps[p].config.mass
      ++ toBytes 2 s.pumps[p].config.onTime ++ toBytes 2 s.pumps[p].config.window
      ++ toBytes 2 s.pumps[p].config.spacing ++ byte s.pumps[p].config.failureLimit
      ++ byte s.pumps[p].unproven ++ toBytes 4 s.pumps[p].stray
      ++ toBytes 4 s.pumps[p].strokes ++ numberOrNone (s.holder (.drive p))
      ++ numberOrNone (s.holder (.proof p)) ++ flagByte (s.driveActive p)
      ++ flagByte (decide (s.pendingDuty = some p)) := by
  rw [State.pumpBytes, Bool.beq_eq_decide_eq]

/-- Settles O8: the fields read by read, then what they derive. -/
theorem readChannelPointAndPumpReturnTheirFields :
    Obligations.ReadChannelPointAndPumpReturnTheirFields := by
  intro s
  refine ⟨readChannel_channel s, fun q => ?point, fun p => ?pump,
    fun n h => readChannel_outOfRange h, fun n h => readPoint_outOfRange h,
    fun n h => readPump_outOfRange h, fun f => ⟨holder_none, fun t => holder_eq_some_iff⟩,
    fun q => ⟨flowing_none, fun t => flowing_some⟩, fun q => valveActive_iff,
    fun p => driveActive_iff, fun q r => valveActive_unique, fun p r => driveActive_unique⟩
  case point =>
    rw [← pointBytes_eq]
    exact readPoint_point s q
  case pump =>
    rw [← pumpBytes_eq]
    exact readPump_pump s p

end Sys2Proof.Machine

/-! SUPPORT and the proof of O26. CONFIGURE CHANNEL (R84, R85). -/

namespace Sys2Proof.Machine

-- One proof after the other: a proof that waits for an earlier one holds a thread and its stack.
set_option Elab.async false

/-! ### The request fields (R201) -/

theorem flag?_byte (b : Bool) : flag? (be (flagByte b)) = some b := by
  cases b <;> rfl

/-- There is no third flag value (log 10). -/
theorem flag?_none {n : Nat} (h : 1 < n) : flag? n = none := by
  obtain ⟨m, rfl⟩ := Nat.exists_eq_add_of_le' h
  rfl

/-- There is no fourth kind (R82). -/
theorem kind?_none {n : Nat} (h : 2 < n) : kind? n = none := by
  obtain ⟨m, rfl⟩ := Nat.exists_eq_add_of_le' h
  rfl

section Fields
variable {channel flag code : List Byte} {lo hi fallback : Nat}

theorem fields_configureChannel (hc : channel.length = 1) (hf : flag.length = 1)
    (hk : code.length = 1) :
    fields [1, 1, 1, 4, 4, 4] (channel ++ flag ++ code
        ++ (toBytes 4 lo ++ toBytes 4 hi ++ toBytes 4 fallback))
      = some [channel, flag, code, toBytes 4 lo, toBytes 4 hi, toBytes 4 fallback] := by
  simp only [List.append_assoc, fields_append hc, fields_append hf, fields_append hk,
    fields_append (length_toBytes 4 lo), fields_append (length_toBytes 4 hi),
    fields_last (length_toBytes 4 fallback), Option.map_some]

/-- The request fields of CONFIGURE CHANNEL, read back from a payload. -/
theorem ruleConfigureChannel_fields {i : Fin 16} {c : ChannelConfig} {kind : Byte}
    (hk : kind? kind.toNat = some c.kind) (hlo : c.lo < 2 ^ 32) (hhi : c.hi < 2 ^ 32)
    (hfall : c.fallback < 2 ^ 32) (s : State) :
    ruleConfigureChannel (byte i.1 ++ flagByte c.enabled ++ [kind]
        ++ (toBytes 4 c.lo ++ toBytes 4 c.hi ++ toBytes 4 c.fallback)) s
      = configureChannel i c s := by
  simp only [ruleConfigureChannel, fields_configureChannel (length_byte i.1)
      (show (flagByte c.enabled).length = 1 from rfl) (show [kind].length = 1 from rfl),
    fin?_be_byte (by decide : 16 ≤ 256), flag?_byte, be_single, hk, be_toBytes (width := 4) hlo,
    be_toBytes (width := 4) hhi, be_toBytes (width := 4) hfall]

/-- A channel outside its numbers, a flag above 1 or a kind code outside its list (R84, R196; log 10). -/
theorem ruleConfigureChannel_outOfRange {channel flag code : Byte}
    (h : 15 < channel.toNat ∨ 1 < flag.toNat ∨ 2 < code.toNat) (s : State) :
    ruleConfigureChannel ([channel, flag, code]
        ++ (toBytes 4 lo ++ toBytes 4 hi ++ toBytes 4 fallback)) s = .refuse .badArgument := by
  have hfields := fields_configureChannel (channel := [channel]) (flag := [flag]) (code := [code])
    (lo := lo) (hi := hi) (fallback := fallback) rfl rfl rfl
  simp only [List.cons_append, List.nil_append] at hfields
  simp only [ruleConfigureChannel, List.cons_append, List.nil_append, hfields, be_single]
  split
  · next hi he hk =>
    rcases h with h | h | h
    · rw [fin?_none (n := 16) h] at hi; cases hi
    · rw [flag?_none h] at he; cases he
    · rw [kind?_none h] at hk; cases hk
  · rfl

end Fields

/-! ### The checks (R82, R84) -/

/-- The ranges of a configuration under the limits of its kind (R82, R84). -/
theorem channelConfig_inRange_iff {c : ChannelConfig} {least most : Nat}
    (h : c.kind.limits = (least, most)) : c.inRange = true
      ↔ (least ≤ c.lo ∧ c.lo ≤ most) ∧ (least ≤ c.hi ∧ c.hi ≤ most) ∧ c.lo < c.hi
        ∧ c.lo ≤ c.fallback ∧ c.fallback ≤ c.hi := by
  simp only [ChannelConfig.inRange, h, Bool.and_eq_true, inRange_iff, decide_eq_true_eq, and_assoc]

/-- The P or T channel of an IN_SERVICE run (R84). -/
theorem channelInUse_iff {s : State} {i : Fin 16} : s.channelInUse i = true
    ↔ ∃ r : Fin 6, s.runs[r].state = .inService
        ∧ (s.runs[r].config.pChannel = i ∨ s.runs[r].config.tChannel = i) := by
  simp only [State.channelInUse, List.any_eq_true, mem_runNumbers, true_and, Bool.and_eq_true,
    Bool.or_eq_true, beq_iff_eq]

section Checks
variable {i : Fin 16} {c : ChannelConfig} {s : State}

theorem configureChannel_passed (hr : c.inRange = true)
    (hu : c.kind = s.channels[i].config.kind ∨ s.channelInUse i = false) :
    configureChannel i c s
      = .ok { s with channels := editAt s.channels i (·.configured c) } [] := by
  rw [configureChannel, hr, if_neg (by decide), if_neg]
  rintro ⟨hkind, huse⟩
  rcases hu with hu | hu
  · exact hkind hu
  · rw [hu] at huse; cases huse

theorem configureChannel_inUse (hr : c.inRange = true)
    (hk : c.kind ≠ s.channels[i].config.kind) (hu : s.channelInUse i = true) :
    configureChannel i c s = .refuse .inUse := by
  rw [configureChannel, hr, if_neg (by decide), if_pos ⟨hk, hu⟩]

theorem configureChannel_outOfRange (hr : ¬ c.inRange = true) :
    configureChannel i c s = .refuse .badArgument := by
  rw [configureChannel, Bool.eq_false_iff.mpr hr, if_pos (by decide)]

end Checks

/-! ### The channel under its new configuration (R85) -/

/-- The value of a channel that keeps its state: its own while a code gave it, and the new fallback otherwise (R85). -/
theorem keptValue_eq (ch : Channel) (fallback : Nat) : ch.keptValue fallback
    = if ch.state = .live ∨ (ch.state = .held ∧ ch.liveSeen = true) then ch.value
      else fallback := by
  unfold Channel.keptValue
  cases ch.state with
  | live => rfl
  | held => simp only [reduceCtorEq, true_and, false_or]
  | noData => rfl

/-- The channel keeps its state only where it stays enabled with its scale unchanged (R85). -/
theorem channelConfigured_eq (old : Channel) (c : ChannelConfig) : old.configured c
    = if c.enabled = true ∧ old.config.enabled = true ∧ c.kind = old.config.kind
          ∧ c.lo = old.config.lo ∧ c.hi = old.config.hi
      then
        { old with
          config := c
          value := if old.state = .live ∨ (old.state = .held ∧ old.liveSeen = true)
            then old.value else c.fallback }
      else { old with config := c, state := .noData, value := c.fallback, liveSeen := false } := by
  rw [Channel.configured, keptValue_eq, Channel.toNoData]

/-- Settles O26: the fields read back, then the checks in their order. -/
theorem configureChannelWritesFiveFields : Obligations.ConfigureChannelWritesFiveFields := by
  rintro s i _ c least most kind _ rfl hlo hhi hfall hkind rfl
  have hcode : kind? kind.toNat = some c.kind ∧ c.kind.limits = (least, most) := by
    rcases hkind with ⟨hk, rfl, rfl, rfl⟩ | ⟨hk, rfl, rfl, rfl⟩ | ⟨hk, rfl, rfl, rfl⟩
    all_goals rw [hk]; exact ⟨rfl, rfl⟩
  obtain ⟨hk, hlimits⟩ := hcode
  have hrule := ruleConfigureChannel_fields (i := i) hk hlo hhi hfall s
  have hrange := channelConfig_inRange_iff hlimits
  refine ⟨fun ⟨h1, h2, h3, h4, h5⟩ => ?inRange, fun h => ?outOfRange,
    fun channel flag code h =>
      refuses_of (rule := ruleConfigureChannel) rfl (ruleConfigureChannel_outOfRange h s)⟩
  case inRange =>
    have hr : c.inRange = true :=
      hrange.mpr ⟨⟨h1, by omega⟩, ⟨by omega, h3⟩, h2, h4, h5⟩
    refine ⟨fun hu => ?_, fun hne hu => ?_⟩
    · have hu' : c.kind = s.channels[i].config.kind ∨ s.channelInUse i = false := by
        refine hu.imp_right fun hfree => ?_
        rw [← Bool.not_eq_true, channelInUse_iff]
        rintro ⟨r, hin, hch⟩
        exact not_or.mpr (hfree r hin) hch
      have hok := hrule.trans (configureChannel_passed hr hu')
      rw [editAt, channelConfigured_eq] at hok
      exact accepts_of (rule := ruleConfigureChannel) rfl hok
    · exact refuses_of (rule := ruleConfigureChannel) rfl
        (hrule.trans (configureChannel_inUse hr hne (channelInUse_iff.mpr hu)))
  case outOfRange =>
    have hr : ¬ c.inRange = true := by rw [hrange]; omega
    exact refuses_of (rule := ruleConfigureChannel) rfl
      (hrule.trans (configureChannel_outOfRange hr))

end Sys2Proof.Machine

/-! SUPPORT and the proof of O27. SET SCAN (R87), SCAN NOW (R93) and the scan triggers (R87, R88, R92, R95). -/

namespace Sys2Proof.Machine

-- One proof after the other: a proof that waits for an earlier one holds a thread and its stack.
set_option Elab.async false

/-! ### SET SCAN (R87) -/

theorem trigger?_code (src : TriggerSource) : trigger? (be (byte src.code)) = some src := by
  cases src <;> rfl

/-- There is no fourth trigger source (R86). -/
theorem trigger?_none {n : Nat} (h : 2 < n) : trigger? n = none := by
  obtain ⟨m, rfl⟩ := Nat.exists_eq_add_of_le' h
  rfl

theorem ruleSetScan_fields {src : List Byte} {interval : Nat} (hs : src.length = 1)
    (hi : interval < 65536) (s : State) : ruleSetScan (src ++ toBytes 2 interval) s
      = (trigger? (be src)).elim (.refuse .badArgument) fun source => setScan source interval s := by
  simp only [ruleSetScan, fields_append hs, fields_last (length_toBytes 2 interval),
    Option.map_some, be_toBytes (width := 2) hi]
  cases trigger? (be src) <;> rfl

section SetScan
variable {s : State} {src : TriggerSource} {interval : Nat}

/-- An interval source starts the timer afresh, any other stops it (R87). -/
theorem setScan_passed (h1 : 100 ≤ interval) (h2 : interval ≤ 60000)
    (hs : src = .sync → ∃ x : Fin 16, s.terminals[x] = .sync) : setScan src interval s
      = .ok { s with
          scan := { s.scan with
            source := src, interval := interval
            timer := if src = .interval then some (s.now + interval * 1000) else none } } [] := by
  have hsync : ¬ (src = .sync ∧ (s.holder .sync).isNone = true) := by
    rintro ⟨hsrc, hn⟩
    obtain ⟨x, hx⟩ := hs hsrc
    exact holder_none.mp (Option.isNone_iff_eq_none.mp hn) x hx
  rw [setScan, inRange_iff.mpr ⟨h1, h2⟩, if_neg (by decide), if_neg hsync]
  rfl

theorem setScan_outOfRange (h : interval < 100 ∨ 60000 < interval) :
    setScan src interval s = .refuse .badArgument := by
  have hr : ¬ inRange 100 60000 interval = true := by rw [inRange_iff]; omega
  rw [setScan, Bool.eq_false_iff.mpr hr, if_pos (by decide)]

theorem setScan_noSync (h1 : 100 ≤ interval) (h2 : interval ≤ 60000)
    (hs : ∀ x : Fin 16, s.terminals[x] ≠ .sync) :
    setScan .sync interval s = .refuse .conflict := by
  rw [setScan, inRange_iff.mpr ⟨h1, h2⟩, if_neg (by decide),
    if_pos ⟨rfl, Option.isNone_iff_eq_none.mpr (holder_none.mpr hs)⟩]

theorem setScan_accepted (h1 : 100 ≤ interval) (h2 : interval ≤ 60000)
    (hs : src = .sync → ∃ x : Fin 16, s.terminals[x] = .sync) :
    s.accepts .setScan 0x31 (byte src.code ++ toBytes 2 interval) []
      { s with
        scan := { s.scan with
          source := src, interval := interval
          timer := if src = .interval then some (s.now + interval * 1000) else none } } := by
  refine accepts_of (rule := ruleSetScan) rfl ?_
  rw [ruleSetScan_fields (length_byte _) (by omega), trigger?_code]
  exact setScan_passed h1 h2 hs

theorem setScan_badArgument {code : Byte} (hi : interval < 65536)
    (h : 2 < code.toNat ∨ interval < 100 ∨ 60000 < interval) :
    s.refuses .setScan 0x31 ([code] ++ toBytes 2 interval) .badArgument := by
  refine refuses_of (rule := ruleSetScan) rfl ?_
  rw [ruleSetScan_fields (src := [code]) rfl hi, be_single]
  rcases h with h | h
  · rw [trigger?_none h]
    rfl
  · cases trigger? code.toNat with
    | none => rfl
    | some source => exact setScan_outOfRange h

theorem setScan_conflict (h1 : 100 ≤ interval) (h2 : interval ≤ 60000)
    (hs : ∀ x : Fin 16, s.terminals[x] ≠ .sync) :
    s.refuses .setScan 0x31 ([0] ++ toBytes 2 interval) .conflict := by
  refine refuses_of (rule := ruleSetScan) rfl ?_
  rw [ruleSetScan_fields (src := [0]) rfl (by omega)]
  exact setScan_noSync h1 h2 hs

end SetScan

/-! ### Starts and triggers (R88, R92, R93, R95) -/

section Triggers
variable {s : State}

theorem scanNow_idle (h : s.scan.state = .idle) : s.accepts .scanNow 0x32 [] [] (startScan s) :=
  accepts_bare (rule := ruleScanNow) rfl (by rw [ruleScanNow, h])

theorem scanNow_scanning (h : s.scan.state = .scanning) : s.refuses .scanNow 0x32 [] .busy :=
  refuses_bare (rule := ruleScanNow) rfl (by rw [ruleScanNow, h])

theorem scanNow_suspended (h : s.scan.state = .suspended) : s.refuses .scanNow 0x32 [] .denied :=
  refuses_bare (rule := ruleScanNow) rfl (by rw [ruleScanNow, h])

theorem trigger_idle (h : s.scan.state = .idle) : trigger s = startScan s := by
  rw [trigger, h]

theorem trigger_scanning (h : s.scan.state = .scanning) :
    trigger s = raise .scanOverrun 255 s := by
  rw [trigger, h]
  rfl

theorem trigger_suspended (h : s.scan.state = .suspended) : trigger s = s := by
  rw [trigger, h]

/-- A start with a list fixes it and starts the first conversion; one without completes at once (R88). -/
theorem startScan_list {list : List (Fin 16)}
    (hl : list = (List.finRange 16).filter (fun c => s.channels[c].config.enabled)) :
    (list ≠ [] → startScan s =
      { s with
        scan := { s.scan with
          state := .scanning, list := list, done := 0, conversionEnd := s.now + 2000 } })
    ∧ (list = [] → startScan s = completeScan s) := by
  rw [← sixteen_eq] at hl
  rw [startScan, ← hl]
  exact ⟨fun hne => if_neg fun he => hne (List.isEmpty_iff.mp he),
    fun he => if_pos (List.isEmpty_iff.mpr he)⟩

/-! ### The events of the triggers (R87, R202) -/

/-- Under power the time passes before the activation is taken (log 4). -/
theorem syncActivation_powered (h : s.powered = true) (x : Fin 16) (us : Nat) :
    exec (.syncActivation x us) s = .next (syncActivation x (elapse us s)) := by
  show Host.Outcome.next _ = _
  rw [if_pos h]

/-- A terminal without SYNC, or one already high, has no activation (R202; log 3). -/
theorem syncActivation_none {x : Fin 16} (h : s.terminals[x] ≠ .sync ∨ s.levels[x] = true) :
    syncActivation x s = s := by
  refine if_neg ?_
  rintro ⟨hx, hl⟩
  rcases h with h | h
  · exact h hx
  · rw [h] at hl; cases hl

/-- An activation of SYNC is a trigger under source SYNC alone (R87). -/
theorem syncActivation_active {x : Fin 16} (hx : s.terminals[x] = .sync)
    (hl : s.levels[x] = false) : syncActivation x s
      = if s.scan.source = .sync then trigger (setLevel x true s) else setLevel x true s :=
  if_pos ⟨hx, hl⟩

/-- The expiry of the interval timer restarts it for one further interval and triggers (R87). -/
theorem intervalExpiry_running {time : Nat} (h : s.powered = true) (ht : s.scan.timer = some time) :
    exec .intervalExpiry s = .next (trigger
      { s with
        now := max s.now time
        scan := { s.scan with timer := some (time + s.scan.interval * 1000) } }) := by
  refine (expiry_running (timer := (·.scan.timer)) (f := intervalExpiry) h ht).trans ?_
  have hscan : (reach time s).scan = s.scan := rfl
  rw [intervalExpiry, hscan, ht]
  rfl

/-- A stopped timer does not expire (log 3). -/
theorem intervalExpiry_stopped (h : s.powered = true) (ht : s.scan.timer = none) :
    exec .intervalExpiry s = .next s := by
  show expiry (·.scan.timer) intervalExpiry s = .next s
  rw [expiry, event_powered h, ht]

end Triggers

/-- Settles O27: the two requests, the start, the trigger by scan state, and the two events. -/
theorem scanTriggersStartOrAreDropped : Obligations.ScanTriggersStartOrAreDropped := by
  intro s
  refine ⟨fun src interval => setScan_accepted, fun code interval => setScan_badArgument,
    fun interval => setScan_conflict, scanNow_idle, scanNow_scanning, scanNow_suspended,
    fun list => startScan_list, ⟨trigger_idle, trigger_scanning, trigger_suspended⟩,
    fun hp => ⟨fun x us h => ?none, fun x us t hx hl ht => ?active,
      fun time => intervalExpiry_running hp, intervalExpiry_stopped hp⟩⟩
  case none =>
    rw [syncActivation_powered hp, syncActivation_none (s := elapse us s) h]
    rfl
  case active =>
    subst ht
    rw [syncActivation_powered hp, syncActivation_active (s := elapse us s) hx hl]
    exact ⟨fun hs => congrArg _ (if_pos hs), fun hs => congrArg _ (if_neg hs)⟩

end Sys2Proof.Machine

/-! SUPPORT and the proof of O36. The start of a stroke (R109). -/

namespace Sys2Proof.Machine

-- One proof after the other: a proof that waits for an earlier one holds a thread and its stack.
set_option Elab.async false

section StrokeStart
variable {s : State} {g : Grant} {p : Fin 2}

/-- The record of a stroke that starts now under a grant on a pump, with the pump's configuration copied (R109). -/
def State.newStroke (s : State) (g : Grant) (p : Fin 2) : Stroke :=
  { pump := p, point := g.point, beneficiary := g.beneficiary, mass := s.pumps[p].config.mass,
    onTime := s.pumps[p].config.onTime, window := s.pumps[p].config.window,
    spacing := s.pumps[p].config.spacing,
    mode := if (s.holder (.proof p)).isSome then .closedLoop else .openLoop, start := s.now,
    phase := .drive, resolution := .unresolved, driveCut := false, spacingPassed := false }

/-- What a stroke changes at its start, but for the mass reserved at an account (R109). -/
def State.strokeStarted (s : State) (g : Grant) (p : Fin 2) : State :=
  { s with
    pumps := setAt s.pumps p { s.pumps[p] with strokes := (s.pumps[p].strokes + 1) % 2 ^ 32 }
    stroke := some (s.newStroke g p)
    header := { s.header with
      state := .stroking, grant := some { g with strokes := g.strokes + 1 }, timer := none } }

theorem startStroke_manual (hp : s.dutyPump = some p) (hg : g.beneficiary = .manual) :
    startStroke g s = s.strokeStarted g p := by
  simp only [startStroke, hp, hg, State.strokeStarted, State.newStroke]
  rfl

/-- The stroke of an account reserves its mass there (R109). -/
theorem startStroke_account {i : Fin 12} (hp : s.dutyPump = some p)
    (hg : g.beneficiary = .account i) : startStroke g s
      = { s.strokeStarted g p with
          accounts := setAt s.accounts i
            { s.accounts[i] with reserved := s.pumps[p].config.mass } } := by
  simp only [startStroke, hp, hg, State.strokeStarted, State.newStroke]
  rfl

end StrokeStart

/-- Settles O36: the only DUTY pump is found, then the record and the beneficiary. -/
theorem strokeStartFillsTheRecord : Obligations.StrokeStartFillsTheRecord := by
  rintro s g p _ _ rfl hduty hone rfl
  have hp : s.dutyPump = some p := dutyPump_eq hduty hone
  exact ⟨startStroke_manual hp, fun i => startStroke_account hp⟩

end Sys2Proof.Machine

/-! SUPPORT and the proof of O38. The clearing of the stroke record (R115, R136, R147, R152, R153). -/

namespace Sys2Proof.Machine

-- One proof after the other: a proof that waits for an earlier one holds a thread and its stack.
set_option Elab.async false

/-! ### The three conditions (R115) -/

theorem finished_iff {k : Stroke} : k.finished = true
    ↔ k.phase ≠ .drive ∧ k.resolution ≠ .unresolved ∧ k.spacingPassed = true := by
  simp only [Stroke.finished, Bool.and_eq_true, bne_iff_ne, and_assoc]

theorem clearIfFinished_finished {s : State} {k : Stroke} (hk : s.stroke = some k)
    (h : k.finished = true) : clearIfFinished s = clearStroke s := by
  simp only [clearIfFinished, hk, if_pos h]

theorem clearIfFinished_unfinished {s : State} {k : Stroke} (hk : s.stroke = some k)
    (h : ¬ k.finished = true) : clearIfFinished s = s := by
  simp only [clearIfFinished, hk, if_neg h]

/-! ### The pending selection (R147, R152, R153) -/

/-- There are two pumps. -/
theorem other_pump_unique : ∀ p other j : Fin 2, other ≠ p → p ≠ j → j = other := by decide

section PendingDuty
variable {s : State} {p : Fin 2}

theorem applyPendingDuty_none (h : s.pendingDuty = none) : applyPendingDuty s = s := by
  rw [applyPendingDuty, h]

theorem applyPendingDuty_dropped (h : s.pendingDuty = some p) (hp : s.pumps[p].state ≠ .standby) :
    applyPendingDuty s = { s with pendingDuty := none } := by
  simp only [applyPendingDuty, h, if_neg hp]

/-- Of two pumps, the one that becomes DUTY and the other, which then is not (R147). -/
theorem makeDuty_eq {other : Fin 2} (ho : other ≠ p) (hp : s.pumps[p].state = .standby) :
    makeDuty p s = { s with
      pumps := setAt (setAt s.pumps other { s.pumps[other] with
          state := if s.pumps[other].state = .duty then .standby else s.pumps[other].state })
        p { s.pumps[p] with state := .duty } } := by
  have htable : editAt (mapAll (fun u : Pump =>
        if u.state = .duty then { u with state := .standby } else u) s.pumps) p
          (fun u => { u with state := .duty })
      = setAt (setAt s.pumps other { s.pumps[other] with
          state := if s.pumps[other].state = .duty then .standby else s.pumps[other].state })
        p { s.pumps[p] with state := .duty } := by
    refine table_ext _ _ fun j => ?_
    rw [editAt_get, setAt_get]
    split
    · rw [mapAll_get, hp, if_neg (by decide)]
    · next hj =>
      obtain rfl : j = other := other_pump_unique p other j ho hj
      rw [mapAll_get, setAt_get, if_pos rfl]
      split <;> rfl
  rw [makeDuty, htable]

theorem applyPendingDuty_applied {other : Fin 2} (h : s.pendingDuty = some p)
    (hp : s.pumps[p].state = .standby) (ho : other ≠ p) : applyPendingDuty s = { s with
      pendingDuty := none
      pumps := setAt (setAt s.pumps other { s.pumps[other] with
          state := if s.pumps[other].state = .duty then .standby else s.pumps[other].state })
        p { s.pumps[p] with state := .duty } } := by
  simp only [applyPendingDuty, h, if_pos hp, makeDuty_eq ho hp]

end PendingDuty

/-! ### The header after a clearing (R136) -/

section AfterClearing
variable {s : State} {g : Grant}

theorem continueBurst_passed (hg : s.header.grant = some g) (ht : s.strokeTest g = true) :
    continueBurst s = startStroke g s := by
  simp only [continueBurst, hg, if_pos ht]

theorem continueBurst_failed (hg : s.header.grant = some g) (ht : s.strokeTest g = false) :
    continueBurst s = { s with header := { s.header with
      state := .closing, timer := some (s.now + g.pause * 1000) } } := by
  have h : continueBurst s = closeHeader g s := by
    simp only [continueBurst, hg, ht, Bool.false_eq_true, if_false]
  exact h

theorem clearStroke_stroking {t : State} (ht : applyPendingDuty { s with stroke := none } = t)
    (h : s.header.state = .stroking) : clearStroke s = continueBurst t := by
  have hs : t.header.state = .stroking := by rw [← ht]; simpa using h
  rw [clearStroke, ht, if_pos hs]

theorem clearStroke_notStroking {t : State} (ht : applyPendingDuty { s with stroke := none } = t)
    (h : s.header.state ≠ .stroking) : clearStroke s = t := by
  have hs : t.header.state ≠ .stroking := by rw [← ht]; simpa using h
  rw [clearStroke, ht, if_neg hs]

end AfterClearing

/-- Settles O38: the pending selection, then the header, at the last of the three conditions. -/
theorem finishedStrokeIsCleared : Obligations.FinishedStrokeIsCleared := by
  intro s t u k hk hpending hheader
  have ht : applyPendingDuty { s with stroke := none } = t := by
    rcases hpending with ⟨hn, rfl⟩ | ⟨p, hp, hstate, rfl⟩ | ⟨p, other, hp, hstate, ho, rfl⟩
    · exact applyPendingDuty_none hn
    · exact applyPendingDuty_dropped hp hstate
    · exact applyPendingDuty_applied hp hstate ho
  have hu : clearStroke s = u := by
    rcases hheader with ⟨hs, rfl⟩ | ⟨hs, g, hg, hnext⟩
    · exact clearStroke_notStroking ht hs
    · have hgrant : t.header.grant = some g := by rw [← ht]; simpa using hg
      have hnow : t.now = s.now := by rw [← ht]; simp
      rw [clearStroke_stroking ht hs]
      rcases hnext with ⟨htest, rfl⟩ | ⟨htest, rfl⟩
      · exact continueBurst_passed hgrant htest
      · rw [continueBurst_failed hgrant htest, hnow]
  refine ⟨fun h => ?_, fun h => ?_⟩
  · rw [clearIfFinished_finished hk (finished_iff.mpr h), hu]
  · refine clearIfFinished_unfinished hk fun hf => ?_
    obtain ⟨hphase, hresolved, hpassed⟩ := finished_iff.mp hf
    rcases h with h | h | h
    · exact hphase h
    · exact hresolved h
    · rw [h] at hpassed; cases hpassed

end Sys2Proof.Machine

/-! SUPPORT and the proof of O39. PROOF_ACTIVATION (R111, R116, R202). -/

namespace Sys2Proof.Machine

-- One proof after the other: a proof that waits for an earlier one holds a thread and its stack.
set_option Elab.async false

theorem provenBy_iff {k : Stroke} {p : Fin 2} : k.provenBy p = true
    ↔ k.pump = p ∧ k.mode = .closedLoop ∧ k.resolution = .unresolved := by
  simp only [Stroke.provenBy, Bool.and_eq_true, beq_iff_eq, and_assoc]

section Proofs
variable {s : State} {p : Fin 2} {x : Fin 16}

theorem proofOf_proven {k : Stroke} (hk : s.stroke = some k) (h : k.provenBy p = true) :
    proofOf p s = grantIfDue (clearIfFinished (resolve .proven s)) := by
  simp only [proofOf, hk, if_pos h]

/-- A proof that no stroke waits for counts as stray (R116). -/
theorem proofOf_stray (h : ∀ k, s.stroke = some k → ¬ k.provenBy p = true) :
    proofOf p s = strayProof p s := by
  unfold proofOf
  split
  · rfl
  · next k hk => exact if_neg (h k hk)

/-- Under power the time passes before the activation is taken (log 4). -/
theorem proofActivation_powered (h : s.powered = true) (x : Fin 16) (us : Nat) :
    exec (.proofActivation x us) s = .next (proofActivation x (elapse us s)) := by
  show Host.Outcome.next _ = _
  rw [if_pos h]

theorem proofActivation_active (hx : s.terminals[x] = .proof p) (hl : s.levels[x] = false) :
    proofActivation x s = proofOf p (setLevel x true s) := by
  simp only [proofActivation, hx, hl, Bool.false_eq_true, if_false]

/-- A terminal without PROOF, or one already high, has no activation (R202; log 3). -/
theorem proofActivation_none (h : (∀ p, s.terminals[x] ≠ .proof p) ∨ s.levels[x] = true) :
    proofActivation x s = s := by
  unfold proofActivation
  split
  · next p hp => exact if_pos (h.resolve_left fun hn => hn p hp)
  · rfl

end Proofs

/-- Settles O39: the activation proves the stroke or is stray, and is none elsewhere. -/
theorem proofActivationProvesTheStroke : Obligations.ProofActivationProvesTheStroke := by
  intro s x us hpow
  rw [proofActivation_powered hpow]
  refine ⟨?active, fun h => ?none⟩
  case none => rw [proofActivation_none (s := elapse us s) h]; rfl
  case active =>
    rintro p _ hx hl rfl
    rw [proofActivation_active (s := elapse us s) hx hl]
    refine ⟨fun k hk hpump hmode hres => ?_, fun h => ?_⟩
    · rw [proofOf_proven (s := setLevel x true (elapse us s)) hk
        (provenBy_iff.mpr ⟨hpump, hmode, hres⟩)]
      rfl
    · rw [proofOf_stray (s := setLevel x true (elapse us s))]
      · rfl
      · intro k hk hproven
        obtain ⟨hpump, hmode, hres⟩ := provenBy_iff.mp hproven
        rcases h with hn | ⟨k', hk', hother⟩
        · cases hn.symm.trans hk
        · obtain rfl : k' = k := Option.some.inj (hk'.symm.trans hk)
          rcases hother with h | h | h
          · exact h hpump
          · exact h hmode
          · exact h hres

end Sys2Proof.Machine

/-! SUPPORT and the proof of O40. ON_TIME_EXPIRY, PROOF_WINDOW_EXPIRY and SPACING_EXPIRY (R110, R112, R114, R115). -/

namespace Sys2Proof.Machine

-- One proof after the other: a proof that waits for an earlier one holds a thread and its stack.
set_option Elab.async false

section StrokeTimers
variable {s : State} {k : Stroke}

/-- Without a stroke no timer of the record runs (R115; log 3). -/
theorem strokeTimers_none (h : s.stroke = none) :
    onTimeExpiry s = s ∧ proofWindowExpiry s = s ∧ spacingExpiry s = s := by
  simp only [onTimeExpiry, proofWindowExpiry, spacingExpiry, h, and_self]

/-! ### The on-time (R110, R114) -/

/-- The state in which the on-time has expired, before a resolution (R110). -/
def State.driveEnded (k : Stroke) (s : State) : State :=
  { reach (k.due k.onTime) s with stroke := some k.driven }

theorem onTimeExpiry_proves (hk : s.stroke = some k) (hd : k.phase = .drive)
    (h : k.resolution = .unresolved ∧ k.mode = .openLoop ∧ k.driveCut = false) :
    onTimeExpiry s = grantIfDue (clearIfFinished (resolve .proven (s.driveEnded k))) := by
  simp only [onTimeExpiry, hk, if_neg (not_not_intro hd), if_pos h, State.driveEnded]

theorem onTimeExpiry_waits (hk : s.stroke = some k) (hd : k.phase = .drive)
    (h : ¬ (k.resolution = .unresolved ∧ k.mode = .openLoop ∧ k.driveCut = false)) :
    onTimeExpiry s = grantIfDue (clearIfFinished (s.driveEnded k)) := by
  simp only [onTimeExpiry, hk, if_neg (not_not_intro hd), if_neg h, State.driveEnded]

theorem onTimeExpiry_driven (hk : s.stroke = some k) (hd : k.phase ≠ .drive) :
    onTimeExpiry s = s := by
  simp only [onTimeExpiry, hk, if_pos hd]

/-! ### The proof window (R112, R114) -/

theorem windowResolves_iff : k.windowResolves = true
    ↔ k.resolution = .unresolved ∧ (k.mode = .closedLoop ∨ k.driveCut = true) := by
  simp only [Stroke.windowResolves, Bool.and_eq_true, Bool.or_eq_true, beq_iff_eq]

theorem proofWindowExpiry_resolves (hk : s.stroke = some k) (h : k.windowResolves = true) :
    proofWindowExpiry s = grantIfDue (clearIfFinished
      (resolve (if k.driveCut then .unprovenNoPenalty else .unproven)
        (reach (k.due k.window) s))) := by
  simp only [proofWindowExpiry, hk, if_pos h]

theorem proofWindowExpiry_nothing (hk : s.stroke = some k) (h : ¬ k.windowResolves = true) :
    proofWindowExpiry s = s := by
  simp only [proofWindowExpiry, hk, if_neg h]

/-! ### The spacing (R115) -/

theorem spacingExpiry_passes (hk : s.stroke = some k) (h : k.spacingPassed = false) :
    spacingExpiry s = grantIfDue (clearIfFinished
      { reach (k.due k.spacing) s with stroke := some { k with spacingPassed := true } }) := by
  simp only [spacingExpiry, hk, h, Bool.false_eq_true, if_false]

theorem spacingExpiry_passed (hk : s.stroke = some k) (h : k.spacingPassed = true) :
    spacingExpiry s = s := by
  simp only [spacingExpiry, hk, if_pos h]

end StrokeTimers

/-- Settles O40: each of the three timers in each state of the record. -/
theorem strokeTimersActOnTheRecord : Obligations.StrokeTimersActOnTheRecord := by
  intro s hpow
  have hon : exec .onTimeExpiry s = .next (onTimeExpiry s) := event_powered hpow
  have hwindow : exec .proofWindowExpiry s = .next (proofWindowExpiry s) := event_powered hpow
  have hspacing : exec .spacingExpiry s = .next (spacingExpiry s) := event_powered hpow
  rw [hon, hwindow, hspacing]
  refine ⟨fun k t hk => ⟨?drive, ?driven, ?window, ?closed, ?spacing, ?passed⟩, fun hn => ?none⟩
  case drive =>
    rintro hd rfl
    refine ⟨fun h => congrArg _ (onTimeExpiry_proves hk hd h), fun h => ?_⟩
    refine congrArg _ (onTimeExpiry_waits hk hd ?_)
    rintro ⟨hres, hmode, hcut⟩
    rcases h with h | h | h
    · exact h hres
    · rw [hmode] at h; cases h
    · rw [hcut] at h; cases h
  case driven => exact fun hd => congrArg _ (onTimeExpiry_driven hk hd)
  case window =>
    rintro hres rfl
    refine ⟨fun hcut => ?_, fun hcut hmode => ?_⟩
    · rw [proofWindowExpiry_resolves hk (windowResolves_iff.mpr ⟨hres, .inr hcut⟩), hcut]
      rfl
    · rw [proofWindowExpiry_resolves hk (windowResolves_iff.mpr ⟨hres, .inl hmode⟩), hcut]
      rfl
  case closed =>
    intro h
    refine congrArg _ (proofWindowExpiry_nothing hk fun hw => ?_)
    obtain ⟨hres, hmode⟩ := windowResolves_iff.mp hw
    rcases h with h | ⟨hopen, hcut⟩
    · exact h hres
    · rcases hmode with h | h
      · rw [hopen] at h; cases h
      · rw [hcut] at h; cases h
  case spacing => exact fun h => congrArg _ (spacingExpiry_passes hk h)
  case passed => exact fun h => congrArg _ (spacingExpiry_passed hk h)
  case none =>
    obtain ⟨h1, h2, h3⟩ := strokeTimers_none hn
    rw [h1, h2, h3]
    exact ⟨rfl, rfl, rfl⟩

end Sys2Proof.Machine

/-! SUPPORT and the proof of O35. The end-requested flag (R113, R135) and the trip set (R142, R143, R159). -/

namespace Sys2Proof.Machine

-- One proof after the other: a proof that waits for an earlier one holds a thread and its stack.
set_option Elab.async false

/-! ### The end-requested flag (R135) -/

theorem granting_iff {h : Header} :
    h.granting = true ↔ h.state = .opening ∨ h.state = .stroking := by
  simp only [Header.granting, Bool.or_eq_true, beq_iff_eq]

section RequestEnd
variable {s : State} {met : Grant → Bool} {g : Grant}

theorem requestEnd_noGrant (hg : s.header.grant = none) : requestEnd met s = s := by
  simp only [requestEnd, hg]

theorem requestEnd_unaffected (hg : s.header.grant = some g)
    (h : ¬ ((s.header.state = .opening ∨ s.header.state = .stroking) ∧ met g = true)) :
    requestEnd met s = s := by
  have hc : ¬ (s.header.granting && met g) = true := by
    rwa [Bool.and_eq_true, granting_iff]
  simp only [requestEnd, hg, if_neg hc]

theorem requestEnd_affected (hg : s.header.grant = some g)
    (hs : s.header.state = .opening ∨ s.header.state = .stroking) (hm : met g = true) :
    requestEnd met s
      = { s with header := { s.header with grant := some { g with endRequested := true } } } := by
  have hc : (s.header.granting && met g) = true := by
    rw [Bool.and_eq_true, granting_iff]; exact ⟨hs, hm⟩
  simp only [requestEnd, hg, if_pos hc]

end RequestEnd

/-! ### The trip and its end (R142, R143) -/

section Trips
variable {s : State}

/-- The trip set has a member (R158). -/
theorem tripSet_nonempty (t : TripSet) : t.isEmpty = false
    ↔ t.stop = true ∨ t.supply = true ∨ ∃ m : Fin 16, t.monitors[m] = true := by
  rw [← Bool.not_eq_true, tripSet_isEmpty]
  constructor
  · intro h
    rcases Bool.eq_false_or_eq_true t.stop with hstop | hstop
    · exact .inl hstop
    rcases Bool.eq_false_or_eq_true t.supply with hsupply | hsupply
    · exact .inr (.inl hsupply)
    by_cases hm : ∃ m : Fin 16, t.monitors[m] = true
    · exact .inr (.inr hm)
    · exact absurd ⟨hstop, hsupply, fun m => Bool.eq_false_iff.mpr fun h => hm ⟨m, h⟩⟩ h
  · rintro (h | h | ⟨m, h⟩) ⟨hstop, hsupply, hmonitors⟩
    · rw [hstop] at h; cases h
    · rw [hsupply] at h; cases h
    · rw [hmonitors m] at h; cases h

/-- Without points in the mask manual service has nothing to end (R139). -/
theorem endManual_none (h : s.header.mask = []) :
    endManual s = { s with header := { s.header with mask := [] } } := by
  rw [endManual, h, List.isEmpty_nil, if_pos rfl, ← h]

theorem endManual_some (h : s.header.mask ≠ []) : endManual s = raise .manualDoseEnd 255
    { s with header := { s.header with mask := [], manualTimer := none } } := by
  have hm : ¬ s.header.mask.isEmpty = true := fun he => h (List.isEmpty_iff.mp he)
  simp only [endManual, if_neg hm]
  rfl

/-- The stroke record under a trip: cut if its drive output is active (R110, R113). -/
def State.trippedStroke (s : State) : Option Stroke :=
  if s.header.state = .stroking then s.stroke.map Stroke.cut else s.stroke

theorem trippedStroke_driving {k : Stroke} (hs : s.header.state = .stroking)
    (hk : s.stroke = some k) (hd : k.phase = .drive) :
    s.trippedStroke = some { k with driveCut := true } := by
  rw [State.trippedStroke, if_pos hs, hk, Option.map_some, Stroke.cut, if_pos hd]

/-- Without an active drive output the trip leaves the record as it stands (R113). -/
theorem trippedStroke_notDriving (h : s.header.state ≠ .stroking ∨ s.stroke = none
    ∨ ∃ k, s.stroke = some k ∧ k.phase ≠ .drive) : s.trippedStroke = s.stroke := by
  rw [State.trippedStroke]
  rcases h with h | h | ⟨k, hk, hd⟩
  · rw [if_neg h]
  · simp only [h, Option.map_none, ite_self]
  · simp only [hk, Option.map_some, Stroke.cut, if_neg hd, ite_self]

/-- The trip at a header not yet TRIPPED, without manual service (R113, R142). -/
theorem headerTrip_noMask (h : s.header.state ≠ .tripped) (hm : s.header.mask = []) :
    headerTrip s = { s with
      stroke := s.trippedStroke
      header := { s.header with state := .tripped, timer := none, grant := none, mask := [] } } := by
  rw [headerTrip, if_neg h]
  exact endManual_none hm

/-- The same with manual service, which ends with it (R139, R142). -/
theorem headerTrip_mask (h : s.header.state ≠ .tripped) (hm : s.header.mask ≠ []) :
    headerTrip s = raise .manualDoseEnd 255 { s with
      stroke := s.trippedStroke
      header := { s.header with
        state := .tripped, timer := none, grant := none, mask := [], manualTimer := none } } := by
  rw [headerTrip, if_neg h]
  exact endManual_some hm

theorem headerUntrip_eq (s : State) : headerUntrip s = { s with header := { s.header with
    state := if s.header.state = .tripped then .idle else s.header.state } } := by
  rw [headerUntrip]
  split
  · rfl
  · rfl

end Trips

/-! ### A change of the trip set (R159) -/

section ChangeTrips
variable {s : State} {f : TripSet → TripSet}

theorem changeTrips_first (hb : s.trips.isEmpty = true) (ha : (f s.trips).isEmpty = false) :
    changeTrips f s = headerTrip (raise .headerTrip 255 { s with trips := f s.trips }) := by
  simp only [changeTrips, hb, ha, Bool.not_false, Bool.and_self, if_true]
  rfl

theorem changeTrips_last (hb : s.trips.isEmpty = false) (ha : (f s.trips).isEmpty = true) :
    changeTrips f s = headerUntrip { s with trips := f s.trips } := by
  simp only [changeTrips, hb, ha, Bool.not_false, Bool.and_self, if_true, Bool.not_true,
    Bool.false_eq_true, if_false]

/-- A change that neither fills nor empties the set (R159). -/
theorem changeTrips_other (h : (f s.trips).isEmpty = s.trips.isEmpty) :
    changeTrips f s = { s with trips := f s.trips } := by
  simp only [changeTrips, h, Bool.and_not_self, Bool.not_and_self, Bool.false_eq_true, if_false]

/-- The first source trips the header, whatever points the mask holds (R142). -/
theorem changeTrips_trips_header (hb : s.trips.isEmpty = true)
    (ha : (f s.trips).isEmpty = false) (hs : s.header.state ≠ .tripped) {t : State}
    (ht : t = raise .headerTrip 255
      { s with
        trips := f s.trips
        stroke := s.trippedStroke
        header := { s.header with
          state := .tripped, timer := none, grant := none, mask := []
          manualTimer := if s.header.mask = [] then s.header.manualTimer else none } }) :
    changeTrips f s = if s.header.mask = [] then t else raise .manualDoseEnd 255 t := by
  subst ht
  rw [changeTrips_first hb ha]
  by_cases hm : s.header.mask = []
  · simp only [if_pos hm]
    exact headerTrip_noMask hs hm
  · simp only [if_neg hm]
    exact headerTrip_mask hs hm

end ChangeTrips

/-- Settles O35: the flag by grant and header state, the trip set by its emptiness before and after. -/
theorem tripSetMovesTheHeader : Obligations.TripSetMovesTheHeader := by
  refine ⟨fun s met => ⟨fun g => requestEnd_affected, ?flag⟩, ?trips⟩
  case flag =>
    intro h
    cases hg : s.header.grant with
    | none => exact requestEnd_noGrant hg
    | some g =>
      refine requestEnd_unaffected hg ?_
      rintro ⟨hstate, hmet⟩
      rcases h with h | ⟨ho, hs⟩ | ⟨g', hg', h⟩
      · rw [hg] at h; cases h
      · exact hstate.elim ho hs
      · obtain rfl : g' = g := Option.some.inj (hg'.symm.trans hg)
        rw [hmet] at h; cases h
  case trips =>
    intro s f before after t hbefore hafter
    rw [← tripSet_nonempty] at hbefore hafter
    refine ⟨?first, ?last, ?other⟩
    case first =>
      intro hb ha hs stroke hstroke ht
      have hcut : s.trippedStroke = stroke := by
        rcases hstroke with ⟨hstroking, k, hk, hd, rfl⟩ | ⟨hnot, rfl⟩
        · exact trippedStroke_driving hstroking hk hd
        · exact trippedStroke_notDriving hnot
      subst hcut
      rw [hbefore, Bool.not_eq_false] at hb
      exact changeTrips_trips_header hb (hafter.mp ha) hs ht
    case last =>
      intro hb ha
      rw [hafter, Bool.not_eq_false] at ha
      rw [changeTrips_last (hbefore.mp hb) ha, headerUntrip_eq]
    case other =>
      intro h
      rw [hbefore, hafter] at h
      refine changeTrips_other ?_
      cases hb : s.trips.isEmpty with
      | false => exact h.mp hb
      | true =>
        rw [← Bool.not_eq_false]
        intro ha
        rw [h.mpr ha] at hb; cases hb

end Sys2Proof.Machine

/-! SUPPORT and the proof of O32. The grant decision (R106, R131, R132). -/

namespace Sys2Proof.Machine

-- One proof after the other: a proof that waits for an earlier one holds a thread and its stack.
set_option Elab.async false

/-! ### The conditions of a decision (R106, R131) -/

section Conditions
variable {s : State}

theorem dutyPump_none (h : ¬ ∃ p : Fin 2, s.pumps[p].state = .duty) : s.dutyPump = none := by
  rwa [← dutyPump_isSome, Option.not_isSome_iff_eq_none] at h

/-- An account that is OPEN, at an ENABLED and flowing point, with a free backlog of one stroke mass (R106). -/
theorem candidate_iff {i : Fin 12} {p : Fin 2} (hp : s.dutyPump = some p) :
    s.candidate i = true ↔ s.accounts[i].state = .opened
      ∧ (∃ q, s.accounts[i].point = some q ∧ s.points[q].state = .enabled ∧ s.flowing q = true)
      ∧ s.pumps[p].config.mass ≤ s.accounts[i].freeBacklog := by
  simp only [State.candidate, hp, Bool.and_eq_true, beq_iff_eq, decide_eq_true_eq, and_assoc]
  cases s.accounts[i].point with
  | none => simp only [Bool.false_eq_true, reduceCtorEq, false_and, exists_false]
  | some q => simp only [Bool.and_eq_true, beq_iff_eq, Option.some.injEq, exists_eq_left']

theorem candidate_noDuty {i : Fin 12} (h : s.dutyPump = none) : s.candidate i = false := by
  simp only [State.candidate, h, Bool.and_false]

theorem manualDue_iff : s.manualDue = true
    ↔ s.header.mask ≠ [] ∧ ∃ p : Fin 2, s.pumps[p].state = .duty := by
  rw [State.manualDue, Bool.and_eq_true, dutyPump_isSome, Bool.not_eq_true', ← Bool.not_eq_true,
    List.isEmpty_iff]

/-- The header can take a grant: it is IDLE, and neither a trip source nor a stroke record is left (R131). -/
def State.headerFree (s : State) : Prop :=
  s.header.state = .idle ∧ s.trips.isEmpty = true ∧ s.stroke = none

theorem decisionDue_iff : s.decisionDue = true
    ↔ s.headerFree ∧ (s.manualDue = true ∨ ∃ i : Fin 12, s.candidate i = true) := by
  simp only [State.decisionDue, State.headerFree, Bool.and_eq_true, Bool.or_eq_true, beq_iff_eq,
    Option.isNone_iff_eq_none, List.any_eq_true, mem_slots, true_and, and_assoc]

end Conditions

/-! ### Whom the decision grants to (R132) -/

section Decision
variable {s : State}

theorem grantIfDue_notDue (h : ¬ s.decisionDue = true) : grantIfDue s = s := by
  rw [grantIfDue, if_neg h]

/-- MANUAL comes before every account (R131). -/
theorem grantIfDue_manual (hf : s.headerFree) (hm : s.manualDue = true) :
    grantIfDue s = grantManual s := by
  rw [grantIfDue, if_pos (decisionDue_iff.mpr ⟨hf, .inl hm⟩), if_pos hm]

theorem grantIfDue_account {i : Fin 12} (hf : s.headerFree) (hm : ¬ s.manualDue = true)
    (hc : s.candidate i = true) : grantIfDue s = grantAccount s := by
  rw [grantIfDue, if_pos (decisionDue_iff.mpr ⟨hf, .inr ⟨i, hc⟩⟩), if_neg hm]

/-- The grant that the header's configuration fills (R132). -/
def State.newGrant (s : State) (b : Beneficiary) (q : Fin 4) : Grant :=
  { beneficiary := b, point := q, strokes := 0, endRequested := false,
    burstLimit := s.header.config.burstLimit, settle := s.header.config.settle,
    pause := s.header.config.pause }

/-- The point granted becomes the manual pointer (R132). -/
theorem grantManual_eq {q : Fin 4} (h : (pointsAfter s.header.manualPointer).find?
      (fun q => s.header.mask.contains q) = some q) : grantManual s =
    { s with
      header := { s.header with
        state := .opening, grant := some (s.newGrant .manual q), manualPointer := q
        timer := some (s.now + s.header.config.settle * 1000) } } := by
  simp only [grantManual, h]
  rfl

/-- The slot granted becomes the rotation pointer (R132). -/
theorem grantAccount_eq {i : Fin 12} {q : Fin 4} (hc : s.chosen = some i)
    (hq : s.accounts[i].point = some q) : grantAccount s =
    { s with
      header := { s.header with
        state := .opening, grant := some (s.newGrant (.account i) q), rotation := i
        timer := some (s.now + s.header.config.settle * 1000) } } := by
  simp only [grantAccount, hc, hq]
  rfl

/-- The first point of the mask after the manual pointer, counted in cyclic order (R132). -/
theorem manualPoint_eq {q : Fin 4} {k : Nat} (hq : q ∈ s.header.mask) (hk : k < 4)
    (hqk : q.1 = (s.header.manualPointer.1 + 1 + k) % 4)
    (hfirst : ∀ (r : Fin 4) (j : Nat), j < k → r.1 = (s.header.manualPointer.1 + 1 + j) % 4 →
      r ∉ s.header.mask) :
    (pointsAfter s.header.manualPointer).find? (fun q => s.header.mask.contains q) = some q := by
  obtain rfl : q = ⟨_, Nat.mod_lt _ (by decide)⟩ := Fin.ext hqk
  rw [pointsAfter_eq]
  refine find_range _ _ k hk (List.contains_iff_mem.mpr hq) fun j hj => ?_
  rw [← Bool.not_eq_true, List.contains_iff_mem]
  exact hfirst _ j hj rfl

/-- ROTATING takes the first candidate after the rotation pointer, counted in cyclic order (R132). -/
theorem chosen_rotating {i : Fin 12} {k : Nat} (hmode : s.header.config.mode = .rotating)
    (hi : s.candidate i = true) (hk : k < 12) (hik : i.1 = (s.header.rotation.1 + 1 + k) % 12)
    (hfirst : ∀ (j : Fin 12) (n : Nat), n < k → j.1 = (s.header.rotation.1 + 1 + n) % 12 →
      s.candidate j = false) : s.chosen = some i := by
  obtain rfl : i = ⟨_, Nat.mod_lt _ (by decide)⟩ := Fin.ext hik
  simp only [State.chosen, hmode, slotsAfter_eq]
  exact find_range _ _ k hk hi fun n hn => hfirst _ n hn rfl

/-- FIXED takes the candidate of the highest priority, the lowest slot of equals (R132). -/
theorem chosen_fixed {i : Fin 12} (hmode : s.header.config.mode = .fixed)
    (hi : s.candidate i = true)
    (hbest : ∀ j : Fin 12, s.candidate j = true →
      s.accounts[j].priority < s.accounts[i].priority
        ∨ (s.accounts[j].priority = s.accounts[i].priority ∧ i.1 ≤ j.1)) :
    s.chosen = some i := by
  have hsorted : slots.Pairwise (fun a b : Fin 12 => a.1 < b.1) := by decide
  simp only [State.chosen, hmode]
  refine preferred_foldl s i _ none (fun j hj => hbest j (List.mem_filter.mp hj).2)
    (hsorted.filter _) (.inr ⟨List.mem_filter.mpr ⟨mem_slots i, hi⟩, fun j hj => ?_⟩)
  cases hj

end Decision

/-- Settles O32: the conditions of the decision, then MANUAL, then the accounts by the mode. -/
theorem grantDecisionChoosesBeneficiary : Obligations.GrantDecisionChoosesBeneficiary := by
  intro s free duty grant hfree hduty hgrant
  have hfree' : free ↔ s.headerFree := by
    rw [hfree, State.headerFree, tripSet_isEmpty]
    simp only [and_assoc]
  have hgrant' : grant = s.newGrant := funext fun b => funext fun q => hgrant b q
  have hmanual : s.manualDue = true ↔ s.header.mask ≠ [] ∧ duty := by rw [manualDue_iff, hduty]
  subst hgrant'
  refine ⟨?candidate, ?notFree, ?manual, ?accounts⟩
  case candidate =>
    rintro i _ rfl
    exact ⟨fun p hp hone => candidate_iff (dutyPump_eq hp hone),
      fun hd => candidate_noDuty (dutyPump_none (mt hduty.mpr hd))⟩
  case notFree =>
    exact fun hf => grantIfDue_notDue fun h => hf (hfree'.mpr (decisionDue_iff.mp h).1)
  case manual =>
    intro hf hd q k hq hk hqk hfirst
    rw [grantIfDue_manual (hfree'.mp hf) (hmanual.mpr ⟨List.ne_nil_of_mem hq, hd⟩)]
    exact grantManual_eq (manualPoint_eq hq hk hqk hfirst)
  case accounts =>
    intro hf hm
    have hnot : ¬ s.manualDue = true := fun h =>
      hm.elim (hmanual.mp h).1 fun hd => hd (hmanual.mp h).2
    refine ⟨?_, fun hnone => grantIfDue_notDue fun h => ?_⟩
    · rintro i q _ hi hq rfl
      rw [grantIfDue_account (hfree'.mp hf) hnot hi]
      exact ⟨fun hmode hbest => grantAccount_eq (chosen_fixed hmode hi hbest) hq,
        fun hmode k hk hik hfirst =>
          grantAccount_eq (chosen_rotating hmode hi hk hik hfirst) hq⟩
    · obtain ⟨i, hi⟩ := (decisionDue_iff.mp h).2.resolve_left hnot
      rw [hnone i] at hi; cases hi

end Sys2Proof.Machine

/-! SUPPORT and the proof of O29. CONFIGURE POINT (R103, R125, R126). -/

namespace Sys2Proof.Machine

-- One proof after the other: a proof that waits for an earlier one holds a thread and its stack.
set_option Elab.async false

/-! ### The request fields (R201) -/

theorem pointState?_code (st : PointState) : pointState? (be (byte st.code)) = some st := by
  cases st <;> rfl

/-- There is no third point state (R123). -/
theorem pointState?_none {n : Nat} (h : 1 < n) : pointState? n = none := by
  obtain ⟨m, rfl⟩ := Nat.exists_eq_add_of_le' h
  rfl

section Fields
variable {limit : Nat}

theorem fields_configurePoint {point state : List Byte} (hp : point.length = 1)
    (hs : state.length = 1) : fields [1, 1, 4] (point ++ state ++ toBytes 4 limit)
      = some [point, state, toBytes 4 limit] := by
  simp only [List.append_assoc, fields_append hp, fields_append hs,
    fields_last (length_toBytes 4 limit), Option.map_some]

/-- The request fields of CONFIGURE POINT, read back from a payload. -/
theorem ruleConfigurePoint_fields (hl : limit < 2 ^ 32) (q : Fin 4) (st : PointState) (s : State) :
    ruleConfigurePoint (byte q.1 ++ byte st.code ++ toBytes 4 limit) s
      = configurePointChecked q st limit s := by
  simp only [ruleConfigurePoint, fields_configurePoint (length_byte q.1) (length_byte st.code),
    fin?_be_byte (by decide : 4 ≤ 256), pointState?_code, be_toBytes (width := 4) hl]

end Fields

/-! ### The checks (R125) -/

section Checks
variable {s : State} {q : Fin 4} {st : PointState} {limit : Nat}

/-- A pump that is not ISOLATED has a stroke mass above the limit (R125). -/
theorem limitBelowPump_iff : s.limitBelowPump limit = true
    ↔ ∃ p : Fin 2, s.pumps[p].state ≠ .isolated ∧ limit < s.pumps[p].config.mass := by
  simp only [State.limitBelowPump, List.any_eq_true, mem_pumpNumbers, true_and, Bool.and_eq_true,
    bne_iff_ne, decide_eq_true_eq]

theorem limitBelowPump_false
    (h : ∀ p : Fin 2, s.pumps[p].state = .isolated ∨ s.pumps[p].config.mass ≤ limit) :
    s.limitBelowPump limit = false := by
  rw [← Bool.not_eq_true, limitBelowPump_iff]
  rintro ⟨p, hs, hm⟩
  rcases h p with h | h
  · exact hs h
  · exact Nat.not_lt.mpr h hm

theorem configurePointChecked_outOfRange (h : limit < 1000 ∨ 100000000 < limit) :
    configurePointChecked q st limit s = .refuse .badArgument := by
  have hr : inRange 1000 100000000 limit = false := by
    rw [← Bool.not_eq_true, inRange_iff]; omega
  rw [configurePointChecked, hr, if_pos (by decide)]

/-- In its range the limit is compared with the pumps (R125). -/
theorem configurePointChecked_inRange (h1 : 1000 ≤ limit) (h2 : limit ≤ 100000000) :
    configurePointChecked q st limit s = if s.limitBelowPump limit then .refuse .conflict
      else if st = .enabled ∧ s.holder (.valve q) = none then .refuse .conflict
      else .ok (configurePoint q st limit s) [] := by
  rw [configurePointChecked, inRange_iff.mpr ⟨h1, h2⟩, if_neg (by decide)]

theorem configurePointChecked_belowPump (h1 : 1000 ≤ limit) (h2 : limit ≤ 100000000)
    (hp : s.limitBelowPump limit = true) :
    configurePointChecked q st limit s = .refuse .conflict := by
  rw [configurePointChecked_inRange h1 h2, if_pos hp]

theorem configurePointChecked_noValve (h1 : 1000 ≤ limit) (h2 : limit ≤ 100000000)
    (hp : s.limitBelowPump limit = false) (hs : st = .enabled)
    (hv : ∀ x : Fin 16, s.terminals[x] ≠ .valve q) :
    configurePointChecked q st limit s = .refuse .conflict := by
  rw [configurePointChecked_inRange h1 h2, hp, if_neg Bool.false_ne_true,
    if_pos ⟨hs, holder_none.mpr hv⟩]

theorem configurePointChecked_passed (h1 : 1000 ≤ limit) (h2 : limit ≤ 100000000)
    (hp : s.limitBelowPump limit = false)
    (hv : st = .disabled ∨ ∃ x : Fin 16, s.terminals[x] = .valve q) :
    configurePointChecked q st limit s = .ok (configurePoint q st limit s) [] := by
  rw [configurePointChecked_inRange h1 h2, hp, if_neg Bool.false_ne_true, if_neg]
  rintro ⟨hs, hn⟩
  rcases hv with hd | ⟨x, hx⟩
  · rw [hs] at hd; cases hd
  · exact holder_none.mp hn x hx

/-- A point outside its numbers or a state code outside its list (R196; log 10), or a limit out of range (R125). -/
theorem ruleConfigurePoint_outOfRange {point state : Byte} (hl : limit < 2 ^ 32)
    (h : 3 < point.toNat ∨ 1 < state.toNat ∨ limit < 1000 ∨ 100000000 < limit) :
    ruleConfigurePoint ([point, state] ++ toBytes 4 limit) s = .refuse .badArgument := by
  have hfields := fields_configurePoint (point := [point]) (state := [state]) (limit := limit)
    rfl rfl
  simp only [List.cons_append, List.nil_append] at hfields
  simp only [ruleConfigurePoint, List.cons_append, List.nil_append, hfields, be_single,
    be_toBytes (width := 4) hl]
  split
  · next hpoint hstate =>
    rcases h with h | h | h
    · rw [fin?_none (n := 4) h] at hpoint; cases hpoint
    · rw [pointState?_none h] at hstate; cases hstate
    · exact configurePointChecked_outOfRange h
  · rfl

end Checks

/-! ### A lowered limit (R103, R126) -/

/-- An OPEN or CLOSING account bound to the point (R103). -/
theorem boundBy_eq (s : State) (q : Fin 4) (i : Fin 12) : s.boundBy q i
    = decide ((s.accounts[i].state = .opened ∨ s.accounts[i].state = .closing)
      ∧ s.accounts[i].point = some q) := by
  simp only [State.boundBy, Bool.beq_eq_decide_eq, Bool.decide_and, Bool.decide_or]

theorem waiveAt_eq (q : Fin 4) (s : State) : waiveAt q s
    = ((List.finRange 12).filter (fun i => decide
        ((s.accounts[i].state = .opened ∨ s.accounts[i].state = .closing)
          ∧ s.accounts[i].point = some q))).foldl (fun s i => waive i s) s := by
  simp only [waiveAt, slots_eq, boundBy_eq]

/-- The waiver rule reads the points and the header, and leaves both as they stand (R102). -/
theorem waiveAt_keeps (q : Fin 4) (s : State) :
    (waiveAt q s).points = s.points ∧ (waiveAt q s).header = s.header :=
  fold_keeps (P := fun t => t.points = s.points ∧ t.header = s.header)
    (fun t i h => by simpa using h) _ s ⟨rfl, rfl⟩

theorem afterLimit_keeps (q : Fin 4) (before : Point) (s : State) :
    (afterLimit q before s).points = s.points ∧ (afterLimit q before s).header = s.header := by
  unfold afterLimit
  split
  · exact waiveAt_keeps q s
  · exact ⟨rfl, rfl⟩

/-! ### A point disabled (R126) -/

section Disabled
variable {s : State} {q : Fin 4}

theorem leaveMask_absent (h : q ∉ s.header.mask) : leaveMask q s = s := by
  rw [leaveMask, if_neg (mt List.contains_iff_mem.mp h)]

/-- Other points keep manual service going (R126). -/
theorem leaveMask_others (h : q ∈ s.header.mask) (ho : ∃ r ∈ s.header.mask, r ≠ q) :
    leaveMask q s
      = { s with header := { s.header with mask := s.header.mask.filter (· ≠ q) } } := by
  have hall : ¬ s.header.mask.all (· == q) = true := by
    obtain ⟨r, hr, hne⟩ := ho
    exact fun h => hne (beq_iff_eq.mp (List.all_eq_true.mp h r hr))
  have hf : (fun r : Fin 4 => r != q) = fun r => decide (r ≠ q) := by
    funext r; rw [bne, Bool.beq_eq_decide_eq, decide_not]
  rw [leaveMask, if_pos (List.contains_iff_mem.mpr h), if_neg hall, hf]

/-- With its last point manual service ends (R126, R139). -/
theorem leaveMask_only (h : q ∈ s.header.mask) (ho : ∀ r ∈ s.header.mask, r = q) :
    leaveMask q s = raise .manualDoseEnd 255
      { s with header := { s.header with mask := [], manualTimer := none } } := by
  have hall : s.header.mask.all (· == q) = true :=
    List.all_eq_true.mpr fun r hr => beq_iff_eq.mpr (ho r hr)
  rw [leaveMask, if_pos (List.contains_iff_mem.mpr h), if_pos hall,
    endManual_some (List.ne_nil_of_mem h)]

theorem afterState_eq (q : Fin 4) (before : Point) (s : State) : afterState q before s
    = if before.state = .enabled ∧ s.points[q].state = .disabled
      then requestEnd (fun g => g.point = q) (leaveMask q s) else s := by
  simp only [afterState, disablePoint, Bool.beq_eq_decide_eq]

end Disabled

/-- Settles O29: the checks in their order, then the limit, then the state. -/
theorem configurePointActsOnItsNeighbours : Obligations.ConfigurePointActsOnItsNeighbours := by
  rintro s q _ st limit rfl hl
  have hrule := ruleConfigurePoint_fields hl q st s
  refine ⟨fun h1 h2 hpumps => ⟨?accept, fun hs hv => ?noValve⟩, fun h1 h2 hp => ?belowPump,
    fun point state h => ?outOfRange⟩
  case accept =>
    rintro hv _ v w z rfl hlimit hmask hz
    have hpoint : (writePoint q st limit s).points[q]
        = { s.points[q] with state := st, limit := limit } := by
      simp only [writePoint, editAt_get, if_true]
    have hwaived : afterLimit q s.points[q] (writePoint q st limit s) = v := by
      rw [hlimit, afterLimit, hpoint, waiveAt_eq]
      rfl
    obtain ⟨hpoints, hheader⟩ := afterLimit_keeps q s.points[q] (writePoint q st limit s)
    rw [hwaived] at hpoints hheader
    have hstate : v.points[q].state = st := by rw [hpoints, hpoint]
    have hm : v.header.mask = s.header.mask := by rw [hheader]; rfl
    have hleft : leaveMask q v = w := by
      rw [← hm] at hmask
      rcases hmask with ⟨hq, rfl⟩ | ⟨hq, ho, rfl⟩ | ⟨hq, ho, rfl⟩
      · exact leaveMask_absent hq
      · exact leaveMask_others hq ho
      · exact leaveMask_only hq ho
    have hdone : configurePoint q st limit s = grantIfDue z := by
      rw [configurePoint, hwaived, afterState_eq, hstate, hleft, hz]
    rw [← hdone]
    exact accepts_of (rule := ruleConfigurePoint) rfl
      (hrule.trans (configurePointChecked_passed h1 h2 (limitBelowPump_false hpumps) hv))
  case noValve =>
    exact refuses_of (rule := ruleConfigurePoint) rfl (hrule.trans
      (configurePointChecked_noValve h1 h2 (limitBelowPump_false hpumps) hs hv))
  case belowPump =>
    exact refuses_of (rule := ruleConfigurePoint) rfl
      (hrule.trans (configurePointChecked_belowPump h1 h2 (limitBelowPump_iff.mpr hp)))
  case outOfRange =>
    exact refuses_of (rule := ruleConfigurePoint) rfl (ruleConfigurePoint_outOfRange hl h)

end Sys2Proof.Machine

/-! SUPPORT and the proof of O58. What every operation does to the laws of the header (R128, R129). -/

namespace Sys2Proof.Machine

-- One proof after the other: a proof that waits for an earlier one holds a thread and its stack.
set_option Elab.async false

section HeaderOperations
variable {s : State}

theorem amendAccount_header (i : Fin 12) (m : Amendment) (h : s.headerLaw) :
    (amendAccount i m s).headerLaw :=
  grantIfDue_header ((pointChanged_header i s.accounts[i].point (editAccount i _ s)).law
    (SameHeader.law {} h))

theorem closeAccount_header (i : Fin 12) (h : s.headerLaw) : (closeAccount i s).headerLaw :=
  (leaveOpen_header i _).law ((requestEnd_header _ _).law (detachAll_header i s h))

theorem pulseAt_header (r : Fin 6) (rising : Bool) (s : State) :
    SameHeader s (pulseAt r rising s) := by
  unfold pulseAt; split
  · exact {}
  · exact .refl s

/-- The conversion end reaches no record of the header (R89, R91). -/
theorem conversionEnd_header (code : BitVec 16) (s : State) :
    SameHeader s (conversionEnd code s) := by
  unfold conversionEnd; dsimp only; repeat' split
  · exact {}
  · exact {}
  · exact .refl s

/-! ### Manual dosing (R138) -/

/-- The timer under a new mask runs exactly while that mask holds points (R129, R138). -/
theorem manualTimerFor_isSome (h : s.maskLaw) (mask : List (Fin 4)) :
    (s.manualTimerFor mask).isSome ↔ mask ≠ [] := by
  obtain ⟨htimer, _, _⟩ := h
  unfold State.manualTimerFor
  split
  · next he => simp [List.isEmpty_iff.mp he]
  · next hne =>
    have hmask : mask ≠ [] := fun he => hne (List.isEmpty_iff.mpr he)
    split
    · simp [hmask]
    · next hold => simp [hmask, htimer.mpr fun he => hold (List.isEmpty_iff.mpr he)]

theorem manualDose_header {mask : List (Fin 4)} (h : s.headerLaw) (hr : risingPoints mask = true)
    (hp : ∀ q ∈ mask, s.points[q].state = .enabled) : (manualDose mask s).headerLaw :=
  grantIfDue_header ⟨h.1, manualTimerFor_isSome h.2 mask, risingPoints_pairwise hr, hp⟩

/-! ### Trips and monitors -/

theorem configureMonitor_header (m : Fin 16) (c : MonitorConfig) (h : s.headerLaw) :
    (configureMonitor m c s).headerLaw := by
  have hr : (releaseIfTripped m (dropDue m s)).headerLaw := by
    unfold releaseIfTripped; split
    · exact releaseAction_header (SameHeader.law {} h)
    · exact SameHeader.law {} h
  exact grantIfDue_header
    (SameHeader.law (t := editMonitor m (fun _ => .start c) _) {} hr)

theorem ackMonitor_header (m : Fin 16) (h : s.headerLaw) : (ackMonitor m s).headerLaw := by
  unfold ackMonitor; dsimp only; split
  · exact h
  · exact grantIfDue_header (releaseAction_header (SameHeader.law {} h))

theorem delayExpiry_header (m : Fin 16) (h : s.headerLaw) : (delayExpiry m s).headerLaw := by
  unfold delayExpiry; dsimp only; split
  · split
    · exact enterTripped_header (SameHeader.law {} h)
    · exact SameHeader.law {} h
  · exact h

theorem mapTerminal_header (t : Fin 16) (f : TerminalFunction) (h : s.headerLaw) :
    (mapTerminal t f s).headerLaw := by
  have hm : ({ s with terminals := setAt s.terminals t f } : State).headerLaw := h
  have hd : (dropFlows s { s with terminals := setAt s.terminals t f }).headerLaw :=
    (fold_header (fun _ _ => requestEnd_header _ _) _ _).law hm
  refine grantIfDue_header ?_
  unfold remapStop; split
  · exact hd
  · exact changeTrips_header hd

theorem enterLow_header (h : s.headerLaw) : (enterLow s).headerLaw := by
  have ht : (changeTrips (.withSupply true) (enterSupply .low s)).headerLaw :=
    changeTrips_header (SameHeader.law {} h)
  exact (startSave_header _).law (SameHeader.law {} ht)

theorem returnToNormal_header (h : s.headerLaw) : (returnToNormal s).headerLaw := by
  have ht : (changeTrips (.withSupply false) (enterSupply .normal s)).headerLaw :=
    changeTrips_header (SameHeader.law {} h)
  exact grantIfDue_header (SameHeader.law {} ht)

/-! ### The stroke record and the header's timers -/

/-- The clearing of the record and the grant decision that may follow it. -/
theorem finish_header (h : s.headerLaw) : (grantIfDue (clearIfFinished s)).headerLaw :=
  grantIfDue_header (clearIfFinished_header h)

/-- A stroke record is replaced by another one, at a later time. -/
theorem stroke_header {k k' : Stroke} {now : Nat} (hk : s.stroke = some k) :
    SameHeader s { s with now := now, stroke := some k' } where
  stroke := by simp [hk]

theorem proofOf_header (p : Fin 2) (h : s.headerLaw) : (proofOf p s).headerLaw := by
  unfold proofOf; repeat' split
  · exact SameHeader.law {} h
  · exact finish_header ((resolve_header _ s).law h)
  · exact SameHeader.law {} h

theorem onTimeExpiry_header (h : s.headerLaw) : (onTimeExpiry s).headerLaw := by
  unfold onTimeExpiry; dsimp only; split
  · exact h
  · next k hk =>
    have hd : ({ reach (k.due k.onTime) s with stroke := some k.driven } : State).headerLaw :=
      (stroke_header hk).law h
    repeat' split
    · exact h
    · exact finish_header ((resolve_header _ _).law hd)
    · exact finish_header hd

theorem proofWindowExpiry_header (h : s.headerLaw) : (proofWindowExpiry s).headerLaw := by
  unfold proofWindowExpiry; dsimp only; split
  · exact h
  · split
    · exact finish_header ((resolve_header _ _).law (SameHeader.law {} h))
    · exact h

theorem spacingExpiry_header (h : s.headerLaw) : (spacingExpiry s).headerLaw := by
  unfold spacingExpiry; split
  · exact h
  · next k hk =>
    split
    · exact h
    · exact finish_header ((stroke_header hk).law h)

/-- In OPENING a grant is held and no stroke is, so the burst can go on (R128, R133). -/
theorem settleExpiry_header (h : s.headerLaw) : (settleExpiry s).headerLaw := by
  unfold settleExpiry; split
  · next time hs _ =>
    have hshape := h.1
    simp only [State.headerShape, hs] at hshape
    obtain ⟨hgrant, _, hstroke⟩ := hshape
    exact continueBurst_header (s := reach time s) h.2 hgrant hstroke
  · exact h

theorem pauseExpiry_header (h : s.headerLaw) : (pauseExpiry s).headerLaw := by
  unfold pauseExpiry; split
  · exact grantIfDue_header ⟨⟨rfl, rfl⟩, h.2⟩
  · exact h

/-! ### Time -/

theorem setTime_header (time : Nat) (s : State) : SameHeader s (setTime time s) :=
  show SameHeader s (writeTime time (rollIfOtherDay time s)) from {}

theorem deviceSecond_header (s : State) : SameHeader s (deviceSecond s) := by
  refine SameHeader.trans ?_ (rollAtBoundary_header _)
  exact SameHeader.trans
    (t := { advanceTime (reach s.clock.nextSecond s) with
      quality := mapAll Quality.countDown s.quality }) {}
    (fold_header (fun s q => expireSlot_header q s) _ _)

end HeaderOperations

/-- What every effect brings about for the header (R128, R129). -/
theorem headerEffects : Effects State.headerLaw State.headerLaw where
  self _ h := h
  complete _ _ _ h := SameHeader.law {} h
  elapse _ _ h := SameHeader.law {} h
  reach _ _ h := SameHeader.law {} h
  link _ _ _ h := SameHeader.law {} h
  accept _ _ h := h
  discard _ h := h
  refuse _ h := h
  openAccount _ _ _ _ _ _ _ h _ _ _ _ := SameHeader.law {} h
  amendAccount i m _ h _ _ := amendAccount_header i m h
  attachRun i r s h _ _ _ := (attachRun_header i r s).law h
  detachRun i r s h _ := grantIfDue_header ((detachRun_header i r s).law h)
  closeAccount i _ h _ := closeAccount_header i h
  releaseAccount _ _ h _ := SameHeader.law {} h
  configureRun _ _ _ h _ := SameHeader.law {} h
  setBands _ _ _ h _ := SameHeader.law {} h
  placeInService _ _ h _ := SameHeader.law {} h
  removeFromService r s h := grantIfDue_header ((removeFromService_header r s).law h)
  clearRunTotals _ _ h := SameHeader.law {} h
  postComposition _ _ _ h _ := SameHeader.law {} h
  retireComposition _ _ h _ := SameHeader.law {} h
  channels _ _ _ h := SameHeader.law {} h
  setScan _ _ _ h := SameHeader.law {} h
  startScan s h _ := (startScan_header s).law h
  configurePoint _ _ _ _ h _ _ := configurePoint_header h
  headerConfig _ _ h := SameHeader.law {} h
  manualDuration _ _ h := SameHeader.law {} h
  manualDose _ _ h hr hp := manualDose_header h hr hp
  configurePump _ _ _ h _ _ := SameHeader.law {} h
  restorePump _ _ h _ _ _ := SameHeader.law {} h
  isolatePump _ _ _ h _ := SameHeader.law {} h
  resetPump _ _ h _ := SameHeader.law {} h
  selectDuty u s h _ _ := grantIfDue_header ((makeDuty_header u s).law h)
  deferDuty _ _ h := SameHeader.law {} h
  configureMonitor m c _ h := configureMonitor_header m c h
  ackMonitor m _ h _ := ackMonitor_header m h
  tripTest _ _ h := SameHeader.law {} h
  setTime time s h := (setTime_header time s).law h
  clock _ _ h := SameHeader.law {} h
  startSave s h := (startSave_header s).law h
  mapTerminal t f _ h _ _ := mapTerminal_header t f h
  ackAttention _ _ _ h := h
  setAttentionLevel _ _ _ h _ := h
  stoppedLevel _ _ _ h _ := SameHeader.law {} h
  quietLevel _ _ _ h _ := SameHeader.law {} h
  pulse _ b r _ h _ := (pulseAt_header r b _).law (SameHeader.law {} h)
  proof _ p _ h _ := proofOf_header p (SameHeader.law {} h)
  flowDrop _ _ _ h _ := (requestEnd_header _ _).law (SameHeader.law {} h)
  flowRise _ _ _ h _ := grantIfDue_header (SameHeader.law {} h)
  syncLevel _ _ h _ := SameHeader.law {} h
  sync _ _ h _ := (trigger_header _).law (SameHeader.law {} h)
  stopIn _ _ h _ := changeTrips_header (SameHeader.law {} h)
  stopOut _ _ h _ := grantIfDue_header (changeTrips_header (SameHeader.law {} h))
  warmReset s _ := warmReset_header s
  coldStart b s _ := coldStart_header reset_law.header b s
  qualification _ _ h := h
  enterLow _ h := enterLow_header h
  returnToNormal _ h _ := returnToNormal_header h
  powerDown _ h := h
  saveDone _ _ h _ := SameHeader.law {} h
  clockChange _ _ _ h := SameHeader.law {} h
  deviceSecond s h := (deviceSecond_header s).law h
  expireSlot q s h := (expireSlot_header q s).law h
  intervalExpiry _ h := (trigger_header _).law h
  conversionEnd code s h := (conversionEnd_header code s).law h
  dropUpdate _ _ h := SameHeader.law {} h
  meteringUpdate r held _ _ h := grantIfDue_header ((update_header r held _).law h)
  evaluate _ _ _ _ h := grantIfDue_header (evaluate_header h)
  delayExpiry m _ h := delayExpiry_header m h
  settleExpiry _ h := settleExpiry_header h
  onTimeExpiry _ h := onTimeExpiry_header h
  proofWindowExpiry _ h := proofWindowExpiry_header h
  spacingExpiry _ h := spacingExpiry_header h
  pauseExpiry _ h := pauseExpiry_header h
  endManual _ h := endManual_header h

/-- Settles O58, by what every effect does to the laws of the header. -/
theorem stepKeepsHeaderLaw : Obligations.StepKeepsHeaderLaw := by
  intro s t h hs
  exact step_brings headerEffects (fun _ _ h => h) h.header hs

end Sys2Proof.Machine

/-! SUPPORT and the proof of O59. What every operation does to the laws of the trip source set (R143, R158) and of the monitors
(R163, R164). -/

namespace Sys2Proof.Machine

-- One proof after the other: a proof that waits for an earlier one holds a thread and its stack.
set_option Elab.async false

/-- The laws of the trip source set and of the Monitor Unit, whose records join and leave that set. -/
structure State.guardLaw (s : State) : Prop where
  trip : s.tripLaw
  monitor : s.monitorLaw

theorem State.law.guards {s : State} (h : s.law) : s.guardLaw := ⟨h.trip, h.monitor⟩

/-- The laws where what they read stands as it did. -/
theorem State.guardLaw.same {s t : State} (h : s.guardLaw) (e : SameTrips s t := by exact {})
    (hm : t.monitors = s.monitors := by simp) : t.guardLaw :=
  ⟨e.law h.trip, monitorLaw_congr h.monitor hm⟩

/-- The records that neither law reads may change in any way. -/
theorem State.guardLaw.other {s : State} {now port accounts runs released quality channels scan
    stroke points pumps pendingDuty dueValues tripTest causes clock pending}
    (h : s.guardLaw) : ({ s with
      now := now, port := port, accounts := accounts, runs := runs, released := released
      quality := quality, channels := channels, scan := scan, stroke := stroke, points := points
      pumps := pumps, pendingDuty := pendingDuty, dueValues := dueValues, tripTest := tripTest
      causes := causes, clock := clock, pending := pending } : State).guardLaw :=
  ⟨h.trip, h.monitor⟩

section GuardOperations
variable {s : State}

theorem State.guardLaw.grant (h : s.guardLaw) : (grantIfDue s).guardLaw :=
  h.same (grantIfDue_trips s)

/-! ### Accounts, runs and points -/

theorem amendAccount_guards (i : Fin 12) (m : Amendment) (h : s.guardLaw) :
    (amendAccount i m s).guardLaw :=
  .grant (.same (s := editAccount i _ s) h.other (pointChanged_trips i s.accounts[i].point _))

theorem closeAccount_guards (i : Fin 12) (h : s.guardLaw) : (closeAccount i s).guardLaw := by
  have hd : (detachAll i s).guardLaw :=
    fold_keeps (fun s r h => h.same (detachRun_trips i r s)) _ s h
  have hr : (requestEnd (·.forAccount i) (detachAll i s)).guardLaw :=
    hd.same (requestEnd_trips _ _)
  exact ⟨(leaveOpen_trips i _).law hr.trip, (closeAccount_units i s).monitorLaw h.monitor⟩

theorem configurePoint_guards (q : Fin 4) (st : PointState) (limit : Nat) (h : s.guardLaw) :
    (configurePoint q st limit s).guardLaw := by
  have e : SameTrips s (configurePoint q st limit s) :=
    (SameTrips.trans (t := writePoint q st limit s) {} (afterLimit_trips q s.points[q] _)).trans
      ((afterState_trips q s.points[q] _).trans (grantIfDue_trips _))
  exact h.same e (configurePoint_units q st limit s).monitors

/-! ### Terminals, the stop input and the supply -/

/-- A level at a terminal of another function leaves STOP as it stands (R158). -/
theorem setLevel_guards {t : Fin 16} {b : Bool} {f : TerminalFunction} (h : s.guardLaw)
    (ht : s.terminals[t] = f) (hf : f ≠ .stopIn := by exact nofun) :
    (setLevel t b s).guardLaw :=
  ⟨setLevel_tripLaw h.trip (ht ▸ hf), h.monitor⟩

/-- While the part is stopped the set is not held to its conditions (R186). -/
theorem guardLaw_stopped {t : State} (h : s.guardLaw) (hp : t.powered = false)
    (hm : t.monitors = s.monitors) : t.guardLaw :=
  ⟨fun hpow => absurd (hpow.symm.trans hp) (by decide), monitorLaw_congr h.monitor hm⟩

/-- PULSE_EDGE is not the row for a level of the stop input (R202, log 6). -/
theorem quiet_ne_stopIn {f : TerminalFunction} {b : Bool} (h : f.quiet b = true) :
    f ≠ .stopIn := by
  rintro rfl; cases h

theorem stop_guards {t : Fin 16} (b : Bool) (h : s.law) (ht : s.terminals[t] = .stopIn) :
    (changeTrips (.withStop (!b)) (setLevel t b s)).guardLaw :=
  ⟨stopIn_tripLaw h ht, monitorLaw_congr h.monitor⟩

theorem mapTerminal_guards (t : Fin 16) (f : TerminalFunction) (h : s.guardLaw) :
    (mapTerminal t f s).guardLaw :=
  ⟨mapTerminal_tripLaw h.trip, (mapTerminal_units t f s).monitorLaw h.monitor⟩

/-- SUPPLY joins with the entry to LOW and leaves with the return to NORMAL (R185). -/
theorem enterSupply_guards (st : SupplyState) (h : s.guardLaw) :
    (changeTrips (.withSupply (st == .low)) (enterSupply st s)).guardLaw :=
  ⟨changeTrips_supply h.trip, monitorLaw_congr h.monitor⟩

theorem startSave_guards (h : s.guardLaw) : (startSave s).guardLaw := h.same (startSave_trips s)

theorem enterLow_guards (h : s.guardLaw) : (enterLow s).guardLaw :=
  startSave_guards (enterSupply_guards .low h).other

theorem returnToNormal_guards (h : s.guardLaw) : (returnToNormal s).guardLaw :=
  .grant (enterSupply_guards .normal h).other

/-! ### Monitors (R166 to R170) -/

theorem configureMonitor_guards (m : Fin 16) (c : MonitorConfig) (h : s.guardLaw) :
    (configureMonitor m c s).guardLaw :=
  ⟨configureMonitor_tripLaw h.trip, configureMonitor_monitors h.monitor⟩

/-- An acknowledgement does not leave the monitor TRIPPED (R170). -/
theorem retimed_notTripped (u : Monitor) (time : Nat) : (u.retimed time).state ≠ .tripped := by
  unfold Monitor.retimed; split
  · exact MonitorState.noConfusion
  · exact MonitorState.noConfusion

theorem ackMonitor_guards {m : Fin 16} (h : s.guardLaw) (hs : s.monitors[m].state = .tripped) :
    (ackMonitor m s).guardLaw := by
  refine ⟨?_, ackMonitor_monitors h.monitor hs⟩
  unfold ackMonitor; dsimp only; split
  · exact h.trip
  · exact (grantIfDue_trips _).law (releaseAction_tripLaw h.trip (retimed_notTripped _ _))

theorem evaluate_guards (m : Fin 16) (v : Nat) (h : s.guardLaw) : (evaluate m v s).guardLaw :=
  ⟨evaluate_tripLaw h.trip, evaluate_monitors h.monitor⟩

/-- The delay's expiry takes the monitor to TRIPPED or back to WATCHING (R167). -/
theorem delayExpiry_guards (m : Fin 16) (h : s.guardLaw) : (delayExpiry m s).guardLaw := by
  refine ⟨?_, delayExpiry_monitors h.monitor⟩
  unfold delayExpiry; dsimp only; split
  · next time hs _ =>
    have hr : (reach time s).tripLaw := h.other.trip
    split
    · exact enterTripped_tripLaw hr
    · refine (editMonitor_trips ?_ rfl).law hr
      rw [show (reach time s).monitors[m].state = .timing from hs]
      rfl
  · exact h.trip

/-! ### The stroke record and the header's timers -/

/-- The clearing of the record and the grant decision that may follow it. -/
theorem finish_guards (h : s.guardLaw) : (grantIfDue (clearIfFinished s)).guardLaw :=
  .grant (h.same (clearIfFinished_trips s))

theorem resolve_guards (r : Resolution) (h : s.guardLaw) : (resolve r s).guardLaw :=
  h.same (resolve_trips r s)

theorem proofOf_guards (p : Fin 2) (h : s.guardLaw) : (proofOf p s).guardLaw := by
  unfold proofOf; repeat' split
  · exact h.other
  · exact finish_guards (resolve_guards _ h)
  · exact h.other

theorem onTimeExpiry_guards (h : s.guardLaw) : (onTimeExpiry s).guardLaw := by
  unfold onTimeExpiry; dsimp only; repeat' split
  · exact h
  · exact h
  · exact finish_guards (resolve_guards _ h.other)
  · exact finish_guards h.other

theorem proofWindowExpiry_guards (h : s.guardLaw) : (proofWindowExpiry s).guardLaw := by
  unfold proofWindowExpiry; dsimp only; split
  · exact h
  · split
    · exact finish_guards (resolve_guards _ h.other)
    · exact h

theorem spacingExpiry_guards (h : s.guardLaw) : (spacingExpiry s).guardLaw := by
  unfold spacingExpiry; repeat' split
  · exact h
  · exact h
  · exact finish_guards h.other

/-- The settle expiry moves a header that is OPENING, and not to TRIPPED (R133). -/
theorem settleExpiry_guards (h : s.guardLaw) : (settleExpiry s).guardLaw := by
  unfold settleExpiry; split
  · next time hs _ =>
    refine State.guardLaw.same (s := reach time s) h.other (continueBurst_trips ?_)
    rw [show (reach time s).header.state = .opening from hs]
    decide
  · exact h

/-- The pause expiry moves a header that is CLOSING, and not to TRIPPED (R137). -/
theorem pauseExpiry_guards (h : s.guardLaw) : (pauseExpiry s).guardLaw := by
  unfold pauseExpiry; split
  · next hs _ => exact .grant (h.same { tripped := by simp [hs] })
  · exact h

/-! ### Time -/

theorem setTime_guards (time : Nat) (h : s.guardLaw) : (setTime time s).guardLaw := by
  suffices hr : (rollIfOtherDay time s).guardLaw from hr.other
  unfold rollIfOtherDay; split
  · exact h.same (rollover_trips s)
  · exact h

theorem deviceSecond_guards (h : s.guardLaw) : (deviceSecond s).guardLaw := by
  have hc : (countDownAll (advanceTime (reach s.clock.nextSecond s))).guardLaw :=
    fold_keeps (fun s q h => h.same (expireSlot_trips q s)) _ _ h.other
  exact ⟨(rollAtBoundary_trips _).law hc.trip, (deviceSecond_units s).monitorLaw h.monitor⟩

theorem intervalExpiry_guards (h : s.guardLaw) : (intervalExpiry s).guardLaw := by
  unfold intervalExpiry
  exact State.guardLaw.same h.other (trigger_trips _)

theorem conversionEnd_guards (code : BitVec 16) (h : s.guardLaw) :
    (conversionEnd code s).guardLaw := by
  unfold conversionEnd; dsimp only; split
  · next i _ _ =>
    have ht : (takeCode i code (reach s.scan.conversionEnd s)).guardLaw :=
      .same (s := reach s.scan.conversionEnd s) h.other (takeCode_trips i code _)
    split
    · exact ht.other.same (completeScan_trips _)
    · exact ht.other
  · exact h

end GuardOperations

/-- What every effect brings about for the trip source set and the monitors (R143, R158, R163, R164). -/
theorem guardEffects : Effects State.law State.guardLaw where
  self _ h := h.guards
  complete _ _ _ h := h.other
  elapse _ _ h := law_now h
  reach _ _ h := law_now h
  link _ _ _ h := law_link h
  accept _ _ h := h.guards.other
  discard _ h := h.guards.other
  refuse _ h := h.guards.other
  openAccount _ _ _ _ _ _ _ h _ _ _ _ := h.guards.other
  amendAccount i m _ h _ _ := amendAccount_guards i m h.guards
  attachRun i r s h _ _ _ := h.guards.same (attachRun_trips i r s) (attachRun_units i r s).monitors
  detachRun i r s h _ := .grant (h.guards.same (detachRun_trips i r s))
  closeAccount i _ h _ := closeAccount_guards i h.guards
  releaseAccount _ _ h _ := h.guards.other
  configureRun _ _ _ h _ := h.guards.other
  setBands _ _ _ h _ := h.guards.other
  placeInService _ _ h _ := h.guards.other
  removeFromService r s h :=
    .grant (h.guards.same (removeFromService_trips r s) (removeFromService_units r s).monitors)
  clearRunTotals _ _ h := h.guards.other
  postComposition _ _ _ h _ := h.guards.other
  retireComposition _ _ h _ := h.guards.other
  channels _ _ _ h := h.guards.other
  setScan _ _ _ h := h.guards.other
  startScan s h _ := h.guards.same (startScan_trips s)
  configurePoint q st limit _ h _ _ := configurePoint_guards q st limit h.guards
  headerConfig _ _ h := h.guards.same
  manualDuration _ _ h := h.guards.same
  manualDose _ _ h _ _ := .grant h.guards.same
  configurePump _ _ _ h _ _ := h.guards.other
  restorePump _ _ h _ _ _ := h.guards.other
  isolatePump _ _ _ h _ := h.guards.other
  resetPump _ _ h _ := h.guards.other
  selectDuty _ _ h _ _ := .grant h.guards.other
  deferDuty _ _ h := h.guards.other
  configureMonitor m c _ h := configureMonitor_guards m c h.guards
  ackMonitor _ _ h hs := ackMonitor_guards h.guards hs
  tripTest _ _ h := h.guards.other
  setTime time _ h := setTime_guards time h.guards
  clock _ _ h := h.guards.other
  startSave _ h := startSave_guards h.guards
  mapTerminal t f _ h _ _ := mapTerminal_guards t f h.guards
  ackAttention _ _ _ h := h.guards.other
  setAttentionLevel _ _ _ h _ := h.guards.other
  stoppedLevel _ _ _ h hp := guardLaw_stopped h.guards hp rfl
  quietLevel _ _ _ h hq := setLevel_guards h.guards rfl (quiet_ne_stopIn hq)
  pulse _ b r _ h ht :=
    (setLevel_guards h.guards ht).same (pulseAt_trips r b _)
      (pulseAt_units r b _).monitors
  proof _ p _ h ht := proofOf_guards p (setLevel_guards h.guards ht)
  flowDrop _ _ _ h ht :=
    (setLevel_guards h.guards ht).same (requestEnd_trips _ _)
  flowRise _ _ _ h ht := (setLevel_guards h.guards ht).grant
  syncLevel _ _ h ht := setLevel_guards h.guards ht
  sync _ _ h ht := (setLevel_guards h.guards ht).same (trigger_trips _)
  stopIn _ _ h ht := stop_guards false h ht
  stopOut _ _ h ht := (stop_guards true h ht).grant
  warmReset _ h := ⟨warmReset_tripLaw h.trip, warmReset_monitors h.monitor⟩
  coldStart b s _ := ⟨coldStart_tripLaw b s, coldStart_monitors b s⟩
  qualification _ _ h := ⟨h.trip, h.monitor⟩
  enterLow _ h := enterLow_guards h.guards
  returnToNormal _ h _ := returnToNormal_guards h.guards
  powerDown _ h := guardLaw_stopped h.guards rfl rfl
  saveDone _ _ h _ := ⟨h.trip, h.monitor⟩
  clockChange _ _ _ h := h.guards.same
  deviceSecond _ h := deviceSecond_guards h.guards
  expireSlot q s h := h.guards.same (expireSlot_trips q s)
  intervalExpiry _ h := intervalExpiry_guards h.guards
  conversionEnd code _ h := conversionEnd_guards code h.guards
  dropUpdate _ _ h := h.guards.other
  meteringUpdate r held _ _ h := .grant (h.guards.other.same (update_trips r held _))
  evaluate m v _ _ h := .grant (evaluate_guards m v h.guards.other)
  delayExpiry m _ h := delayExpiry_guards m h.guards
  settleExpiry _ h := settleExpiry_guards h.guards
  onTimeExpiry _ h := onTimeExpiry_guards h.guards
  proofWindowExpiry _ h := proofWindowExpiry_guards h.guards
  spacingExpiry _ h := spacingExpiry_guards h.guards
  pauseExpiry _ h := pauseExpiry_guards h.guards
  endManual s h := h.guards.same (endManual_trips s)

/-- Settles O59, by what every effect does to the two laws. -/
theorem stepKeepsTripAndMonitorLaws : Obligations.StepKeepsTripAndMonitorLaws := by
  intro s t h hs
  obtain ⟨htrip, hmonitor⟩ : t.guardLaw :=
    step_brings guardEffects (fun _ _ h => law_pending h) h hs
  exact ⟨htrip, hmonitor⟩

end Sys2Proof.Machine

/-! SUPPORT and the proof of O30. CONFIGURE HEADER and SET MANUAL TIMER (R129, R130, R140). -/

namespace Sys2Proof.Machine

-- One proof after the other: a proof that waits for an earlier one holds a thread and its stack.
set_option Elab.async false

/-! ### CONFIGURE HEADER (R130) -/

theorem mode?_code (m : Mode) : mode? (be (byte m.code)) = some m := by
  cases m <;> rfl

/-- There is no third mode (R129). -/
theorem mode?_none {n : Nat} (h : 1 < n) : mode? n = none := by
  obtain ⟨m, rfl⟩ := Nat.exists_eq_add_of_le' h
  rfl

/-- The request fields of CONFIGURE HEADER, read back from a payload. -/
theorem ruleConfigureHeader_fields {mode burst : List Byte} {settle pause : Nat}
    (hm : mode.length = 1) (hb : burst.length = 1) (hs : settle < 65536) (hp : pause < 65536)
    (s : State) : ruleConfigureHeader (mode ++ burst ++ toBytes 2 settle ++ toBytes 2 pause) s
      = (mode? (be mode)).elim (.refuse .badArgument) fun m => configureHeader
          { mode := m, burstLimit := be burst, settle := settle, pause := pause } s := by
  simp only [ruleConfigureHeader, List.append_assoc, fields_append hm, fields_append hb,
    fields_append (length_toBytes 2 settle), fields_last (length_toBytes 2 pause),
    Option.map_some, be_toBytes (width := 2) hs, be_toBytes (width := 2) hp]
  cases mode? (be mode) <;> rfl

theorem headerConfig_inRange_iff {c : HeaderConfig} : c.inRange = true
    ↔ (1 ≤ c.burstLimit ∧ c.burstLimit ≤ 64) ∧ (100 ≤ c.settle ∧ c.settle ≤ 10000)
      ∧ 100 ≤ c.pause ∧ c.pause ≤ 10000 := by
  simp only [HeaderConfig.inRange, Bool.and_eq_true, inRange_iff, and_assoc]

section Configure
variable {s : State}

theorem configureHeader_accepted {mode : Mode} {burst settle pause : Nat}
    (hb : 1 ≤ burst ∧ burst ≤ 64) (hs : 100 ≤ settle ∧ settle ≤ 10000)
    (hp : 100 ≤ pause ∧ pause ≤ 10000) :
    s.accepts .configureHeader 0x42
      (byte mode.code ++ byte burst ++ toBytes 2 settle ++ toBytes 2 pause) []
      { s with
        header := { s.header with
          config := { mode := mode, burstLimit := burst, settle := settle, pause := pause } } } := by
  refine accepts_of (rule := ruleConfigureHeader) rfl ?_
  rw [ruleConfigureHeader_fields (length_byte _) (length_byte _) (by omega) (by omega),
    mode?_code, be_byte (by omega)]
  exact if_pos (headerConfig_inRange_iff.mpr ⟨hb, hs, hp⟩)

/-- A mode code outside its list (R196; log 10), or a value out of range (R129). -/
theorem configureHeader_refused {mode burst : Byte} {settle pause : Nat} (hs : settle < 65536)
    (hp : pause < 65536) (h : 1 < mode.toNat ∨ burst.toNat < 1 ∨ 64 < burst.toNat ∨ settle < 100
      ∨ 10000 < settle ∨ pause < 100 ∨ 10000 < pause) :
    s.refuses .configureHeader 0x42 ([mode, burst] ++ toBytes 2 settle ++ toBytes 2 pause)
      .badArgument := by
  refine refuses_of (rule := ruleConfigureHeader) rfl
    ((ruleConfigureHeader_fields (mode := [mode]) (burst := [burst]) rfl rfl hs hp s).trans ?_)
  simp only [be_single]
  rcases h with h | h
  · rw [mode?_none h]
    rfl
  · cases mode? mode.toNat with
    | none => rfl
    | some m =>
      refine if_neg fun hr => ?_
      obtain ⟨hb, hs, hp⟩ := headerConfig_inRange_iff.mp hr
      dsimp only at hb hs hp
      omega

/-! ### SET MANUAL TIMER (R140) -/

theorem ruleSetManualTimer_field {duration : Nat} (h : duration < 65536) :
    ruleSetManualTimer (toBytes 2 duration) s = if inRange 1 3600 duration
      then .ok { s with header := { s.header with manualDuration := duration } } []
      else .refuse .badArgument := by
  simp only [ruleSetManualTimer, fields_last (length_toBytes 2 duration),
    be_toBytes (width := 2) h]

theorem setManualTimer_accepted {duration : Nat} (h : 1 ≤ duration ∧ duration ≤ 3600) :
    s.accepts .setManualTimer 0x44 (toBytes 2 duration) []
      { s with header := { s.header with manualDuration := duration } } :=
  accepts_of (rule := ruleSetManualTimer) rfl
    ((ruleSetManualTimer_field (by omega)).trans (if_pos (inRange_iff.mpr h)))

theorem setManualTimer_refused {duration : Nat} (hd : duration < 65536)
    (h : duration < 1 ∨ 3600 < duration) :
    s.refuses .setManualTimer 0x44 (toBytes 2 duration) .badArgument :=
  refuses_of (rule := ruleSetManualTimer) rfl
    ((ruleSetManualTimer_field hd).trans (if_neg (by rw [inRange_iff]; omega)))

end Configure

/-- Settles O30: each command with its values in range and out of range. -/
theorem headerAndManualTimerAreConfigured : Obligations.HeaderAndManualTimerAreConfigured :=
  fun _ =>
    ⟨fun _ _ _ _ hb1 hb2 hs1 hs2 hp1 hp2 =>
      configureHeader_accepted ⟨hb1, hb2⟩ ⟨hs1, hs2⟩ ⟨hp1, hp2⟩,
    fun _ _ _ _ => configureHeader_refused,
    fun _ h1 h2 => setManualTimer_accepted ⟨h1, h2⟩,
    fun _ => setManualTimer_refused⟩

end Sys2Proof.Machine

/-! SUPPORT and the proof of O31. MANUAL DOSE and MANUAL_TIMER_EXPIRY (R138, R139). -/

namespace Sys2Proof.Machine

-- One proof after the other: a proof that waits for an earlier one holds a thread and its stack.
set_option Elab.async false

/-! ### The set of points of a request (R138, R201) -/

theorem risingPoints_iff {l : List (Fin 4)} :
    risingPoints l = true ↔ l.Pairwise (fun p q => p.1 < q.1) := by
  refine ⟨risingPoints_pairwise, fun h => ?_⟩
  induction l with
  | nil => rfl
  | cons p ps ih =>
    cases ps with
    | nil => rfl
    | cons q qs =>
      obtain ⟨hp, hps⟩ := List.pairwise_cons.mp h
      rw [risingPoints, ih hps, Bool.and_true, decide_eq_true_eq]
      exact hp q List.mem_cons_self

/-- The points that bytes below 4 name are numbered as the bytes are. -/
theorem pointsOf_val {members : List Byte} (h : ∀ b ∈ members, b.toNat < 4) :
    (members.filterMap fun b => fin? 4 b.toNat).map (fun q : Fin 4 => q.1)
      = members.map BitVec.toNat := by
  induction members with
  | nil => rfl
  | cons b bs ih =>
    have hb : fin? 4 b.toNat = some ⟨b.toNat, h b List.mem_cons_self⟩ := fin?_eq_some.mpr rfl
    rw [List.filterMap_cons_some (f := fun b : Byte => fin? 4 b.toNat) hb, List.map_cons, List.map_cons,
      ih fun c hc => h c (List.mem_cons_of_mem b hc)]

/-- Members out of range, or not in strictly ascending order, are no set of points (R138). -/
theorem pointSet?_none {members : List Byte} {count : List Byte} (hc : count.length = 1)
    (h : (∃ b ∈ members, 3 < b.toNat) ∨ ¬ members.Pairwise (fun a b => a.toNat < b.toNat)) :
    pointSet? (count ++ members) = none := by
  obtain ⟨c, rfl⟩ := List.length_eq_one_iff.mp hc
  rw [List.singleton_append, pointSet?]
  split
  · next hall =>
    have hbound : ∀ b ∈ members, b.toNat < 4 := by simpa using hall.2
    refine if_neg fun hr => ?_
    have hmap := List.pairwise_map.mpr (risingPoints_iff.mp hr)
    rw [pointsOf_val hbound] at hmap
    rcases h with ⟨b, hb, hgt⟩ | h
    · exact absurd (hbound b hb) (by omega)
    · exact h (List.pairwise_map.mp hmap)
  · rfl

/-- Points in strictly ascending order leave room above the first for all that follow it. -/
theorem ascending_room {p : Fin 4} {mask : List (Fin 4)} (h : (p :: mask).Pairwise (· < ·)) :
    p.1 + mask.length < 4 := by
  induction mask generalizing p with
  | nil => exact p.2
  | cons q qs ih =>
    obtain ⟨hp, hrest⟩ := List.pairwise_cons.mp h
    have hpq : p.1 < q.1 := hp q List.mem_cons_self
    have hroom := ih hrest
    rw [List.length_cons]
    omega

/-- There are at most four points in ascending order. -/
theorem ascending_length {mask : List (Fin 4)} (h : mask.Pairwise (· < ·)) : mask.length ≤ 4 := by
  cases mask with
  | nil => exact Nat.zero_le 4
  | cons p ps =>
    have hroom := ascending_room h
    rw [List.length_cons]
    omega

/-- The set of points in a payload, read back. -/
theorem pointSet?_members {mask : List (Fin 4)} (h : mask.Pairwise (· < ·)) :
    pointSet? (byte mask.length ++ mask.flatMap (fun q => byte q.1)) = some mask := by
  have hlen := ascending_length h
  have hval (q : Fin 4) : (BitVec.ofNat 8 q.1).toNat = q.1 := toNat_ofNat_lt (by omega)
  have hbytes : mask.flatMap (fun q => byte q.1) = mask.map fun q => BitVec.ofNat 8 q.1 := by
    simp only [byte_eq_single, List.map_eq_flatMap]
  have hback : (mask.map fun q => BitVec.ofNat 8 q.1).filterMap (fun b => fin? 4 b.toNat)
      = mask := by
    simp only [List.filterMap_map, Function.comp_def, hval, fin?_val, List.filterMap_some]
  rw [hbytes, byte_eq_single, List.singleton_append, pointSet?, hback,
    if_pos (risingPoints_iff.mpr h), if_pos]
  refine ⟨by rw [List.length_map, toNat_ofNat_lt (by omega)], ?_⟩
  rw [List.all_map, List.all_eq_true]
  exact fun q _ => by simp only [Function.comp_apply, hval, q.2, decide_true]

/-! ### MANUAL DOSE (R138, R185) -/

section Dose
variable {s : State} {mask : List (Fin 4)}

theorem manualDose_denied (hm : mask.Pairwise (· < ·))
    (h : s.header.state = .tripped ∨ s.supply.state = .low) :
    s.refuses .manualDose 0x43 (byte mask.length ++ mask.flatMap (fun q => byte q.1)) .denied := by
  refine refuses_of (rule := ruleManualDose) rfl ?_
  rw [ruleManualDose, pointSet?_members hm]
  exact if_pos h

/-- A point of the set is not ENABLED (R138). -/
theorem anyDisabled_iff : mask.any (fun q => s.points[q].state == .disabled) = true
    ↔ ∃ q ∈ mask, s.points[q].state ≠ .enabled := by
  have hstate (st : PointState) : (st == .disabled) = true ↔ st ≠ .enabled := by
    cases st <;> decide
  simp only [List.any_eq_true, hstate]

theorem manualDose_disabledPoint (hm : mask.Pairwise (· < ·)) (ht : s.header.state ≠ .tripped)
    (hl : s.supply.state ≠ .low) (h : ∃ q ∈ mask, s.points[q].state ≠ .enabled) :
    s.refuses .manualDose 0x43 (byte mask.length ++ mask.flatMap (fun q => byte q.1))
      .badArgument := by
  refine refuses_of (rule := ruleManualDose) rfl ?_
  rw [ruleManualDose, pointSet?_members hm]
  exact (if_neg (not_or.mpr ⟨ht, hl⟩)).trans (if_pos (anyDisabled_iff.mpr h))

/-- The table of R138: an empty mask stops the timer, a mask after none starts it, and one after another leaves it. -/
theorem manualTimerFor_eq {timer : Option Nat}
    (h : (mask = [] ∧ timer = none)
      ∨ (mask ≠ [] ∧ s.header.mask ≠ [] ∧ timer = s.header.manualTimer)
      ∨ (mask ≠ [] ∧ s.header.mask = []
        ∧ timer = some (s.now + s.header.manualDuration * 1000000))) :
    s.manualTimerFor mask = timer := by
  simp only [State.manualTimerFor, List.isEmpty_iff]
  rcases h with ⟨hm, rfl⟩ | ⟨hm, hold, rfl⟩ | ⟨hm, hold, rfl⟩
  · exact if_pos hm
  · rw [if_neg hm, if_neg hold]
  · rw [if_neg hm, if_pos hold]
    rfl

theorem manualDose_accepted (hm : mask.Pairwise (· < ·)) (ht : s.header.state ≠ .tripped)
    (hl : s.supply.state ≠ .low) (h : ∀ q ∈ mask, s.points[q].state = .enabled) :
    s.accepts .manualDose 0x43 (byte mask.length ++ mask.flatMap (fun q => byte q.1)) []
      (grantIfDue { s with
        header := { s.header with mask := mask, manualTimer := s.manualTimerFor mask } }) := by
  have hnone : ¬ mask.any (fun q => s.points[q].state == .disabled) = true := fun ha =>
    let ⟨q, hq, hne⟩ := anyDisabled_iff.mp ha
    hne (h q hq)
  refine accepts_of (rule := ruleManualDose) rfl ?_
  rw [ruleManualDose, pointSet?_members hm]
  exact (if_neg (not_or.mpr ⟨ht, hl⟩)).trans (if_neg hnone)

theorem manualDose_noSet {members count : List Byte} (hc : count.length = 1)
    (h : (∃ b ∈ members, 3 < b.toNat) ∨ ¬ members.Pairwise (fun a b => a.toNat < b.toNat)) :
    s.refuses .manualDose 0x43 (count ++ members) .badArgument := by
  refine refuses_of (rule := ruleManualDose) rfl ?_
  rw [ruleManualDose, pointSet?_none hc h]

/-! ### MANUAL_TIMER_EXPIRY (R139) -/

theorem manualTimerExpiry_running {time : Nat} (hp : s.powered = true)
    (ht : s.header.manualTimer = some time) :
    exec .manualTimerExpiry s = .next (endManual (reach time s)) :=
  expiry_running (timer := (·.header.manualTimer)) hp ht

/-- A stopped timer does not expire (log 3). -/
theorem manualTimerExpiry_stopped (hp : s.powered = true) (ht : s.header.manualTimer = none) :
    exec .manualTimerExpiry s = .next s := by
  show expiry (·.header.manualTimer) endManual s = .next s
  rw [expiry, event_powered hp, ht]

end Dose

/-- Settles O31: the request by its checks, then the expiry by the mask. -/
theorem manualDoseReplacesTheMask : Obligations.ManualDoseReplacesTheMask := by
  intro s
  refine ⟨fun mask timer hm ht hl => ⟨fun h htimer => ?_, manualDose_disabledPoint hm ht hl⟩,
    fun mask => manualDose_denied, fun members _ => manualDose_noSet (length_byte _),
    fun hp => ⟨fun time ht => ?_, manualTimerExpiry_stopped hp⟩⟩
  · rw [← manualTimerFor_eq htimer]
    exact manualDose_accepted hm ht hl h
  · rw [manualTimerExpiry_running hp ht]
    exact ⟨fun hm => congrArg _ (endManual_some (s := reach time s) hm),
      fun hm => congrArg _ (if_pos (List.isEmpty_iff.mpr hm))⟩

end Sys2Proof.Machine

/-! SUPPORT and the proof of O33. SETTLE_EXPIRY and PAUSE_EXPIRY (R133, R134, R137). -/

namespace Sys2Proof.Machine

-- One proof after the other: a proof that waits for an earlier one holds a thread and its stack.
set_option Elab.async false

section HeaderTimers
variable {s : State} {g : Grant}

/-! ### The stroke-start test (R134) -/

/-- No point is to be served manually, or no pump is DUTY (R131). -/
theorem manualDue_false : s.manualDue = false
    ↔ s.header.mask = [] ∨ ∀ p : Fin 2, s.pumps[p].state ≠ .duty := by
  rw [← Bool.not_eq_true, manualDue_iff, Classical.not_and_iff_not_or_not,
    Classical.not_not, not_exists]

theorem strokeTest_account {i : Fin 12} (hg : g.beneficiary = .account i) : s.strokeTest g = true
    ↔ g.endRequested = false ∧ g.strokes < g.burstLimit ∧ s.candidate i = true
      ∧ s.accounts[i].point = some g.point ∧ s.manualDue = false := by
  simp only [State.strokeTest, hg, Bool.and_eq_true, Bool.not_eq_true', decide_eq_true_eq,
    beq_iff_eq, and_assoc]

theorem strokeTest_manual (hg : g.beneficiary = .manual) : s.strokeTest g = true
    ↔ g.endRequested = false ∧ g.strokes < g.burstLimit ∧ g.point ∈ s.header.mask
      ∧ ∃ p : Fin 2, s.pumps[p].state = .duty := by
  simp only [State.strokeTest, hg, Bool.and_eq_true, Bool.not_eq_true', decide_eq_true_eq,
    List.contains_iff_mem, dutyPump_isSome, and_assoc]

theorem strokeTest_iff : s.strokeTest g = true ↔ g.endRequested = false ∧ g.strokes < g.burstLimit
    ∧ ((∃ i, g.beneficiary = .account i ∧ s.candidate i = true
          ∧ s.accounts[i].point = some g.point
          ∧ (s.header.mask = [] ∨ ∀ p : Fin 2, s.pumps[p].state ≠ .duty))
        ∨ (g.beneficiary = .manual ∧ g.point ∈ s.header.mask
          ∧ ∃ p : Fin 2, s.pumps[p].state = .duty)) := by
  simp only [← manualDue_false]
  cases hg : g.beneficiary with
  | account i =>
    simp only [strokeTest_account hg, Beneficiary.account.injEq, exists_eq_left', reduceCtorEq,
      false_and, or_false]
  | manual =>
    simp only [strokeTest_manual hg, reduceCtorEq, false_and, exists_false, false_or, true_and]

/-! ### The two expiries (R133, R137) -/

theorem settleExpiry_opening {time : Nat} (hs : s.header.state = .opening)
    (ht : s.header.timer = some time) : settleExpiry s = continueBurst (reach time s) := by
  simp only [settleExpiry, hs, ht]

/-- Without a settle timer that runs in OPENING the settle expiry does not come (log 3). -/
theorem settleExpiry_nothing (h : s.header.state ≠ .opening ∨ s.header.timer = none) :
    settleExpiry s = s := by
  unfold settleExpiry
  split
  · next hs ht =>
    rcases h with h | h
    · exact absurd hs h
    · rw [h] at ht; cases ht
  · rfl

theorem pauseExpiry_closing {time : Nat} (hs : s.header.state = .closing)
    (ht : s.header.timer = some time) : pauseExpiry s = grantIfDue
      { reach time s with header := { s.header with state := .idle, grant := none, timer := none } } := by
  simp only [pauseExpiry, hs, ht]
  rfl

/-- Without a pause timer that runs in CLOSING the pause expiry does not come (log 3). -/
theorem pauseExpiry_nothing (h : s.header.state ≠ .closing ∨ s.header.timer = none) :
    pauseExpiry s = s := by
  unfold pauseExpiry
  split
  · next hs ht =>
    rcases h with h | h
    · exact absurd hs h
    · rw [h] at ht; cases ht
  · rfl

end HeaderTimers

/-- Settles O33: the test by beneficiary, then each expiry in its state and in any other. -/
theorem settleAndPauseExpiriesMoveTheHeader : Obligations.SettleAndPauseExpiriesMoveTheHeader := by
  refine ⟨fun _ _ => strokeTest_iff, fun s hpow => ?_⟩
  have hsettle : exec .settleExpiry s = .next (settleExpiry s) := event_powered hpow
  have hpause : exec .pauseExpiry s = .next (pauseExpiry s) := event_powered hpow
  rw [hsettle, hpause]
  refine ⟨?_, fun h => congrArg _ (settleExpiry_nothing h),
    fun h => congrArg _ (pauseExpiry_nothing h)⟩
  rintro time g _ ht hg rfl
  refine ⟨fun hs => ?_, fun hs => congrArg _ (pauseExpiry_closing hs ht)⟩
  rw [settleExpiry_opening hs ht]
  exact ⟨fun htest => congrArg _ (continueBurst_passed (s := reach time s) hg htest),
    fun htest => congrArg _ (continueBurst_failed (s := reach time s) hg htest)⟩

end Sys2Proof.Machine

/-! SUPPORT and the proof of O34. The flow switches and the station stop input (R124, R158). -/

namespace Sys2Proof.Machine

-- One proof after the other: a proof that waits for an earlier one holds a thread and its stack.
set_option Elab.async false

section Inputs
variable {s : State} {x : Fin 16}

/-! ### The flow switches (R124) -/

theorem flowDrop_active {q : Fin 4} (hx : s.terminals[x] = .flowsw q) (hl : s.levels[x] = true) :
    flowDrop x s = requestEnd (Grant.accountAt q) (setLevel x false s) := by
  simp only [flowDrop, hx, if_pos hl]

theorem flowRise_inactive {q : Fin 4} (hx : s.terminals[x] = .flowsw q)
    (hl : s.levels[x] = false) : flowRise x s = grantIfDue (setLevel x true s) := by
  simp only [flowRise, hx, hl, Bool.false_eq_true, if_false]

/-- A terminal without FLOWSW, or one already inactive, has no drop (log 3, log 6). -/
theorem flowDrop_nothing (h : (∀ q, s.terminals[x] ≠ .flowsw q) ∨ s.levels[x] = false) :
    flowDrop x s = s := by
  unfold flowDrop
  split
  · next q hx =>
    have hl : s.levels[x] = false := h.resolve_left fun hn => hn q hx
    rw [hl, if_neg Bool.false_ne_true]
  · rfl

/-- A terminal without FLOWSW, or one already active, has no rise (log 3, log 6). -/
theorem flowRise_nothing (h : (∀ q, s.terminals[x] ≠ .flowsw q) ∨ s.levels[x] = true) :
    flowRise x s = s := by
  unfold flowRise
  split
  · next q hx => exact if_pos (h.resolve_left fun hn => hn q hx)
  · rfl

/-- An account grant at the point, as a condition on the grant. -/
theorem accountAt_eq (q : Fin 4) :
    (fun g : Grant => decide (g.beneficiary ≠ .manual ∧ g.point = q)) = Grant.accountAt q := by
  funext g
  simp only [Grant.accountAt, bne, Bool.beq_eq_decide_eq, Bool.decide_and, decide_not]

/-! ### The station stop input (R158) -/

theorem stopInActive_high (hx : s.terminals[x] = .stopIn) (hl : s.levels[x] = true) :
    stopInActive x s = changeTrips (.withStop true) (setLevel x false s) := if_pos ⟨hx, hl⟩

theorem stopInInactive_low (hx : s.terminals[x] = .stopIn) (hl : s.levels[x] = false) :
    stopInInactive x s = grantIfDue (changeTrips (.withStop false) (setLevel x true s)) :=
  if_pos ⟨hx, hl⟩

/-- A terminal without STOP_IN, or one already low, has no activation (log 3, log 6). -/
theorem stopInActive_nothing (h : s.terminals[x] ≠ .stopIn ∨ s.levels[x] = false) :
    stopInActive x s = s := by
  refine if_neg ?_
  rintro ⟨hx, hl⟩
  rcases h with h | h
  · exact h hx
  · rw [h] at hl; cases hl

/-- A terminal without STOP_IN, or one already high, has no deactivation (log 3, log 6). -/
theorem stopInInactive_nothing (h : s.terminals[x] ≠ .stopIn ∨ s.levels[x] = true) :
    stopInInactive x s = s := by
  refine if_neg ?_
  rintro ⟨hx, hl⟩
  rcases h with h | h
  · exact h hx
  · rw [h] at hl; cases hl

/-- A row of a terminal event: under power the time passes before the event is taken (log 4). -/
theorem terminalEvent_powered {f : State → State} {us : Nat} {b : Bool} (h : s.powered = true) :
    (.next (if s.powered then f (elapse us s) else setLevel x b s) : Result)
      = .next (f (elapse us s)) := by
  rw [if_pos h]

end Inputs

/-- Settles O34: the four rows at a terminal whose level they change, then where they change none. -/
theorem flowAndStopInputsAct : Obligations.FlowAndStopInputsAct := by
  intro s x us t hpow ht
  obtain rfl : t = fun b => setLevel x b (elapse us s) := funext ht
  have hdrop : exec (.flowDrop x us) s = .next (flowDrop x (elapse us s)) :=
    terminalEvent_powered hpow
  have hrise : exec (.flowRise x us) s = .next (flowRise x (elapse us s)) :=
    terminalEvent_powered hpow
  have hactive : exec (.stopInActive x us) s = .next (stopInActive x (elapse us s)) :=
    terminalEvent_powered hpow
  have hinactive : exec (.stopInInactive x us) s = .next (stopInInactive x (elapse us s)) :=
    terminalEvent_powered hpow
  rw [hdrop, hrise, hactive, hinactive]
  refine ⟨fun q hx => ⟨fun hl => ?_, fun hl => ?_⟩, fun hx => ⟨fun hl => ?_, fun hl => ?_⟩,
    fun h => ?_, fun h => ?_, fun h => ?_, fun h => ?_⟩
  · rw [accountAt_eq]
    exact congrArg _ (flowDrop_active (s := elapse us s) hx hl)
  · exact congrArg _ (flowRise_inactive (s := elapse us s) hx hl)
  · exact congrArg _ (stopInActive_high (s := elapse us s) hx hl)
  · exact congrArg _ (stopInInactive_low (s := elapse us s) hx hl)
  · exact congrArg _ (flowDrop_nothing (s := elapse us s) h)
  · exact congrArg _ (flowRise_nothing (s := elapse us s) h)
  · exact congrArg _ (stopInActive_nothing (s := elapse us s) h)
  · exact congrArg _ (stopInInactive_nothing (s := elapse us s) h)

end Sys2Proof.Machine

/-! SUPPORT and the proof of O52. COLD_START (R26, R66, R145, R161, R181, R191, R192). -/

namespace Sys2Proof.Machine

-- One proof after the other: a proof that waits for an earlier one holds a thread and its stack.
set_option Elab.async false

/-! ### What the start keeps from outside (R181; log 5) -/

/-- The levels, the queue and what the crystal monitor finds, brought to the records of a start (R181; log 5). -/
def State.withInputs (before : State) (running : Bool) (s : State) : State :=
  crystalAtStart running (keepInputs before s)

/-- A crystal that is not running leaves the first qualification stopped (R181). -/
theorem withInputs_eq {before s : State} {running : Bool} {time : Nat}
    (hq : s.clock.qualification = some time) (hf : s.clock.firstQualification = true) :
    before.withInputs running s = { s with
      levels := before.levels, pending := before.pending
      clock := { s.clock with
        qualification := if running then some time else none, firstQualification := running } } := by
  cases running with
  | true =>
    have hclock : s.clock
        = { s.clock with qualification := some time, firstQualification := true } := by
      rw [← hq, ← hf]
    exact congrArg (fun c => { keepInputs before s with clock := c }) hclock
  | false => rfl

/-- A cause is raised in the same way before the inputs are brought in and after. -/
theorem withInputs_raise (before : State) (running : Bool) (k : CauseKind) (n : Nat) (s : State) :
    before.withInputs running (raise k n s) = raise k n (before.withInputs running s) := by
  cases running with
  | true => rfl
  | false => rfl

theorem withInputs_raiseClosed (before : State) (running : Bool) (m : Image) (s : State) :
    before.withInputs running (m.raiseClosed s) = m.raiseClosed (before.withInputs running s) :=
  (List.foldl_hom (before.withInputs running)
    fun s i => (withInputs_raise before running .accountClosed i.1 s).symm).symm

theorem coldStart_eq (running : Bool) (s : State) : coldStart running s
    = grantIfDue (stopAtStart (s.withInputs running (startState s.supply.image))) := rfl

/-! ### The start without an image (R192) -/

/-- After a start without an image no terminal holds STOP_IN (R192, R203). -/
theorem stopActive_default (before : State) (running : Bool) :
    (before.withInputs running .reset).stopActive = false := by
  have hnone : (before.withInputs running .reset).holder .stopIn = none := by
    refine holder_none.mpr fun x => ?_
    simp [State.withInputs, State.reset]
  rw [State.stopActive, hnone]

/-- Nor is a pump DUTY, so the header makes no grant (R131, R160). -/
theorem decisionDue_default (before : State) (running : Bool) :
    ¬ (before.withInputs running .reset).decisionDue = true := by
  have hduty : (before.withInputs running .reset).dutyPump = none := by
    refine dutyPump_none fun ⟨p, hp⟩ => ?_
    simp [State.withInputs, State.reset, Pump.default] at hp
  rw [decisionDue_iff]
  rintro ⟨_, hm | ⟨i, hi⟩⟩
  · rw [State.manualDue, hduty] at hm
    simp at hm
  · rw [candidate_noDuty hduty] at hi
    cases hi

theorem coldStart_default {s : State} (running : Bool) (h : s.supply.image = none) :
    coldStart running s = s.withInputs running .reset := by
  rw [coldStart_eq, h, startState, stopAtStart, stopActive_default, if_neg Bool.false_ne_true,
    grantIfDue_notDue (decisionDue_default s running)]

/-! ### The start with an image (R191) -/

theorem coldStart_image {s : State} {m : Image} (running : Bool) (h : s.supply.image = some m) :
    coldStart running s = grantIfDue (stopAtStart
      (m.raiseClosed (raise .restart 0 (s.withInputs running m.state)))) := by
  rw [coldStart_eq, h, startState, withInputs_raiseClosed, withInputs_raise]

/-- ACCOUNT_CLOSED for each account that the image holds CLOSING, in slot order (R26). -/
theorem raiseClosed_eq (m : Image) (s : State) : m.raiseClosed s
    = ((List.finRange 12).filter (fun i => decide (m.accounts[i].state = .closing))).foldl
        (fun s i => raise .accountClosed i.1 s) s := by
  simp only [Image.raiseClosed, slots_eq, Bool.beq_eq_decide_eq]

/-! ### The defaults (R192) -/

/-- A record of a table that starts with equal records. -/
theorem allEqual_get {α : Type} {n : Nat} (x : α) (i : Fin n) : (allEqual n x)[i] = x :=
  allEqual_getNat x i.1 i.2

/-- RESTART with COLD_EMPTY stands raised, and the levels are those of R206 (R192). -/
theorem reset_causes : ∀ k : Fin 16, State.reset.causes[k]
    = { level := if k = CauseKind.restart.code then 3 else if k = CauseKind.portEvent.code then 1 else 2
        subjects := if k = CauseKind.restart.code then [1] else [] } := by
  decide

/-- Settles O52: the start without an image, the start with one, and the defaults. -/
theorem coldStartRestoresOrDefaults : Obligations.ColdStartRestoresOrDefaults := by
  refine ⟨fun s running h => ?default, fun s m running t u h ht hu => ?image, rfl, rfl,
    fun r => congrArg Run.state (allEqual_get _ r),
    fun c => congrArg (fun ch : Channel => ch.config.enabled) (allEqual_get _ c),
    fun k => congrArg Monitor.state (allEqual_get _ k),
    fun q => congrArg Point.state (allEqual_get _ q),
    fun p => congrArg Pump.state (allEqual_get _ p),
    allEqual_get _, rfl, rfl, rfl, rfl, rfl, rfl, rfl, reset_causes, rfl, rfl, rfl, rfl, rfl⟩
  case default =>
    exact congrArg Host.Outcome.next ((coldStart_default running h).trans (withInputs_eq rfl rfl))
  case image =>
    have hstate : s.withInputs running m.state = t := by
      rw [ht, withInputs_eq (time := 2000000) rfl rfl]
      unfold Image.state
      congr 1
      -- The accounts alone are spelled in another way, by the state that the image holds (R26).
      show mapAll (Account.restored m.deviceTime) m.accounts = _
      congr 1
      funext a
      unfold Account.restored
      cases a.state <;> rfl
    rw [← raiseClosed_eq, ← hstate] at hu
    subst hu
    exact congrArg Host.Outcome.next (coldStart_image running h)

end Sys2Proof.Machine

/-! SUPPORT and the proof of O41. CONFIGURE PUMP (R149). -/

namespace Sys2Proof.Machine

-- One proof after the other: a proof that waits for an earlier one holds a thread and its stack.
set_option Elab.async false

/-! ### The request fields (R201) -/

section Fields
variable {c : PumpConfig} {pump : List Byte}

/-- The request fields of CONFIGURE PUMP, read back from a payload; the pump number may name no pump. -/
theorem ruleConfigurePump_fields (hp : pump.length = 1) (hmass : c.mass < 2 ^ 32)
    (hon : c.onTime < 65536) (hwindow : c.window < 65536) (hspacing : c.spacing < 65536)
    (hlimit : c.failureLimit < 256) (s : State) :
    ruleConfigurePump (pump ++ (toBytes 4 c.mass ++ toBytes 2 c.onTime ++ toBytes 2 c.window
        ++ toBytes 2 c.spacing ++ byte c.failureLimit)) s
      = (fin? 2 (be pump)).elim (.refuse .badArgument) (configurePump c · s) := by
  simp only [ruleConfigurePump, List.append_assoc, fields_append hp,
    fields_append (length_toBytes 4 c.mass), fields_append (length_toBytes 2 c.onTime),
    fields_append (length_toBytes 2 c.window), fields_append (length_toBytes 2 c.spacing),
    fields_last (length_byte c.failureLimit), Option.map_some, be_toBytes (width := 4) hmass,
    be_toBytes (width := 2) hon, be_toBytes (width := 2) hwindow,
    be_toBytes (width := 2) hspacing, be_byte hlimit]
  cases fin? 2 (be pump) <;> rfl

end Fields

/-! ### The checks (R148, R149) -/

theorem pumpConfig_inRange_iff {c : PumpConfig} : c.inRange = true
    ↔ (1000 ≤ c.mass ∧ c.mass ≤ 500000) ∧ (20 ≤ c.onTime ∧ c.onTime ≤ 2000)
      ∧ (50 ≤ c.window ∧ c.window ≤ 5000) ∧ (100 ≤ c.spacing ∧ c.spacing ≤ 10000)
      ∧ (1 ≤ c.failureLimit ∧ c.failureLimit ≤ 15) ∧ c.onTime ≤ c.window := by
  simp only [PumpConfig.inRange, Bool.and_eq_true, inRange_iff, decide_eq_true_eq, and_assoc]

/-- The stroke mass lies above the catch-up limit of a point, whatever its state (R149, R150). -/
theorem massAboveLimit_iff {s : State} {mass : Nat} :
    s.massAboveLimit mass = true ↔ ∃ q : Fin 4, s.points[q].limit < mass := by
  simp only [State.massAboveLimit, List.any_eq_true, mem_pointNumbers, true_and,
    decide_eq_true_eq]

theorem massAboveLimit_false {s : State} {mass : Nat} (h : ∀ q : Fin 4, mass ≤ s.points[q].limit) :
    s.massAboveLimit mass = false := by
  rw [← Bool.not_eq_true, massAboveLimit_iff, not_exists]
  exact fun q => Nat.not_lt.mpr (h q)

section Checks
variable {s : State} {p : Fin 2} {c : PumpConfig}

theorem configurePump_wrongState (h : s.pumps[p].state = .duty ∨ s.pumps[p].state = .failed) :
    configurePump c p s = .refuse .wrongState := if_pos h

/-- An ISOLATED or STANDBY pump takes the checks of the values (R149). -/
theorem configurePump_ready (h : s.pumps[p].state = .isolated ∨ s.pumps[p].state = .standby) :
    configurePump c p s = if !c.inRange then .refuse .badArgument
      else if s.massAboveLimit c.mass then .refuse .conflict
      else .ok (editPump p (fun u => { u with config := c, unproven := 0 }) s) [] := by
  refine if_neg ?_
  rcases h with h | h <;> rw [h] <;> decide

theorem configurePump_outOfRange
    (h : s.pumps[p].state = .isolated ∨ s.pumps[p].state = .standby) (hr : ¬ c.inRange = true) :
    configurePump c p s = .refuse .badArgument := by
  rw [configurePump_ready h, Bool.eq_false_iff.mpr hr, if_pos (by decide)]

theorem configurePump_aboveLimit
    (h : s.pumps[p].state = .isolated ∨ s.pumps[p].state = .standby) (hr : c.inRange = true)
    (hm : s.massAboveLimit c.mass = true) : configurePump c p s = .refuse .conflict := by
  rw [configurePump_ready h, hr, if_neg (by decide), if_pos hm]

theorem configurePump_passed
    (h : s.pumps[p].state = .isolated ∨ s.pumps[p].state = .standby) (hr : c.inRange = true)
    (hm : s.massAboveLimit c.mass = false) : configurePump c p s
      = .ok (editPump p (fun u => { u with config := c, unproven := 0 }) s) [] := by
  rw [configurePump_ready h, hr, if_neg (by decide), hm, if_neg Bool.false_ne_true]

end Checks

/-- Settles O41: the fields read back, then the checks in their order. -/
theorem configurePumpSetsItsConfiguration : Obligations.ConfigurePumpSetsItsConfiguration := by
  rintro s p _ mass onTime window spacing limit _ rfl hmass hon hwindow hspacing hlimit rfl
  have hfields {pump : List Byte} (hp : pump.length = 1) :=
    ruleConfigurePump_fields (c := ⟨mass, onTime, window, spacing, limit⟩) hp hmass hon hwindow
      hspacing hlimit s
  have hrule := hfields (length_byte p.1)
  rw [fin?_be_byte (by decide), Option.elim_some] at hrule
  have hrange := pumpConfig_inRange_iff (c := ⟨mass, onTime, window, spacing, limit⟩)
  dsimp only at hrange
  refine ⟨fun hs => ⟨fun h => ?inRange, fun h => ?outOfRange⟩, fun hs => ?wrongState,
    fun pump hp => ?noPump⟩
  case inRange =>
    have hr := hrange.mpr (by omega)
    exact ⟨fun hm => accepts_of (rule := ruleConfigurePump) rfl
        (hrule.trans (configurePump_passed hs hr (massAboveLimit_false hm))),
      fun hm => refuses_of (rule := ruleConfigurePump) rfl
        (hrule.trans (configurePump_aboveLimit hs hr (massAboveLimit_iff.mpr hm)))⟩
  case outOfRange =>
    exact refuses_of (rule := ruleConfigurePump) rfl
      (hrule.trans (configurePump_outOfRange hs (mt hrange.mp (by omega))))
  case wrongState =>
    exact refuses_of (rule := ruleConfigurePump) rfl (hrule.trans (configurePump_wrongState hs))
  case noPump =>
    exact refuses_of (rule := ruleConfigurePump) rfl
      ((hfields (pump := [pump]) rfl).trans (by rw [fin?_be_none hp]; rfl))

end Sys2Proof.Machine

/-! SUPPORT and the proof of O42. RESTORE PUMP, ISOLATE PUMP and RESET PUMP (R150, R151, R155). -/

namespace Sys2Proof.Machine

-- One proof after the other: a proof that waits for an earlier one holds a thread and its stack.
set_option Elab.async false

section OnePump
variable {s : State} {p : Fin 2}

/-! ### A command that names a pump as its only field -/

/-- A command on one pump that is accepted, by what it does with the pump (R147). -/
theorem accepts_onPump {c : Instr} {n : Byte} {f : Fin 2 → State → Answer} {t : State}
    {out : List Byte} (hc : exec c s = serve n (onPump f) s) (hf : f p s = .ok t out) :
    s.accepts c n (byte p.1) out t := accepts_of hc ((onPump_number p f s).trans hf)

theorem refuses_onPump {c : Instr} {n : Byte} {f : Fin 2 → State → Answer} {st : Status}
    (hc : exec c s = serve n (onPump f) s) (hf : f p s = .refuse st) :
    s.refuses c n (byte p.1) st := refuses_of hc ((onPump_number p f s).trans hf)

/-- There is no third pump (R147). -/
theorem refuses_noPump {c : Instr} {n : Byte} {f : Fin 2 → State → Answer} {pump : Byte}
    (hc : exec c s = serve n (onPump f) s) (hp : 1 < pump.toNat) :
    s.refuses c n [pump] .badArgument := refuses_of hc (onPump_outOfRange hp f s)

/-! ### RESTORE PUMP (R150) -/

theorem restorePump_wrongState (h : s.pumps[p].state ≠ .isolated) :
    restorePump p s = .refuse .wrongState := if_pos h

/-- The two checks of CONFLICT (R150). -/
theorem restorePump_conflict (h : s.pumps[p].state = .isolated)
    (hc : (∀ x : Fin 16, s.terminals[x] ≠ .drive p)
      ∨ ∃ q : Fin 4, s.points[q].limit < s.pumps[p].config.mass) :
    restorePump p s = .refuse .conflict := by
  rw [restorePump, if_neg (not_not_intro h)]
  rcases hc with hdrive | hmass
  · exact if_pos (holder_none.mpr hdrive)
  · rw [if_pos (massAboveLimit_iff.mpr hmass), ite_self]

theorem restorePump_passed (h : s.pumps[p].state = .isolated)
    (hdrive : ∃ x : Fin 16, s.terminals[x] = .drive p)
    (hmass : ∀ q : Fin 4, s.pumps[p].config.mass ≤ s.points[q].limit) : restorePump p s
      = .ok (editPump p (fun u => { u with state := .standby, unproven := 0 }) s) [] := by
  obtain ⟨x, hx⟩ := hdrive
  have hheld : s.holder (.drive p) ≠ none := fun hn => holder_none.mp hn x hx
  rw [restorePump, if_neg (not_not_intro h), if_neg hheld, massAboveLimit_false hmass,
    if_neg Bool.false_ne_true]

/-! ### ISOLATE PUMP (R151) -/

theorem strokeOf_iff : s.strokeOf p = true ↔ ∃ k, s.stroke = some k ∧ k.pump = p := by
  unfold State.strokeOf
  cases s.stroke with
  | none => simp only [Bool.false_eq_true, reduceCtorEq, false_and, exists_false]
  | some k => simp only [beq_iff_eq, Option.some.injEq, exists_eq_left']

theorem isolatePump_wrongState (h : s.pumps[p].state = .duty ∨ s.pumps[p].state = .isolated) :
    isolatePump p s = .refuse .wrongState := if_pos h

/-- A STANDBY or FAILED pump is isolated unless the stroke record holds its stroke (R151). -/
theorem isolatePump_ready (h : s.pumps[p].state = .standby ∨ s.pumps[p].state = .failed) :
    isolatePump p s = if s.strokeOf p then .refuse .inUse else .ok
      { editPump p (fun u => { u with state := .isolated }) s with
        pendingDuty := if s.pendingDuty = some p then none else s.pendingDuty } [] := by
  refine if_neg ?_
  rcases h with h | h <;> rw [h] <;> decide

theorem isolatePump_inUse (h : s.pumps[p].state = .standby ∨ s.pumps[p].state = .failed)
    (hk : ∃ k, s.stroke = some k ∧ k.pump = p) : isolatePump p s = .refuse .inUse := by
  rw [isolatePump_ready h, if_pos (strokeOf_iff.mpr hk)]

theorem isolatePump_passed (h : s.pumps[p].state = .standby ∨ s.pumps[p].state = .failed)
    (hk : ¬ ∃ k, s.stroke = some k ∧ k.pump = p) : isolatePump p s = .ok
      { editPump p (fun u => { u with state := .isolated }) s with
        pendingDuty := if s.pendingDuty = some p then none else s.pendingDuty } [] := by
  rw [isolatePump_ready h, if_neg (mt strokeOf_iff.mp hk)]

/-! ### RESET PUMP (R155) -/

theorem resetPump_wrongState (h : s.pumps[p].state ≠ .failed) :
    resetPump p s = .refuse .wrongState := if_pos h

theorem resetPump_passed (h : s.pumps[p].state = .failed) : resetPump p s
    = .ok (editPump p (fun u => { u with state := .standby, unproven := 0 }) s) [] :=
  if_neg (not_not_intro h)

end OnePump

/-- Settles O42: each command by its checks in their order, then the pump that does not exist. -/
theorem pumpStateCommandsMoveOnePump : Obligations.PumpStateCommandsMoveOnePump := by
  rintro s p _ rfl
  refine ⟨fun h hdrive hmass => accepts_onPump rfl (restorePump_passed h hdrive hmass),
    fun h => refuses_onPump rfl (restorePump_wrongState h),
    fun h hc => refuses_onPump rfl (restorePump_conflict h hc),
    fun h => ⟨fun hk => accepts_onPump rfl (isolatePump_passed h ?otherStroke),
      fun k hk hp => refuses_onPump rfl (isolatePump_inUse h ⟨k, hk, hp⟩)⟩,
    fun h => refuses_onPump rfl (isolatePump_wrongState h),
    fun h => accepts_onPump rfl (resetPump_passed h),
    fun h => refuses_onPump rfl (resetPump_wrongState h),
    fun _ hp => ⟨refuses_noPump rfl hp, refuses_noPump rfl hp, refuses_noPump rfl hp⟩⟩
  case otherStroke =>
    rintro ⟨k, hs, hp⟩
    rcases hk with hnone | ⟨k', hs', hne⟩
    · rw [hnone] at hs; cases hs
    · rw [Option.some.inj (hs'.symm.trans hs)] at hne
      exact hne hp

end Sys2Proof.Machine

/-! SUPPORT and the proof of O43. SELECT DUTY (R152). -/

namespace Sys2Proof.Machine

-- One proof after the other: a proof that waits for an earlier one holds a thread and its stack.
set_option Elab.async false

section SelectDuty
variable {s : State} {p : Fin 2}

theorem selectDuty_wrongState (h : s.pumps[p].state ≠ .standby) :
    selectDuty p s = .refuse .wrongState := if_pos h

theorem selectDuty_applied (h : s.pumps[p].state = .standby) (hk : s.stroke = none) :
    selectDuty p s = .ok (grantIfDue { makeDuty p s with pendingDuty := none }) (byte 0) := by
  rw [selectDuty, if_neg (not_not_intro h), if_pos (Option.isNone_iff_eq_none.mpr hk)]

theorem selectDuty_deferred (h : s.pumps[p].state = .standby) (hk : s.stroke ≠ none) :
    selectDuty p s = .ok { s with pendingDuty := some p } (byte 1) := by
  rw [selectDuty, if_neg (not_not_intro h), if_neg (mt Option.isNone_iff_eq_none.mp hk)]

end SelectDuty

/-- Settles O43: the selection by the stroke record, then the two refusals. -/
theorem selectDutyAppliesOrDefers : Obligations.SelectDutyAppliesOrDefers := by
  refine fun s => ⟨fun p other h ho => ⟨fun hk => ?applied,
      fun hk => accepts_onPump rfl (selectDuty_deferred h hk)⟩,
    fun p h => refuses_onPump rfl (selectDuty_wrongState h), fun _ hp => refuses_noPump rfl hp⟩
  case applied =>
    refine accepts_onPump rfl ?_
    rw [selectDuty_applied h hk, makeDuty_eq ho h]

end Sys2Proof.Machine

/-! SUPPORT and the proof of O53. MAP TERMINAL (R124, R158, R202, R203). -/

namespace Sys2Proof.Machine

-- One proof after the other: a proof that waits for an earlier one holds a thread and its stack.
set_option Elab.async false

/-! ### The request fields (R201, R202) -/

/-- The code and the subject that a function is sent as spell it (R202). -/
theorem function?_bytes (f : TerminalFunction) : ∃ code subject : Nat,
    f.bytes = byte code ++ byte subject
      ∧ function? (be (byte code)) (be (byte subject)) = some f := by
  have hfin {n : Nat} (hn : n ≤ 256) (g : Fin n → TerminalFunction) (i : Fin n) :
      (fin? n (be (byte i.1))).map g = some (g i) := by rw [fin?_be_byte hn, Option.map_some]
  cases f with
  | none => exact ⟨0, 0, rfl, rfl⟩
  | pulse r => exact ⟨1, r.1, rfl, hfin (by decide) .pulse r⟩
  | drive p => exact ⟨2, p.1, rfl, hfin (by decide) .drive p⟩
  | proof p => exact ⟨3, p.1, rfl, hfin (by decide) .proof p⟩
  | valve q => exact ⟨4, q.1, rfl, hfin (by decide) .valve q⟩
  | flowsw q => exact ⟨5, q.1, rfl, hfin (by decide) .flowsw q⟩
  | sync => exact ⟨6, 0, rfl, rfl⟩
  | stopIn => exact ⟨7, 0, rfl, rfl⟩
  | trip => exact ⟨8, 0, rfl, rfl⟩

/-- A function with a subject, spelled by its subject's number. -/
theorem subject_some {n m : Nat} {g : Fin n → TerminalFunction} {f : TerminalFunction}
    (h : (fin? n m).map g = some f) : ∃ i : Fin n, m = i.1 ∧ g i = f := by
  obtain ⟨i, hi, hf⟩ := Option.map_eq_some_iff.mp h
  exact ⟨i, fin?_eq_some.mp hi, hf⟩

/-- A function without a subject, spelled with 0 in its place (R202). -/
theorem noSubject_some {m : Nat} {g f : TerminalFunction}
    (h : (if m = 0 then some g else none) = some f) : m = 0 ∧ g = f := by
  obtain ⟨hm, hf⟩ := Option.ite_none_right_eq_some.mp h
  exact ⟨hm, Option.some.inj hf⟩

/-- Only the bytes of a function spell it (R202). -/
theorem bytes_of_function? {code subject : Nat} {f : TerminalFunction}
    (h : function? code subject = some f) : f.bytes = byte code ++ byte subject := by
  unfold function? at h
  split at h
  · obtain ⟨rfl, rfl⟩ := noSubject_some h; rfl
  · obtain ⟨_, rfl, rfl⟩ := subject_some h; rfl
  · obtain ⟨_, rfl, rfl⟩ := subject_some h; rfl
  · obtain ⟨_, rfl, rfl⟩ := subject_some h; rfl
  · obtain ⟨_, rfl, rfl⟩ := subject_some h; rfl
  · obtain ⟨_, rfl, rfl⟩ := subject_some h; rfl
  · obtain ⟨rfl, rfl⟩ := noSubject_some h; rfl
  · obtain ⟨rfl, rfl⟩ := noSubject_some h; rfl
  · obtain ⟨rfl, rfl⟩ := noSubject_some h; rfl
  · cases h

theorem byte_toNat (b : Byte) : byte b.toNat = [b] := by
  simp only [byte, toBytes, Nat.pow_zero, Nat.div_one, BitVec.ofNat_toNat, BitVec.setWidth_eq]

/-- The request fields of MAP TERMINAL, read back from a payload. -/
theorem ruleMapTerminal_fields (x : Fin 16) (f : TerminalFunction) (s : State) :
    ruleMapTerminal (byte x.1 ++ f.bytes) s = mapTerminalChecked x f s := by
  obtain ⟨code, subject, hb, hf⟩ := function?_bytes f
  have hfields : fields [1, 1, 1] (byte x.1 ++ f.bytes)
      = some [byte x.1, byte code, byte subject] := by rw [hb]; rfl
  simp only [ruleMapTerminal, hfields, fin?_be_byte (by decide : 16 ≤ 256), hf]

/-- A terminal outside its numbers, or a function that no code and subject spell (R202, R203). -/
theorem ruleMapTerminal_outOfRange {t code subject : Byte} (s : State)
    (h : 15 < t.toNat ∨ ∀ g : TerminalFunction, g.bytes ≠ [code, subject]) :
    ruleMapTerminal [t, code, subject] s = .refuse .badArgument := by
  have hfields : fields [1, 1, 1] [t, code, subject] = some [[t], [code], [subject]] := rfl
  simp only [ruleMapTerminal, hfields, be_single]
  split
  · next f ht hf =>
    rcases h with h | h
    · rw [fin?_none (n := 16) h] at ht; cases ht
    · refine absurd (bytes_of_function? hf) ?_
      rw [byte_toNat, byte_toNat]
      exact h f
  · rfl

section Mapping
variable {s : State} {x : Fin 16} {f : TerminalFunction}

/-! ### The checks (R203) -/

theorem functionInUse_iff (s : State) (f : TerminalFunction) : s.functionInUse f = true
    ↔ match f with
      | .pulse r => s.runs[r].state = .inService
      | .drive p => s.pumps[p].state ≠ .isolated
      | .proof _ => s.header.state ≠ .idle
      | .valve q => s.points[q].state = .enabled
      | .flowsw _ => s.header.state ≠ .idle
      | _ => False := by
  cases f with
  | pulse r => exact beq_iff_eq
  | drive p => exact bne_iff_ne
  | proof p => exact bne_iff_ne
  | valve q => exact beq_iff_eq
  | flowsw q => exact bne_iff_ne
  | none | sync | stopIn | trip => exact iff_of_false Bool.false_ne_true id

/-- Any number of terminals may hold NONE (log 14). -/
theorem heldElsewhere_iff : s.heldElsewhere x f = true
    ↔ f ≠ .none ∧ ∃ y : Fin 16, y ≠ x ∧ s.terminals[y] = f := by
  simp only [State.heldElsewhere, Bool.and_eq_true, bne_iff_ne, List.any_eq_true, mem_sixteen,
    true_and, beq_iff_eq]

/-- The mapping that a terminal has already (R203). -/
theorem mapTerminalChecked_same (h : f = s.terminals[x]) :
    mapTerminalChecked x f s = .ok s [] := if_pos h

theorem mapTerminalChecked_inUse (h : f ≠ s.terminals[x])
    (hu : s.functionInUse s.terminals[x] = true) :
    mapTerminalChecked x f s = .refuse .inUse := by
  rw [mapTerminalChecked, if_neg h, if_pos hu]

theorem mapTerminalChecked_conflict (h : f ≠ s.terminals[x])
    (hu : ¬ s.functionInUse s.terminals[x] = true) (he : s.heldElsewhere x f = true) :
    mapTerminalChecked x f s = .refuse .conflict := by
  rw [mapTerminalChecked, if_neg h, if_neg hu, if_pos he]

theorem mapTerminalChecked_passed (h : f ≠ s.terminals[x])
    (hu : ¬ s.functionInUse s.terminals[x] = true) (he : ¬ s.heldElsewhere x f = true) :
    mapTerminalChecked x f s = .ok (mapTerminal x f s) [] := by
  rw [mapTerminalChecked, if_neg h, if_neg hu, if_neg he]

/-! ### What the owners of the functions see (R124, R158) -/

/-- An account grant ends at a point that had flow and has none (R124, R135). -/
theorem dropFlows_eq (before s : State) : dropFlows before s
    = ((List.finRange 4).filter (fun q => decide (before.flowing q = true
        ∧ s.flowing q = false))).foldl
      (fun t q => requestEnd (fun g => g.beneficiary ≠ .manual ∧ g.point = q) t) s := by
  simp only [dropFlows, pointNumbers_eq, ← accountAt_eq, Bool.decide_and, Bool.decide_eq_true,
    Bool.decide_eq_false]

/-- The end of a grant leaves the stop input as it stands. -/
theorem dropFlows_stopActive (before s : State) :
    (dropFlows before s).stopActive = s.stopActive := by
  obtain ⟨hterminals, hlevels⟩ : (dropFlows before s).terminals = s.terminals
      ∧ (dropFlows before s).levels = s.levels :=
    fold_keeps (P := fun t => t.terminals = s.terminals ∧ t.levels = s.levels)
      (fun t q h => by simpa using h) _ s ⟨rfl, rfl⟩
  exact stopActive_congr hterminals hlevels

/-- STOP follows the stop input where the mapping changes it (R158). -/
theorem remapStop_eq (before s : State) : remapStop before s
    = if before.stopActive = s.stopActive then s
      else changeTrips (.withStop (!before.stopActive)) s := by
  rw [remapStop]
  split
  · rfl
  · next h => rw [Bool.eq_not_of_ne (Ne.symm h)]

/-! ### The stop input (R158) -/

theorem stopActive_noTerminal (h : s.holder .stopIn = none) : s.stopActive = false := by
  rw [State.stopActive, h]

theorem stopActive_held (h : s.holder .stopIn = some x) : s.stopActive = !s.levels[x] := by
  rw [State.stopActive, h]

end Mapping

/-- Settles O53: the checks in their order, then flow, STOP and the grant decision. -/
theorem mapTerminalMovesAFunction : Obligations.MapTerminalMovesAFunction := by
  intro s x f u v inUse held huse hheld hu hv
  have hrule := ruleMapTerminal_fields x f s
  have hinUse : s.functionInUse s.terminals[x] = true ↔ inUse :=
    (functionInUse_iff s s.terminals[x]).trans huse.symm
  have helsewhere : s.heldElsewhere x f = true ↔ held := heldElsewhere_iff.trans hheld.symm
  rw [← hinUse, ← helsewhere]
  refine ⟨fun h => ?same, fun h hn he => ?passed, fun h hn => ?inUse, fun h hn he => ?conflict,
    fun w => ⟨stopActive_noTerminal, fun _ => stopActive_held⟩, fun t code subject h => ?outOfRange⟩
  case same =>
    exact accepts_of (rule := ruleMapTerminal) rfl (hrule.trans (mapTerminalChecked_same h))
  case passed =>
    have hdrop : dropFlows s { s with terminals := setAt s.terminals x f } = u :=
      (dropFlows_eq s _).trans hu.symm
    have hdone : mapTerminal x f s = grantIfDue v := by
      rw [hv, mapTerminal, remapStop_eq, dropFlows_stopActive, hdrop]
      rfl
    rw [← hdone]
    exact accepts_of (rule := ruleMapTerminal) rfl
      (hrule.trans (mapTerminalChecked_passed h hn he))
  case inUse =>
    exact refuses_of (rule := ruleMapTerminal) rfl (hrule.trans (mapTerminalChecked_inUse h hn))
  case conflict =>
    exact refuses_of (rule := ruleMapTerminal) rfl
      (hrule.trans (mapTerminalChecked_conflict h hn he))
  case outOfRange =>
    exact refuses_of (rule := ruleMapTerminal) rfl (ruleMapTerminal_outOfRange s h)

end Sys2Proof.Machine

/-! SUPPORT and the proof of O46. MONITOR_EVALUATION and the entry to TRIPPED (R165, R166, R168, R169). -/

namespace Sys2Proof.Machine

-- One proof after the other: a proof that waits for an earlier one holds a thread and its stack.
set_option Elab.async false

/-! ### A monitor record changed -/

theorem editMonitor_self (m : Fin 16) (f : Monitor → Monitor) (s : State) :
    (editMonitor m f s).monitors[m] = f s.monitors[m] := by
  rw [editMonitor_get, if_pos rfl]

/-- Only what the change makes of the record counts. -/
theorem editMonitor_congr {m : Fin 16} {f g : Monitor → Monitor} {s : State}
    (h : f s.monitors[m] = g s.monitors[m]) : editMonitor m f s = editMonitor m g s := by
  simp only [editMonitor, editAt, h]

/-- A record changed twice. -/
theorem editMonitor_editMonitor (m : Fin 16) (f g : Monitor → Monitor) (s : State) :
    editMonitor m f (editMonitor m g s) = editMonitor m (fun u => f (g u)) s := by
  have hmonitors : editAt (editAt s.monitors m g) m f = editAt s.monitors m (fun u => f (g u)) := by
    rw [editAt, editAt_get, if_pos rfl]
    exact setAt_setAt s.monitors m _ _
  simp only [editMonitor, hmonitors]

/-! ### The condition and the clear level (R165) -/

theorem beyond_iff {c : MonitorConfig} {v : Nat} : c.beyond v = true
    ↔ (c.sense = .high ∧ c.threshold < v) ∨ (c.sense = .low ∧ v < c.threshold) := by
  unfold MonitorConfig.beyond
  cases c.sense with
  | high => simp only [decide_eq_true_eq, true_and, reduceCtorEq, false_and, or_false]
  | low => simp only [decide_eq_true_eq, true_and, reduceCtorEq, false_and, false_or]

theorem clears_iff {c : MonitorConfig} {v : Nat} : c.clears v = true
    ↔ (c.sense = .high ∧ v ≤ c.clearLevel) ∨ (c.sense = .low ∧ c.clearLevel ≤ v) := by
  unfold MonitorConfig.clears
  cases c.sense with
  | high => simp only [decide_eq_true_eq, true_and, reduceCtorEq, false_and, or_false]
  | low => simp only [decide_eq_true_eq, true_and, reduceCtorEq, false_and, false_or]

/-! ### The entry to TRIPPED and the release (R168) -/

/-- The state TRIPPED, MONITOR_TRIP, and MONITOR(m) in the trip set where that is the action (R168). -/
theorem enterTripped_eq (m : Fin 16) (s : State) : enterTripped m s
    = if s.monitors[m].config.action = .headerTrip
      then changeTrips (.withMonitor m true) (raise .monitorTrip m.1
        (editMonitor m (fun u => { u with state := .tripped, timer := none }) s))
      else raise .monitorTrip m.1
        (editMonitor m (fun u => { u with state := .tripped, timer := none }) s) := by
  simp only [enterTripped, raise_keeps, editMonitor_self]

theorem releaseAction_headerTrip {a : Action} (h : a = .headerTrip) (m : Fin 16) (s : State) :
    releaseAction m a s = changeTrips (.withMonitor m false) s := if_pos h

theorem releaseAction_other {a : Action} (h : a ≠ .headerTrip) (m : Fin 16) (s : State) :
    releaseAction m a s = s := if_neg h

/-! ### A new value at a monitor, by its state (R166, R169) -/

section NewValue
variable {s : State} {m : Fin 16} {v : Nat} {u : Monitor}

/-- The first value beyond the threshold starts the delay (R166). -/
theorem evaluateTimed_starts (hu : s.monitors[m] = u) (hs : u.state = .watching)
    (hb : u.config.beyond v = true) : evaluateTimed m v s = editMonitor m
      (fun u' => { u' with state := .timing, timer := some (s.after u.config.delay) }) s := by
  subst hu
  simp only [evaluateTimed, hs, hb, if_true]
  exact editMonitor_congr rfl

/-- A value at the clear level ends the timing (R166). -/
theorem evaluateTimed_clears (hu : s.monitors[m] = u) (hs : u.state = .timing)
    (hc : u.config.clears v = true) : evaluateTimed m v s
      = editMonitor m (fun u' => { u' with state := .watching, timer := none }) s := by
  simp only [evaluateTimed, hu, hs, hc, if_true]

/-- A value that moves no monitor with a delay: a TRIPPED one is latched (R166). -/
theorem evaluateTimed_stays (hu : s.monitors[m] = u)
    (h : (u.state = .watching ∧ ¬ u.config.beyond v = true)
      ∨ (u.state = .timing ∧ ¬ u.config.clears v = true) ∨ u.state = .tripped) :
    evaluateTimed m v s = s := by
  rcases h with ⟨hs, hb⟩ | ⟨hs, hc⟩ | hs
  · simp only [evaluateTimed, hu, hs, if_neg hb]
  · simp only [evaluateTimed, hu, hs, if_neg hc]
  · simp only [evaluateTimed, hu, hs]

theorem evaluateFollowing_trips (hu : s.monitors[m] = u) (hs : u.state = .watching)
    (hb : u.config.beyond v = true) : evaluateFollowing m v s = enterTripped m s := by
  simp only [evaluateFollowing, hu, hs, hb, if_true]

/-- Only the clear level clears a TRIPPED monitor with delay 0 (R169). -/
theorem evaluateFollowing_clears (hu : s.monitors[m] = u) (hs : u.state = .tripped)
    (hc : u.config.clears v = true) : evaluateFollowing m v s = releaseAction m u.config.action
      (editMonitor m (fun u' => { u' with state := .watching, timer := none }) s) := by
  simp only [evaluateFollowing, hu, hs, hc, if_true]

/-- A value that moves no monitor with delay 0, which is never in TIMING (R163, R169). -/
theorem evaluateFollowing_stays (hu : s.monitors[m] = u)
    (h : (u.state = .watching ∧ ¬ u.config.beyond v = true) ∨ u.state = .timing
      ∨ (u.state = .tripped ∧ ¬ u.config.clears v = true)) :
    evaluateFollowing m v s = s := by
  rcases h with ⟨hs, hb⟩ | hs | ⟨hs, hc⟩
  · simp only [evaluateFollowing, hu, hs, if_neg hb]
  · simp only [evaluateFollowing, hu, hs]
  · simp only [evaluateFollowing, hu, hs, if_neg hc]

end NewValue

/-! ### An evaluation (R165) -/

/-- A monitor after an evaluation of `v` that takes it to `state`. -/
def Monitor.evaluated (v : Nat) (state : MonitorState) (timer : Option Nat) (u : Monitor) : Monitor :=
  { u with state := state, timer := timer, last := some v }

/-- The value recorded, the monitor otherwise as it stood (R165). -/
def recordValue (m : Fin 16) (v : Nat) (s : State) : State :=
  editMonitor m (fun u => u.evaluated v u.state u.timer) s

section Evaluation
variable {s : State} {m : Fin 16} {v : Nat} {u : Monitor}

theorem recordValue_monitor (m : Fin 16) (v : Nat) (s : State) : (recordValue m v s).monitors[m]
    = s.monitors[m].evaluated v s.monitors[m].state s.monitors[m].timer := editMonitor_self m _ s

/-- The record of the value is part of the monitor's move. -/
theorem editMonitor_recordValue (m : Fin 16) (v : Nat) (state : MonitorState) (timer : Option Nat)
    (s : State) :
    editMonitor m (fun u => { u with state := state, timer := timer }) (recordValue m v s)
      = editMonitor m (Monitor.evaluated v state timer) s := editMonitor_editMonitor m _ _ s

/-- The record alone, as a monitor that stays in its state. -/
theorem recordValue_eq (hu : s.monitors[m] = u) :
    recordValue m v s = editMonitor m (Monitor.evaluated v u.state u.timer) s := by
  subst hu; rfl

/-- A DISABLED monitor does not record the value (R165). -/
theorem evaluate_disabled (h : s.monitors[m].state = .disabled) : evaluate m v s = s := if_pos h

theorem evaluate_following (hs : s.monitors[m].state ≠ .disabled)
    (hd : s.monitors[m].config.delay = 0) :
    evaluate m v s = evaluateFollowing m v (recordValue m v s) := by
  have hd' : (recordValue m v s).monitors[m].config.delay = 0 := by rwa [recordValue_monitor]
  rw [evaluate, if_neg hs]
  exact if_pos hd'

theorem evaluate_timed (hs : s.monitors[m].state ≠ .disabled)
    (hd : 0 < s.monitors[m].config.delay) :
    evaluate m v s = evaluateTimed m v (recordValue m v s) := by
  have hd' : ¬ (recordValue m v s).monitors[m].config.delay = 0 := by
    rw [recordValue_monitor]
    exact Nat.ne_of_gt hd
  rw [evaluate, if_neg hs]
  exact if_neg hd'

/-- From WATCHING with a delay above 0 (R166). -/
theorem evaluate_starts (hs : s.monitors[m].state = .watching)
    (hb : s.monitors[m].config.beyond v = true) (hd : 0 < s.monitors[m].config.delay) :
    evaluate m v s = editMonitor m
      (Monitor.evaluated v .timing (some (s.after s.monitors[m].config.delay))) s := by
  rw [evaluate_timed (by rw [hs]; decide) hd, evaluateTimed_starts (recordValue_monitor m v s) hs hb]
  exact editMonitor_recordValue m v .timing _ s

/-- From WATCHING with delay 0 (R169). -/
theorem evaluate_trips (hs : s.monitors[m].state = .watching)
    (hb : s.monitors[m].config.beyond v = true) (hd : s.monitors[m].config.delay = 0) :
    evaluate m v s = enterTripped m
      (editMonitor m (Monitor.evaluated v .watching s.monitors[m].timer) s) := by
  rw [evaluate_following (by rw [hs]; decide) hd,
    evaluateFollowing_trips (recordValue_monitor m v s) hs hb, recordValue_eq rfl, hs]

/-- From TIMING, whose delay is discarded (R166). -/
theorem evaluate_endsTiming (hs : s.monitors[m].state = .timing)
    (hd : 0 < s.monitors[m].config.delay) (hc : s.monitors[m].config.clears v = true) :
    evaluate m v s = editMonitor m (Monitor.evaluated v .watching none) s := by
  rw [evaluate_timed (by rw [hs]; decide) hd, evaluateTimed_clears (recordValue_monitor m v s) hs hc]
  exact editMonitor_recordValue m v .watching none s

/-- From TRIPPED with delay 0 (R169). -/
theorem evaluate_releases (hs : s.monitors[m].state = .tripped)
    (hd : s.monitors[m].config.delay = 0) (hc : s.monitors[m].config.clears v = true) :
    evaluate m v s = releaseAction m s.monitors[m].config.action
      (editMonitor m (Monitor.evaluated v .watching none) s) := by
  rw [evaluate_following (by rw [hs]; decide) hd,
    evaluateFollowing_clears (recordValue_monitor m v s) hs hc, editMonitor_recordValue]
  rfl

/-- A value that is recorded and moves nothing (R166, R169). -/
theorem evaluate_stays
    (h : (s.monitors[m].state = .watching ∧ ¬ s.monitors[m].config.beyond v = true)
      ∨ (s.monitors[m].state = .timing
        ∧ (¬ s.monitors[m].config.clears v = true ∨ s.monitors[m].config.delay = 0))
      ∨ (s.monitors[m].state = .tripped
        ∧ (¬ s.monitors[m].config.clears v = true ∨ 0 < s.monitors[m].config.delay))) :
    evaluate m v s
      = editMonitor m (Monitor.evaluated v s.monitors[m].state s.monitors[m].timer) s := by
  rw [← recordValue_eq rfl]
  have hs : s.monitors[m].state ≠ .disabled := by
    rcases h with ⟨hs, _⟩ | ⟨hs, _⟩ | ⟨hs, _⟩ <;> rw [hs] <;> decide
  rcases Nat.eq_zero_or_pos s.monitors[m].config.delay with hd | hd
  · rw [evaluate_following hs hd]
    refine evaluateFollowing_stays (recordValue_monitor m v s) (h.imp_right (.imp And.left ?_))
    exact And.imp_right fun hc => hc.resolve_right (by rw [hd]; decide)
  · rw [evaluate_timed hs hd]
    refine evaluateTimed_stays (recordValue_monitor m v s) (h.imp_right (.imp ?_ And.left))
    exact And.imp_right fun hc => hc.resolve_right (Nat.ne_of_gt hd)

end Evaluation

/-! ### The oldest value due (R165, log 8) -/

section OldestValue
variable {s : State} {m : Fin 16} {before after : List DueValue} {d : DueValue}

theorem monitorEvaluation_oldest (hp : s.powered = true) (hq : s.dueValues = before ++ d :: after)
    (hd : d.monitor = m) (hb : ∀ x ∈ before, x.monitor ≠ m) : exec (.monitorEvaluation m) s
      = .next (grantIfDue (evaluate m d.value { s with dueValues := before ++ after })) := by
  have hdm : (d.monitor == m) = true := beq_iff_eq.mpr hd
  have hfind : s.dueValues.find? (fun d => d.monitor == m) = some d :=
    List.find?_eq_some_iff_append.mpr ⟨hdm, before, after, hq, fun x hx => by simpa using hb x hx⟩
  have herase : s.dueValues.eraseP (fun d => d.monitor == m) = before ++ after := by
    rw [hq, List.eraseP_append_right _ fun x hx => by simpa using hb x hx,
      List.eraseP_cons_of_pos (p := fun d : DueValue => d.monitor == m) hdm]
  show execMonitorEvaluation m s = _
  rw [execMonitorEvaluation, event_powered hp, hfind, herase]

/-- Without a value due at the monitor the evaluation does not come (log 3). -/
theorem monitorEvaluation_nothing (hp : s.powered = true) (h : ∀ x ∈ s.dueValues, x.monitor ≠ m) :
    exec (.monitorEvaluation m) s = .next s := by
  have hfind : s.dueValues.find? (fun d => d.monitor == m) = none :=
    List.find?_eq_none.mpr fun x hx => by simpa using h x hx
  show execMonitorEvaluation m s = _
  rw [execMonitorEvaluation, event_powered hp, hfind]

end OldestValue

/-- Settles O46: the entry to TRIPPED by the action, then the oldest value due by the monitor's state. -/
theorem monitorEvaluationActsByState : Obligations.MonitorEvaluationActsByState := by
  refine ⟨?entry, fun s m hp => ⟨?oldest, monitorEvaluation_nothing hp⟩⟩
  case entry =>
    rintro s m _ rfl
    rw [enterTripped_eq]
    exact ⟨fun ha => if_pos ha, fun ha => if_neg ha⟩
  case oldest =>
    rintro before after d _ t set beyond clears hq hd hb rfl hset hbeyond hclears ht
    rw [monitorEvaluation_oldest hp hq hd hb]
    have hset' : ∀ state timer, set state timer = editMonitor m (Monitor.evaluated d.value state timer)
        { s with dueValues := before ++ after } := hset
    rw [← beyond_iff] at hbeyond
    rw [← clears_iff] at hclears
    simp only [hset', hbeyond, hclears] at ht
    have hreleases := evaluate_releases (s := { s with dueValues := before ++ after }) (m := m)
      (v := d.value)
    congr 2
    rcases ht with ⟨hs, rfl⟩ | ⟨hs, hv, hdelay, rfl⟩ | ⟨hs, hv, hdelay, rfl⟩
      | ⟨hs, hdelay, hv, rfl⟩ | ⟨hs, hdelay, hv, ha, rfl⟩ | ⟨hs, hdelay, hv, ha, rfl⟩ | ⟨rfl, hv⟩
    · exact evaluate_disabled hs
    · exact evaluate_starts hs hv hdelay
    · exact evaluate_trips hs hv hdelay
    · exact evaluate_endsTiming hs hdelay hv
    · exact (hreleases hs hdelay hv).trans (releaseAction_headerTrip ha m _)
    · exact (hreleases hs hdelay hv).trans (releaseAction_other ha m _)
    · exact evaluate_stays hv

end Sys2Proof.Machine

/-! SUPPORT and the proof of O45. ACK MONITOR and DELAY_EXPIRY (R167, R170). -/

namespace Sys2Proof.Machine

-- One proof after the other: a proof that waits for an earlier one holds a thread and its stack.
set_option Elab.async false

section AckAndExpiry
variable {s : State} {m : Fin 16}

/-- An absent last value makes the condition false (R165). -/
theorem condition_iff {u : Monitor} : u.condition = true ↔ ∃ v, u.last = some v
    ∧ ((u.config.sense = .high ∧ u.config.threshold < v)
      ∨ (u.config.sense = .low ∧ v < u.config.threshold)) := by
  simp only [← beyond_iff]
  unfold Monitor.condition
  cases u.last with
  | none => simp only [Bool.false_eq_true, reduceCtorEq, false_and, exists_false]
  | some v => simp only [Option.some.injEq, exists_eq_left']

/-! ### ACK MONITOR (R170) -/

theorem retimed_met {u : Monitor} (h : u.condition = true) (expiry : Nat) :
    u.retimed expiry = { u with state := .timing, timer := some expiry } := if_pos h

theorem retimed_notMet {u : Monitor} (h : ¬ u.condition = true) (expiry : Nat) :
    u.retimed expiry = { u with state := .watching, timer := none } := if_neg h

/-- A monitor that follows its condition is not acknowledged (R170). -/
theorem ackMonitor_following (h : s.monitors[m].config.delay = 0) : ackMonitor m s = s := if_pos h

theorem ackMonitor_latched (h : 0 < s.monitors[m].config.delay) : ackMonitor m s
    = grantIfDue (releaseAction m s.monitors[m].config.action
        (editMonitor m (·.retimed (s.after s.monitors[m].config.delay)) s)) :=
  if_neg (Nat.ne_of_gt h)

/-- The monitor after the acknowledgement of a latched one, as its response gives it (R170). -/
theorem ackMonitor_monitor (h : 0 < s.monitors[m].config.delay) : (ackMonitor m s).monitors[m]
    = s.monitors[m].retimed (s.after s.monitors[m].config.delay) := by
  simp only [ackMonitor_latched h, grantIfDue_keeps, releaseAction_keeps, editMonitor_self]

/-- The request field read back from a payload, then the check of the state. -/
theorem ruleAckMonitor_monitor (m : Fin 16) (s : State) : ruleAckMonitor (byte m.1) s
    = if s.monitors[m].state ≠ .tripped then .refuse .wrongState
      else .ok (ackMonitor m s) (byte (ackMonitor m s).monitors[m].state.code) := by
  simp only [ruleAckMonitor, fields_number, fin?_be_byte (by decide : 16 ≤ 256)]

theorem ackMonitor_accepted (h : s.monitors[m].state = .tripped) : s.accepts .ackMonitor 0x51
    (byte m.1) (byte (ackMonitor m s).monitors[m].state.code) (ackMonitor m s) :=
  accepts_of (rule := ruleAckMonitor) rfl
    ((ruleAckMonitor_monitor m s).trans (if_neg (not_not_intro h)))

theorem ackMonitor_wrongState (h : s.monitors[m].state ≠ .tripped) :
    s.refuses .ackMonitor 0x51 (byte m.1) .wrongState :=
  refuses_of (rule := ruleAckMonitor) rfl ((ruleAckMonitor_monitor m s).trans (if_pos h))

/-- There is no seventeenth monitor (R163). -/
theorem ackMonitor_noMonitor {n : Byte} (h : 15 < n.toNat) :
    s.refuses .ackMonitor 0x51 [n] .badArgument :=
  refuses_of (rule := ruleAckMonitor) rfl (by
    simp only [ruleAckMonitor, fields_one, fin?_be_none (n := 16) h])

/-! ### DELAY_EXPIRY (R167) -/

theorem delayExpiry_timing {time : Nat} (hs : s.monitors[m].state = .timing)
    (ht : s.monitors[m].timer = some time) : delayExpiry m s
      = if s.monitors[m].condition then enterTripped m (reach time s)
        else editMonitor m (fun u => { u with state := .watching, timer := none })
          (reach time s) := by
  simp only [delayExpiry, hs, ht]

/-- Without a delay timer that runs in TIMING the delay's expiry does not come (log 3). -/
theorem delayExpiry_nothing (h : s.monitors[m].state ≠ .timing ∨ s.monitors[m].timer = none) :
    delayExpiry m s = s := by
  unfold delayExpiry
  dsimp only
  split
  · next hs ht =>
    rcases h with h | h
    · exact absurd hs h
    · rw [h] at ht; cases ht
  · rfl

end AckAndExpiry

/-- Settles O45: ACK MONITOR by the delay and the condition, then the expiry by the condition. -/
theorem ackAndDelayExpiryMoveTheMonitor : Obligations.AckAndDelayExpiryMoveTheMonitor := by
  rintro s m _ met rfl hmet
  have hcondition : s.monitors[m].condition = true ↔ met := condition_iff.trans hmet.symm
  rw [← hcondition]
  refine ⟨?latched, fun hs hd => ?following, ackMonitor_wrongState,
    fun n hn => ackMonitor_noMonitor hn, fun hp => ⟨fun time hs ht => ?expiry, fun h => ?nothing⟩⟩
  case latched =>
    rintro new _ _ code hs hd hnew rfl rfl
    have hretimed : s.monitors[m].retimed (s.after s.monitors[m].config.delay) = new
        ∧ new.state.code = code := by
      rcases hnew with ⟨hc, rfl, rfl⟩ | ⟨hc, rfl, rfl⟩
      · exact ⟨retimed_met hc _, rfl⟩
      · exact ⟨retimed_notMet hc _, rfl⟩
    obtain ⟨rfl, rfl⟩ := hretimed
    have h := ackMonitor_accepted hs
    rwa [ackMonitor_monitor hd, ackMonitor_latched hd] at h
  case following =>
    have h := ackMonitor_accepted hs
    rwa [ackMonitor_following hd, hs] at h
  case expiry =>
    have hexec : exec (.delayExpiry m) s = .next (delayExpiry m s) := event_powered hp
    rw [hexec, delayExpiry_timing hs ht]
    exact ⟨fun hc => by rw [if_pos hc]; rfl, fun hc => by rw [if_neg hc]; rfl⟩
  case nothing =>
    exact (event_powered hp).trans (congrArg _ (delayExpiry_nothing h))

end Sys2Proof.Machine

/-! SUPPORT and the proof of O44. CONFIGURE MONITOR and TEST TRIP OUTPUT (R164, R168, R172). -/

namespace Sys2Proof.Machine

-- One proof after the other: a proof that waits for an earlier one holds a thread and its stack.
set_option Elab.async false

/-! ### The codes of the request fields (R201) -/

/-- The kind and the number that a source is sent as spell it (R201). -/
theorem source?_bytes (src : Source) : ∃ kind number : Nat, src.bytes = byte kind ++ byte number
    ∧ source? (be (byte kind)) (be (byte number)) = some src := by
  have hfin {n : Nat} (hn : n ≤ 256) (g : Fin n → Source) (i : Fin n) :
      (fin? n (be (byte i.1))).map g = some (g i) := by rw [fin?_be_byte hn, Option.map_some]
  cases src with
  | channel c => exact ⟨0, c.1, rfl, hfin (by decide) .channel c⟩
  | rate r => exact ⟨1, r.1, rfl, hfin (by decide) .rate r⟩

/-- A kind outside its list, or a number outside its kind's range (R164). -/
theorem source?_none {kind number : Nat}
    (h : 1 < kind ∨ (kind = 0 ∧ 15 < number) ∨ (kind = 1 ∧ 5 < number)) :
    source? kind number = none := by
  rcases h with h | ⟨rfl, h⟩ | ⟨rfl, h⟩
  · obtain ⟨k, rfl⟩ := Nat.exists_eq_add_of_le' h
    rfl
  · rw [source?, fin?_none (n := 16) h, Option.map_none]
  · rw [source?, fin?_none (n := 6) h, Option.map_none]

theorem sense?_code (sn : Sense) : sense? (be (byte sn.code)) = some sn := by
  cases sn <;> rfl

/-- There is no third sense (R164). -/
theorem sense?_none {n : Nat} (h : 1 < n) : sense? n = none := by
  obtain ⟨k, rfl⟩ := Nat.exists_eq_add_of_le' h
  rfl

theorem action?_code (a : Action) : action? (be (byte a.code)) = some a := by
  cases a <;> rfl

/-- There is no fourth action (R164). -/
theorem action?_none {n : Nat} (h : 2 < n) : action? n = none := by
  obtain ⟨k, rfl⟩ := Nat.exists_eq_add_of_le' h
  rfl

/-! ### The request of CONFIGURE MONITOR (R164) -/

section Fields
variable {monitor enabled kind number sense threshold clear delay action : List Byte}

theorem fields_configureMonitor (hm : monitor.length = 1) (he : enabled.length = 1)
    (hk : kind.length = 1) (hn : number.length = 1) (hs : sense.length = 1)
    (ht : threshold.length = 4) (hc : clear.length = 4) (hd : delay.length = 2)
    (ha : action.length = 1) :
    fields [1, 1, 1, 1, 1, 4, 4, 2, 1] (monitor ++ enabled ++ (kind ++ number) ++ sense
        ++ threshold ++ clear ++ delay ++ action)
      = some [monitor, enabled, kind, number, sense, threshold, clear, delay, action] := by
  simp only [List.append_assoc, fields_append hm, fields_append he, fields_append hk,
    fields_append hn, fields_append hs, fields_append ht, fields_append hc, fields_append hd,
    fields_last ha, Option.map_some]

end Fields

/-- The request fields of CONFIGURE MONITOR, read back from a payload, then the check of the ranges. -/
theorem ruleConfigureMonitor_fields {c : MonitorConfig} (ht : c.threshold < 2 ^ 32)
    (hc : c.clearLevel < 2 ^ 32) (hd : c.delay < 65536) (m : Fin 16) (s : State) :
    ruleConfigureMonitor (byte m.1 ++ flagByte c.enabled ++ c.source.bytes ++ byte c.sense.code
        ++ toBytes 4 c.threshold ++ toBytes 4 c.clearLevel ++ toBytes 2 c.delay
        ++ byte c.action.code) s
      = if c.inRange then .ok (configureMonitor m c s) [] else .refuse .badArgument := by
  obtain ⟨kind, number, hb, hsource⟩ := source?_bytes c.source
  have hfields := fields_configureMonitor (length_byte m.1)
    (show (flagByte c.enabled).length = 1 from rfl) (length_byte kind) (length_byte number)
    (length_byte c.sense.code) (length_toBytes 4 c.threshold) (length_toBytes 4 c.clearLevel)
    (length_toBytes 2 c.delay) (length_byte c.action.code)
  simp only [ruleConfigureMonitor, hb, hfields, fin?_be_byte (by decide : 16 ≤ 256), flag?_byte,
    hsource, sense?_code, action?_code, be_toBytes (width := 4) ht, be_toBytes (width := 4) hc,
    be_toBytes (width := 2) hd]

/-- A monitor outside its numbers, a flag above 1, or a code outside its list (R164, R196; log 10). -/
theorem ruleConfigureMonitor_outOfRange {m e k n sense a : Byte} {rest : List Byte}
    (hrest : rest.length = 10)
    (h : 15 < m.toNat ∨ 1 < e.toNat ∨ 1 < k.toNat ∨ (k = 0 ∧ 15 < n.toNat) ∨ (k = 1 ∧ 5 < n.toNat)
      ∨ 1 < sense.toNat ∨ 2 < a.toNat) (s : State) :
    ruleConfigureMonitor ([m, e, k, n, sense] ++ rest ++ [a]) s = .refuse .badArgument := by
  obtain ⟨x, y, z, rfl, hx, hy, hz⟩ : ∃ x y z : List Byte, rest = x ++ y ++ z
      ∧ x.length = 4 ∧ y.length = 4 ∧ z.length = 2 :=
    ⟨rest.take 4, (rest.drop 4).take 4, (rest.drop 4).drop 4,
      by rw [List.append_assoc, List.take_append_drop, List.take_append_drop],
      by simp [hrest], by simp [hrest], by simp [hrest]⟩
  have hfields : fields [1, 1, 1, 1, 1, 4, 4, 2, 1] ([m, e, k, n, sense] ++ (x ++ y ++ z) ++ [a])
      = some [[m], [e], [k], [n], [sense], x, y, z, [a]] :=
    fields_configureMonitor (monitor := [m]) (enabled := [e]) (kind := [k]) (number := [n])
      (sense := [sense]) rfl rfl rfl rfl rfl hx hy hz rfl
  simp only [ruleConfigureMonitor, hfields, be_single]
  split
  · next hm he hsource hs ha =>
    have hnone : ¬ source? k.toNat n.toNat = none := by rw [hsource]; exact Option.some_ne_none _
    rcases h with h | h | h | ⟨rfl, h⟩ | ⟨rfl, h⟩ | h | h
    · rw [fin?_none (n := 16) h] at hm; cases hm
    · rw [flag?_none h] at he; cases he
    · exact absurd (source?_none (.inl h)) hnone
    · exact absurd (source?_none (.inr (.inl ⟨rfl, h⟩))) hnone
    · exact absurd (source?_none (.inr (.inr ⟨rfl, h⟩))) hnone
    · rw [sense?_none h] at hs; cases hs
    · rw [action?_none h] at ha; cases ha
  · rfl

/-- The delay in its range and the clear level on the right side of the threshold (R164). -/
theorem monitorConfig_inRange_iff {c : MonitorConfig} : c.inRange = true ↔ c.delay ≤ 60000
    ∧ (c.sense = .high → c.clearLevel ≤ c.threshold)
    ∧ (c.sense = .low → c.threshold ≤ c.clearLevel) := by
  unfold MonitorConfig.inRange
  cases c.sense with
  | high => simp only [Bool.and_eq_true, decide_eq_true_eq, true_imp_iff, reduceCtorEq,
      false_imp_iff, and_true]
  | low => simp only [Bool.and_eq_true, decide_eq_true_eq, true_imp_iff, reduceCtorEq,
      false_imp_iff, true_and]

theorem monitorConfig_outOfRange {c : MonitorConfig} (h : 60000 < c.delay
    ∨ (c.sense = .high ∧ c.threshold < c.clearLevel)
    ∨ (c.sense = .low ∧ c.clearLevel < c.threshold)) : ¬ c.inRange = true := by
  rw [monitorConfig_inRange_iff]
  rintro ⟨hd, hhigh, hlow⟩
  rcases h with h | ⟨hs, h⟩ | ⟨hs, h⟩
  · exact Nat.not_lt.mpr hd h
  · exact Nat.not_lt.mpr (hhigh hs) h
  · exact Nat.not_lt.mpr (hlow hs) h

/-! ### What the new configuration brings (R164, R168) -/

section Configured
variable {s : State} {m : Fin 16}

/-- Only an applied HEADER_TRIP leaves the trip set (R168). -/
theorem releaseIfTripped_eq : releaseIfTripped m s
    = if s.monitors[m].state = .tripped ∧ s.monitors[m].config.action = .headerTrip
      then changeTrips (.withMonitor m false) s else s := by
  by_cases hs : s.monitors[m].state = .tripped
  · rw [releaseIfTripped, if_pos hs, releaseAction]
    simp only [hs, true_and]
  · rw [releaseIfTripped, if_neg hs, if_neg fun h => hs h.1]

theorem dropDue_eq : dropDue m s
    = { s with dueValues := s.dueValues.filter (fun d => d.monitor ≠ m) } := by
  simp only [dropDue, bne, Bool.beq_eq_decide_eq, ← decide_not, ne_eq]

end Configured

/-! ### TEST TRIP OUTPUT (R172) -/

section TripTest
variable {s : State}

theorem ruleTestTripOutput_flag (b : Bool) (s : State) :
    ruleTestTripOutput (flagByte b) s = testTripOutput b s := by
  have hfields : fields [1] (flagByte b) = some [flagByte b] := rfl
  simp only [ruleTestTripOutput, hfields, flag?_byte]

/-- The response is the level of the TRIP output after the command (R172). -/
theorem testTripOutput_level {b level : Bool} (hb : ¬ (b = true ∧ s.holder .trip = none))
    (hl : level = true ↔ ({ s with tripTest := b } : State).tripOutput = true) :
    testTripOutput b s = .ok { s with tripTest := b } (flagByte level) := by
  rw [testTripOutput, if_neg hb, State.tripLevel, Bool.eq_iff_iff.mpr hl]

theorem testTripOutput_on (hx : ∃ x : Fin 16, s.terminals[x] = .trip) (hp : s.powered = true) :
    testTripOutput true s = .ok { s with tripTest := true } (flagByte true) := by
  obtain ⟨x, hx⟩ := hx
  exact testTripOutput_level (fun h => holder_none.mp h.2 x hx)
    (iff_of_true rfl ((tripOutput_iff _).mpr ⟨hp, .inl rfl⟩))

theorem testTripOutput_conflict (h : ∀ x : Fin 16, s.terminals[x] ≠ .trip) :
    testTripOutput true s = .refuse .conflict := if_pos ⟨rfl, holder_none.mpr h⟩

/-- With the test off the monitors alone hold the output (R171, R172). -/
theorem testTripOutput_off {level : Bool} (hp : s.powered = true)
    (hl : level = true ↔ ∃ m : Fin 16, s.monitors[m].state = .tripped
      ∧ s.monitors[m].config.action = .tripOutput) :
    testTripOutput false s = .ok { s with tripTest := false } (flagByte level) := by
  refine testTripOutput_level (fun h => Bool.false_ne_true h.1) (hl.trans ?_)
  rw [tripOutput_iff]
  exact ⟨fun h => ⟨hp, .inr h⟩, fun h => h.2.resolve_left Bool.false_ne_true⟩

theorem ruleTestTripOutput_noFlag {on : Byte} (h : 1 < on.toNat) :
    ruleTestTripOutput [on] s = .refuse .badArgument := by
  simp only [ruleTestTripOutput, fields_one, be_single, flag?_none h]

end TripTest

/-- Settles O44: CONFIGURE MONITOR by its checks, then TEST TRIP OUTPUT by the flag. -/
theorem monitorConfigurationStartsAnew : Obligations.MonitorConfigurationStartsAnew := by
  refine fun s => ⟨?configure, fun m e k n sense a rest hrest h =>
      refuses_of (rule := ruleConfigureMonitor) rfl (ruleConfigureMonitor_outOfRange hrest h s),
    fun hx hp => ?on, fun h => ?conflict, fun level hp hl => ?off, fun on h =>
      refuses_of (rule := ruleTestTripOutput) rfl (ruleTestTripOutput_noFlag h)⟩
  case configure =>
    rintro m c u v _ ht hc hd rfl hu hv
    have hrule := ruleConfigureMonitor_fields ht hc hd m s
    refine ⟨fun h => ?_, fun h => refuses_of (rule := ruleConfigureMonitor) rfl
      (hrule.trans (if_neg (monitorConfig_outOfRange h)))⟩
    have hrelease : releaseIfTripped m (dropDue m s) = v := by
      rw [hv, hu, releaseIfTripped_eq, dropDue_eq]
      rfl
    refine accepts_of (rule := ruleConfigureMonitor) rfl
      ((hrule.trans (if_pos (monitorConfig_inRange_iff.mpr h))).trans ?_)
    rw [configureMonitor, hrelease]
    rfl
  case on =>
    exact accepts_of (rule := ruleTestTripOutput) rfl
      ((ruleTestTripOutput_flag true s).trans (testTripOutput_on hx hp))
  case conflict =>
    exact refuses_of (rule := ruleTestTripOutput) rfl
      ((ruleTestTripOutput_flag true s).trans (testTripOutput_conflict h))
  case off =>
    exact accepts_of (rule := ruleTestTripOutput) rfl
      ((ruleTestTripOutput_flag false s).trans (testTripOutput_off hp hl))

end Sys2Proof.Machine

/-! SUPPORT and the proof of O2. What every command answers, and that it leaves the queue as it stands. -/

namespace Sys2Proof.Machine

-- One proof after the other: a proof that waits for an earlier one holds a thread and its stack.
set_option Elab.async false

/-! ### Every command answers a next state (R186; log 6, log 17) -/

/-- A row answers a next state in every state; without supply it changes at most the levels applied at the terminals. -/
def Answers (row : State → Result) : Prop :=
  ∀ s, ∃ t, row s = .next t ∧ (s.powered = false → ∃ levels, t = { s with levels := levels })

/-- Without supply no request is in execution (R186). -/
theorem executing_unpowered {s : State} (h : s.powered = false) : s.executing = none := by
  refine if_neg ?_
  rintro ⟨hp, _⟩
  rw [h] at hp; cases hp

/-- The row of a request: without supply none is in execution. -/
theorem serve_answers {row : State → Result} {n : Byte} {rule : List Byte → State → Answer}
    (hrow : ∀ s, row s = serve n rule s) : Answers row := by
  refine fun s => ⟨_, hrow s, fun h => ⟨s.levels, ?_⟩⟩
  simp only [executing_unpowered h]

/-- The row of an event: without supply it is not taken. -/
theorem event_answers {row : State → Result} {f : State → State} (hrow : ∀ s, row s = event f s) :
    Answers row := by
  refine fun s => ⟨_, hrow s, fun h => ⟨s.levels, if_neg ?_⟩⟩
  rw [h]; exact Bool.false_ne_true

/-- The row of a terminal: without supply the level alone follows. -/
theorem terminal_answers {row : State → Result} {f : State → State} {x : Fin 16} {high : Bool}
    (hrow : ∀ s, row s = .next (if s.powered then f s else setLevel x high s)) : Answers row := by
  refine fun s => ⟨_, hrow s, fun h => ⟨setAt s.levels x high, if_neg ?_⟩⟩
  rw [h]; exact Bool.false_ne_true

/-- RESET, which serves its command without a completion where its key is right (R193). -/
theorem reset_answers : Answers execReset := by
  refine fun s => ⟨_, rfl, fun h => ⟨s.levels, ?_⟩⟩
  simp only [executing_unpowered h]

/-- UNKNOWN_COMMAND, which serves every command number that is none of the rows' (R196). -/
theorem unknownCommand_answers : Answers execUnknownCommand := by
  refine fun s => ⟨_, rfl, fun h => ⟨s.levels, ?_⟩⟩
  simp only [executing_unpowered h]

/-- The rows of requests (R196, R201). -/
theorem request_answers {c : Instr} {n : Byte} (hn : requestNumber c = some n) :
    Answers (exec c) := by
  by_cases hc : c = .reset
  · subst hc
    exact reset_answers
  · obtain ⟨rule, hrule⟩ := exec_serve hn hc
    exact serve_answers hrule

/-- The rows of events but the cold start, by what each waits for. -/
theorem nonRequest_answers {c : Instr} (hn : requestNumber c = none)
    (hc : ∀ running, c ≠ .coldStart running) : Answers (exec c) := by
  cases c
  case coldStart running => exact absurd rfl (hc running)
  case unknownCommand => exact unknownCommand_answers
  case pulseEdge | proofActivation | flowDrop | flowRise | syncActivation | stopInActive
      | stopInInactive =>
    exact terminal_answers fun _ => rfl
  case requestFrame | fetch | rstNFall | supplyFallBelowLow | supplyRiseToLow
      | lowQualificationExpiry | supplyRiseToRecovery | supplyFallBelowRecovery
      | normalQualificationExpiry | supplyFallBelowReset | saveCompletion | crystalFailure
      | crystalRunning | crystalQualificationExpiry | deviceSecond | validityExpiry
      | intervalExpiry | conversionEnd | meteringUpdate | monitorEvaluation | delayExpiry
      | settleExpiry | onTimeExpiry | proofWindowExpiry | spacingExpiry | pauseExpiry
      | manualTimerExpiry =>
    exact event_answers fun _ => rfl
  all_goals cases hn

theorem exec_answers {c : Instr} (hc : ∀ running, c ≠ .coldStart running) : Answers (exec c) := by
  cases hn : requestNumber c with
  | some n => exact request_answers hn
  | none => exact nonRequest_answers hn hc

/-- Every command answers a next state; the cold start in any state (log 17). -/
theorem exec_next (c : Instr) (s : State) : ∃ t, exec c s = .next t := by
  by_cases hc : ∃ running, c = .coldStart running
  · obtain ⟨running, rfl⟩ := hc
    exact ⟨_, rfl⟩
  · obtain ⟨t, ht, _⟩ := exec_answers (fun running h => hc ⟨running, h⟩) s
    exact ⟨t, ht⟩

/-! ### The operations leave the queue as it stands (log 1) -/

section Queue
variable (s : State)

theorem amendAccount_pending (i : Fin 12) (m : Amendment) :
    (amendAccount i m s).pending = s.pending := by simp [amendAccount]

theorem attachRun_pending (i : Fin 12) (r : Fin 6) : (attachRun i r s).pending = s.pending := by
  simp [attachRun]

theorem detachAll_pending (i : Fin 12) : (detachAll i s).pending = s.pending :=
  fold_keeps (P := fun t => t.pending = s.pending) (fun t r h => by simpa using h) _ s rfl

theorem closeAccount_pending (i : Fin 12) : (closeAccount i s).pending = s.pending := by
  simp [closeAccount, detachAll_pending]

theorem removeFromService_pending (r : Fin 6) : (removeFromService r s).pending = s.pending := by
  simp [removeFromService]

/-- A lower limit waives at the accounts of the point (R102, R126). -/
theorem afterLimit_pending (q : Fin 4) (before : Point) :
    (afterLimit q before s).pending = s.pending := by
  unfold afterLimit; split
  · exact fold_keeps (P := fun t => t.pending = s.pending) (fun t i h => by simpa using h) _ s rfl
  · rfl

theorem afterState_pending (q : Fin 4) (before : Point) :
    (afterState q before s).pending = s.pending := by
  unfold afterState; split
  · simp
  · rfl

theorem configurePoint_pending (q : Fin 4) (st : PointState) (limit : Nat) :
    (configurePoint q st limit s).pending = s.pending := by
  simp [configurePoint, afterState_pending, afterLimit_pending]

theorem manualDose_pending (mask : List (Fin 4)) : (manualDose mask s).pending = s.pending := by
  simp [manualDose]

theorem configureMonitor_pending (m : Fin 16) (c : MonitorConfig) :
    (configureMonitor m c s).pending = s.pending := by simp [configureMonitor]

theorem ackMonitor_pending (m : Fin 16) : (ackMonitor m s).pending = s.pending := by
  unfold ackMonitor; dsimp only; split
  · rfl
  · simp

theorem setTime_pending (time : Nat) : (setTime time s).pending = s.pending := by simp [setTime]

theorem dropFlows_pending (before : State) : (dropFlows before s).pending = s.pending :=
  fold_keeps (P := fun t => t.pending = s.pending) (fun t q h => by simpa using h) _ s rfl

theorem mapTerminal_pending (t : Fin 16) (f : TerminalFunction) :
    (mapTerminal t f s).pending = s.pending := by simp [mapTerminal, dropFlows_pending]

theorem pulseAt_pending (r : Fin 6) (rising : Bool) : (pulseAt r rising s).pending = s.pending := by
  unfold pulseAt; split
  · simp
  · rfl

theorem proofOf_pending (p : Fin 2) : (proofOf p s).pending = s.pending := by
  unfold proofOf; repeat' split
  all_goals simp

theorem warmReset_pending : (warmReset s).pending = s.pending := by simp [warmReset]

/-- The records of a start come with the queue as it stood (R191; log 5). -/
theorem coldStart_pending (running : Bool) : (coldStart running s).pending = s.pending := by
  simp [coldStart, keepInputs]

theorem enterLow_pending : (enterLow s).pending = s.pending := by simp [enterLow]

theorem returnToNormal_pending : (returnToNormal s).pending = s.pending := by
  simp [returnToNormal]

theorem countDownAll_pending : (countDownAll s).pending = s.pending :=
  fold_keeps (P := fun t => t.pending = s.pending) (fun t q h => by simpa using h) _ _ rfl

theorem deviceSecond_pending : (deviceSecond s).pending = s.pending := by
  simp [deviceSecond, countDownAll_pending]

theorem intervalExpiry_pending : (intervalExpiry s).pending = s.pending := by
  simp [intervalExpiry]

theorem conversionEnd_pending (code : BitVec 16) :
    (conversionEnd code s).pending = s.pending := by
  unfold conversionEnd; dsimp only; repeat' split
  all_goals simp

theorem delayExpiry_pending (m : Fin 16) : (delayExpiry m s).pending = s.pending := by
  unfold delayExpiry; dsimp only; repeat' split
  all_goals simp

theorem settleExpiry_pending : (settleExpiry s).pending = s.pending := by
  unfold settleExpiry; split
  all_goals simp

theorem onTimeExpiry_pending : (onTimeExpiry s).pending = s.pending := by
  unfold onTimeExpiry; dsimp only; repeat' split
  all_goals simp

theorem proofWindowExpiry_pending : (proofWindowExpiry s).pending = s.pending := by
  unfold proofWindowExpiry; dsimp only; repeat' split
  all_goals simp

theorem spacingExpiry_pending : (spacingExpiry s).pending = s.pending := by
  unfold spacingExpiry; repeat' split
  all_goals simp

theorem pauseExpiry_pending : (pauseExpiry s).pending = s.pending := by
  unfold pauseExpiry; split
  all_goals simp

end Queue

/-- The queue stands as given. -/
def State.waits (l : List Instr) (s : State) : Prop := s.pending = l

/-- The queue stands as it did where the later state has the same. -/
theorem State.waits.same {l : List Instr} {s t : State} (h : s.waits l)
    (e : t.pending = s.pending := by simp) : t.waits l := e.trans h

/-- No effect of a command touches the queue (log 1). -/
theorem queueEffects (l : List Instr) : Effects (State.waits l) (State.waits l) where
  self _ h := h
  complete _ _ _ h := h
  elapse _ _ h := h
  reach _ _ h := h
  link _ _ _ h := h
  accept _ _ h := h
  discard _ h := h
  refuse _ h := h
  openAccount _ _ _ _ _ _ _ h _ _ _ _ := h
  amendAccount i m s h _ _ := h.same (amendAccount_pending s i m)
  attachRun i r s h _ _ _ := h.same (attachRun_pending s i r)
  detachRun _ _ _ h _ := h.same
  closeAccount i s h _ := h.same (closeAccount_pending s i)
  releaseAccount _ _ h _ := h
  configureRun _ _ _ h _ := h
  setBands _ _ _ h _ := h
  placeInService _ _ h _ := h
  removeFromService r s h := h.same (by simp [removeFromService_pending])
  clearRunTotals _ _ h := h
  postComposition _ _ _ h _ := h
  retireComposition _ _ h _ := h
  channels _ _ _ h := h
  setScan _ _ _ h := h
  startScan _ h _ := h.same
  configurePoint q st limit s h _ _ := h.same (configurePoint_pending s q st limit)
  headerConfig _ _ h := h
  manualDuration _ _ h := h
  manualDose mask s h _ _ := h.same (manualDose_pending s mask)
  configurePump _ _ _ h _ _ := h
  restorePump _ _ h _ _ _ := h
  isolatePump _ _ _ h _ := h
  resetPump _ _ h _ := h
  selectDuty _ _ h _ _ := h.same
  deferDuty _ _ h := h
  configureMonitor m c s h := h.same (configureMonitor_pending s m c)
  ackMonitor m s h _ := h.same (ackMonitor_pending s m)
  tripTest _ _ h := h
  setTime time s h := h.same (setTime_pending s time)
  clock _ _ h := h
  startSave _ h := h.same
  mapTerminal t f s h _ _ := h.same (mapTerminal_pending s t f)
  ackAttention _ _ _ h := h
  setAttentionLevel _ _ _ h _ := h
  stoppedLevel _ _ _ h _ := h
  quietLevel _ _ _ h _ := h
  pulse _ _ r _ h _ := h.same (pulseAt_pending _ r _)
  proof _ p _ h _ := h.same (proofOf_pending _ p)
  flowDrop _ _ _ h _ := h.same
  flowRise _ _ _ h _ := h.same
  syncLevel _ _ h _ := h
  sync _ _ h _ := h.same
  stopIn _ _ h _ := h.same
  stopOut _ _ h _ := h.same
  warmReset s h := h.same (warmReset_pending s)
  coldStart running s h := h.same (coldStart_pending s running)
  qualification _ _ h := h
  enterLow s h := h.same (enterLow_pending s)
  returnToNormal s h _ := h.same (returnToNormal_pending s)
  powerDown _ h := h
  saveDone _ _ h _ := h
  clockChange _ _ _ h := h.same
  deviceSecond s h := h.same (deviceSecond_pending s)
  expireSlot _ _ h := h.same
  intervalExpiry s h := h.same (intervalExpiry_pending s)
  conversionEnd code s h := h.same (conversionEnd_pending s code)
  dropUpdate _ _ h := h
  meteringUpdate _ _ _ _ h := h.same
  evaluate _ _ _ _ h := h.same
  delayExpiry m s h := h.same (delayExpiry_pending s m)
  settleExpiry s h := h.same (settleExpiry_pending s)
  onTimeExpiry s h := h.same (onTimeExpiry_pending s)
  proofWindowExpiry s h := h.same (proofWindowExpiry_pending s)
  spacingExpiry s h := h.same (spacingExpiry_pending s)
  pauseExpiry s h := h.same (pauseExpiry_pending s)
  endManual _ h := h.same

/-- Settles O2: the next state by the kind of row, its queue by what every effect does to it. -/
theorem everyCommandAnswersAndKeepsQueue : Obligations.EveryCommandAnswersAndKeepsQueue := by
  refine ⟨fun c s => ?next, fun c s hp hc => ?stopped⟩
  case next =>
    obtain ⟨t, ht⟩ := exec_next c s
    exact ⟨t, ht, exec_brings (queueEffects s.pending) rfl ht⟩
  case stopped =>
    obtain ⟨t, ht, hlevels⟩ := exec_answers hc s
    obtain ⟨levels, rfl⟩ := hlevels hp
    exact ⟨levels, ht⟩

end Sys2Proof.Machine

/-! SUPPORT and the proof of O47. SET TIME, SET GAS DAY HOUR, SET BASE CONDITIONS and the rollover. -/

namespace Sys2Proof.Machine

-- One proof after the other: a proof that waits for an earlier one holds a thread and its stack.
set_option Elab.async false

/-! ### SET TIME (R178) -/

/-- The gas day of a time is the one number whose day holds it (R179). -/
theorem gasDay_unique {c : Clock} {time : Nat} {day : Int}
    (hlow : 86400 * day ≤ (time : Int) - c.hour * 3600)
    (hhigh : (time : Int) - c.hour * 3600 < 86400 * (day + 1)) : c.gasDay time = day := by
  obtain ⟨hl, hh⟩ := gasDay_bounds c time
  omega

/-- A new time in another gas day, with the time set, rolls over once (R178). -/
theorem rollIfOtherDay_other {s : State} {time : Nat} (hset : s.clock.timeSet = true)
    (hday : s.clock.gasDay time ≠ s.clock.gasDay s.clock.deviceTime) :
    rollIfOtherDay time s = rollover s := if_pos ⟨hset, hday⟩

/-- While the time is not set, or in the same gas day, nothing rolls over (R177, R178). -/
theorem rollIfOtherDay_none {s : State} {time : Nat}
    (h : s.clock.timeSet = false ∨ s.clock.gasDay time = s.clock.gasDay s.clock.deviceTime) :
    rollIfOtherDay time s = s := by
  refine if_neg ?_
  rintro ⟨hset, hday⟩
  rcases h with h | h
  · rw [h] at hset; cases hset
  · exact hday h

/-- A rollover moves nothing of the clock, so the new time is stored in the clock as it stood. -/
theorem setTime_eq (time : Nat) (s : State) : setTime time s
    = { rollIfOtherDay time s with
        clock := { s.clock with deviceTime := time, timeSet := true } } := by
  have hclock : (rollIfOtherDay time s).clock = s.clock := by simp
  rw [setTime, writeTime, hclock]

/-- SET TIME with its one field read back from the payload (R201). -/
theorem setTime_accepted {time : Nat} (h : time < 2 ^ 32) (s : State) :
    s.accepts .setTime 0x60 (toBytes 4 time) [] (setTime time s) := by
  refine accepts_of (rule := ruleSetTime) rfl ?_
  simp only [ruleSetTime, fields_last (length_toBytes 4 time), be_toBytes (width := 4) h]

/-! ### The rollover (R179) -/

/-- The rollover with what it does to an account written out (R179). -/
theorem rollover_eq (s : State) : rollover s = startSave (raise .gasDayEnd 255
    { s with
      accounts := mapAll (fun a : Account =>
        if a.state = .opened
        then { a with
          previousDay := some { base := a.dayBase, energy := a.dayEnergy }
          dayBase := ⟨0, 0⟩, dayEnergy := ⟨0, 0⟩ }
        else a) s.accounts }) := rfl

/-! ### SET GAS DAY HOUR (R180) -/

theorem setGasDayHour_accepted {h : Nat} (hh : h ≤ 23) (s : State) :
    s.accepts .setGasDayHour 0x61 (byte h) [] { s with clock := { s.clock with hour := h } } := by
  refine accepts_of (rule := ruleSetGasDayHour) rfl ?_
  simp only [ruleSetGasDayHour, fields_number, be_byte (show h < 256 by omega),
    if_neg (Nat.not_lt.mpr hh)]

theorem setGasDayHour_refused {h : Byte} (hh : 23 < h.toNat) (s : State) :
    s.refuses .setGasDayHour 0x61 [h] .badArgument := by
  refine refuses_of (rule := ruleSetGasDayHour) rfl ?_
  simp only [ruleSetGasDayHour, fields_one, be_single, if_pos hh]

/-! ### SET BASE CONDITIONS (R182) -/

section BaseConditions
variable {p t : Nat}

/-- SET BASE CONDITIONS with its two fields read back from the payload (R201). -/
theorem ruleSetBaseConditions_fields (hp : p < 2 ^ 32) (ht : t < 2 ^ 32) (s : State) :
    ruleSetBaseConditions (toBytes 4 p ++ toBytes 4 t) s = setBaseConditions p t s := by
  simp only [ruleSetBaseConditions, fields_append (length_toBytes 4 p),
    fields_last (length_toBytes 4 t), Option.map_some, be_toBytes (width := 4) hp,
    be_toBytes (width := 4) ht]

theorem setBaseConditions_inRange (s : State) (hp : 90000 ≤ p ∧ p ≤ 110000)
    (ht : 273150 ≤ t ∧ t ≤ 298150) : setBaseConditions p t s
      = .ok { s with clock := { s.clock with basePressure := p, baseTemperature := t } } [] := by
  rw [setBaseConditions, inRange_iff.mpr hp, inRange_iff.mpr ht]
  rfl

theorem setBaseConditions_outOfRange (s : State)
    (h : p < 90000 ∨ 110000 < p ∨ t < 273150 ∨ 298150 < t) :
    setBaseConditions p t s = .refuse .badArgument := by
  refine if_neg ?_
  rw [Bool.and_eq_true, inRange_iff, inRange_iff]
  omega

end BaseConditions

/-- Settles O47: SET TIME by whether the gas day changes, the rollover, then the two settings by their ranges. -/
theorem timeAndBaseConditionsAreSet : Obligations.TimeAndBaseConditionsAreSet := by
  refine ⟨?time, rollover_eq, fun s h hh => setGasDayHour_accepted hh s,
    fun s h hh => setGasDayHour_refused hh s, fun s p t hp ht => ⟨?inRange, ?outOfRange⟩⟩
  case time =>
    intro s time day t htime hday ht
    obtain rfl : day = s.clock.gasDay := funext fun n =>
      have ⟨hlow, hhigh⟩ := hday n
      (gasDay_unique hlow hhigh).symm
    have hroll : rollIfOtherDay time s = t := by
      rcases ht with ⟨hset, hne, rfl⟩ | ⟨hsame, rfl⟩
      · exact rollIfOtherDay_other hset hne
      · exact rollIfOtherDay_none hsame
    rw [← hroll, ← setTime_eq]
    exact setTime_accepted htime s
  case inRange =>
    intro hp1 hp2 ht1 ht2
    exact accepts_of (rule := ruleSetBaseConditions) rfl
      ((ruleSetBaseConditions_fields hp ht s).trans
        (setBaseConditions_inRange s ⟨hp1, hp2⟩ ⟨ht1, ht2⟩))
  case outOfRange =>
    intro h
    exact refuses_of (rule := ruleSetBaseConditions) rfl
      ((ruleSetBaseConditions_fields hp ht s).trans (setBaseConditions_outOfRange s h))

end Sys2Proof.Machine

/-! SUPPORT and the proof of O48. The crystal events. -/

namespace Sys2Proof.Machine

-- One proof after the other: a proof that waits for an earlier one holds a thread and its stack.
set_option Elab.async false

/-- The expiry of a stopped timer does not occur (log 3). -/
theorem expiry_stopped {timer : State → Option Nat} {f : State → State} {s : State}
    (h : timer s = none) : expiry timer f s = .next s := by
  simp only [expiry, event, h, ite_self]

/-! ### The crystal failure (R181) -/

section Crystal
variable {s : State}

/-- On CRYSTAL the source becomes FALLBACK, with CLOCK_CHANGE (R181). -/
theorem crystalFailure_crystal (h : s.clock.source = .crystal) : crystalFailure s
    = raise .clockChange 255 { s with clock := { s.clock with source := .fallback } } := by
  simp only [crystalFailure, h]
  rfl

/-- On FALLBACK a running qualification stops, and nothing is raised (R181). -/
theorem crystalFailure_qualifying (h : s.clock.source = .fallback)
    (hq : s.clock.qualification.isSome) : crystalFailure s = stopCrystalQualification s := by
  simp only [crystalFailure, h, hq, if_true]

/-- On FALLBACK without a qualification there is nothing left to fail (log 3). -/
theorem crystalFailure_nothing (h : s.clock.source = .fallback)
    (hq : s.clock.qualification = none) : crystalFailure s = s := by
  simp only [crystalFailure, h, hq, Option.isSome_none, Bool.false_eq_true, if_false]

/-! ### The crystal found running (R181) -/

/-- On FALLBACK without a qualification one of 2 s starts (R181). -/
theorem crystalFound_starts (h : s.clock.source = .fallback) (hq : s.clock.qualification = none) :
    crystalFound s
      = { s with clock := { s.clock with qualification := some (s.now + 2000000) } } :=
  if_pos ⟨h, hq⟩

/-- On CRYSTAL, or with a qualification running, the crystal is not found again (log 3). -/
theorem crystalFound_nothing (h : s.clock.source = .crystal ∨ s.clock.qualification.isSome) :
    crystalFound s = s := by
  refine if_neg ?_
  rintro ⟨hsource, hq⟩
  rcases h with h | h
  · rw [h] at hsource; cases hsource
  · rw [hq] at h; cases h

end Crystal

/-- Settles O48: the failure and the finding by source and qualification, the expiry by what the monitor finds. -/
theorem crystalEventsChangeTheSource : Obligations.CrystalEventsChangeTheSource := by
  intro s us t hpow ht
  obtain rfl : t = elapse us s := ht
  have hfailure : exec (.crystalFailure us) s = .next (crystalFailure (elapse us s)) :=
    eventAfter_powered hpow
  have hfound : exec (.crystalRunning us) s = .next (crystalFound (elapse us s)) :=
    eventAfter_powered hpow
  have hexpiry : ∀ running, exec (.crystalQualificationExpiry running) s
      = expiry (·.clock.qualification) (crystalQualified running) s := fun _ => rfl
  simp only [hfailure, hfound, hexpiry]
  refine ⟨fun h => ?_, fun h hq => ?_, fun h hq => ?_, fun h hq => ?_, fun h => ?_,
    fun time hq => ⟨?_, ?_⟩, fun running hq => ?_⟩
  · exact congrArg _ (crystalFailure_crystal (s := elapse us s) h)
  · exact congrArg _ (crystalFailure_qualifying (s := elapse us s) h hq)
  · exact congrArg _ (crystalFailure_nothing (s := elapse us s) h hq)
  · exact congrArg _ (crystalFound_starts (s := elapse us s) h hq)
  · exact congrArg _ (crystalFound_nothing (s := elapse us s) h)
  · exact expiry_running hpow hq
  · exact expiry_running hpow hq
  · exact expiry_stopped hq

end Sys2Proof.Machine

/-! SUPPORT and the proof of O49. The supply's crossings and the expiries of its qualifications. -/

namespace Sys2Proof.Machine

-- One proof after the other: a proof that waits for an earlier one holds a thread and its stack.
set_option Elab.async false

section Crossings
variable {s : State} {left : SupplyState} {ms : Nat}

/-! ### The crossings (R184) -/

/-- A crossing out of the supply state starts its qualification (R184). -/
theorem startQualification_starts (h : s.supply.state = left)
    (hq : s.supply.qualification = none) : startQualification left ms s
      = { s with supply := { s.supply with qualification := some (s.now + ms * 1000) } } :=
  if_pos ⟨h, hq⟩

/-- In the other state, or with a qualification running, a crossing starts none (log 3, log 21). -/
theorem startQualification_nothing (h : s.supply.state ≠ left ∨ s.supply.qualification.isSome) :
    startQualification left ms s = s := by
  refine if_neg ?_
  rintro ⟨hstate, hq⟩
  rcases h with h | h
  · exact h hstate
  · rw [hq] at h; cases h

/-- A crossing back into the supply state stops its qualification (R184). -/
theorem stopQualification_stops (h : s.supply.state = left) : stopQualification left s
    = { s with supply := { s.supply with qualification := none } } := if_pos h

/-- In the other state a crossing back stops nothing (log 3, log 21). -/
theorem stopQualification_nothing (h : s.supply.state ≠ left) : stopQualification left s = s :=
  if_neg h

end Crossings

/-! ### The expiries (R184, R185) -/

/-- The qualification that is running out of a supply state (R184). -/
def State.qualifying (s : State) (left : SupplyState) : Option Nat :=
  if s.supply.state = left then s.supply.qualification else none

theorem qualifying_running {s : State} {left : SupplyState} {time : Nat}
    (h : s.supply.state = left) (hq : s.supply.qualification = some time) :
    s.qualifying left = some time := (if_pos h).trans hq

/-- In the other state, or with no qualification running, none expires (log 3, log 21). -/
theorem qualifying_none {s : State} {left : SupplyState}
    (h : s.supply.state ≠ left ∨ s.supply.qualification = none) : s.qualifying left = none := by
  unfold State.qualifying
  split
  · next hstate => exact h.resolve_left (absurd hstate)
  · rfl

/-- The LOW qualification is the one that runs in NORMAL (R184). -/
theorem exec_lowQualificationExpiry (s : State) :
    exec .lowQualificationExpiry s = expiry (·.qualifying .normal) enterLow s := rfl

/-- The NORMAL qualification is the one that runs in LOW (R184). -/
theorem exec_normalQualificationExpiry (s : State) :
    exec .normalQualificationExpiry s = expiry (·.qualifying .low) returnToNormal s := rfl

theorem supplyState_ne_normal {state : SupplyState} (h : state = .low) : state ≠ .normal := by
  rw [h]; decide

theorem supplyState_ne_low {state : SupplyState} (h : state = .normal) : state ≠ .low := by
  rw [h]; decide

/-- Settles O49: the crossings by the state they leave, then the expiries by the state they enter. -/
theorem supplyQualifiesItsChanges : Obligations.SupplyQualifiesItsChanges := by
  intro s hpow
  refine ⟨?crossings, fun time u hq => ⟨?low, ?normal⟩, fun h => ?_, fun h => ?_⟩
  case crossings =>
    intro us t ht
    obtain rfl : t = elapse us s := ht
    have hfallLow : exec (.supplyFallBelowLow us) s
        = .next (startQualification .normal 5 (elapse us s)) := eventAfter_powered hpow
    have hriseRecovery : exec (.supplyRiseToRecovery us) s
        = .next (startQualification .low 50 (elapse us s)) := eventAfter_powered hpow
    have hriseLow : exec (.supplyRiseToLow us) s
        = .next (stopQualification .normal (elapse us s)) := eventAfter_powered hpow
    have hfallRecovery : exec (.supplyFallBelowRecovery us) s
        = .next (stopQualification .low (elapse us s)) := eventAfter_powered hpow
    rw [hfallLow, hriseRecovery, hriseLow, hfallRecovery]
    refine ⟨fun ⟨h, hq⟩ => congrArg _ ?_, fun h => congrArg _ ?_, fun ⟨h, hq⟩ => congrArg _ ?_,
      fun h => congrArg _ ?_, fun h => ⟨congrArg _ ?_, congrArg _ ?_⟩,
      fun h => ⟨congrArg _ ?_, congrArg _ ?_⟩⟩
    · exact startQualification_starts (s := elapse us s) h hq
    · exact startQualification_nothing (s := elapse us s) (h.imp_left supplyState_ne_normal)
    · exact startQualification_starts (s := elapse us s) h hq
    · exact startQualification_nothing (s := elapse us s) (h.imp_left supplyState_ne_low)
    · exact stopQualification_stops (s := elapse us s) h
    · exact stopQualification_nothing (s := elapse us s) (supplyState_ne_low h)
    · exact stopQualification_stops (s := elapse us s) h
    · exact stopQualification_nothing (s := elapse us s) (supplyState_ne_normal h)
  case low =>
    rintro h rfl
    rw [exec_lowQualificationExpiry, expiry_running hpow (qualifying_running h hq)]
    rfl
  case normal =>
    rintro h rfl
    rw [exec_normalQualificationExpiry, expiry_running hpow (qualifying_running h hq)]
    rfl
  · exact (exec_lowQualificationExpiry s).trans
      (expiry_stopped (qualifying_none (h.imp_left supplyState_ne_normal)))
  · exact (exec_normalQualificationExpiry s).trans
      (expiry_stopped (qualifying_none (h.imp_left supplyState_ne_low)))

end Sys2Proof.Machine

/-! SUPPORT and the proof of O50. Saves, and the fall below the reset threshold. -/

namespace Sys2Proof.Machine

-- One proof after the other: a proof that waits for an earlier one holds a thread and its stack.
set_option Elab.async false

section Saves
variable {s : State}

/-! ### The start of a save (R187, R188) -/

/-- In IDLE a start takes the snapshot, and the image becomes INVALID (R188). -/
theorem startSave_idle (h : s.supply.save = none) : startSave s
    = { s with supply := { s.supply with
        image := none, save := some { start := s.now, snapshot := s.snapshot } } } := by
  rw [startSave, h]

/-- While SAVING a start does nothing (R188). -/
theorem startSave_saving (h : s.supply.save ≠ none) : startSave s = s := by
  obtain ⟨v, hv⟩ := Option.ne_none_iff_exists'.mp h
  rw [startSave, hv]

/-! ### SAVE (R189) -/

theorem ruleSave_idle (h : s.supply.save = none) : ruleSave s = .ok (startSave s) [] := by
  rw [ruleSave, h, Option.isSome_none, if_neg Bool.false_ne_true]

theorem ruleSave_saving (h : s.supply.save ≠ none) : ruleSave s = .refuse .busy :=
  if_pos (Option.isSome_iff_ne_none.mpr h)

/-! ### The completion (R188) -/

/-- The completion makes the image VALID with the snapshot of the save's start, 40 ms after it (R188). -/
theorem saveCompletion_saving {v : Save} (h : s.supply.save = some v) : saveCompletion s
    = raise .portEvent 1
      { s with
        now := max s.now (v.start + 40000)
        supply := { s.supply with image := some v.snapshot, save := none } } := by
  rw [saveCompletion, h]
  rfl

/-- With no save in flight none completes (log 3). -/
theorem saveCompletion_idle (h : s.supply.save = none) : saveCompletion s = s := by
  rw [saveCompletion, h]

end Saves

/-- Settles O50: the start and SAVE by whether a save is in flight, then the completion and the fall of the supply. -/
theorem savesWriteTheSnapshotOfTheirStart : Obligations.SavesWriteTheSnapshotOfTheirStart := by
  intro s
  refine ⟨startSave_idle, startSave_saving,
    fun h => accepts_bare (rule := ruleSave) rfl (ruleSave_idle h),
    fun h => refuses_bare (rule := ruleSave) rfl (ruleSave_saving h), fun hpow => ?_⟩
  have hcompletion : exec .saveCompletion s = .next (saveCompletion s) := event_powered hpow
  rw [hcompletion]
  exact ⟨fun v h => congrArg _ (saveCompletion_saving h), fun h => congrArg _ (saveCompletion_idle h),
    fun us => eventAfter_powered hpow⟩

end Sys2Proof.Machine

/-! SUPPORT and the proof of O6. Requests in execution, UNKNOWN_COMMAND, the completion and RDY (R195, R196, R198). -/

namespace Sys2Proof.Machine

-- One proof after the other: a proof that waits for an earlier one holds a thread and its stack.
set_option Elab.async false

/-! ### The rows of requests (R196) -/

/-- RESET does nothing while its request is not in execution (log 2). -/
theorem execReset_idle {s : State} (h : ∀ payload, ¬ s.serving 0x66 payload) :
    execReset s = .next s := by
  unfold execReset
  congr 1
  split
  · rfl
  · next q hq =>
    rw [if_neg]
    intro hn
    have hserving := serving_of_executing hq
    rw [hn] at hserving
    exact h q.payload hserving

/-- The row of a request does nothing while its request is not in execution (log 2). -/
theorem exec_idle {c : Instr} {n : Byte} {s : State} (hn : requestNumber c = some n)
    (h : ∀ payload, ¬ s.serving n payload) : exec c s = .next s := by
  by_cases hc : c = .reset
  · subst hc
    obtain rfl : (0x66 : Byte) = n := Option.some.inj hn
    exact execReset_idle h
  · obtain ⟨rule, hrule⟩ := exec_serve hn hc
    exact (hrule s).trans (serve_idle h)

/-! ### UNKNOWN_COMMAND (R196) -/

section Unknown
variable {s : State} {n : Byte} {payload : List Byte}

theorem execUnknownCommand_serving (h : s.serving n payload) : execUnknownCommand s
    = .next (if knownCommands.contains n then s else complete .unknownCommand [] s) := by
  simp only [execUnknownCommand, executing_of_serving h]

/-- A number that no command has (R196). -/
theorem execUnknownCommand_unknown (h : s.serving n payload) (hn : ∀ c, requestNumber c ≠ some n) :
    execUnknownCommand s = .next (complete .unknownCommand [] s) := by
  rw [execUnknownCommand_serving h, if_neg]
  intro hk
  obtain ⟨c, hc⟩ := knownCommands_contains.mp hk
  exact hn c hc

/-- A number that a command has is left to the command's own row (log 2). -/
theorem execUnknownCommand_known {c : Instr} (h : s.serving n payload)
    (hc : requestNumber c = some n) : execUnknownCommand s = .next s := by
  rw [execUnknownCommand_serving h, if_pos (knownCommands_contains.mpr ⟨c, hc⟩)]

theorem execUnknownCommand_idle (h : ∀ number payload, ¬ s.serving number payload) :
    execUnknownCommand s = .next s := by
  unfold execUnknownCommand
  congr 1
  split
  · rfl
  · next q hq => exact absurd (serving_of_executing hq) (h q.number q.payload)

end Unknown

/-! ### RDY (R195) -/

theorem rdy_iff {s : State} :
    s.rdy = true ↔ s.powered = true ∧ s.port.state = .responseReady := by
  rw [State.rdy, Bool.and_eq_true, beq_iff_eq]

/-- Settles O6: the rows by whether their request is in execution, then the completion and RDY. -/
theorem requestsAnswerOnlyInExecution : Obligations.RequestsAnswerOnlyInExecution :=
  ⟨fun _ _ _ => exec_idle, fun _ _ _ => execUnknownCommand_unknown,
    fun _ _ _ _ => execUnknownCommand_known, fun _ => execUnknownCommand_idle,
    fun _ _ _ => rfl, fun _ => rdy_iff⟩

end Sys2Proof.Machine

/-! SUPPORT and the proof of O54. Raises, ACK ATTENTION, SET ATTENTION LEVEL and ATTN (R205, R208, R209). -/

namespace Sys2Proof.Machine

-- One proof after the other: a proof that waits for an earlier one holds a thread and its stack.
set_option Elab.async false

/-! ### A raise (R205) -/

section Raise
variable {s : State} {kind : CauseKind} {n : Nat}

/-- A raise of a kind with level 0 is not latched (R205). -/
theorem raise_level_zero (h : s.causes[kind.code].level = 0) : raise kind n s = s := by
  have hsame : editAt s.causes kind.code (·.raised n) = s.causes := by
    rw [editAt, Cause.raised, if_pos h, setAt_self]
  rw [raise, hsame]

/-- A raise under a level adds its subject to the kind's set (R205). -/
theorem raise_latched (h : s.causes[kind.code].level ≠ 0) :
    raise kind n s = { s with
      causes := setAt s.causes kind.code
        { s.causes[kind.code] with
          subjects := insertMember n s.causes[kind.code].subjects } } := by
  rw [raise, editAt, Cause.raised, if_neg h]

end Raise

/-! ### The subjects that a request names (R201, R208) -/

/-- How many subjects a kind numbers, by R205's table. -/
theorem subjectCount_eq (k : Fin 16) : subjectCount[k]
    = ([3, 0, 0, 2, 12, 16, 16, 8, 6, 6, 0, 0, 0, 12, 0, 2] : List Nat).getD k.1 0 := by
  revert k; decide

theorem subjectCount_le (k : Fin 16) : subjectCount[k] ≤ 16 := by
  revert k; decide

/-- A subject of a kind, or ALL (R208). -/
theorem subjectAllowed_iff {k : Fin 16} {n : Nat} :
    subjectAllowed k n = true ↔ n < subjectCount[k] ∨ n = 255 := by
  simp only [subjectAllowed, Bool.or_eq_true, decide_eq_true_eq, beq_iff_eq, Config.subjectAll]

/-- A subject that a request may name fits a byte. -/
theorem subjectAllowed_lt {k : Fin 16} {n : Nat} (h : subjectAllowed k n = true) : n < 256 := by
  have hcount := subjectCount_le k
  rcases subjectAllowed_iff.mp h with h | h <;> omega

/-- Numbers that each fit a byte take one byte each. -/
theorem flatMap_byte (l : List Nat) : l.flatMap byte = l.map (BitVec.ofNat 8) := by
  rw [List.map_eq_flatMap, funext byte_eq_single]

/-- Numbers that each fit a byte, sent and read. -/
theorem toNat_flatMap_byte {l : List Nat} (h : ∀ n ∈ l, n < 256) :
    (l.flatMap byte).map BitVec.toNat = l := by
  rw [flatMap_byte, List.map_map]
  exact (List.map_congr_left fun n hn => toNat_ofNat_lt (h n hn)).trans (List.map_id l)

/-! ### ACK ATTENTION (R208) -/

section Acknowledge
variable {s : State} {k : Fin 16} {kind count : Byte} {subjects : List Byte}

/-- Subjects of the kind, as many as the count says, are removed from its set (R208). -/
theorem ruleAckAttention_passed (hk : kind.toNat = k.1) (hcount : subjects.length = count.toNat)
    (hmin : 1 ≤ subjects.length) (hmax : subjects.length ≤ 16)
    (hall : ∀ b ∈ subjects, subjectAllowed k b.toNat = true) :
    ruleAckAttention (kind :: count :: subjects) s
      = .ok (ackAttention k (subjects.map BitVec.toNat) s) [] := by
  have hall' : (subjects.map BitVec.toNat).all (subjectAllowed k) = true := by
    rw [List.all_map, List.all_eq_true]
    exact hall
  simp only [ruleAckAttention, fin?_eq_some.mpr hk, List.length_map]
  exact if_pos ⟨hcount, hmin, hmax, hall'⟩

/-- A kind that there is not, a count that does not match or lies outside its range, or a subject that the kind has not (R208;
log 10). -/
theorem ruleAckAttention_refused (h : ∀ k : Fin 16, kind.toNat = k.1 →
      subjects.length = count.toNat → 1 ≤ subjects.length → subjects.length ≤ 16 →
      ∃ b ∈ subjects, ¬ subjectAllowed k b.toNat = true) :
    ruleAckAttention (kind :: count :: subjects) s = .refuse .badArgument := by
  simp only [ruleAckAttention, List.length_map]
  split
  · rfl
  · next k hk =>
    refine if_neg ?_
    rintro ⟨hcount, hmin, hmax, hall⟩
    obtain ⟨b, hb, hnot⟩ := h k (fin?_eq_some.mp hk) hcount hmin hmax
    rw [List.all_map, List.all_eq_true] at hall
    exact hnot (hall b hb)

/-- The cause of the kind after its named subjects are removed, ALL standing for every one (R208). -/
theorem ackAttention_eq (k : Fin 16) (named : List Nat) (s : State) :
    ackAttention k named s = { s with
      causes := setAt s.causes k
        { s.causes[k] with
          subjects := if 255 ∈ named then []
            else s.causes[k].subjects.filter (fun n => n ∉ named) } } := by
  simp only [ackAttention, editAt, Cause.acknowledged, List.contains_eq_mem, decide_eq_true_eq,
    Config.subjectAll, decide_not]

theorem ackAttention_accepted {named : List Nat} (hmin : 1 ≤ named.length)
    (hmax : named.length ≤ 16) (hall : ∀ n ∈ named, subjectAllowed k n = true) :
    s.accepts .ackAttention 0x73 (byte k.1 ++ byte named.length ++ named.flatMap byte) []
      (ackAttention k named s) := by
  have hback := toNat_flatMap_byte fun n hn => subjectAllowed_lt (hall n hn)
  have hlen : (named.flatMap byte).length = named.length := by
    rw [flatMap_byte, List.length_map]
  have hrule : ruleAckAttention
      (BitVec.ofNat 8 k.1 :: BitVec.ofNat 8 named.length :: named.flatMap byte) s
      = .ok (ackAttention k ((named.flatMap byte).map BitVec.toNat) s) [] := by
    refine ruleAckAttention_passed (toNat_ofNat_lt (by omega)) ?_ (hlen ▸ hmin) (hlen ▸ hmax) ?_
    · rw [hlen, toNat_ofNat_lt (by omega)]
    · rw [← List.forall_mem_map (P := fun n => subjectAllowed k n = true), hback]
      exact hall
  rw [hback] at hrule
  rw [byte_eq_single, byte_eq_single]
  exact accepts_of (rule := ruleAckAttention) rfl hrule

theorem ackAttention_badArgument (hl : subjects.length < 256)
    (h : 15 < kind.toNat ∨ subjects.length < 1 ∨ 16 < subjects.length
      ∨ ∃ b ∈ subjects, b ≠ 255
        ∧ ([3, 0, 0, 2, 12, 16, 16, 8, 6, 6, 0, 0, 0, 12, 0, 2] : List Nat).getD kind.toNat 0
          ≤ b.toNat) :
    s.refuses .ackAttention 0x73 ([kind] ++ byte subjects.length ++ subjects) .badArgument := by
  rw [byte_eq_single]
  refine refuses_of (rule := ruleAckAttention) rfl
    (ruleAckAttention_refused (subjects := subjects) fun k hk _ hmin hmax => ?_)
  have hkind := k.2
  obtain ⟨b, hb, hne, hle⟩ : ∃ b ∈ subjects, b ≠ 255 ∧ _ :=
    ((h.resolve_left (by omega)).resolve_left (by omega)).resolve_left (by omega)
  rw [hk, ← subjectCount_eq] at hle
  refine ⟨b, hb, fun hallowed => ?_⟩
  rcases subjectAllowed_iff.mp hallowed with hlt | hall
  · omega
  · exact hne (BitVec.eq_of_toNat_eq hall)

end Acknowledge

/-! ### SET ATTENTION LEVEL (R209) -/

section Level
variable {s : State} {k : Fin 16} {level : Nat}

theorem setAttentionLevel_accepted (hl : level ≤ 3) :
    s.accepts .setAttentionLevel 0x74 (byte k.1 ++ byte level) [] (setAttentionLevel k level s) := by
  refine accepts_of (rule := ruleSetAttentionLevel) rfl ?_
  simp only [ruleSetAttentionLevel, fields_numbers, fin?_be_byte (by decide : 16 ≤ 256),
    be_byte (by omega : level < 256), if_neg (by omega : ¬ 3 < level)]

theorem setAttentionLevel_badArgument {kind level : Byte} (h : 15 < kind.toNat ∨ 3 < level.toNat) :
    s.refuses .setAttentionLevel 0x74 [kind, level] .badArgument := by
  refine refuses_of (rule := ruleSetAttentionLevel) rfl ?_
  simp only [ruleSetAttentionLevel, fields_two, be_single]
  split
  · rfl
  · next k hk =>
    have hkind := fin?_eq_some.mp hk
    exact if_pos (by omega)

end Level

/-! ### ATTN (R205) -/

theorem attn_iff {s : State} :
    s.attn = true ↔ s.powered = true ∧ ∃ k : Fin 16, s.causes[k].subjects ≠ [] := by
  simp only [State.attn, Cause.pending, Bool.and_eq_true, List.any_eq_true, mem_sixteen, true_and,
    Bool.not_eq_true', List.isEmpty_eq_false_iff]

/-- Settles O54: the raise by the level, the two requests by their checks, then ATTN. -/
theorem attentionIsRaisedAndAcknowledged : Obligations.AttentionIsRaisedAndAcknowledged := by
  intro s
  refine ⟨?raise, ?acknowledge, fun kind subjects => ackAttention_badArgument,
    fun k level => setAttentionLevel_accepted, fun kind level => setAttentionLevel_badArgument,
    attn_iff⟩
  case raise =>
    rintro kind n c rfl hsorted
    exact ⟨raise_level_zero, fun hlevel => ⟨insertMember n s.causes[kind.code].subjects,
      insertMember_sorted hsorted, fun m => insertMember_mem, raise_latched hlevel⟩⟩
  case acknowledge =>
    intro k named count hcount hmin hmax hall
    rw [hcount, ← subjectCount_eq] at hall
    rw [← ackAttention_eq]
    exact ackAttention_accepted hmin hmax fun n hn => subjectAllowed_iff.mpr (hall n hn)

end Sys2Proof.Machine

/-! SUPPORT and the proof of O5. Payloads whose length does not match the fields of their command (R196, R201). -/

namespace Sys2Proof.Machine

-- One proof after the other: a proof that waits for an earlier one holds a thread and its stack.
set_option Elab.async false

/-! ### Fields of fixed widths (R196) -/

section Widths
variable {c : Instr} {n : Byte} {payload : List Byte} {s : State}

/-- A rule that reads its payload as fields of fixed widths answers BAD_ARGUMENT to one that these fields do not make up. -/
theorem refuses_fields {widths : List Nat} {rule : List Byte → State → Answer}
    (hlen : payload.length ≠ widths.sum) (hc : exec c s = serve n rule s)
    (hrule : fields widths payload = none → rule payload s = .refuse .badArgument) :
    s.refuses c n payload .badArgument := refuses_of hc (hrule (fields_none hlen))

/-- A request without operands has no payload. -/
theorem refuses_operands {rule : State → Answer} (hlen : payload.length ≠ 0)
    (hc : exec c s = serveBare n rule s) : s.refuses c n payload .badArgument :=
  refuses_of hc (if_neg fun h => hlen (List.length_eq_zero_iff.mpr h))

end Widths

/-- A tag of another length than 8 (R6). -/
theorem findAccount_length {tag : List Byte} {s : State} (hlen : tag.length ≠ 8) :
    s.refuses .findAccount 0x11 tag .badArgument := by
  refine refuses_of (rule := ruleFindAccount) rfl ?_
  have hnot : ¬ printable tag = true := fun h => hlen (printable_iff.mp h).1
  rw [ruleFindAccount, Bool.eq_false_of_not_eq_true hnot]
  rfl

/-- A key of another length than one byte is not the key of RESET (R193). -/
theorem reset_length {key : List Byte} {s : State} (hlen : key.length ≠ 1) :
    s.refuses .reset 0x66 key .badArgument := by
  intro h
  have hkey : key ≠ [Config.resetKey] := fun he => hlen (by rw [he]; rfl)
  show execReset s = _
  simp only [execReset, executing_of_serving h, if_true, if_neg hkey]

/-- The requests by the widths of their fields (R201); the rows of no fixed length are set aside first. -/
theorem refuses_length {c : Instr} {n : Byte} {width : Nat} {payload : List Byte} {s : State}
    (hn : requestNumber c = some n) (hw : payloadLength c = some width)
    (hlen : payload.length ≠ width) : s.refuses c n payload .badArgument := by
  cases c
  all_goals cases hw
  all_goals cases hn
  case findAccount => exact findAccount_length hlen
  case reset => exact reset_length hlen
  case scanNow | readScan | readHeader | readMonitorSummary | readTime | save | readSupply
      | readTerminals | readLevels =>
    exact refuses_operands hlen rfl
  case restorePump | isolatePump | selectDuty | resetPump | readPump =>
    exact refuses_fields (widths := [1]) hlen rfl fun h => by rw [onPump, h]
  case listAccounts | closeAccount | releaseAccount | placeInService | removeFromService
      | clearRunTotals | retireComposition | readComposition | readChannel | readPoint
      | ackMonitor | testTripOutput | readMonitor | setGasDayHour | readAttention =>
    refine refuses_fields (widths := [1]) hlen rfl fun h => ?_
    simp only [ruleListAccounts, ruleCloseAccount, ruleReleaseAccount, rulePlaceInService,
      ruleRemoveFromService, ruleClearRunTotals, ruleRetireComposition, ruleReadComposition,
      ruleReadChannel, ruleReadPoint, ruleAckMonitor, ruleTestTripOutput, ruleReadMonitor,
      ruleSetGasDayHour, ruleReadAttention, h]
  case readAccount | attachRun | detachRun | readRun | setAttentionLevel =>
    refine refuses_fields (widths := [1, 1]) hlen rfl fun h => ?_
    simp only [ruleReadAccount, ruleAttachRun, ruleDetachRun, ruleReadRun,
      ruleSetAttentionLevel, h]
  case openAccount =>
    exact refuses_fields (widths := [8, 1, 1, 2, 1]) hlen rfl fun h => by rw [ruleOpenAccount, h]
  case amendAccount =>
    exact refuses_fields (widths := [1, 1, 1, 1, 2, 1]) hlen rfl fun h => by
      rw [ruleAmendAccount, h]
  case configureRun =>
    exact refuses_fields (widths := [1, 4, 1, 1, 1, 1, 4, 2]) hlen rfl fun h => by
      rw [ruleConfigureRun, h]
  case postComposition =>
    exact refuses_fields (widths := [1, 8, 2, 2, 2, 2]) hlen rfl fun h => by
      rw [rulePostComposition, h]
  case configureChannel =>
    exact refuses_fields (widths := [1, 1, 1, 4, 4, 4]) hlen rfl fun h => by
      rw [ruleConfigureChannel, h]
  case setScan => exact refuses_fields (widths := [1, 2]) hlen rfl fun h => by rw [ruleSetScan, h]
  case configurePoint =>
    exact refuses_fields (widths := [1, 1, 4]) hlen rfl fun h => by rw [ruleConfigurePoint, h]
  case configureHeader =>
    exact refuses_fields (widths := [1, 1, 2, 2]) hlen rfl fun h => by rw [ruleConfigureHeader, h]
  case setManualTimer =>
    exact refuses_fields (widths := [2]) hlen rfl fun h => by rw [ruleSetManualTimer, h]
  case configurePump =>
    exact refuses_fields (widths := [1, 4, 2, 2, 2, 1]) hlen rfl fun h => by
      rw [ruleConfigurePump, h]
  case configureMonitor =>
    exact refuses_fields (widths := [1, 1, 1, 1, 1, 4, 4, 2, 1]) hlen rfl fun h => by
      rw [ruleConfigureMonitor, h]
  case setTime => exact refuses_fields (widths := [4]) hlen rfl fun h => by rw [ruleSetTime, h]
  case setBaseConditions =>
    exact refuses_fields (widths := [4, 4]) hlen rfl fun h => by rw [ruleSetBaseConditions, h]
  case mapTerminal =>
    exact refuses_fields (widths := [1, 1, 1]) hlen rfl fun h => by rw [ruleMapTerminal, h]

/-! ### Lists with a count (R201; log 10) -/

section Lists
variable {s : State} {count : Byte}

/-- A band list whose count does not match its bytes. -/
theorem bandList?_none {bands : List Byte} (hlen : bands.length ≠ 8 * count.toNat) :
    bandList? (count :: bands) = none := by
  have hentries : entries [4, 4] count.toNat bands = none :=
    entries_none (by rwa [Nat.mul_comm] at hlen)
  rw [bandList?, hentries, Option.map_none]

theorem setBands_length {run : Byte} {list : List Byte} (h : bandList? list = none) :
    s.refuses .setBands 0x21 (run :: list) .badArgument :=
  refuses_of (rule := ruleSetBands) rfl (by simp only [ruleSetBands, h])

theorem pointSet?_length {points : List Byte} (hlen : points.length ≠ count.toNat) :
    pointSet? (count :: points) = none := if_neg fun h => hlen h.1

theorem manualDose_length {set : List Byte} (h : pointSet? set = none) :
    s.refuses .manualDose 0x43 set .badArgument :=
  refuses_of (rule := ruleManualDose) rfl (by rw [ruleManualDose, h])

theorem ackAttention_length {kind : Byte} {subjects : List Byte}
    (hlen : subjects.length ≠ count.toNat) :
    s.refuses .ackAttention 0x73 (kind :: count :: subjects) .badArgument :=
  refuses_of (rule := ruleAckAttention) rfl
    (ruleAckAttention_refused fun _ _ hcount => absurd hcount hlen)

/-- A payload too short to hold a field and the count after it. -/
theorem refuses_noCount {short : List Byte} (hlen : short.length < 2) :
    s.refuses .setBands 0x21 short .badArgument
      ∧ s.refuses .ackAttention 0x73 short .badArgument := by
  cases short with
  | nil =>
    exact ⟨refuses_of (rule := ruleSetBands) rfl rfl, refuses_of (rule := ruleAckAttention) rfl rfl⟩
  | cons b rest =>
    obtain rfl : rest = [] := List.length_eq_zero_iff.mp (by rw [List.length_cons] at hlen; omega)
    exact ⟨setBands_length rfl, refuses_of (rule := ruleAckAttention) rfl rfl⟩

end Lists

/-- Settles O5: fields of fixed widths, then the three lists by their count. -/
theorem payloadLengthMismatchIsRefused : Obligations.PayloadLengthMismatchIsRefused :=
  ⟨fun _ _ _ _ _ => refuses_length, fun _ _ _ _ hlen => setBands_length (bandList?_none hlen),
    fun _ _ _ hlen => manualDose_length (pointSet?_length hlen),
    fun _ _ _ _ => ackAttention_length, fun _ _ => refuses_noCount,
    fun _ => manualDose_length rfl⟩

end Sys2Proof.Machine

/-! SUPPORT for O3 and O4. The parts of a transaction and what each does to the link (R194, R197, R199). -/

namespace Sys2Proof.Machine

-- One proof after the other: a proof that waits for an earlier one holds a thread and its stack.
set_option Elab.async false

/-! ### The rows of transactions (log 4, log 7) -/

section Rows
variable {s : State} {bytes : Part (List Byte)} {count : Part Nat} {us : Nat}

/-- A row of the link that leads to a state, of a powered part (log 4). -/
theorem exec_requestFrame {t : State} (hp : s.powered = true)
    (h : transaction bytes (elapse us s) = t) : exec (.requestFrame bytes us) s = .next t :=
  (eventAfter_powered hp).trans (congrArg _ h)

theorem exec_fetch {t : State} (hp : s.powered = true)
    (h : transaction (fetchBytes count) (elapse us s) = t) : exec (.fetch count us) s = .next t :=
  (eventAfter_powered hp).trans (congrArg _ h)

end Rows

/-- Two rows of the link that lead two states to the same one, in a powered part. -/
theorem exec_requestFrame_congr {s t : State} {us : Nat} {bytes bytes' : Part (List Byte)}
    (hs : s.powered = true) (ht : t.powered = true)
    (h : transaction bytes (elapse us s) = transaction bytes' (elapse us t)) :
    exec (.requestFrame bytes us) s = exec (.requestFrame bytes' us) t :=
  (exec_requestFrame hs h).trans (exec_requestFrame ht rfl).symm

/-- Two effects that agree once the time of the row has passed. -/
theorem eventAfter_congr {s : State} {us : Nat} {f g : State → State}
    (h : f (elapse us s) = g (elapse us s)) : eventAfter us f s = eventAfter us g s := by
  simp only [eventAfter, event, h]

/-! ### The parts of a transaction (R194; log 3, log 7) -/

section Parts
variable {s : State} {bytes : List Byte}

/-- CS_N falls and bytes are clocked. -/
theorem transaction_first (h : s.port.link = .high) : transaction (.first bytes) s
    = { s with port := s.port.fall.clockBytes bytes } :=
  if_pos (by rw [h]; rfl)

/-- A whole transaction is its bytes after the fall of CS_N, and the rise. -/
theorem transaction_whole (h : s.port.link = .high) :
    transaction (.whole bytes) s = riseLink (transaction (.first bytes) s) := by
  rw [transaction_first h]
  exact if_pos (by rw [h]; rfl)

/-- Bytes are clocked while CS_N is low. -/
theorem transaction_next (h : s.port.link ≠ .high) : transaction (.next bytes) s
    = { s with port := s.port.clockBytes bytes } :=
  if_pos (by rw [decide_eq_false h]; rfl)

/-- The last part is its bytes while CS_N is low, and the rise. -/
theorem transaction_last (h : s.port.link ≠ .high) :
    transaction (.last bytes) s = riseLink (transaction (.next bytes) s) := by
  rw [transaction_next h]
  exact if_pos (by rw [decide_eq_false h]; rfl)

/-- A part that goes on while CS_N is high only lets its time pass (log 3). -/
theorem transaction_notBegun {bytes : Part (List Byte)} (h : s.port.link = .high)
    (hb : bytes.begins = false) : transaction bytes s = s :=
  transaction_misfit (by rw [hb, h]; decide)

/-- A part that begins while CS_N is low only lets its time pass (log 3). -/
theorem transaction_notEnded {bytes : Part (List Byte)} (h : s.port.link ≠ .high)
    (hb : bytes.begins = true) : transaction bytes s = s :=
  transaction_misfit (by rw [hb, decide_eq_false h]; decide)

end Parts

/-! ### Bytes on the link (R194, R199) -/

section Bytes
variable {p : Port} {bytes : List Byte}

/-- The first bytes of a request transaction: 0x00 is shifted out for each (R194). -/
theorem clockBytes_opens (h : p.link = .receiving []) (hne : bytes ≠ [])
    (h0 : bytes.head? ≠ some 0) : p.clockBytes bytes
    = { p with link := .receiving bytes, miso := List.replicate bytes.length 0 } := by
  obtain ⟨b, rest, rfl⟩ := List.exists_cons_of_ne_nil hne
  have hb : b ≠ 0 := fun e => h0 (congrArg some e)
  simp only [Port.clockBytes, h, Port.clockFirst, if_neg hb]

/-- While no byte is complete the kind of the transaction is open (R194). -/
theorem clockBytes_none (h : p.link = .receiving []) : p.clockBytes [] = p := by
  simp only [Port.clockBytes, h, Port.clockFirst]

/-- Further bytes of a request transaction (R194). -/
theorem clockBytes_receives {got : List Byte} (h : p.link = .receiving got) (hne : got ≠ []) :
    p.clockBytes bytes = { p with
      link := .receiving (got ++ bytes)
      miso := p.miso ++ List.replicate bytes.length 0 } := by
  obtain ⟨b, rest, rfl⟩ := List.exists_cons_of_ne_nil hne
  simp only [Port.clockBytes, h]

/-- A first byte of 0x00 makes the transaction a FETCH (R194). -/
theorem clockBytes_opensFetch {rest : List Byte} (h : p.link = .receiving []) :
    p.clockBytes (0 :: rest)
      = { p with link := .fetching none, miso := [] }.clockFetch none rest.length := by
  simp only [Port.clockBytes, h, Port.clockFirst, if_true]

theorem clockBytes_fetches {rest : Option (List Byte)} (h : p.link = .fetching rest) :
    p.clockBytes bytes = p.clockFetch rest bytes.length := by
  simp only [Port.clockBytes, h]

/-- The rest of a transaction that a warm reset ended shifts out 0x00 (R199). -/
theorem clockBytes_ended (h : p.link = .ended) :
    p.clockBytes bytes = { p with miso := p.miso ++ List.replicate bytes.length 0 } := by
  simp only [Port.clockBytes, h]

theorem shifted_zero (frame : List Byte) : shifted 0 frame = [] := by
  rw [shifted, List.take_zero, Nat.zero_sub, List.replicate_zero, List.append_nil]

/-- The bytes after the first of a FETCH: the frame is taken with the second byte of all (R197), and shifted out (R194). -/
theorem clockFetch_eq {rest : Option (List Byte)} {count : Nat} (h : p.link = .fetching rest) :
    p.clockFetch rest count = { p with
      link := .fetching (if count = 0 then rest else some ((rest.getD p.fetchFrame).drop count))
      miso := p.miso ++ shifted count (rest.getD p.fetchFrame) } := by
  by_cases hcount : count = 0
  · subst hcount
    rw [shifted_zero, List.append_nil, if_pos rfl, ← h]
    rfl
  · rw [Port.clockFetch, if_neg hcount, if_neg hcount]

theorem noRequest_clockBytes (h : p.link = .ended ∨ ∃ rest, p.link = .fetching rest) :
    (p.clockBytes bytes).link = .ended ∨ ∃ rest, (p.clockBytes bytes).link = .fetching rest := by
  rcases h with h | ⟨rest, h⟩
  · rw [clockBytes_ended h]
    exact .inl h
  · rw [clockBytes_fetches h, clockFetch_eq h]
    exact .inr ⟨_, rfl⟩

/-- The bytes sent after the first of a FETCH are ignored, and so is what follows a warm reset (R194, R199). -/
theorem clockBytes_ignored (h : p.link = .ended ∨ ∃ rest, p.link = .fetching rest) :
    p.clockBytes bytes = p.clockBytes (List.replicate bytes.length 0) := by
  rcases h with h | ⟨rest, h⟩
  · rw [clockBytes_ended h, clockBytes_ended h, List.length_replicate]
  · rw [clockBytes_fetches h, clockBytes_fetches h, List.length_replicate]

end Bytes

/-! ### The rise of CS_N (R194, R199) -/

section Rise
variable {s : State}

/-- A request with at least one byte is taken up (R194, R195). -/
theorem riseLink_request {got : List Byte} (h : s.port.link = .receiving got) (hne : got ≠ []) :
    riseLink s = requestEnds got { s with port := { s.port with link := .high } } := by
  obtain ⟨b, rest, rfl⟩ := List.exists_cons_of_ne_nil hne
  simp only [riseLink, h]

/-- A transaction without a complete byte ends without effect (R194). -/
theorem riseLink_none (h : s.port.link = .receiving []) :
    riseLink s = { s with port := { s.port with link := .high } } := by
  simp only [riseLink, h]

/-- A FETCH, and a transaction that a warm reset ended, end without effect (R194, R199). -/
theorem riseLink_noRequest (h : s.port.link = .ended ∨ ∃ rest, s.port.link = .fetching rest) :
    riseLink s = { s with port := { s.port with link := .high } } := by
  rcases h with h | ⟨rest, h⟩ <;> simp only [riseLink, h]

end Rise

end Sys2Proof.Machine

/-! SUPPORT and the proof of O3. Request transactions (R194, R195, R198, R200). -/

namespace Sys2Proof.Machine

-- One proof after the other: a proof that waits for an earlier one holds a thread and its stack.
set_option Elab.async false

section Ends
variable {s : State} {bytes : List Byte} {q : Request}

/-! ### The end of a request transaction (R195, R198) -/

theorem requestEnds_accepted (hs : s.port.state ≠ .executing) (hl : q.payload.length ≤ 60) :
    requestEnds q.frame s = acceptRequest q s := by
  rw [requestEnds, if_neg hs, requestOf_frame hl]

theorem requestEnds_refused (hs : s.port.state ≠ .executing) (hb : requestOf bytes = none) :
    requestEnds bytes s = refuseFrame s := by
  rw [requestEnds, if_neg hs, hb]

theorem requestEnds_discarded (hs : s.port.state = .executing) :
    requestEnds bytes s = discardRequest s := if_pos hs

/-! ### Whole transactions -/

/-- The port with CS_N high, where it is high. -/
theorem port_high {p : Port} (h : p.link = .high) : { p with link := .high } = p := by
  rw [← h]

theorem length_frame (q : Request) : q.frame.length = q.payload.length + 3 := by
  simp only [Request.frame, withCrc, List.length_append, List.length_cons, List.length_nil]

/-- A well-formed frame is accepted (R195, R198). -/
theorem transaction_accepted (h : s.port.link = .high) (hs : s.port.state ≠ .executing)
    (hn : q.number ≠ 0) (hl : q.payload.length ≤ 60) : transaction (.whole q.frame) s
      = { s with port :=
          { state := .executing, request := some q, response := none, discard := false,
            link := .high, miso := List.replicate (q.payload.length + 3) 0 } } := by
  have hfirst : q.frame.head? ≠ some 0 := fun e => hn (Option.some.inj e)
  have hne : q.frame ≠ [] := List.cons_ne_nil _ _
  rw [← length_frame]
  exact (transaction_request h hne hfirst).trans (requestEnds_accepted hs hl)

/-- A frame that is not well formed is answered with BAD_FRAME, and FRAME_ERROR is raised (R195). -/
theorem transaction_refused (h : s.port.link = .high) (hs : s.port.state ≠ .executing)
    (hne : bytes ≠ []) (h0 : bytes.head? ≠ some 0) (hb : requestOf bytes = none) :
    transaction (.whole bytes) s = raise .portEvent 0
      { s with port := { s.port with
          state := .responseReady
          response := some { status := .badFrame, discarded := false, payload := [] }
          miso := List.replicate bytes.length 0 } } := by
  rw [transaction_request h hne h0, ← h]
  exact requestEnds_refused hs hb

/-- During an execution a request is discarded (R198). -/
theorem transaction_discarded (h : s.port.link = .high) (hs : s.port.state = .executing)
    (hne : bytes ≠ []) (h0 : bytes.head? ≠ some 0) : transaction (.whole bytes) s
      = { s with port := { s.port with
          discard := true, miso := List.replicate bytes.length 0 } } := by
  rw [transaction_request h hne h0, ← h]
  exact requestEnds_discarded hs

/-- No byte is no transaction (R194). -/
theorem transaction_noByte (h : s.port.link = .high) : transaction (.whole []) s = s := by
  rw [transaction_whole h, transaction_first h, clockBytes_none rfl, riseLink_none rfl]
  exact congrArg (fun p => { s with port := p }) (port_high h)

/-! ### Parts (log 7) -/

theorem transaction_opens (h : s.port.link = .high) (h0 : bytes.head? ≠ some 0) :
    transaction (.first bytes) s = { s with port := { s.port with
      link := .receiving bytes
      miso := if bytes = [] then s.port.miso else List.replicate bytes.length 0 } } := by
  rw [transaction_first h]
  split
  · next hb =>
    rw [hb, clockBytes_none rfl]
    rfl
  · next hb => rw [clockBytes_opens rfl hb h0]; rfl

theorem transaction_receives {got : List Byte} (hgot : got ≠ [])
    (h : s.port.link = .receiving got) : transaction (.next bytes) s
      = { s with port := { s.port with
          link := .receiving (got ++ bytes)
          miso := s.port.miso ++ List.replicate bytes.length 0 } } := by
  rw [transaction_next (by rw [h]; exact Link.noConfusion), clockBytes_receives h hgot]

/-- The last part ends as the whole of all bytes does. -/
theorem transaction_completes {got : List Byte} (hgot : got ≠ []) (h0 : got.head? ≠ some 0)
    (h : s.port.link = .receiving got) (hm : s.port.miso = List.replicate got.length 0) :
    transaction (.last bytes) s = transaction (.whole (got ++ bytes))
      { s with port := { s.port with link := .high } } := by
  have hne : got ++ bytes ≠ [] := List.append_ne_nil_of_left_ne_nil hgot bytes
  have hfirst : (got ++ bytes).head? ≠ some 0 := by
    rwa [List.head?_append_of_ne_nil _ hgot]
  rw [transaction_last (by rw [h]; exact Link.noConfusion), transaction_receives hgot h,
    riseLink_request rfl hne, transaction_request rfl hne hfirst, hm,
    List.replicate_append_replicate, List.length_append]

/-- Where no byte is complete, CS_N stands low as it does right after its fall. -/
theorem port_fallen {p : Port} (h : p.link = .receiving []) :
    ({ p with link := .high } : Port).fall = p := by
  rw [Port.fall, ← h]

theorem transaction_fallen (h : s.port.link = .receiving []) :
    transaction (.next bytes) s
        = transaction (.first bytes) { s with port := { s.port with link := .high } }
      ∧ transaction (.last bytes) s
        = transaction (.whole bytes) { s with port := { s.port with link := .high } } := by
  have hlow : s.port.link ≠ .high := by rw [h]; exact Link.noConfusion
  have hnext : transaction (.next bytes) s
      = transaction (.first bytes) { s with port := { s.port with link := .high } } := by
    rw [transaction_next hlow, transaction_first rfl, port_fallen h]
  exact ⟨hnext, by rw [transaction_last hlow, transaction_whole rfl, hnext]⟩

end Ends

/-- Settles O3: whole transactions by the port state and their bytes, then the parts by the link. -/
theorem requestTransactionsAreChecked : Obligations.RequestTransactionsAreChecked := by
  refine ⟨?accepted, ?refused, fun s bytes us hp h hs hne h0 => ?discarded,
    fun s us hp h => exec_requestFrame hp (transaction_noByte (s := elapse us s) h),
    fun s rest us => ?fetch, fun s bytes us hp h h0 => ?first, fun s got bytes us hp hgot h => ?next,
    fun s got bytes us hp hgot h0 h hm => ?last, fun s bytes us hp h => ?fallen,
    fun s bytes count us hp => ⟨fun h => ?notBegun, fun h => ?notEnded⟩⟩
  case accepted =>
    rintro s number payload head us hp h hs hn hl rfl
    exact exec_requestFrame hp
      (transaction_accepted (s := elapse us s) (q := ⟨number, payload⟩) h hs hn hl)
  case refused =>
    intro s bytes us hp h hs hne h0 hbad
    have hnone : requestOf bytes = none :=
      requestOf_eq_none.mpr fun q hl => hbad q.number q.payload _ hl rfl
    exact exec_requestFrame hp (transaction_refused (s := elapse us s) h hs hne h0 hnone)
  case discarded =>
    exact exec_requestFrame hp (transaction_discarded (s := elapse us s) h hs hne h0)
  case fetch => exact congrArg (eventAfter us · s) (transaction_fetch rest).1
  case first => exact exec_requestFrame hp (transaction_opens (s := elapse us s) h h0)
  case next => exact exec_requestFrame hp (transaction_receives (s := elapse us s) hgot h)
  case last =>
    exact exec_requestFrame_congr hp hp (transaction_completes (s := elapse us s) hgot h0 h hm)
  case fallen =>
    obtain ⟨hnext, hlast⟩ := transaction_fallen (s := elapse us s) (bytes := bytes) h
    exact ⟨exec_requestFrame_congr hp hp hnext, exec_requestFrame_congr hp hp hlast⟩
  case notBegun =>
    have hsame {part : Part (List Byte)} : part.begins = false →
        transaction part (elapse us s) = elapse us s := transaction_notBegun (s := elapse us s) h
    exact ⟨exec_requestFrame hp (hsame rfl), exec_requestFrame hp (hsame rfl),
      exec_fetch hp (hsame rfl), exec_fetch hp (hsame rfl)⟩
  case notEnded =>
    have hsame {part : Part (List Byte)} : part.begins = true →
        transaction part (elapse us s) = elapse us s := transaction_notEnded (s := elapse us s) h
    exact ⟨exec_requestFrame hp (hsame rfl), exec_requestFrame hp (hsame rfl),
      exec_fetch hp (hsame rfl), exec_fetch hp (hsame rfl)⟩

end Sys2Proof.Machine

/-! SUPPORT and the proof of O4. FETCH (R194, R197, R199, R200). -/

namespace Sys2Proof.Machine

-- One proof after the other: a proof that waits for an earlier one holds a thread and its stack.
set_option Elab.async false

/-! ### The frame of a FETCH (R197, R200) -/

/-- The held response in RESPONSE_READY, BUSY in EXECUTING, WRONG_STATE in IDLE (R197). -/
theorem fetchFrame_eq {p : Port} {head : List Byte}
    (h : (∃ r : Response, p.state = .responseReady ∧ p.response = some r ∧
        head = BitVec.ofNat 8 (r.status.code + if r.discarded then 128 else 0)
          :: BitVec.ofNat 8 r.payload.length :: r.payload)
      ∨ (p.state = .executing ∧ head = [1, 0])
      ∨ (p.state = .idle ∧ head = [8, 0])) : p.fetchFrame = head ++ [crc8 head] := by
  rcases h with ⟨r, hs, hr, rfl⟩ | ⟨hs, rfl⟩ | ⟨hs, rfl⟩
  · simp only [Port.fetchFrame, hs, hr]
    rfl
  · simp only [Port.fetchFrame, hs]
    rfl
  · simp only [Port.fetchFrame, hs]
    rfl

/-! ### The parts of a FETCH (log 7) -/

section Fetch
variable {s : State} {count : Nat}

theorem fetch_first (h : s.port.link = .high) : transaction (fetchBytes (.first count)) s
    = { s with port := { s.port with
        link := .fetching (if count = 0 then none else some (s.port.fetchFrame.drop count))
        miso := shifted count s.port.fetchFrame } } := by
  have hbytes : List.replicate (count + 1) (0 : Byte) = 0 :: List.replicate count 0 :=
    List.replicate_succ
  rw [fetchBytes, transaction_first h, hbytes, clockBytes_opensFetch rfl, List.length_replicate,
    clockFetch_eq rfl]
  rfl

theorem fetch_whole (h : s.port.link = .high) : transaction (fetchBytes (.whole count)) s
    = { s with port := { s.port with miso := shifted count s.port.fetchFrame } } := by
  have hfirst : transaction (.whole (List.replicate (count + 1) 0)) s
      = riseLink (transaction (fetchBytes (.first count)) s) := transaction_whole h
  rw [fetchBytes, hfirst, fetch_first h, riseLink_noRequest (.inr ⟨_, rfl⟩), ← h]

theorem fetch_next {rest : Option (List Byte)} (h : s.port.link = .fetching rest) :
    transaction (fetchBytes (.next count)) s = { s with port := { s.port with
      link := .fetching
        (if count = 0 then rest else some ((rest.getD s.port.fetchFrame).drop count))
      miso := s.port.miso ++ shifted count (rest.getD s.port.fetchFrame) } } := by
  rw [fetchBytes, transaction_next (by rw [h]; exact Link.noConfusion), clockBytes_fetches h,
    List.length_replicate, clockFetch_eq h]

/-- What is left of the frame is shifted out further (R194). -/
theorem fetch_continues {rest : List Byte} (h : s.port.link = .fetching (some rest)) :
    transaction (fetchBytes (.next count)) s = { s with port := { s.port with
      link := .fetching (some (rest.drop count))
      miso := s.port.miso ++ shifted count rest } } := by
  have hleft : (if count = 0 then some rest else some (rest.drop count))
      = some (rest.drop count) := by
    split
    · next hcount => rw [hcount, List.drop_zero]
    · rfl
  rw [fetch_next h, Option.getD_some, hleft]

/-- Nothing is left of a transaction that a warm reset ended (R199). -/
theorem fetch_ended (h : s.port.link = .ended) : transaction (fetchBytes (.next count)) s
    = { s with port := { s.port with miso := s.port.miso ++ List.replicate count 0 } } := by
  rw [fetchBytes, transaction_next (by rw [h]; exact Link.noConfusion), clockBytes_ended h,
    List.length_replicate]

/-- CS_N is low in a FETCH, and in a transaction that a warm reset ended. -/
theorem link_low (h : s.port.link = .ended ∨ ∃ rest, s.port.link = .fetching rest) :
    s.port.link ≠ .high := by
  rcases h with h | ⟨rest, h⟩ <;> rw [h] <;> exact Link.noConfusion

/-- The rise of CS_N after the last bytes has no effect but its own (R194). -/
theorem fetch_last (h : s.port.link = .ended ∨ ∃ rest, s.port.link = .fetching rest) {t : State}
    (ht : transaction (fetchBytes (.next count)) s = t) :
    transaction (fetchBytes (.last count)) s = { t with port := { t.port with link := .high } } := by
  subst ht
  rw [fetchBytes, fetchBytes, transaction_last (link_low h)]
  refine riseLink_noRequest ?_
  rw [transaction_next (link_low h)]
  exact noRequest_clockBytes h

/-- The bytes that a row brings after the first of a FETCH are ignored (R194). -/
theorem transaction_ignored {bytes : List Byte}
    (h : s.port.link = .ended ∨ ∃ rest, s.port.link = .fetching rest) :
    transaction (.next bytes) s = transaction (fetchBytes (.next bytes.length)) s
      ∧ transaction (.last bytes) s = transaction (fetchBytes (.last bytes.length)) s := by
  have hlow := link_low h
  have hnext : transaction (.next bytes) s
      = transaction (.next (List.replicate bytes.length 0)) s := by
    rw [transaction_next hlow, transaction_next hlow, clockBytes_ignored h]
  refine ⟨hnext, ?_⟩
  rw [fetchBytes, transaction_last hlow, transaction_last hlow, hnext]

end Fetch

/-- Settles O4: the frame by the port state, then the parts by the link. -/
theorem fetchShiftsOutFrameOfPortState : Obligations.FetchShiftsOutFrameOfPortState := by
  refine ⟨?frame, fun s rest count us hp h => ?rest, fun s count us hp h => ?ended,
    fun s t count us hp h ht => ?last, fun s bytes us h => ?ignored, fun s rest us => ?opens⟩
  case frame =>
    rintro s count us head frame hp rfl hhead
    rw [← fetchFrame_eq hhead]
    refine ⟨fun h => ⟨?_, ?_⟩, fun h => ?_⟩
    · exact exec_fetch hp (fetch_whole (s := elapse us s) h)
    · exact exec_fetch hp (fetch_first (s := elapse us s) h)
    · rw [List.append_assoc]
      exact exec_fetch hp (fetch_next (s := elapse us s) h)
  case rest =>
    rw [List.append_assoc]
    exact exec_fetch hp (fetch_continues (s := elapse us s) h)
  case ended => exact exec_fetch hp (fetch_ended (s := elapse us s) h)
  case last =>
    have hnext : exec (.fetch (.next count) us) s
        = .next (transaction (fetchBytes (.next count)) (elapse us s)) := exec_fetch hp rfl
    rw [hnext] at ht
    exact exec_fetch hp (fetch_last (s := elapse us s) h (Host.Outcome.next.inj ht))
  case ignored =>
    obtain ⟨hnext, hlast⟩ := transaction_ignored (s := elapse us s) (bytes := bytes) h
    exact ⟨eventAfter_congr hnext, eventAfter_congr hlast⟩
  case opens => exact congrArg (eventAfter us · s) (transaction_fetch rest).2

end Sys2Proof.Machine

/-! SUPPORT and the proof of O1. The queue: one equation of `step` per shape of it (log 1). -/

namespace Sys2Proof.Machine

-- One proof after the other: a proof that waits for an earlier one holds a thread and its stack.
set_option Elab.async false

/-- The command leaves the queue before it runs, so it meets the queue's rest. -/
theorem step_of_pending_cons {c : Instr} {rest : List Instr} {s : State}
    (h : s.pending = c :: rest) : step s = exec c { s with pending := rest } := by
  simp only [step, h]

theorem step_of_pending_nil {s : State} (h : s.pending = []) : step s = .next s := by
  simp only [step, h]

/-- Settles O1, by the two shapes of the queue. -/
theorem stepTakesFrontCommand : Obligations.StepTakesFrontCommand :=
  ⟨fun _ _ _ => step_of_pending_cons, fun _ => step_of_pending_nil⟩

end Sys2Proof.Machine
